-- ==== Sys2Proof/Word.lean ====
section
/-!
DEFINITION. The word types of the 2410: a byte (the unit of frames and of the message store), a two-byte number and a
four-byte number (R158: numbers of two or four bytes). Everything that reads or writes their byte order stands in
Sys2Proof/Machine/Ops.lean.
-/

namespace Sys2Proof

/-- A byte of a frame, of a payload or of a store block. -/
abbrev Byte := BitVec 8

/-- A 16-bit number: sequence numbers, epochs, notice numbers, CRCs. They wrap. -/
abbrev Half := BitVec 16

/-- A 32-bit number: fences, the time base, the software identity (its first byte is the highest). -/
abbrev Word := BitVec 32

end Sys2Proof
end

