-- ==== Sys2Proof/Syntax.lean ====
section
/-!
DEFINITION. The commands of the 2410: one constructor of Instr for each row of spec/opcode_table.json.

A REQUEST command carries the station, the tag and the payload bytes of a request frame, as the station sent them
(payload layouts: R160; notes/assumptions/1.md says what such a command stands for). The frame's kind is the row's
kind (R159) and its CRC is the one a good frame of those bytes has (R141). The payload is raw bytes because the part
itself tests its length and fields (R148 steps 4 and 5).

The other rows are events: at a link's receive line, at its transmitter, at a timer, at RESET_N, in a store block.
-/

namespace Sys2Proof

/-- Station A and station B. -/
inductive Station where
  | a | b
  deriving DecidableEq, Repr

/-- A strap pin's level (R137, R164). -/
inductive StrapPin where
  | low | high | unconnected
  deriving DecidableEq, Repr

/-- The four rate strap pins as sampled (R137): RATEA1, RATEA0, RATEB1, RATEB0. -/
structure StrapPins where
  rateA1 : StrapPin
  rateA0 : StrapPin
  rateB1 : StrapPin
  rateB0 : StrapPin
  deriving DecidableEq, Repr

/-- A bit of a stored block: bit `bit` of data byte `byte`, or a check bit (R29). The manual does not say how many check
bits a block has, so a check bit is named by any number (notes/assumptions/10.md). -/
inductive BitPlace where
  | data (byte : Fin 32) (bit : Fin 8)
  | check (number : Nat)
  deriving DecidableEq, Repr

/-- The commands. Every row of spec/opcode_table.json is one constructor. -/
inductive Instr where
  /-- JOIN (R125). Payload: K (2), mode (1), software identity (4). -/
  | join (x : Station) (tag : Byte) (payload : List Byte)
  /-- LEAVE (R127). Payload: none. -/
  | leave (x : Station) (tag : Byte) (payload : List Byte)
  /-- KEEPALIVE (R129). Payload: none. -/
  | keepalive (x : Station) (tag : Byte) (payload : List Byte)
  /-- IDENTIFY (R149). Payload: none. -/
  | identify (x : Station) (tag : Byte) (payload : List Byte)
  /-- INQUIRE with subject CHANNEL (R21). Payload: subject 01H, channel. -/
  | inquireChannel (x : Station) (tag : Byte) (payload : List Byte)
  /-- INQUIRE with subject STORE (R34). Payload: subject 03H. -/
  | inquireStore (x : Station) (tag : Byte) (payload : List Byte)
  /-- INQUIRE with subject LEASE (R104). Payload: subject 02H, entry. -/
  | inquireLease (x : Station) (tag : Byte) (payload : List Byte)
  /-- INQUIRE with subject STATION (R136). Payload: subject 04H. -/
  | inquireStation (x : Station) (tag : Byte) (payload : List Byte)
  /-- COLLECT (R113). Payload: maximum. -/
  | collect (x : Station) (tag : Byte) (payload : List Byte)
  /-- RAISE (R119). Payload: flag set (2). -/
  | raise (x : Station) (tag : Byte) (payload : List Byte)
  /-- ACCEPT (R120). Payload: flag set (2). -/
  | accept (x : Station) (tag : Byte) (payload : List Byte)
  /-- MASK (R121). Payload: mask (2). -/
  | mask (x : Station) (tag : Byte) (payload : List Byte)
  /-- OPEN (R10). Payload: channel, role, form, arrival option; for 'given' also D (1), Q (2), H (1), L (1). -/
  | open_ (x : Station) (tag : Byte) (payload : List Byte)
  /-- CLOSE (R14). Payload: channel, role. -/
  | close (x : Station) (tag : Byte) (payload : List Byte)
  /-- POST (R38). Payload: channel, options, data (0 to 62). -/
  | post (x : Station) (tag : Byte) (payload : List Byte)
  /-- SEGMENT FIRST (R43). Payload: channel, control 01H, declared total (2), data (0 to 60). -/
  | segmentFirst (x : Station) (tag : Byte) (payload : List Byte)
  /-- SEGMENT MIDDLE (R44). Payload: channel, control 02H, data (1 to 62). -/
  | segmentMiddle (x : Station) (tag : Byte) (payload : List Byte)
  /-- SEGMENT LAST (R45). Payload: channel, control 03H, data (1 to 62). -/
  | segmentLast (x : Station) (tag : Byte) (payload : List Byte)
  /-- ABANDON (R48). Payload: channel. -/
  | abandon (x : Station) (tag : Byte) (payload : List Byte)
  /-- FETCH in LEND mode (R56). Payload: channel, mode 01H. -/
  | fetchLend (x : Station) (tag : Byte) (payload : List Byte)
  /-- FETCH in PEEK mode (R57). Payload: channel, mode 02H. -/
  | fetchPeek (x : Station) (tag : Byte) (payload : List Byte)
  /-- READ (R62). Payload: channel, sequence number (2), offset (2). -/
  | read (x : Station) (tag : Byte) (payload : List Byte)
  /-- RETIRE (R63). Payload: channel, sequence number (2). -/
  | retire (x : Station) (tag : Byte) (payload : List Byte)
  /-- RETURN (R64). Payload: channel. -/
  | return_ (x : Station) (tag : Byte) (payload : List Byte)
  /-- PURGE (R66). Payload: channel. -/
  | purge (x : Station) (tag : Byte) (payload : List Byte)
  /-- DRAW (R74). Payload: channel, count, mode, spacing. -/
  | draw (x : Station) (tag : Byte) (payload : List Byte)
  /-- HALT (R82; R81 at arrival during a draw). Payload: none. -/
  | halt (x : Station) (tag : Byte) (payload : List Byte)
  /-- ACQUIRE (R92). Payload: entry, client, duration (2), wait (2). -/
  | acquire (x : Station) (tag : Byte) (payload : List Byte)
  /-- RENEW (R96). Payload: entry, client, fence (4), duration (2). -/
  | renew (x : Station) (tag : Byte) (payload : List Byte)
  /-- RELEASE (R97). Payload: entry, client, fence (4). -/
  | release (x : Station) (tag : Byte) (payload : List Byte)
  /-- CANCEL (R98). Payload: entry, client. -/
  | cancel (x : Station) (tag : Byte) (payload : List Byte)
  /-- FAULTS (R153). Payload: none. -/
  | faults (x : Station) (tag : Byte) (payload : List Byte)
  /-- CLEAR FAULTS (R155). Payload: none. -/
  | clearFaults (x : Station) (tag : Byte) (payload : List Byte)
  /-- FAULT POLICY (R156). Payload: for each of the nine kinds in code order, report flag and severity. -/
  | faultPolicy (x : Station) (tag : Byte) (payload : List Byte)
  /-- A request frame of unknown kind (R148 step 2). The kind is an operand. -/
  | unknownKindRequest (x : Station) (kind : Byte) (tag : Byte) (payload : List Byte)
  /-- A good character with byte `b` is received on link `x` (R138, R139). -/
  | receiveCharacter (x : Station) (b : Byte)
  /-- A broken character's line goes high before 20 bit times (R138). -/
  | characterError (x : Station)
  /-- A frame with this body (kind, tag, payload) and these two CRC bytes is complete on link `x`: its second CRC byte
  has arrived (R141). -/
  | frameComplete (x : Station) (body : List Byte) (crc : Half)
  /-- The idle line on link `x` exceeds 3 character times (R140). -/
  | gapLimitExpiry (x : Station)
  /-- Link `x`'s receive line has been low for 20 bit times (R143, R131). -/
  | lineBreak (x : Station)
  /-- The transmission of an item frame on link `x` ends (R78). -/
  | itemBoundary (x : Station)
  /-- The transmission of the frame being sent on link `x` ends (R144). -/
  | transmissionEnd (x : Station)
  /-- The spacing timer of station `x`'s draw expires (R78). -/
  | spacingExpiry (x : Station)
  /-- The segment timer of station `x`'s staging record on channel `c` reaches zero (R50). -/
  | segmentTimeout (x : Station) (c : Fin 8)
  /-- Station `x`'s keepalive timer reaches zero (R130). -/
  | keepaliveLapse (x : Station)
  /-- The hold timer of lease entry `e` reaches zero (R100). -/
  | holdLapse (e : Fin 16)
  /-- The wait timer of the waiter (`x`, `client`) of lease entry `e` reaches zero (R101). -/
  | waitExpiry (e : Fin 16) (x : Station) (client : Fin 8)
  /-- RESET_N goes low, or power comes on (R35), with the strap pins as sampled then (R137). -/
  | resetAssert (straps : StrapPins)
  /-- RESET_N rises (R35), with the strap pins as last sampled before the rise (R164). -/
  | resetRelease (straps : StrapPins)
  /-- The store initialisation completes (R35). -/
  | storeInitComplete
  /-- Bit errors arise in block `block`: each of these bits changes (R29, 2.3). -/
  | bitError (block : Fin 256) (places : List BitPlace)
  /-- Link `x`'s receive line has been high for a bit time after a break (R143). -/
  | breakEnd (x : Station)
  deriving DecidableEq, Repr

end Sys2Proof
end

