-- ==== Sys2Proof/Config.lean ====
section
/-!
DEFINITION. What the part fixes (capacities, limits and codes, each with the rule of spec/ that states it) and the
FREE VALUES: opaque constants without a body that stand for what the manual leaves open. Nothing in Lean can compute
them, so a claim that mentions one holds whatever its value is.
-/

namespace Sys2Proof.Config

/-- R7, R60: at most 8 messages of a channel are LENT. -/
abbrev lendWindow : Nat := 8
/-- R8, R37: the distance of next_seq from the oldest message at which a post is refused with FULL. -/
abbrev seqDistanceLimit : Nat := 32768
/-- R24: the data bytes of a block. -/
abbrev blockBytes : Nat := 32
/-- R7, R41: the greatest length of a message. -/
abbrev maxMessage : Nat := 512
/-- R40: the staging records of one station unit. -/
abbrev maxStaging : Nat := 2
/-- R43, R49: the segment timer, in ms. -/
abbrev segmentTime : Nat := 250
/-- R58, R77: the message bytes a FETCH reply or an item frame carries at most. -/
abbrev fetchBytes : Nat := 56
/-- R62: the message bytes a READ reply carries at most. -/
abbrev readBytes : Nat := 58
/-- R88: the waiters of one lease entry. -/
abbrev maxWaiters : Nat := 4
/-- R90: the waiters of one station over all entries. -/
abbrev maxWaits : Nat := 8
/-- R107: the places of a notice queue that regular entries may hold. -/
abbrev regularPlaces : Nat := 23
/-- R142: the frames an input queue holds. -/
abbrev inputFrames : Nat := 4
/-- R146: the entries of a reply cache. -/
abbrev cacheEntries : Nat := 8
/-- R33: where the health record's counts saturate. -/
abbrev healthLimit : Nat := 65535
/-- R150: where a fault count saturates, and R110 the drop count. -/
abbrev countLimit : Nat := 255
/-- R118: where a signal count saturates. -/
abbrev signalLimit : Nat := 15
/-- R35: the longest time, in ms from the rise of RESET_N, that the store initialisation takes. -/
abbrev initLimit : Nat := 2

/-- 11.1 and R139: the sync byte. -/
abbrev syncByte : Byte := 0xC3
/-- R149, R161: vendor code. -/
abbrev vendorCode : Half := 0x0B7C
/-- R149, R161: part code. -/
abbrev partCode : Half := 0x2410
/-- R149, R161: revision. -/
abbrev revision : Byte := 0x03

/-- The clock periods of one millisecond at 18.432 MHz (11.7). -/
abbrev clocksPerMs : Nat := 18432

/-- FREE VALUE (notes/assumptions/9.md). R29: a block with three or more wrong bits 'is classed by what its check bits
show, which may be any of the three classes'. Operands: the block's 32 bytes as stored and its wrong bits, numbered as
Sys2Proof.BitPlace.number numbers them. 0 is correct, 1 a single-bit error, any other number a double-bit error. -/
opaque manyBitClass : List Byte → List Nat → Nat

/-- FREE VALUE (notes/assumptions/9.md). The byte at a position (third operand) that the store's correction gives for a
block with three or more wrong bits which its check bits show as a single-bit error (R29, R30). -/
opaque miscorrectedByte : List Byte → List Nat → Nat → Byte

/-- FREE VALUE (notes/assumptions/5.md). Which of several events that have arrived is taken next, when the manual lets
either be taken first. Operand: the model's counter of free values. -/
opaque eventChoice : Nat → Nat

/-- FREE VALUE (notes/assumptions/13.md). Whether station A departs first when one event made both stations depart
with cause FAULT. Operand: the model's counter of free values. -/
opaque stationAFirst : Nat → Bool

/-- FREE VALUE (notes/assumptions/22.md). R35: whether the store initialisation has completed, at a moment before its
2 ms bound. Operand: the model's counter of free values. -/
opaque initCompletes : Nat → Bool

/-- FREE VALUE (notes/assumptions/12.md). The rank of a channel in the order in which the ends of several channels are
acted on at a JOIN or a LEAVE, which the manual leaves open (R17, R18). Operands: the model's counter of free values,
the channel's number. Lower ranks come first. -/
opaque channelRank : Nat → Nat → Nat

/-- FREE VALUE (notes/assumptions/24.md). Whether the staging record created last is abandoned first at a departure,
which the manual leaves open (R133 step 3). Operand: the model's counter of free values. -/
opaque lastStagingFirst : Nat → Bool

/-- FREE VALUE (notes/assumptions/33.md). Whether a peer that a REJOIN's departure makes depart with cause FAULT departs
before the JOIN goes on, and not after it (R126, R132). Operand: the model's counter of free values. -/
opaque peerDepartsBeforeJoin : Nat → Bool

end Sys2Proof.Config
end

