-- ==== Sys2Proof/Machine/State.lean ====
section
/-!
DEFINITION. The state of the 2410 as plain data, its reset value, and the two reason types of a step. Every structure
cites the rule of spec/ whose table it copies.
-/

namespace Sys2Proof.Machine

/-- The value of one thing for each station. -/
structure Pair (α : Type) where
  a : α
  b : α
  deriving DecidableEq, Repr

/-! ### Link interfaces (chapter 9) -/

/-- A request frame that has been received with a correct CRC (R142): its kind and tag, its payload, its CRC. Its length
byte is the payload length plus 2 (11.1). -/
structure Frame where
  kind : Byte
  tag : Byte
  payload : List Byte
  crc : Half
  deriving DecidableEq, Repr

/-- A frame the part sends (R144). The transmitter adds sync byte, length byte and CRC. -/
structure OutFrame where
  kind : Byte
  tag : Byte
  payload : List Byte
  deriving DecidableEq, Repr

/-- The receiver states of R139 with the bytes of the frame in reception. In `body` the number of body bytes still to
come is the length byte less the bytes kept. -/
inductive RxState where
  | hunt
  | length
  | body (len : Byte) (kept : List Byte)
  | check (len : Byte) (kept : List Byte) (crcHigh : Option Byte)
  deriving DecidableEq, Repr

/-- The receive side of a link interface (R138, R139, R143). -/
structure Receiver where
  state : RxState
  /-- The time base value when the last character was taken (9.2; notes/assumptions/16.md). -/
  lastCharacter : Word
  /-- A break has been detected and the line has not yet been high for a bit time (R143). -/
  inBreak : Bool
  deriving DecidableEq, Repr

/-- A frame in the transmitter's list (R144). -/
structure TxEntry where
  frame : OutFrame
  /-- The model's own mark: an item frame of the draw in flight, whose end is the item boundary of R78
  (notes/assumptions/19.md). -/
  drawItem : Bool
  deriving DecidableEq, Repr

/-- One link interface. The first frame of `tx` is the one being sent; `txClocks` is what its transmission still takes. -/
structure LinkInterface where
  rx : Receiver
  inQueue : List Frame
  tx : List TxEntry
  txClocks : Nat
  deriving DecidableEq, Repr

/-! ### Station units (chapters 3, 5, 7, 8, 9, 10) -/

inductive Presence where
  | absent | present
  deriving DecidableEq, Repr

inductive JoinMode where
  | resume | fresh
  deriving DecidableEq, Repr

/-- The departure causes (R123, R133). -/
inductive Cause where
  | left | lapsed | lineBreak | rejoin | fault
  deriving DecidableEq, Repr

/-- The station record (R123). -/
structure StationRecord where
  presence : Presence
  epoch : Half
  period : Nat
  keepaliveTimer : Option Nat
  identity : Word
  joinMode : Option JoinMode
  lastCause : Option Cause
  deriving DecidableEq, Repr

/-- A reply-cache entry (R146): the key of the request and the reply frame built for it. -/
structure CacheEntry where
  tag : Byte
  kind : Byte
  crc : Half
  reply : OutFrame
  deriving DecidableEq, Repr

/-- A staging record (R40). -/
structure Staging where
  channel : Fin 8
  total : Nat
  received : Nat
  blocks : List (Fin 256)
  damaged : Bool
  timer : Nat
  deriving DecidableEq, Repr

inductive DeliveryMode where
  | lend | peek
  deriving DecidableEq, Repr

/-- The phase of a draw (R75, R78). In SPACING the spacing timer has `left` ms to go. -/
inductive DrawPhase where
  | sending
  | spacing (left : Nat)
  deriving DecidableEq, Repr

/-- A draw context (R75), with the DRAW's request CRC, which keys its reply-cache entry (R86). -/
structure Draw where
  channel : Fin 8
  tag : Byte
  requestCrc : Half
  mode : DeliveryMode
  remaining : Nat
  spacing : Nat
  cursor : Option Half
  itemsSent : Nat
  /-- The halt-requested flag with the tag of the HALT that set it. -/
  haltTag : Option Byte
  phase : DrawPhase
  deriving DecidableEq, Repr

/-- The inbound signal set (R118). Bit f of `mask` is 1 when flag f is masked. -/
structure SignalSet where
  counts : Vector Nat 16
  mask : Half
  saturated : Bool
  deriving DecidableEq, Repr

inductive Role where
  | send | receive
  deriving DecidableEq, Repr

/-- The fault kinds, in code order (R151, R158). -/
inductive FaultKind where
  | crc | framing | overrun | unknownKind | malformed | notJoined | stagingExpired | noticeLoss | damagedDelivery
  deriving DecidableEq, Repr

/-- The notices (R112): kind, subject and detail. -/
inductive Notice where
  | peerJoined (epoch : Half) (identity : Word)
  | peerDeparted (cause : Cause) (epoch : Half)
  | channelOpened (c : Fin 8) (role : Role)
  | channelClosed (c : Fin 8) (role : Role)
  | arrival (c : Fin 8)
  | flow (c : Fin 8) (congested : Bool) (occupancy : Nat)
  | stagingExpired (c : Fin 8) (received total : Nat)
  | leaseGranted (e : Fin 16) (client : Fin 8) (fence : Word) (duration : Nat)
  | leaseLapsed (e : Fin 16) (client : Fin 8) (fence : Word)
  | leaseWaitExpired (e : Fin 16) (client : Fin 8)
  | signalsPending
  | fault (kind : FaultKind) (count : Nat)
  | overflow (dropped : Nat)
  deriving DecidableEq, Repr

inductive Severity where
  | advisory | severe
  deriving DecidableEq, Repr

/-- What the fault record holds for one kind (R150). -/
structure KindRecord where
  count : Nat
  reported : Bool
  severity : Severity
  deriving DecidableEq, Repr

/-- What a capture holds besides kind and time (R151): a frame header of 0 to 7 bytes, or a subject. -/
inductive CaptureInfo where
  | header (bytes : List Byte)
  | staging (c : Fin 8) (received total : Nat)
  | lostNotice (kind subject : Byte)
  | delivery (c : Fin 8) (seq : Half)
  deriving DecidableEq, Repr

/-- The first-fault capture (R150). -/
structure Capture where
  kind : FaultKind
  time : Word
  info : CaptureInfo
  further : Bool
  deriving DecidableEq, Repr

/-- The nine kinds' records, one field for each kind. -/
structure KindRecords where
  crc : KindRecord
  framing : KindRecord
  overrun : KindRecord
  unknownKind : KindRecord
  malformed : KindRecord
  notJoined : KindRecord
  stagingExpired : KindRecord
  noticeLoss : KindRecord
  damagedDelivery : KindRecord
  deriving DecidableEq, Repr

/-- The fault record (R150). -/
structure FaultRecord where
  kinds : KindRecords
  capture : Option Capture
  deriving DecidableEq, Repr

/-- One station unit. -/
structure StationUnit where
  record : StationRecord
  /-- R146: most recent first. -/
  cache : List CacheEntry
  staging : List Staging
  draw : Option Draw
  signals : SignalSet
  /-- R107: oldest first. -/
  notices : List Notice
  nextNotice : Half
  faults : FaultRecord
  deriving DecidableEq, Repr

/-! ### Channels (chapter 1) -/

inductive MsgState where
  | queued | lent
  deriving DecidableEq, Repr

/-- A message record (R7). -/
structure Message where
  seq : Half
  length : Nat
  blocks : List (Fin 256)
  state : MsgState
  redelivered : Bool
  damaged : Bool
  epoch : Half
  deriving DecidableEq, Repr

/-- An end of a channel (R1): who holds it, and whether it is dormant. -/
structure End where
  holder : Option Station
  dormant : Bool
  deriving DecidableEq, Repr

/-- A channel's parameters (R5). -/
structure Params where
  depth : Nat
  quota : Nat
  high : Nat
  low : Nat
  deriving DecidableEq, Repr

/-- A channel record (R1). -/
structure Channel where
  sender : End
  receiver : End
  arrivalOption : Bool
  params : Option Params
  nextSeq : Half
  queue : List Message
  reserved : Nat
  charged : Nat
  congested : Bool
  deriving DecidableEq, Repr

/-! ### The message store (chapter 2) -/

/-- The store's data bytes: (address, byte) pairs with rising addresses, address 32 * block + position. An unlisted
address reads 00H (R35), and no pair holds 00H. -/
abbrev Memory := List Host.Cell

/-- What a byte of the store that no pair lists reads as: R35's initial contents. -/
abbrev unlistedByte : Byte := 0x00

/-- The canonical form of a memory: addresses strictly rising from `least`, no pair equal to what an unlisted address
reads as. -/
def Memory.wfFrom : Nat → Memory → Bool
  | _, [] => true
  | least, (k, v) :: m => decide (least ≤ k) && decide (v ≠ unlistedByte) && Memory.wfFrom (k + 1) m

/-- The canonical form of a memory. -/
def Memory.wf (m : Memory) : Bool := Memory.wfFrom 0 m

/-- The last-uncorrectable record (R33). -/
structure LastUncorrectable where
  block : Fin 256
  channel : Fin 8
  staged : Bool
  seq : Half
  deriving DecidableEq, Repr

/-- The store health record (R33). -/
structure Health where
  corrected : Nat
  uncorrectable : Nat
  last : Option LastUncorrectable
  deriving DecidableEq, Repr

/-- The message store (R23, R33). `flips` lists the bits of blocks that are wrong since the block was last written: it
stands for the check bits, whose code the manual does not give (notes/assumptions/9.md). -/
structure Store where
  mem : Memory
  flips : List (Fin 256 × BitPlace)
  /-- The free pool, in ascending order. Its length is the free block count. -/
  freePool : List (Fin 256)
  health : Health
  deriving DecidableEq, Repr

/-! ### The lease table (chapter 6) -/

/-- The hold of a HELD entry (R87): holder, remaining time, granted duration. -/
structure Hold where
  station : Station
  client : Fin 8
  remaining : Nat
  granted : Nat
  deriving DecidableEq, Repr

/-- A waiter (R87): claimant, requested duration, remaining wait. -/
structure Waiter where
  station : Station
  client : Fin 8
  duration : Nat
  wait : Nat
  deriving DecidableEq, Repr

inductive Ending where
  | released | lapsed | revoked
  deriving DecidableEq, Repr

/-- A last-holder record (R87). -/
structure LastHolder where
  station : Station
  client : Fin 8
  fence : Word
  ending : Ending
  deriving DecidableEq, Repr

/-- A lease entry (R87). It is HELD exactly when `hold` is there. -/
structure LeaseEntry where
  hold : Option Hold
  fence : Word
  waiters : List Waiter
  last : Option LastHolder
  deriving DecidableEq, Repr

/-! ### The part -/

/-- In device reset (RESET_N low), initialising the store, or running (R35, R138). -/
inductive Phase where
  | inReset | initialising | running
  deriving DecidableEq, Repr

/-- The strap values a link interface has sampled (R137). -/
structure Straps where
  rate1 : Bool
  rate0 : Bool
  deriving DecidableEq, Repr

/-- The state of the 2410. `pending`, `severe` and `freeTick` are the model's own (notes/assumptions/19.md). -/
structure State where
  /-- The commands that wait, oldest first. -/
  pending : List Instr
  phase : Phase
  timeBase : Word
  straps : Pair Straps
  links : Pair LinkInterface
  units : Pair StationUnit
  channels : Vector Channel 8
  store : Store
  leases : Vector LeaseEntry 16
  /-- R90: the waiters of each station over all entries. -/
  waitCounts : Pair Nat
  /-- The stations whose departure with cause FAULT follows the event under way (R132). Empty between events. -/
  severe : List Station
  /-- The counter to which the free values are applied. -/
  freeTick : Nat
  deriving DecidableEq, Repr

/-! ### After device reset -/

/-- R139, R142, R144. -/
def resetLink : LinkInterface :=
  { rx := { state := .hunt, lastCharacter := 0, inBreak := false }, inQueue := [], tx := [], txClocks := 0 }

/-- R118: all counts 0, all 16 flags masked, indicator clear. -/
def resetSignals : SignalSet :=
  { counts := Vector.replicate 16 0, mask := 0xFFFF, saturated := false }

/-- R150: count 0, reported, ADVISORY. -/
def resetKind : KindRecord := { count := 0, reported := true, severity := .advisory }

/-- R150. -/
def resetFaults : FaultRecord :=
  { kinds :=
      { crc := resetKind, framing := resetKind, overrun := resetKind, unknownKind := resetKind,
        malformed := resetKind, notJoined := resetKind, stagingExpired := resetKind, noticeLoss := resetKind,
        damagedDelivery := resetKind }
    capture := none }

/-- R123. -/
def resetRecord : StationRecord :=
  { presence := .absent, epoch := 0, period := 0, keepaliveTimer := none, identity := 0, joinMode := none,
    lastCause := none }

/-- R40, R75, R107, R118, R123, R146, R150. -/
def resetUnit : StationUnit :=
  { record := resetRecord, cache := [], staging := [], draw := none, signals := resetSignals, notices := [],
    nextNotice := 0, faults := resetFaults }

/-- An end that no station holds (R1). -/
def resetEnd : End := { holder := none, dormant := false }

/-- R1. -/
def resetChannel : Channel :=
  { sender := resetEnd, receiver := resetEnd, arrivalOption := false, params := none, nextSeq := 0, queue := [],
    reserved := 0, charged := 0, congested := false }

/-- R33. -/
def resetHealth : Health := { corrected := 0, uncorrectable := 0, last := none }

/-- R35, R23: every block 00H with its check bits, every block in the free pool. -/
def resetStore : Store :=
  { mem := [], flips := [], freePool := List.finRange 256, health := resetHealth }

/-- R87. -/
def resetLease : LeaseEntry := { hold := none, fence := 0, waiters := [], last := none }

/-- The part with every piece of state at its value after device reset, in phase `phase`, with strap values `straps`;
the command queue and the free-value counter are given. -/
def resetState (phase : Phase) (straps : Pair Straps) (pending : List Instr) (freeTick : Nat) : State :=
  { pending := pending
    phase := phase
    timeBase := 0
    straps := straps
    links := ⟨resetLink, resetLink⟩
    units := ⟨resetUnit, resetUnit⟩
    channels := Vector.replicate 8 resetChannel
    store := resetStore
    leases := Vector.replicate 16 resetLease
    waitCounts := ⟨0, 0⟩
    severe := []
    freeTick := freeTick }

/-- The machine right after device reset: RESET_N has risen and the store initialisation has just completed, at time 0
(notes/assumptions/7.md), with all strap pins low (notes/assumptions/8.md). -/
def State.reset : State :=
  resetState .running ⟨⟨false, false⟩, ⟨false, false⟩⟩ [] 0

/-- The reasons a step can stop with a fault. There is none: the 2410 has no processor fault, and every command and
event of the manual leaves it running (INVENTORY.md, Faults). -/
inductive Fault where
  deriving DecidableEq, Repr

/-- The reasons a step can be refused. -/
inductive Refusal where
  /-- Raised by exec alone, for a command that has no meaning in the model yet. Safe: the model stops. No arm of exec
  raises it now. -/
  | notModelled (mnemonic : String)
  deriving DecidableEq, Repr

end Sys2Proof.Machine
end

