-- ==== Sys2Proof/Machine/Ops.lean ====
section
/-!
DEFINITION. The named operations over the state that every chapter shares: accessors, byte order and CRC, the store's
bytes, the transmitter, the reply cache, the notice queue and the fault record.
-/

namespace Sys2Proof

/-- The other station. -/
def Station.peer : Station → Station
  | .a => .b
  | .b => .a

namespace Machine

/-! ### Accessors -/

def Pair.get {α : Type} (p : Pair α) : Station → α
  | .a => p.a
  | .b => p.b

def Pair.set {α : Type} (p : Pair α) (x : Station) (v : α) : Pair α :=
  match x with
  | .a => { p with a := v }
  | .b => { p with b := v }

/-- The two stations, A first. -/
def bothStations : List Station := [.a, .b]

/-- The eight channels in ascending order. -/
def allChannels : List (Fin 8) := [0, 1, 2, 3, 4, 5, 6, 7]

/-- The sixteen lease entries in ascending order. -/
def allEntries : List (Fin 16) := [0, 1, 2, 3, 4, 5, 6, 7, 8, 9, 10, 11, 12, 13, 14, 15]

def unitOf (x : Station) (s : State) : StationUnit := s.units.get x
def linkOf (x : Station) (s : State) : LinkInterface := s.links.get x
def chanOf (c : Fin 8) (s : State) : Channel := s.channels[c]
def leaseOf (e : Fin 16) (s : State) : LeaseEntry := s.leases[e]

def setUnit (x : Station) (u : StationUnit) (s : State) : State := { s with units := s.units.set x u }
def setLink (x : Station) (l : LinkInterface) (s : State) : State := { s with links := s.links.set x l }
def setChan (c : Fin 8) (ch : Channel) (s : State) : State := { s with channels := s.channels.set c ch }
def setLease (e : Fin 16) (l : LeaseEntry) (s : State) : State := { s with leases := s.leases.set e l }
def setStore (st : Store) (s : State) : State := { s with store := st }
def setWaitCount (x : Station) (n : Nat) (s : State) : State := { s with waitCounts := s.waitCounts.set x n }
def setSevere (l : List Station) (s : State) : State := { s with severe := l }

/-- Station `x` is PRESENT (R123). -/
def isPresent (x : Station) (s : State) : Bool := (unitOf x s).record.presence == .present

/-! ### Byte order (R158) -/

/-- A two-byte number, high byte first. -/
def halfBytes (w : Half) : List Byte := [w.extractLsb' 8 8, w.extractLsb' 0 8]

/-- A four-byte number, high byte first. -/
def wordBytes (w : Word) : List Byte :=
  [w.extractLsb' 24 8, w.extractLsb' 16 8, w.extractLsb' 8 8, w.extractLsb' 0 8]

def byteOf (n : Nat) : Byte := BitVec.ofNat 8 n
def natBytes2 (n : Nat) : List Byte := halfBytes (BitVec.ofNat 16 n)

/-- A two-byte number from its bytes, high byte first. -/
def halfOf (high low : Byte) : Half := high ++ low

/-- A four-byte number from its bytes, high byte first. -/
def wordOf (b3 b2 b1 b0 : Byte) : Word := (b3 ++ b2 : Half) ++ (b1 ++ b0 : Half)

/-- A flag byte: 01H set, 00H clear. -/
def flagByte (b : Bool) : Byte := if b then 0x01 else 0x00

/-! ### The CRC (R141) -/

/-- One step of the register: the generator polynomial is 1021H, most significant bit first. -/
def crcShift (r : Half) : Half := if r.msb then (r <<< 1) ^^^ 0x1021 else r <<< 1

/-- One byte enters the register. -/
def crcByte (r : Half) (b : Byte) : Half :=
  crcShift (crcShift (crcShift (crcShift (crcShift (crcShift (crcShift (crcShift (r ^^^ (b ++ (0x00 : Byte) : Half)))))))))

/-- The CRC of a run of bytes; the register starts at FFFFH. -/
def crc16 (bytes : List Byte) : Half := bytes.foldl crcByte 0xFFFF

/-- The length byte of a frame: payload length plus 2 (11.1). -/
def lengthByte (payload : List Byte) : Byte := byteOf (payload.length + 2)

/-- R141: the CRC of a frame covers the length byte and the body. -/
def frameCrc (kind tag : Byte) (payload : List Byte) : Half :=
  crc16 (lengthByte payload :: kind :: tag :: payload)

/-- The good request frame of these bytes. -/
def requestFrame (kind tag : Byte) (payload : List Byte) : Frame :=
  { kind := kind, tag := tag, payload := payload, crc := frameCrc kind tag payload }

/-- R144, 11.1: the bytes of a frame the transmitter sends. -/
def wireBytes (f : OutFrame) : List Byte :=
  Config.syncByte :: lengthByte f.payload :: f.kind :: f.tag :: (f.payload ++ halfBytes (frameCrc f.kind f.tag f.payload))

/-- R151: the frame header a capture holds: length byte, kind, tag and first 4 payload bytes. -/
def headerBytes (f : Frame) : List Byte := lengthByte f.payload :: f.kind :: f.tag :: f.payload.take 4

/-! ### The store's bytes (R24, R35) -/

/-- One byte of the store. -/
def Memory.read : Memory → Nat → Byte
  | [], _ => unlistedByte
  | (k, v) :: m, a => if k = a then v else Memory.read m a

/-- Write one byte of the store, keeping the canonical form. -/
def Memory.write : Memory → Nat → Byte → Memory
  | [], a, v => if v = unlistedByte then [] else [(a, v)]
  | (k, w) :: m, a, v =>
    if a < k then (if v = unlistedByte then (k, w) :: m else (a, v) :: (k, w) :: m)
    else if a = k then (if v = unlistedByte then m else (k, v) :: m)
    else (k, w) :: Memory.write m a v

/-- Write bytes at consecutive addresses. -/
def Memory.writeAll : Memory → Nat → List Byte → Memory
  | m, _, [] => m
  | m, a, v :: vs => Memory.writeAll (Memory.write m a v) (a + 1) vs

/-- The first address of a block. -/
def blockBase (b : Fin 256) : Nat := Config.blockBytes * b.val

/-- The 32 bytes of a block as they stand. -/
def blockBytesOf (st : Store) (b : Fin 256) : List Byte :=
  (List.range Config.blockBytes).map fun i => Memory.read st.mem (blockBase b + i)

/-- R27: a block is written whole, with fresh check bits. -/
def writeBlock (b : Fin 256) (bytes : List Byte) (st : Store) : Store :=
  { st with
    mem := Memory.writeAll st.mem (blockBase b) bytes
    flips := st.flips.filter fun f => f.1 != b }

/-- The wrong bits of a block since it was last written. -/
def wrongBits (st : Store) (b : Fin 256) : List BitPlace :=
  (st.flips.filter fun f => f.1 == b).map (·.2)

/-- A number for each bit of a block: data bits 0 to 255, then the check bits. -/
def BitPlace.number : BitPlace → Nat
  | .data byte bit => 8 * byte.val + bit.val
  | .check n => 256 + n

/-- The bytes with one bit changed, when it is a data bit. -/
def flipBit (bytes : List Byte) : BitPlace → List Byte
  | .data byte bit => bytes.modify byte.val fun v => v ^^^ (1#8 <<< bit.val)
  | .check _ => bytes

/-- R29: the class of a block on reading. -/
inductive BlockClass where
  | correct | singleBit | doubleBit
  deriving DecidableEq, Repr

/-- R29: every error of one bit is a single-bit error and every error of two bits a double-bit error; with three or more
the class is a free value (notes/assumptions/9.md). -/
def classOf (st : Store) (b : Fin 256) : BlockClass :=
  match wrongBits st b with
  | [] => .correct
  | [_] => .singleBit
  | [_, _] => .doubleBit
  | bits =>
    match Config.manyBitClass (blockBytesOf st b) (bits.map BitPlace.number) with
    | 0 => .correct
    | 1 => .singleBit
    | _ => .doubleBit

/-- R30: the corrected bytes of a block classed as having a single-bit error. With three or more wrong bits they are a
free value. -/
def correctedBytes (st : Store) (b : Fin 256) : List Byte :=
  match wrongBits st b with
  | [p] => flipBit (blockBytesOf st b) p
  | bits =>
    (List.range Config.blockBytes).map
      (Config.miscorrectedByte (blockBytesOf st b) (bits.map BitPlace.number))

/-- R30, R33: the corrected count rises, saturating. -/
def countCorrected (st : Store) : Store :=
  { st with health := { st.health with corrected := min Config.healthLimit (st.health.corrected + 1) } }

/-- R31, R28, R33: the uncorrectable count rises, saturating, and the last-uncorrectable record is replaced. -/
def countUncorrectable (last : LastUncorrectable) (st : Store) : Store :=
  { st with
    health := { st.health with
                uncorrectable := min Config.healthLimit (st.health.uncorrectable + 1)
                last := some last } }

/-- R24: the blocks of a message of n bytes: max(1, ⌈n/32⌉). -/
def blocksNeeded (n : Nat) : Nat := max 1 ((n + 31) / 32)

/-- R23: the free block count. -/
def freeBlockCount (s : State) : Nat := s.store.freePool.length

/-- R25, R27: the store takes the k lowest-numbered free blocks and writes each with 00H. -/
def allocate (k : Nat) (st : Store) : List (Fin 256) × Store :=
  let taken := st.freePool.take k
  (taken,
    taken.foldl (fun st b => writeBlock b (List.replicate Config.blockBytes 0x00) st)
      { st with freePool := st.freePool.drop k })

/-- Put a block into the free pool, which stays in ascending order. -/
def insertBlock (b : Fin 256) : List (Fin 256) → List (Fin 256)
  | [] => [b]
  | c :: cs => if b < c then b :: c :: cs else if b = c then c :: cs else c :: insertBlock b cs

/-- R26: freeing returns blocks to the free pool. Their contents are neither cleared nor checked. -/
def freeBlocks (bs : List (Fin 256)) (st : Store) : Store :=
  { st with freePool := bs.foldr insertBlock st.freePool }

/-- R24, R27: the bytes of a block whose first byte is byte `base` of a message, with `data` placed from byte `off` of
the message on. -/
def placeBytes (old : List Byte) (base off : Nat) (data : List Byte) : List Byte :=
  (List.range Config.blockBytes).map fun i =>
    if off ≤ base + i ∧ base + i < off + data.length then data.getD (base + i - off) 0x00 else old.getD i 0x00

/-- R27, R28: write `data` into a message's blocks from byte `off` on, each block into which a byte falls whole. `base` is
the message byte that the first block of the list begins with. -/
def writeMessage (base off : Nat) (data : List Byte) : List (Fin 256) → Store → Store
  | [], st => st
  | b :: bs, st =>
    let st' :=
      if off < base + Config.blockBytes ∧ base < off + data.length then
        writeBlock b (placeBytes (blockBytesOf st b) base off data) st
      else st
    writeMessage (base + Config.blockBytes) off data bs st'

/-! ### The transmitter (R144) -/

/-- The clock periods of one bit at a link's rate: 18.432 MHz divided by the rate of R137. -/
def bitClocks (r : Straps) : Nat :=
  match r.rate1, r.rate0 with
  | false, false => 160
  | false, true => 80
  | true, false => 40
  | true, true => 20

/-- The clock periods a frame's transmission takes: 10 bits a character (R137), no idle between characters (R144). -/
def frameClocks (r : Straps) (f : OutFrame) : Nat := (f.payload.length + 6) * 10 * bitClocks r

/-- What the transmission of the first frame of a list takes. -/
def clocksOfFirst (r : Straps) : List TxEntry → Nat
  | [] => 0
  | t :: _ => frameClocks r t.frame

/-- Hand a frame to the transmitter of link `x`. It begins at once when the transmitter is idle. -/
def transmit (x : Station) (f : OutFrame) (drawItem : Bool) (s : State) : State :=
  let l := linkOf x s
  let clocks := if l.tx.isEmpty then frameClocks (s.straps.get x) f else l.txClocks
  setLink x { l with tx := l.tx ++ [{ frame := f, drawItem := drawItem }], txClocks := clocks } s

/-- R144: the first frame's transmission ends and the next one begins. -/
def shiftTransmitter (x : Station) (s : State) : State :=
  let l := linkOf x s
  setLink x { l with tx := l.tx.tail, txClocks := clocksOfFirst (s.straps.get x) l.tx.tail } s

/-! ### The reply cache (R146, R147) -/

/-- The entry that a request frame matches by tag, kind and request CRC. -/
def cacheMatch (x : Station) (f : Frame) (s : State) : Option CacheEntry :=
  (unitOf x s).cache.find? fun e => e.tag == f.tag && e.kind == f.kind && e.crc == f.crc

/-- R146: an entry becomes the most recent; an entry with the same tag is removed; the ninth is dropped. -/
def cacheInsert (e : CacheEntry) (cache : List CacheEntry) : List CacheEntry :=
  (e :: cache.filter fun old => old.tag != e.tag).take Config.cacheEntries

/-- Enter a reply in station `x`'s cache. -/
def enterCache (x : Station) (e : CacheEntry) (s : State) : State :=
  let u := unitOf x s
  setUnit x { u with cache := cacheInsert e u.cache } s

/-! ### Codes (R158, R159, R162) -/

def Station.code : Station → Byte
  | .a => 0x01
  | .b => 0x02

def stationByte : Option Station → Byte
  | none => 0x00
  | some .a => 0x01
  | some .b => 0x02

def Role.code : Role → Byte
  | .send => 0x01
  | .receive => 0x02

def Presence.code : Presence → Byte
  | .absent => 0x00
  | .present => 0x01

def joinModeByte : Option JoinMode → Byte
  | none => 0x00
  | some .resume => 0x01
  | some .fresh => 0x02

def Cause.code : Cause → Byte
  | .left => 0x01
  | .lapsed => 0x02
  | .lineBreak => 0x03
  | .rejoin => 0x04
  | .fault => 0x05

def causeByte : Option Cause → Byte
  | none => 0x00
  | some c => Cause.code c

def Ending.code : Ending → Byte
  | .released => 0x01
  | .lapsed => 0x02
  | .revoked => 0x03

def flowByte (congested : Bool) : Byte := if congested then 0x01 else 0x02

def Severity.code : Severity → Byte
  | .advisory => 0x01
  | .severe => 0x02

def FaultKind.code : FaultKind → Byte
  | .crc => 0x01
  | .framing => 0x02
  | .overrun => 0x03
  | .unknownKind => 0x04
  | .malformed => 0x05
  | .notJoined => 0x06
  | .stagingExpired => 0x07
  | .noticeLoss => 0x08
  | .damagedDelivery => 0x09

/-- The fault kinds in code order. -/
def allFaultKinds : List FaultKind :=
  [.crc, .framing, .overrun, .unknownKind, .malformed, .notJoined, .stagingExpired, .noticeLoss, .damagedDelivery]

/-- The reply statuses (R148, R162). -/
inductive Status where
  | ok | queued | notJoined | unknownKind | badLength | badField | notOpen | alreadyOpen | roleTaken | sameStation
  | mismatch | full | quota | noBlocks | stagingLimit | stagingBusy | noStaging | overlength | short | empty | window
  | notLent | busy | alreadyHeld | alreadyWaiting | waitFull | waitLimit | notWaiting | stale | peerAbsent | noDraw
  deriving DecidableEq, Repr

def Status.code : Status → Byte
  | .ok => 0x00
  | .queued => 0x01
  | .notJoined => 0x02
  | .unknownKind => 0x03
  | .badLength => 0x04
  | .badField => 0x05
  | .notOpen => 0x06
  | .alreadyOpen => 0x07
  | .roleTaken => 0x08
  | .sameStation => 0x09
  | .mismatch => 0x0A
  | .full => 0x0B
  | .quota => 0x0C
  | .noBlocks => 0x0D
  | .stagingLimit => 0x0E
  | .stagingBusy => 0x0F
  | .noStaging => 0x10
  | .overlength => 0x11
  | .short => 0x12
  | .empty => 0x13
  | .window => 0x14
  | .notLent => 0x15
  | .busy => 0x16
  | .alreadyHeld => 0x17
  | .alreadyWaiting => 0x18
  | .waitFull => 0x19
  | .waitLimit => 0x1A
  | .notWaiting => 0x1B
  | .stale => 0x1C
  | .peerAbsent => 0x1D
  | .noDraw => 0x1E

/-! ### Notices (chapter 7) -/

/-- The notice kind's code (R158). -/
def Notice.kindCode : Notice → Byte
  | .peerJoined _ _ => 0x01
  | .peerDeparted _ _ => 0x02
  | .channelOpened _ _ => 0x03
  | .channelClosed _ _ => 0x04
  | .arrival _ => 0x05
  | .flow _ _ _ => 0x06
  | .stagingExpired _ _ _ => 0x07
  | .leaseGranted _ _ _ _ => 0x08
  | .leaseLapsed _ _ _ => 0x09
  | .leaseWaitExpired _ _ => 0x0A
  | .signalsPending => 0x0B
  | .fault _ _ => 0x0C
  | .overflow _ => 0x0D

/-- R163: the subject byte of a lease notice: the entry plus 16 times the client. -/
def leaseSubject (e : Fin 16) (client : Fin 8) : Byte := byteOf (e.val + 16 * client.val)

/-- The subject byte (R112, R163). -/
def Notice.subject : Notice → Byte
  | .channelOpened c _ => byteOf c.val
  | .channelClosed c _ => byteOf c.val
  | .arrival c => byteOf c.val
  | .flow c _ _ => byteOf c.val
  | .stagingExpired c _ _ => byteOf c.val
  | .leaseGranted e client _ _ => leaseSubject e client
  | .leaseLapsed e client _ => leaseSubject e client
  | .leaseWaitExpired e client => leaseSubject e client
  | .fault k _ => FaultKind.code k
  | .peerJoined _ _ => 0x00
  | .peerDeparted _ _ => 0x00
  | .signalsPending => 0x00
  | .overflow _ => 0x00

/-- The detail bytes that the kind uses (R112, R163). -/
def Notice.detail : Notice → List Byte
  | .peerJoined epoch identity => halfBytes epoch ++ wordBytes identity
  | .peerDeparted cause epoch => Cause.code cause :: halfBytes epoch
  | .channelOpened _ role => [Role.code role]
  | .channelClosed _ role => [Role.code role]
  | .arrival _ => []
  | .flow _ congested occupancy => [flowByte congested, byteOf occupancy]
  | .stagingExpired _ received total => natBytes2 received ++ natBytes2 total
  | .leaseGranted _ _ fence duration => wordBytes fence ++ natBytes2 duration
  | .leaseLapsed _ _ fence => wordBytes fence
  | .leaseWaitExpired _ _ => []
  | .signalsPending => []
  | .fault _ count => [byteOf count]
  | .overflow dropped => [byteOf dropped]

/-- A list of bytes brought to a length with 00H (R158: bytes that are not used are 00H). -/
def padTo (n : Nat) (bytes : List Byte) : List Byte := (bytes ++ List.replicate n 0x00).take n

/-- R163: the 10 bytes of a notice record. -/
def noticeRecord (number : Half) (n : Notice) : List Byte :=
  halfBytes number ++ [Notice.kindCode n, Notice.subject n] ++ padTo 6 (Notice.detail n)

/-- Whether an entry is OVERFLOW; every other kind is regular (R107). -/
def Notice.isOverflow : Notice → Bool
  | .overflow _ => true
  | _ => false

/-- R109: an offer and a pending entry are of one kind that coalesces and have the same key. -/
def Notice.coalesces : Notice → Notice → Bool
  | .arrival c, .arrival d => c == d
  | .flow c _ _, .flow d _ _ => c == d
  | .signalsPending, .signalsPending => true
  | .fault _ _, .fault _ _ => true
  | _, _ => false

/-- R109: what the pending entry becomes: a FLOW entry takes the offer's state and occupancy, the others stay. -/
def Notice.merged (offer pending : Notice) : Notice :=
  match offer with
  | .flow _ _ _ => offer
  | _ => pending

/-- R110 step 2: the drop is counted in the OVERFLOW entry, which is appended if there is none. -/
def countDrop (q : List Notice) : List Notice :=
  if q.any Notice.isOverflow then
    q.map fun n =>
      match n with
      | .overflow k => .overflow (min Config.countLimit (k + 1))
      | m => m
  else q ++ [.overflow 1]

/-- What the notice queue of a PRESENT station does with an offer (R108 steps 2 and 3). -/
inductive OfferFate where
  | coalesced (q : List Notice)
  | appended (q : List Notice)
  | dropped (q : List Notice)
  deriving DecidableEq, Repr

def OfferFate.queue : OfferFate → List Notice
  | .coalesced q => q
  | .appended q => q
  | .dropped q => q

def OfferFate.isDropped : OfferFate → Bool
  | .dropped _ => true
  | _ => false

/-- R108, R109, R110. -/
def offerFate (n : Notice) (q : List Notice) : OfferFate :=
  if q.any (Notice.coalesces n) then
    .coalesced (q.map fun m => if Notice.coalesces n m then Notice.merged n m else m)
  else if q.any Notice.isOverflow || decide (Config.regularPlaces ≤ q.length) then .dropped (countDrop q)
  else .appended (q ++ [n])

def setNotices (x : Station) (q : List Notice) (s : State) : State :=
  setUnit x { unitOf x s with notices := q } s

/-- R152 step 4: a FAULT offer. A dropped FAULT is counted and records no fault (R110). -/
def offerFault (x : Station) (k : FaultKind) (count : Nat) (s : State) : State :=
  if isPresent x s then setNotices x (OfferFate.queue (offerFate (.fault k count) (unitOf x s).notices)) s else s

/-! ### The fault record (chapter 10) -/

def KindRecords.get (r : KindRecords) : FaultKind → KindRecord
  | .crc => r.crc
  | .framing => r.framing
  | .overrun => r.overrun
  | .unknownKind => r.unknownKind
  | .malformed => r.malformed
  | .notJoined => r.notJoined
  | .stagingExpired => r.stagingExpired
  | .noticeLoss => r.noticeLoss
  | .damagedDelivery => r.damagedDelivery

def KindRecords.set (r : KindRecords) (k : FaultKind) (v : KindRecord) : KindRecords :=
  match k with
  | .crc => { r with crc := v }
  | .framing => { r with framing := v }
  | .overrun => { r with overrun := v }
  | .unknownKind => { r with unknownKind := v }
  | .malformed => { r with malformed := v }
  | .notJoined => { r with notJoined := v }
  | .stagingExpired => { r with stagingExpired := v }
  | .noticeLoss => { r with noticeLoss := v }
  | .damagedDelivery => { r with damagedDelivery := v }

/-- R152 step 3: the capture is filled, or its further-faults flag is set. -/
def captureFault (k : FaultKind) (time : Word) (info : CaptureInfo) : Option Capture → Option Capture
  | none => some { kind := k, time := time, info := info, further := false }
  | some c => some { c with further := true }

/-- R152 step 5: the station's departure is to follow the event under way. -/
def markSevere (x : Station) (s : State) : State :=
  if s.severe.contains x then s else setSevere (s.severe ++ [x]) s

/-- R152: a fault of kind `k` is recorded for station `x`. -/
def recordFault (x : Station) (k : FaultKind) (info : CaptureInfo) (s : State) : State :=
  let u := unitOf x s
  let r := KindRecords.get u.faults.kinds k
  let count := min Config.countLimit (r.count + 1)
  let kinds := KindRecords.set u.faults.kinds k { r with count := count }
  if r.reported then
    let s1 :=
      setUnit x
        { u with faults := { kinds := kinds, capture := captureFault k s.timeBase info u.faults.capture } } s
    let s2 := offerFault x k count s1
    if r.severity == .severe && isPresent x s2 then markSevere x s2 else s2
  else setUnit x { u with faults := { u.faults with kinds := kinds } } s

/-- R108, R110: a notice other than FAULT is offered to station `x`. A drop records a NOTICE_LOSS fault. -/
def offer (x : Station) (n : Notice) (s : State) : State :=
  if isPresent x s then
    let fate := offerFate n (unitOf x s).notices
    let s1 := setNotices x (OfferFate.queue fate) s
    if OfferFate.isDropped fate then
      recordFault x .noticeLoss (.lostNotice (Notice.kindCode n) (Notice.subject n)) s1
    else s1
  else s

/-- R111: a pending entry is withdrawn. -/
def withdraw (x : Station) (n : Notice) (s : State) : State :=
  setNotices x ((unitOf x s).notices.filter fun m => !(Notice.coalesces n m)) s

end Machine

end Sys2Proof
end

