-- ==== Sys2Proof/Machine/Flags.lean ====
section
/-!
DEFINITION. What the manual derives from the state instead of storing it: channel states, occupancy and the congestion
test, counts of messages, flag bytes, signal tests, the output pins, and the times of R137.
-/

namespace Sys2Proof.Machine

/-! ### Ends and channel states (R2, R4) -/

def endHeld (e : End) : Bool := e.holder.isSome

/-- The station holds the end, active or dormant. -/
def holdsEnd (x : Station) (e : End) : Bool := e.holder == some x

/-- R4, R36: the station holds the end, active. -/
def holdsActive (x : Station) (e : End) : Bool := holdsEnd x e && !e.dormant

/-- The holder of an end that is held and active (R20, R39). -/
def activeHolder (e : End) : Option Station := if e.dormant then none else e.holder

def endOf (role : Role) (ch : Channel) : End :=
  match role with
  | .send => ch.sender
  | .receive => ch.receiver

def Role.other : Role → Role
  | .send => .receive
  | .receive => .send

/-- The channel states of R2. -/
inductive ChannelState where
  | closed | senderOnly | receiverOnly | opened
  deriving DecidableEq, Repr

/-- R2. -/
def channelState (ch : Channel) : ChannelState :=
  match endHeld ch.sender, endHeld ch.receiver with
  | false, false => .closed
  | true, false => .senderOnly
  | false, true => .receiverOnly
  | true, true => .opened

def ChannelState.code : ChannelState → Byte
  | .closed => 0x00
  | .senderOnly => 0x01
  | .receiverOnly => 0x02
  | .opened => 0x03

/-! ### Occupancy and congestion (R9, R19) -/

def isQueued (m : Message) : Bool := m.state == .queued
def isLent (m : Message) : Bool := m.state == .lent

def queuedCount (ch : Channel) : Nat := ch.queue.countP isQueued
def lentCount (ch : Channel) : Nat := ch.queue.countP isLent

/-- R9: QUEUED messages plus LENT messages plus reserved. -/
def occupancy (ch : Channel) : Nat := ch.queue.length + ch.reserved

/-- R19: the value the congested flag takes, when it flips. -/
def congestionFlip (p : Params) (o : Nat) (congested : Bool) : Option Bool :=
  if !congested && decide (p.high ≤ o) then some true
  else if congested && decide (o ≤ p.low) then some false
  else none

/-- R5. -/
def paramsValid (p : Params) : Bool :=
  decide (1 ≤ p.depth ∧ p.depth ≤ 32 ∧ 1 ≤ p.quota ∧ p.quota ≤ 256 ∧ 1 ≤ p.high ∧ p.high ≤ p.depth ∧ p.low < p.high)

/-- The blocks a list of messages holds. -/
def blocksOf (ms : List Message) : List (Fin 256) := ms.flatMap (·.blocks)

/-! ### Flag bytes and flag sets (R158) -/

/-- Message flags: redelivered in bit 0, damaged in bit 1, truncated (draw items only) in bit 2. -/
def messageFlags (redelivered damaged truncated : Bool) : Byte :=
  (if redelivered then 0x01 else 0x00) ||| (if damaged then 0x02 else 0x00) ||| (if truncated then 0x04 else 0x00)

/-- Flag f is named in a flag set. -/
def named (flags : Half) (f : Nat) : Bool := flags.getLsbD f

/-- The flag set of the flags a test holds for. -/
def flagSet (test : Nat → Bool) : Half :=
  (List.range 16).foldl (fun w f => if test f then w ||| (1#16 <<< f) else w) 0

/-- The count of a flag. -/
def signalCount (g : SignalSet) (f : Nat) : Nat := g.counts.toList.getD f 0

/-- R119, R120: an unmasked flag has a non-zero count. -/
def anyUnmasked (g : SignalSet) : Bool :=
  (List.range 16).any fun f => !(named g.mask f) && signalCount g f != 0

/-- The flags with non-zero counts (R121). -/
def nonZeroFlags (g : SignalSet) : Half := flagSet fun f => signalCount g f != 0

/-- R158: the 16 counts of an ACCEPT reply in eight bytes, two flags a byte, the even one in the high four bits. -/
def countBytes (counts : List Nat) : List Byte :=
  (List.range 8).map fun i => byteOf (16 * counts.getD (2 * i) 0 + counts.getD (2 * i + 1) 0)

/-! ### Sequence numbers (R8, R37) -/

/-- The distance of next_seq from the oldest message, counted modulo 65,536. -/
def seqDistance (oldest next : Half) : Nat := (next - oldest).toNat

/-- R37 condition 1: the channel has no place, or the sequence distance limit is reached. -/
def channelFull (p : Params) (ch : Channel) : Bool :=
  decide (p.depth ≤ occupancy ch) ||
    match ch.queue with
    | [] => false
    | m :: _ => decide (Config.seqDistanceLimit ≤ seqDistance m.seq ch.nextSeq)

/-! ### Leases -/

/-- R89: no further grant can be made on the entry. -/
def exhausted (l : LeaseEntry) : Bool := l.fence == 0xFFFFFFFF

/-- (x, client) holds the entry. -/
def holdsLease (x : Station) (client : Fin 8) (l : LeaseEntry) : Bool :=
  match l.hold with
  | none => false
  | some h => h.station == x && h.client == client

def isWaiter (x : Station) (client : Fin 8) (w : Waiter) : Bool := w.station == x && w.client == client

/-! ### Output pins (R116, R144, R164) -/

/-- R116: the attention line is asserted exactly while the station is PRESENT and its notice queue is non-empty. -/
def attentionAsserted (x : Station) (s : State) : Bool :=
  isPresent x s && !(unitOf x s).notices.isEmpty

/-- The level of pin ATTNX_N, active low. -/
def attentionPin (x : Station) (s : State) : Bool := !(attentionAsserted x s)

/-- R137: a character on the line: start bit (low), 8 data bits least significant first, stop bit (high). -/
def characterBits (b : Byte) : List Bool :=
  false :: ((List.range 8).map fun i => b.getLsbD i) ++ [true]

/-- What the transmitter of link `x` is sending, as levels of its transmit line; an empty list is the idle line, high
(R144, R164). -/
def transmitLine (x : Station) (s : State) : List Bool :=
  match (linkOf x s).tx with
  | [] => []
  | t :: _ => (wireBytes t.frame).flatMap characterBits

/-! ### Link rates (R137) -/

/-- R164: a strap pin left open reads low. -/
def StrapPin.level : StrapPin → Bool
  | .high => true
  | .low => false
  | .unconnected => false

/-- R137: the strap values the link interfaces keep. -/
def sampleStraps (p : StrapPins) : Pair Straps :=
  { a := { rate1 := StrapPin.level p.rateA1, rate0 := StrapPin.level p.rateA0 }
    b := { rate1 := StrapPin.level p.rateB1, rate0 := StrapPin.level p.rateB0 } }

/-- R149: a link's strap pair as one byte, 2 × RATEx1 + RATEx0. -/
def strapByte (r : Straps) : Byte := byteOf ((if r.rate1 then 2 else 0) + (if r.rate0 then 1 else 0))

/-- The bit rate of a link, in bit/s. -/
def bitRate (r : Straps) : Nat :=
  match r.rate1, r.rate0 with
  | false, false => 115200
  | false, true => 230400
  | true, false => 460800
  | true, true => 921600

/-- The gap limit, 3 character times, in clock periods (R140). -/
def gapLimitClocks (r : Straps) : Nat := 3 * 10 * bitClocks r

/-- The shortest break, 20 bit times, in clock periods (R143). -/
def breakClocks (r : Straps) : Nat := 20 * bitClocks r

/-! ### Station unit tests -/

/-- R138: the links take characters. -/
def isRunning (s : State) : Bool := s.phase == .running

/-- R145: the station unit may take a frame: no draw is in flight and every frame in the transmitter's list has begun
transmission. -/
def mayTake (x : Station) (s : State) : Bool :=
  (unitOf x s).draw.isNone && decide ((linkOf x s).tx.length ≤ 1)

/-- R136: the channel ends a station holds. -/
def endsHeld (x : Station) (s : State) : Nat :=
  (allChannels.filter fun c => holdsEnd x (chanOf c s).sender).length +
    (allChannels.filter fun c => holdsEnd x (chanOf c s).receiver).length

/-- The station's staging record on a channel. -/
def stagingOn (x : Station) (c : Fin 8) (s : State) : Option Staging :=
  (unitOf x s).staging.find? fun r => r.channel == c

end Sys2Proof.Machine
end

