-- ==== Sys2Proof/Machine/DeliveryOps.lean ====
section
/-!
DEFINITION. Reading message bytes out of the store for a delivery (R29 to R32) and for a merge read (R28).
-/

namespace Sys2Proof.Machine

/-- One block is read for a delivery of message `seq` of channel `c`: the store after it, the bytes delivered, and whether
a double-bit error was found (R29, R30, R31). -/
def readBlock (c : Fin 8) (seq : Half) (b : Fin 256) (st : Store) : Store × List Byte × Bool :=
  match classOf st b with
  | .correct => (st, blockBytesOf st b, false)
  | .singleBit =>
    let bytes := correctedBytes st b
    (countCorrected (writeBlock b bytes st), bytes, false)
  | .doubleBit =>
    (countUncorrectable { block := b, channel := c, staged := false, seq := seq } st, blockBytesOf st b, true)

/-- Blocks are read in byte order, each once. -/
def readBlocks (c : Fin 8) (seq : Half) : List (Fin 256) → Store → Store × List Byte × Bool
  | [], st => (st, [], false)
  | b :: bs, st =>
    let (st1, bytes, bad) := readBlock c seq b st
    let (st2, more, worse) := readBlocks c seq bs st1
    (st2, bytes ++ more, bad || worse)

/-- R29: the blocks that hold at least one of the `n` bytes from byte `off` on. -/
def blocksSpanned (blocks : List (Fin 256)) (off n : Nat) : List (Fin 256) :=
  if n = 0 then []
  else (blocks.drop (off / Config.blockBytes)).take
    ((off + n - 1) / Config.blockBytes - off / Config.blockBytes + 1)

/-- R31: the damaged flag of the message record. -/
def markDamaged (seq : Half) (ch : Channel) : Channel :=
  { ch with queue := ch.queue.map fun m => if m.seq = seq then { m with damaged := true } else m }

/-- The delivery of `n` bytes from byte `off` of a message: the state after the reads, the bytes handed out, and whether
a double-bit error was found. The message's damaged flag is then set. -/
def deliver (c : Fin 8) (m : Message) (off n : Nat) (s : State) : State × List Byte × Bool :=
  let (st, bytes, bad) := readBlocks c m.seq (blocksSpanned m.blocks off n) s.store
  let s1 := setStore st s
  let s2 := if bad then setChan c (markDamaged m.seq (chanOf c s1)) s1 else s1
  (s2, (bytes.drop (off % Config.blockBytes)).take n, bad)

/-- R32: a delivery that found a double-bit error records one DAMAGED_DELIVERY fault. -/
def recordDamage (x : Station) (c : Fin 8) (seq : Half) (bad : Bool) (s : State) : State :=
  if bad then recordFault x .damagedDelivery (.delivery c seq) s else s

/-- R56, R59: the oldest QUEUED message becomes LENT. -/
def lendFirst : List Message → List Message
  | [] => []
  | m :: ms => if isQueued m then { m with state := .lent } :: ms else m :: lendFirst ms

/-- R59: the ARRIVAL for the channel is withdrawn from the queue of the receiver end's holder. -/
def withdrawArrival (c : Fin 8) (s : State) : State :=
  match (chanOf c s).receiver.holder with
  | none => s
  | some y => withdraw y (.arrival c) s

/-- R56, R59: a lend, with the withdrawal when no QUEUED message remains. -/
def lend (c : Fin 8) (s : State) : State :=
  let ch := chanOf c s
  let s1 := setChan c { ch with queue := lendFirst ch.queue } s
  if (chanOf c s1).queue.any isQueued then s1 else withdrawArrival c s1

/-- R28: the merge read of a staged block: the store after it, the bytes to merge into, and whether a double-bit error was
found. -/
def mergeRead (c : Fin 8) (b : Fin 256) (st : Store) : Store × List Byte × Bool :=
  match classOf st b with
  | .correct => (st, blockBytesOf st b, false)
  | .singleBit => (countCorrected st, correctedBytes st b, false)
  | .doubleBit =>
    (countUncorrectable { block := b, channel := c, staged := true, seq := 0 } st, blockBytesOf st b, true)

/-- R28: a segment's bytes are written into the staged blocks from byte `off` on. A block entered inside is merge-read
first and rewritten whole. The Bool says whether the merge read found a double-bit error. -/
def writeSegment (c : Fin 8) (blocks : List (Fin 256)) (off : Nat) (data : List Byte) (st : Store) : Store × Bool :=
  if off % Config.blockBytes = 0 then (writeMessage 0 off data blocks st, false)
  else
    match blocks[off / Config.blockBytes]? with
    | none => (writeMessage 0 off data blocks st, false)
    | some b =>
      let (st1, bytes, bad) := mergeRead c b st
      (writeMessage 0 off data blocks (writeBlock b bytes st1), bad)

end Sys2Proof.Machine
end

