-- ==== Sys2Proof/Machine/ChannelOps.lean ====
section
/-!
DEFINITION. The channel controller's shared operations: congestion, appending, abandoning a staging record, returning
lent messages, closing an end, and what a departure or a JOIN does to a station's ends (chapters 1 and 3).
-/

namespace Sys2Proof.Machine

/-- R20: a FLOW offer to the holder of the sender end, if that end is held and active. -/
def offerFlow (c : Fin 8) (congested : Bool) (s : State) : State :=
  match activeHolder (chanOf c s).sender with
  | none => s
  | some y => offer y (.flow c congested (occupancy (chanOf c s))) s

/-- R19, R20: the congested flag is evaluated against the occupancy as it stands; a flip offers FLOW. -/
def evalCongestion (c : Fin 8) (s : State) : State :=
  let ch := chanOf c s
  match ch.params with
  | none => s
  | some p =>
    match congestionFlip p (occupancy ch) ch.congested with
    | none => s
    | some v => offerFlow c v (setChan c { ch with congested := v } s)

/-- R39: ARRIVAL is offered to the holder of a receiver end that is held and active with its arrival option on. -/
def offerArrival (c : Fin 8) (s : State) : State :=
  let ch := chanOf c s
  if ch.arrivalOption then
    match activeHolder ch.receiver with
    | none => s
    | some y => offer y (.arrival c) s
  else s

/-- R6, R7: a message record is appended at the tail and next_seq is incremented. -/
def appendMessage (m : Message) (ch : Channel) : Channel :=
  { ch with queue := ch.queue ++ [m], nextSeq := ch.nextSeq + 1 }

/-- R47 less its congestion evaluation: the record's blocks are freed, its reservation and charge dropped, and the
record removed with its timer. -/
def dropStaging (x : Station) (r : Staging) (s : State) : State :=
  let s1 := setStore (freeBlocks r.blocks s.store) s
  let ch := chanOf r.channel s1
  let s2 := setChan r.channel { ch with reserved := 0, charged := ch.charged - r.blocks.length } s1
  let u := unitOf x s2
  setUnit x { u with staging := u.staging.filter fun t => t.channel != r.channel } s2

/-- R47: a staging record is abandoned, with the congestion evaluation and its FLOW offer. -/
def abandonStaging (x : Station) (r : Staging) (s : State) : State :=
  evalCongestion r.channel (dropStaging x r s)

/-- R64, R65: a LENT message becomes QUEUED with redelivered set, in its place. -/
def returnMessage (m : Message) : Message :=
  if isLent m then { m with state := .queued, redelivered := true } else m

def returnLent (ch : Channel) : Channel := { ch with queue := ch.queue.map returnMessage }

/-- What the close of an end reports (R14). -/
structure CloseReport where
  staged : Bool
  returned : Nat
  discarded : Nat
  deriving DecidableEq, Repr

/-- R15: the last end has gone. Every message is discarded and the record returns to the values of a CLOSED channel. -/
def becomeClosed (c : Fin 8) (s : State) : State :=
  setChan c resetChannel (setStore (freeBlocks (blocksOf (chanOf c s).queue) s.store) s)

/-- R14, first part: the sender end is released after its staging record, if any, has been abandoned. The Bool says
whether one was. -/
def releaseSender (x : Station) (c : Fin 8) (s : State) : State × Bool :=
  let r := stagingOn x c s
  let s1 :=
    match r with
    | none => s
    | some rec => dropStaging x rec s
  (setChan c { chanOf c s1 with sender := resetEnd } s1, r.isSome)

/-- R14, first part: the receiver end is released after its LENT messages have been returned. The number says how many
were. -/
def releaseReceiver (c : Fin 8) (s : State) : State × Nat :=
  let ch := chanOf c s
  (setChan c { returnLent ch with receiver := resetEnd, arrivalOption := false } s, lentCount ch)

/-- R14, last part: the channel after an end was released. `evaluate` says that an abandoned staging record changed
O. -/
def afterRelease (x : Station) (c : Fin 8) (role : Role) (evaluate : Bool) (s : State) : State × Nat :=
  let ch := chanOf c s
  if endHeld (endOf role.other ch) then
    let s1 := if evaluate then evalCongestion c s else s
    (offer x.peer (.channelClosed c role) s1, 0)
  else (becomeClosed c s, ch.queue.length)

/-- R14: station `x`'s end of channel `c` is closed. -/
def closeEnd (x : Station) (c : Fin 8) (role : Role) (s : State) : State × CloseReport :=
  match role with
  | .send =>
    let (s1, staged) := releaseSender x c s
    let (s2, discarded) := afterRelease x c .send staged s1
    (s2, { staged := staged, returned := 0, discarded := discarded })
  | .receive =>
    let (s1, returned) := releaseReceiver c s
    let (s2, discarded) := afterRelease x c .receive false s1
    (s2, { staged := false, returned := returned, discarded := discarded })

/-- Close every end of channel `c` that station `x` holds and `test` picks. -/
def closeEndsOn (x : Station) (test : End → Bool) (c : Fin 8) (s : State) : State :=
  let s1 := if holdsEnd x (chanOf c s).sender && test (chanOf c s).sender then (closeEnd x c .send s).1 else s
  if holdsEnd x (chanOf c s1).receiver && test (chanOf c s1).receiver then (closeEnd x c .receive s1).1 else s1

/-- R17 with a cause other than LEFT, on one channel: the station's ends become dormant and a receiver end's LENT
messages return to QUEUED. -/
def makeDormantOn (x : Station) (c : Fin 8) (s : State) : State :=
  let ch := chanOf c s
  let ch1 := if holdsEnd x ch.sender then { ch with sender := { ch.sender with dormant := true } } else ch
  let ch2 :=
    if holdsEnd x ch1.receiver then returnLent { ch1 with receiver := { ch1.receiver with dormant := true } } else ch1
  setChan c ch2 s

/-- A channel takes its place in a list that rises by rank. -/
def insertByRank (rank : Fin 8 → Nat) (c : Fin 8) : List (Fin 8) → List (Fin 8)
  | [] => [c]
  | d :: ds => if rank c ≤ rank d then c :: d :: ds else d :: insertByRank rank c ds

/-- The eight channels in the order that a free value gives them (notes/assumptions/12.md). -/
def channelOrder (freeTick : Nat) : List (Fin 8) :=
  allChannels.foldr (insertByRank fun c => Config.channelRank freeTick c.val) []

/-- R17: the departing station's ends. The closing of several ends takes the channels in an order that the manual
leaves open; ends become dormant without an effect on another channel or station. -/
def departEnds (x : Station) (cause : Cause) (s : State) : State :=
  match cause with
  | .left =>
    (channelOrder s.freeTick).foldl (fun t c => closeEndsOn x (fun _ => true) c t)
      { s with freeTick := s.freeTick + 1 }
  | _ => allChannels.foldl (fun t c => makeDormantOn x c t) s

/-- R18 with RESUME, on one channel: the station's dormant ends become active. -/
def resumeOn (x : Station) (c : Fin 8) (s : State) : State :=
  let ch := chanOf c s
  let ch1 := if holdsEnd x ch.sender then { ch with sender := { ch.sender with dormant := false } } else ch
  let ch2 := if holdsEnd x ch1.receiver then { ch1 with receiver := { ch1.receiver with dormant := false } } else ch1
  setChan c ch2 s

/-- R13, R18: ARRIVAL for a receiver end of `x` whose arrival option is on and whose queue holds a QUEUED message. -/
def tellReceiver (x : Station) (c : Fin 8) (s : State) : State :=
  let ch := chanOf c s
  if holdsEnd x ch.receiver && ch.arrivalOption && ch.queue.any isQueued then offer x (.arrival c) s else s

/-- R13, R18: FLOW for a sender end of `x` on a congested channel. -/
def tellSender (x : Station) (c : Fin 8) (s : State) : State :=
  let ch := chanOf c s
  if holdsEnd x ch.sender && ch.congested then offer x (.flow c true (occupancy ch)) s else s

/-- The dormant ends of a station (R18). -/
def dormantEnds (x : Station) (s : State) : Nat :=
  (allChannels.filter fun c => holdsEnd x (chanOf c s).sender && (chanOf c s).sender.dormant).length +
    (allChannels.filter fun c => holdsEnd x (chanOf c s).receiver && (chanOf c s).receiver.dormant).length

/-- R18: what a JOIN does to the station's dormant ends. With RESUME the ARRIVAL offers are made before the FLOW
offers, as R18 lists them; the order of the channels is open (notes/assumptions/12.md). -/
def joinEnds (x : Station) (mode : JoinMode) (s : State) : State :=
  match mode with
  | .resume =>
    let s1 := allChannels.foldl (fun t c => resumeOn x c t) s
    let s2 := (channelOrder s.freeTick).foldl (fun t c => tellReceiver x c t) s1
    (channelOrder (s.freeTick + 1)).foldl (fun t c => tellSender x c t) { s2 with freeTick := s.freeTick + 2 }
  | .fresh =>
    (channelOrder s.freeTick).foldl (fun t c => closeEndsOn x (fun e => e.dormant) c t)
      { s with freeTick := s.freeTick + 1 }

end Sys2Proof.Machine
end

