-- ==== Sys2Proof/Machine/LeaseOps.lean ====
section
/-!
DEFINITION. The lease table's shared operations: grant, the end of a hold, hand-on, and what a departure does (chapter 6).
-/

namespace Sys2Proof.Machine

/-- R90: a station's wait count rises or falls. -/
def raiseWaitCount (x : Station) (s : State) : State := setWaitCount x (s.waitCounts.get x + 1) s
def lowerWaitCount (x : Station) (s : State) : State := setWaitCount x (s.waitCounts.get x - 1) s

/-- R89, R93, R99: a grant raises the fence by one, makes the claimant holder and starts the hold timer. -/
def grantLease (x : Station) (client : Fin 8) (duration : Nat) (l : LeaseEntry) : LeaseEntry :=
  { l with
    hold := some { station := x, client := client, remaining := duration, granted := duration }
    fence := l.fence + 1 }

/-- R97, R100, R103: the last-holder record is written from the hold that ends. -/
def recordEnding (ending : Ending) (l : LeaseEntry) : LeaseEntry :=
  match l.hold with
  | none => l
  | some h => { l with last := some { station := h.station, client := h.client, fence := l.fence, ending := ending } }

/-- R99, R101: a waiter has left the list, its station's wait count falls and LEASE_WAIT_EXPIRED is offered to it. -/
def expireWaiter (e : Fin 16) (w : Waiter) (s : State) : State :=
  offer w.station (.leaseWaitExpired e w.client) (lowerWaitCount w.station s)

/-- R99: the entry is handed on when its hold has ended. -/
def handOn (e : Fin 16) (s : State) : State :=
  let l := leaseOf e s
  match l.waiters with
  | [] => setLease e { l with hold := none } s
  | w :: ws =>
    if exhausted l then
      (w :: ws).foldl (fun t v => expireWaiter e v t) (setLease e { l with hold := none, waiters := [] } s)
    else
      let l1 := grantLease w.station w.client w.duration { l with waiters := ws }
      offer w.station (.leaseGranted e w.client l1.fence w.duration) (lowerWaitCount w.station (setLease e l1 s))

/-- A hold ends with an ending, and the entry is handed on. -/
def endHold (e : Fin 16) (ending : Ending) (s : State) : State :=
  handOn e (setLease e (recordEnding ending (leaseOf e s)) s)

/-- R103 step 1, on one entry. -/
def removeWaits (x : Station) (e : Fin 16) (s : State) : State :=
  let l := leaseOf e s
  setLease e { l with waiters := l.waiters.filter fun w => w.station != x } s

def heldBy (x : Station) (l : LeaseEntry) : Bool :=
  match l.hold with
  | none => false
  | some h => h.station == x

/-- R103 step 2, on one entry. -/
def revokeOn (x : Station) (e : Fin 16) (s : State) : State :=
  if heldBy x (leaseOf e s) then endHold e .revoked s else s

/-- The entries a station's clients hold. -/
def leasesHeld (x : Station) (s : State) : Nat := (allEntries.filter fun e => heldBy x (leaseOf e s)).length

/-- R103: the departing station's waits are removed and then its leases revoked, in ascending order of entry. -/
def departLeases (x : Station) (s : State) : State :=
  let s1 := setWaitCount x 0 (allEntries.foldl (fun t e => removeWaits x e t) s)
  allEntries.foldl (fun t e => revokeOn x e t) s1

end Sys2Proof.Machine
end

