-- ==== Sys2Proof/Machine/Departure.lean ====
section
/-!
DEFINITION. The departure of a station (R133), and the departures with cause FAULT that follow an event (R132).
-/

namespace Sys2Proof.Machine

/-- R85: a draw in flight stops. Frames already handed to the transmitter are sent whole; an item frame among them is no
longer the item of a draw in flight. -/
def stopDraw (x : Station) (s : State) : State :=
  let l := linkOf x s
  let s1 := setLink x { l with tx := l.tx.map fun t => { t with drawItem := false } } s
  setUnit x { unitOf x s1 with draw := none } s1

/-- R133 step 3: each staging record is abandoned. The order of two of them is a free value
(notes/assumptions/24.md). -/
def departStaging (x : Station) (s : State) : State :=
  match (unitOf x s).staging with
  | [] => s
  | [r] => abandonStaging x r s
  | records =>
    (if Config.lastStagingFirst s.freeTick then records.reverse else records).foldl
      (fun t r => abandonStaging x r t) { s with freeTick := s.freeTick + 1 }

/-- R133 steps 1 to 3. -/
def departFirst (x : Station) (s : State) : State := departStaging x (stopDraw x s)

/-- R133 steps 1 to 5. -/
def departOwners (x : Station) (cause : Cause) (s : State) : State :=
  departLeases x (departEnds x cause (departFirst x s))

/-- R133 steps 6 to 9: notices, reply cache and signals are emptied and the station becomes ABSENT. -/
def clearUnit (cause : Cause) (u : StationUnit) : StationUnit :=
  { u with
    notices := []
    cache := []
    signals := resetSignals
    record := { u.record with presence := .absent, keepaliveTimer := none, lastCause := some cause } }

/-- R133 steps 6 to 10. A fault recorded for `x` while its own departure was carried out causes no second departure
(R132). -/
def departUnit (x : Station) (cause : Cause) (s : State) : State :=
  let s1 := setUnit x (clearUnit cause (unitOf x s)) s
  let s2 := setSevere (s1.severe.filter fun y => y != x) s1
  offer x.peer (.peerDeparted cause (unitOf x s2).record.epoch) s2

/-- R133: the departure of station `x`. -/
def depart (x : Station) (cause : Cause) (s : State) : State :=
  departUnit x cause (departOwners x cause s)

/-- R132, R152 step 5: a station marked during the event departs with cause FAULT if it is PRESENT. -/
def departFault (x : Station) (s : State) : State :=
  if isPresent x s then depart x .fault s else setSevere (s.severe.filter fun y => y != x) s

/-- The departure that a first departure of the same event has caused. -/
def settleSecond (s : State) : State :=
  match s.severe with
  | [] => s
  | y :: _ => departFault y s

/-- R132: the departures that follow the event. When both stations are to depart, the manual does not say which is
first (notes/assumptions/13.md). A peer whose departure a REJOIN caused departs here, after the JOIN, where it did not
depart before it (notes/assumptions/33.md). -/
def settle (s : State) : State :=
  match s.severe with
  | [] => s
  | [x] => settleSecond (departFault x s)
  | _ =>
    let first := if Config.stationAFirst s.freeTick then Station.a else Station.b
    settleSecond (departFault first { s with freeTick := s.freeTick + 1 })

end Sys2Proof.Machine
end

