-- ==== Sys2Proof/Machine/Operands.lean ====
section
/-!
DEFINITION. Reading the payload of a request: for every kind the length check and the field check of R148 steps 4 and 5,
with the layouts of R160 and the ranges of the owners' chapters. A check answers the request's fields, or the status
of the refusal (BAD_LENGTH or BAD_FIELD).
-/

namespace Sys2Proof.Machine

/-- The kind codes of R159. -/
abbrev kindJoin : Byte := 0x01
abbrev kindLeave : Byte := 0x02
abbrev kindKeepalive : Byte := 0x03
abbrev kindIdentify : Byte := 0x04
abbrev kindInquire : Byte := 0x08
abbrev kindCollect : Byte := 0x12
abbrev kindRaise : Byte := 0x13
abbrev kindAccept : Byte := 0x14
abbrev kindMask : Byte := 0x15
abbrev kindOpen : Byte := 0x18
abbrev kindClose : Byte := 0x19
abbrev kindPost : Byte := 0x20
abbrev kindSegment : Byte := 0x21
abbrev kindAbandon : Byte := 0x22
abbrev kindFetch : Byte := 0x28
abbrev kindRead : Byte := 0x29
abbrev kindRetire : Byte := 0x2A
abbrev kindReturn : Byte := 0x2B
abbrev kindPurge : Byte := 0x2C
abbrev kindDraw : Byte := 0x2D
abbrev kindHalt : Byte := 0x2E
abbrev kindAcquire : Byte := 0x30
abbrev kindRenew : Byte := 0x31
abbrev kindRelease : Byte := 0x32
abbrev kindCancel : Byte := 0x33
abbrev kindFaults : Byte := 0x38
abbrev kindClearFaults : Byte := 0x39
abbrev kindFaultPolicy : Byte := 0x3A
/-- R159: the kinds of item frames, end frames, and the reply to an unknown kind. -/
abbrev kindItem : Byte := 0xC0
abbrev kindEnd : Byte := 0xC1
abbrev kindUnknownReply : Byte := 0xFE

/-- The request kinds of R159. -/
def requestKinds : List Byte :=
  [kindJoin, kindLeave, kindKeepalive, kindIdentify, kindInquire, kindCollect, kindRaise, kindAccept, kindMask,
   kindOpen, kindClose, kindPost, kindSegment, kindAbandon, kindFetch, kindRead, kindRetire, kindReturn, kindPurge,
   kindDraw, kindHalt, kindAcquire, kindRenew, kindRelease, kindCancel, kindFaults, kindClearFaults, kindFaultPolicy]

/-- R148 step 2. -/
def knownKind (k : Byte) : Bool := requestKinds.contains k

/-- R148 step 3: the kinds taken from an ABSENT station. -/
def kindForAbsent (k : Byte) : Bool := k == kindJoin || k == kindIdentify || k == kindFaults

/-! ### Single fields -/

/-- A channel number, 0 to 7 (R4). -/
def channelField (b : Byte) : Option (Fin 8) := if h : b.toNat < 8 then some ⟨b.toNat, h⟩ else none

/-- A lease entry number, 0 to 15 (R91). -/
def entryField (b : Byte) : Option (Fin 16) := if h : b.toNat < 16 then some ⟨b.toNat, h⟩ else none

/-- A client, 0 to 7 (R91). -/
def clientField (b : Byte) : Option (Fin 8) := if h : b.toNat < 8 then some ⟨b.toNat, h⟩ else none

/-- A flag byte: 00H or 01H (R158). -/
def flagField (b : Byte) : Option Bool := if b = 0x00 then some false else if b = 0x01 then some true else none

def roleField (b : Byte) : Option Role := if b = 0x01 then some .send else if b = 0x02 then some .receive else none

def modeField (b : Byte) : Option DeliveryMode := if b = 0x01 then some .lend else if b = 0x02 then some .peek else none

def joinModeField (b : Byte) : Option JoinMode := if b = 0x01 then some .resume else if b = 0x02 then some .fresh else none

def severityField (b : Byte) : Option Severity :=
  if b = 0x01 then some .advisory else if b = 0x02 then some .severe else none

/-- R91: a duration, 10 to 65,535 ms. -/
def durationField (w : Half) : Option Nat := if 10 ≤ w.toNat then some w.toNat else none

/-- R91: a wait, 0 to 30,000 ms. -/
def waitField (w : Half) : Option Nat := if w.toNat ≤ 30000 then some w.toNat else none

/-- The fields of a request are all in range, or the request is answered BAD_FIELD (R148 step 5). -/
def fields {α : Type} : Option α → Except Status α
  | none => .error .badField
  | some a => .ok a

/-! ### The requests -/

/-- Requests without fields (R160). -/
def emptyCheck : List Byte → Except Status PUnit
  | [] => .ok ⟨⟩
  | _ => .error .badLength

structure JoinFields where
  period : Nat
  mode : JoinMode
  identity : Word
  deriving DecidableEq, Repr

/-- R125: K is 0 or 50 to 60,000. -/
def periodField (w : Half) : Option Nat :=
  if w.toNat = 0 ∨ (50 ≤ w.toNat ∧ w.toNat ≤ 60000) then some w.toNat else none

def joinCheck : List Byte → Except Status JoinFields
  | [k1, k0, m, i3, i2, i1, i0] =>
    fields do
      let k ← periodField (halfOf k1 k0)
      let mode ← joinModeField m
      pure { period := k, mode := mode, identity := wordOf i3 i2 i1 i0 }
  | _ => .error .badLength

inductive InquireFields where
  | channel (c : Fin 8)
  | lease (e : Fin 16)
  | store
  | station
  deriving DecidableEq, Repr

/-- R160: the subject selects the length. With an invalid subject every length of at least 1 byte passes step 4
(notes/assumptions/34.md). -/
def inquireCheck : List Byte → Except Status InquireFields
  | [] => .error .badLength
  | subject :: rest =>
    if subject = 0x01 then
      match rest with
      | [c] => fields ((channelField c).map .channel)
      | _ => .error .badLength
    else if subject = 0x02 then
      match rest with
      | [e] => fields ((entryField e).map .lease)
      | _ => .error .badLength
    else if subject = 0x03 then
      match rest with
      | [] => .ok .store
      | _ => .error .badLength
    else if subject = 0x04 then
      match rest with
      | [] => .ok .station
      | _ => .error .badLength
    else .error .badField

/-- R113: a maximum from 1 to 6. -/
def collectCheck : List Byte → Except Status Nat
  | [m] => if 1 ≤ m.toNat ∧ m.toNat ≤ 6 then .ok m.toNat else .error .badField
  | _ => .error .badLength

/-- R119: a set that names one or more flags. -/
def raiseCheck : List Byte → Except Status Half
  | [h, l] => if halfOf h l = 0 then .error .badField else .ok (halfOf h l)
  | _ => .error .badLength

/-- R120, R121: any flag set. -/
def flagsCheck : List Byte → Except Status Half
  | [h, l] => .ok (halfOf h l)
  | _ => .error .badLength

/-- The parameter form of an OPEN: given parameters, or none for 'accept' (R10). -/
structure OpenFields where
  channel : Fin 8
  role : Role
  given : Option Params
  arrival : Bool
  deriving DecidableEq, Repr

/-- R5, R10 check 2. -/
def paramsField (d : Byte) (q1 q0 : Byte) (h l : Byte) : Option Params :=
  let p : Params := { depth := d.toNat, quota := (halfOf q1 q0).toNat, high := h.toNat, low := l.toNat }
  if paramsValid p then some p else none

/-- R10, R160: the parameter form selects the length. With an invalid form every length of at least 4 bytes passes
step 4 (notes/assumptions/34.md). -/
def openCheck : List Byte → Except Status OpenFields
  | c :: r :: form :: rest =>
    if form = 0x01 then
      match rest with
      | [o, d, q1, q0, h, l] =>
        fields do
          let ch ← channelField c
          let role ← roleField r
          let arrival ← flagField o
          let p ← paramsField d q1 q0 h l
          pure { channel := ch, role := role, given := some p, arrival := arrival }
      | _ => .error .badLength
    else if form = 0x02 then
      match rest with
      | [o] =>
        fields do
          let ch ← channelField c
          let role ← roleField r
          let arrival ← flagField o
          pure { channel := ch, role := role, given := none, arrival := arrival }
      | _ => .error .badLength
    else if rest.isEmpty then .error .badLength
    else .error .badField
  | _ => .error .badLength

def closeCheck : List Byte → Except Status (Fin 8 × Role)
  | [c, r] =>
    fields do
      let ch ← channelField c
      let role ← roleField r
      pure (ch, role)
  | _ => .error .badLength

/-- R36: the options byte is 00H; 0 to 62 data bytes. -/
def postCheck : List Byte → Except Status (Fin 8 × List Byte)
  | c :: o :: data =>
    if data.length ≤ 62 then
      fields do
        let ch ← channelField c
        if o = 0x00 then pure (ch, data) else none
    else .error .badLength
  | _ => .error .badLength

inductive SegmentFields where
  | first (c : Fin 8) (total : Nat) (data : List Byte)
  | middle (c : Fin 8) (data : List Byte)
  | last (c : Fin 8) (data : List Byte)
  deriving DecidableEq, Repr

/-- R41, R160: the control byte selects the length. An invalid control byte is answered BAD_LENGTH below three bytes and
BAD_FIELD otherwise, as R41 states. -/
def segmentCheck : List Byte → Except Status SegmentFields
  | c :: control :: rest =>
    if control = 0x01 then
      match rest with
      | t1 :: t0 :: data =>
        if data.length ≤ 60 then
          fields do
            let ch ← channelField c
            if (halfOf t1 t0).toNat ≤ Config.maxMessage then
              pure (.first ch (halfOf t1 t0).toNat data)
            else none
        else .error .badLength
      | _ => .error .badLength
    else if control = 0x02 ∨ control = 0x03 then
      if 1 ≤ rest.length ∧ rest.length ≤ 62 then
        fields do
          let ch ← channelField c
          pure (if control = 0x02 then .middle ch rest else .last ch rest)
      else .error .badLength
    else if rest.isEmpty then .error .badLength
    else .error .badField
  | _ => .error .badLength

def channelCheck : List Byte → Except Status (Fin 8)
  | [c] => fields (channelField c)
  | _ => .error .badLength

def fetchCheck : List Byte → Except Status (Fin 8 × DeliveryMode)
  | [c, m] =>
    fields do
      let ch ← channelField c
      let mode ← modeField m
      pure (ch, mode)
  | _ => .error .badLength

structure ReadFields where
  channel : Fin 8
  seq : Half
  offset : Nat
  deriving DecidableEq, Repr

/-- R61: an offset above 512 is out of range. -/
def readCheck : List Byte → Except Status ReadFields
  | [c, s1, s0, o1, o0] =>
    fields do
      let ch ← channelField c
      if (halfOf o1 o0).toNat ≤ Config.maxMessage then
        pure { channel := ch, seq := halfOf s1 s0, offset := (halfOf o1 o0).toNat }
      else none
  | _ => .error .badLength

def retireCheck : List Byte → Except Status (Fin 8 × Half)
  | [c, s1, s0] =>
    fields do
      let ch ← channelField c
      pure (ch, halfOf s1 s0)
  | _ => .error .badLength

structure DrawFields where
  channel : Fin 8
  count : Nat
  mode : DeliveryMode
  spacing : Nat
  deriving DecidableEq, Repr

/-- R74: count 1 to 8, spacing 0 to 15. -/
def drawCheck : List Byte → Except Status DrawFields
  | [c, n, m, s] =>
    fields do
      let ch ← channelField c
      let mode ← modeField m
      if 1 ≤ n.toNat ∧ n.toNat ≤ 8 ∧ s.toNat ≤ 15 then
        pure { channel := ch, count := n.toNat, mode := mode, spacing := s.toNat }
      else none
  | _ => .error .badLength

structure AcquireFields where
  entry : Fin 16
  client : Fin 8
  duration : Nat
  wait : Nat
  deriving DecidableEq, Repr

/-- R91. -/
def acquireCheck : List Byte → Except Status AcquireFields
  | [e, c, d1, d0, w1, w0] =>
    fields do
      let entry ← entryField e
      let client ← clientField c
      let duration ← durationField (halfOf d1 d0)
      let wait ← waitField (halfOf w1 w0)
      pure { entry := entry, client := client, duration := duration, wait := wait }
  | _ => .error .badLength

structure RenewFields where
  entry : Fin 16
  client : Fin 8
  fence : Word
  duration : Nat
  deriving DecidableEq, Repr

/-- R91, R95. -/
def renewCheck : List Byte → Except Status RenewFields
  | [e, c, f3, f2, f1, f0, d1, d0] =>
    fields do
      let entry ← entryField e
      let client ← clientField c
      let duration ← durationField (halfOf d1 d0)
      pure { entry := entry, client := client, fence := wordOf f3 f2 f1 f0, duration := duration }
  | _ => .error .badLength

structure ReleaseFields where
  entry : Fin 16
  client : Fin 8
  fence : Word
  deriving DecidableEq, Repr

/-- R91, R95. -/
def releaseCheck : List Byte → Except Status ReleaseFields
  | [e, c, f3, f2, f1, f0] =>
    fields do
      let entry ← entryField e
      let client ← clientField c
      pure { entry := entry, client := client, fence := wordOf f3 f2 f1 f0 }
  | _ => .error .badLength

/-- R91, R98. -/
def cancelCheck : List Byte → Except Status (Fin 16 × Fin 8)
  | [e, c] =>
    fields do
      let entry ← entryField e
      let client ← clientField c
      pure (entry, client)
  | _ => .error .badLength

/-- The report flag and severity of each kind in a FAULT POLICY, in code order. -/
def policyPairs : List Byte → Option (List (Bool × Severity))
  | [] => some []
  | r :: v :: rest => do
    let reported ← flagField r
    let severity ← severityField v
    let more ← policyPairs rest
    pure ((reported, severity) :: more)
  | _ => none

/-- R156, R160: a pair for each of the nine kinds. -/
def policyCheck (payload : List Byte) : Except Status (List (Bool × Severity)) :=
  if payload.length = 18 then fields (policyPairs payload) else .error .badLength

end Sys2Proof.Machine
end

