-- ==== Sys2Proof/Machine/DrawOps.lean ====
section
/-!
DEFINITION. The draw engine's shared operations: pick, item, boundary, end (chapter 5).
-/

namespace Sys2Proof.Machine

/-- The reasons of an end frame (R79, R158). -/
inductive DrawReason where
  | count | queueEmpty | window | halted
  deriving DecidableEq, Repr

def DrawReason.code : DrawReason → Byte
  | .count => 0x01
  | .queueEmpty => 0x02
  | .window => 0x03
  | .halted => 0x04

/-- R79 step 1: the end frame. -/
def endFrame (d : Draw) (reason : DrawReason) : OutFrame :=
  { kind := kindEnd, tag := d.tag, payload := [Status.code .ok, DrawReason.code reason, byteOf d.itemsSent] }

/-- R79 step 5: the reply to the HALT that was recorded. -/
def haltReply (tag : Byte) : OutFrame :=
  { kind := kindHalt + 0x80, tag := tag, payload := [Status.code .ok] }

/-- R79: the draw `d` of station `x` ends. -/
def endDraw (x : Station) (d : Draw) (reason : DrawReason) (s : State) : State :=
  let s1 := enterCache x { tag := d.tag, kind := kindDraw, crc := d.requestCrc, reply := endFrame d reason } s
  let s2 := setUnit x { unitOf x s1 with draw := none } s1
  let s3 := transmit x (endFrame d reason) false s2
  match d.haltTag with
  | none => s3
  | some tag =>
    transmit x (haltReply tag) false
      (enterCache x { tag := tag, kind := kindHalt, crc := frameCrc kindHalt tag [], reply := haltReply tag } s3)

/-- R77: the item frame. `d` is the context after step 4. -/
def itemFrame (d : Draw) (m : Message) (damaged : Bool) (bytes : List Byte) : OutFrame :=
  { kind := kindItem
    tag := d.tag
    payload :=
      Status.code .ok :: byteOf d.remaining ::
        (halfBytes m.seq ++ natBytes2 m.length ++
          [messageFlags m.redelivered damaged (decide (Config.fetchBytes < m.length))] ++ bytes) }

/-- R77 steps 1 to 3: the item's message is read, lent in LEND mode, and a double-bit error is recorded. -/
def takeItem (x : Station) (d : Draw) (m : Message) (s : State) : State × List Byte × Bool :=
  let (s1, bytes, bad) := deliver d.channel m 0 (min Config.fetchBytes m.length) s
  let s2 :=
    match d.mode with
    | .lend => lend d.channel s1
    | .peek => s1
  (recordDamage x d.channel m.seq bad s2, bytes, bad)

/-- R77 step 4 and the peek cursor of step 2: the draw context after an item. -/
def afterItem (d : Draw) (m : Message) : Draw :=
  { d with
    cursor := match d.mode with
      | .lend => d.cursor
      | .peek => some m.seq
    remaining := d.remaining - 1
    itemsSent := d.itemsSent + 1
    phase := .sending }

/-- R77: an item is built. When the fault of step 3 makes the station depart, the departure is taken at once and the item
frame is not handed to the transmitter. -/
def buildItem (x : Station) (d : Draw) (m : Message) (s : State) : State :=
  let (s1, bytes, bad) := takeItem x d m s
  if s1.severe.contains x then departFault x s1
  else
    let d1 := afterItem d m
    transmit x (itemFrame d1 m (m.damaged || bad) bytes) true
      (setUnit x { unitOf x s1 with draw := some d1 } s1)

/-- R76 in PEEK mode: the messages that lie after the one named by the cursor. -/
def afterCursor (cursor : Option Half) (q : List Message) : List Message :=
  match cursor with
  | none => q
  | some n => (q.dropWhile fun m => m.seq != n).drop 1

/-- R76: the candidate of a pick, or the reason for which the draw ends. -/
def candidate (d : Draw) (ch : Channel) : Except DrawReason Message :=
  match d.mode with
  | .lend =>
    match ch.queue.find? isQueued with
    | none => .error .queueEmpty
    | some m => if Config.lendWindow ≤ lentCount ch then .error .window else .ok m
  | .peek =>
    match (afterCursor d.cursor ch.queue).find? isQueued with
    | none => .error .queueEmpty
    | some m => .ok m

/-- R76: a pick. -/
def pick (x : Station) (d : Draw) (s : State) : State :=
  match candidate d (chanOf d.channel s) with
  | .error reason => endDraw x d reason s
  | .ok m => buildItem x d m s

/-- R78: the item boundary. With a spacing of 0 the pick is made at once. -/
def atBoundary (x : Station) (d : Draw) (s : State) : State :=
  if d.remaining = 0 then endDraw x d .count s
  else if d.haltTag.isSome then endDraw x d .halted s
  else if d.spacing = 0 then pick x d s
  else setUnit x { unitOf x s with draw := some { d with phase := .spacing d.spacing } } s

/-- R81: a HALT acts at its arrival on a draw. -/
def haltDraw (x : Station) (d : Draw) (tag : Byte) (s : State) : State :=
  let d1 := { d with haltTag := some tag }
  match d.phase with
  | .sending => setUnit x { unitOf x s with draw := some d1 } s
  | .spacing _ => endDraw x d1 .halted s

end Sys2Proof.Machine
end

