-- ==== Sys2Proof/Machine/Requests.lean ====
section
/-!
DEFINITION. The path of a request: its completion on the link (R128, R141, R142, R81), its taking by the station unit
(R145), the duplicate check, the dispatch checks and the reply (R146 to R148).
-/

namespace Sys2Proof.Machine

/-! ### Completion of a frame -/

/-- R128: a good frame restarts the keepalive timer of a PRESENT station with K above 0. -/
def restartKeepalive (x : Station) (s : State) : State :=
  let u := unitOf x s
  if isPresent x s && u.record.period != 0 then
    setUnit x { u with record := { u.record with keepaliveTimer := some u.record.period } } s
  else s

/-- R81: the draw on which a complete good frame acts at its arrival, if it is a HALT that does. -/
def haltTarget (x : Station) (f : Frame) (s : State) : Option Draw :=
  match (unitOf x s).draw with
  | none => none
  | some d =>
    if f.kind = kindHalt ∧ d.haltTag = none ∧ f.payload = [] ∧ cacheMatch x f s = none then some d else none

/-- R142: a good frame joins the input queue, or is discarded as OVERRUN. -/
def joinQueue (x : Station) (f : Frame) (s : State) : State :=
  let l := linkOf x s
  if l.inQueue.length < Config.inputFrames then setLink x { l with inQueue := l.inQueue ++ [f] } s
  else recordFault x .overrun (.header (headerBytes f)) s

/-- R141: a good frame is complete on link `x`. -/
def goodFrame (x : Station) (f : Frame) (s : State) : State :=
  let s1 := restartKeepalive x s
  match haltTarget x f s1 with
  | some d => haltDraw x d f.tag s1
  | none => joinQueue x f s1

/-! ### Replies -/

/-- How the owner's execution of a request ends (R148 step 6): with a reply, or with its frames already handed to the
transmitter (LEAVE, a DRAW that passes its checks). -/
inductive Handled where
  | reply (s : State) (status : Status) (fields : List Byte)
  | finished (s : State)

/-- R144, R159, R161: the reply frame to a request. -/
def replyFrame (f : Frame) (status : Status) (fieldBytes : List Byte) : OutFrame :=
  { kind := f.kind + 0x80, tag := f.tag, payload := Status.code status :: fieldBytes }

/-- R148 steps 7 and 8, R146: the reply is cached unless the station is ABSENT or a SEVERE fault recorded in the handling
makes it depart; it is handed to the transmitter. -/
def finishReply (x : Station) (f : Frame) (r : OutFrame) (s : State) : State :=
  let s1 :=
    if isPresent x s && !(s.severe.contains x) then
      enterCache x { tag := f.tag, kind := f.kind, crc := f.crc, reply := r } s
    else s
  transmit x r false s1

/-- R148 steps 2 to 5: a refusal with the fault it records. -/
def refuseRequest (x : Station) (f : Frame) (r : OutFrame) (k : FaultKind) (s : State) : State :=
  finishReply x f r (recordFault x k (.header (headerBytes f)) s)

/-- R134, R161: the fields of a NOT_JOINED reply. -/
def notJoinedFields (x : Station) (s : State) : List Byte :=
  halfBytes (unitOf x s).record.epoch ++ [causeByte (unitOf x s).record.lastCause]

/-- R147: the cached reply is sent again and its entry becomes the most recent. -/
def answerFromCache (x : Station) (e : CacheEntry) (s : State) : State :=
  transmit x e.reply false (enterCache x e s)

/-- R148 from step 3 on, for a kind the part knows: presence, length and fields, the owner, the reply. -/
def dispatch {α : Type} (x : Station) (f : Frame) (check : List Byte → Except Status α) (owner : α → State → Handled)
    (s : State) : State :=
  if !(isPresent x s) && !(kindForAbsent f.kind) then
    refuseRequest x f (replyFrame f .notJoined (notJoinedFields x s)) .notJoined s
  else
    match check f.payload with
    | .error status => refuseRequest x f (replyFrame f status []) .malformed s
    | .ok a =>
      match owner a s with
      | .reply s1 status fieldBytes => finishReply x f (replyFrame f status fieldBytes) s1
      | .finished s1 => s1

/-- R147, R148: a frame of a known kind is handled. -/
def handleKnown {α : Type} (x : Station) (f : Frame) (check : List Byte → Except Status α)
    (owner : α → State → Handled) (s : State) : State :=
  match cacheMatch x f s with
  | some e => answerFromCache x e s
  | none => dispatch x f check owner s

/-- R148 step 2, R159: a frame of unknown kind is handled. -/
def handleUnknown (x : Station) (f : Frame) (s : State) : State :=
  match cacheMatch x f s with
  | some e => answerFromCache x e s
  | none =>
    refuseRequest x f
      { kind := kindUnknownReply, tag := f.tag, payload := [Status.code .unknownKind, f.kind] } .unknownKind s

/-! ### Taking -/

/-- R145: the station unit takes the frame `f` if it is the oldest of its input queue and may be taken, and handles it. -/
def takeHead (x : Station) (f : Frame) (handler : Frame → State → State) (s : State) : State :=
  let l := linkOf x s
  match l.inQueue with
  | [] => s
  | g :: rest => if g = f ∧ mayTake x s then handler f (setLink x { l with inQueue := rest } s) else s

/-- The request frame `f` as a command (notes/assumptions/1.md). A frame that is not in the input queue arrives first;
the station unit then takes it if R145 lets it. The receiver's state is not touched: another frame in reception goes on
(notes/assumptions/32.md). Departures for SEVERE faults follow (R132). -/
def runRequest (x : Station) (f : Frame) (handler : Frame → State → State) (s : State) : State :=
  if isRunning s then
    settle
      (if (linkOf x s).inQueue.contains f then takeHead x f handler s
       else if (linkOf x s).rx.inBreak then s
       else takeHead x f handler (goodFrame x f s))
  else s

/-- An event that is not a request: it happens only while the part is running, and departures for SEVERE faults follow
it. -/
def runEvent (event : State → State) (s : State) : State :=
  if isRunning s then settle (event s) else s

end Sys2Proof.Machine
end

