-- ==== Sys2Proof/Machine/Delivery.lean ====
section
/-!
DEFINITION. FETCH, READ, RETIRE, RETURN and PURGE (chapter 4).
-/

namespace Sys2Proof.Machine

/-- R58: the fields of an OK reply to FETCH. -/
def fetchFields (m : Message) (damaged : Bool) (queued : Nat) (bytes : List Byte) : List Byte :=
  halfBytes m.seq ++ natBytes2 m.length ++ [messageFlags m.redelivered damaged false, byteOf queued] ++ bytes

/-- R56, R57, R58: the message `m` is fetched. The fault of a double-bit error is recorded after the lend and its
withdrawal (notes/assumptions/14.md). -/
def fetchMessage (x : Station) (c : Fin 8) (mode : DeliveryMode) (m : Message) (s : State) : Handled :=
  let (s1, bytes, bad) := deliver c m 0 (min Config.fetchBytes m.length) s
  let s2 :=
    match mode with
    | .lend => lend c s1
    | .peek => s1
  .reply (recordDamage x c m.seq bad s2) .ok
    (fetchFields m (m.damaged || bad) (queuedCount (chanOf c s2)) bytes)

/-- R55: FETCH. -/
def ownerFetch (x : Station) (c : Fin 8) (mode : DeliveryMode) (s : State) : Handled :=
  let ch := chanOf c s
  if holdsActive x ch.receiver then
    match ch.queue.find? isQueued with
    | none => .reply s .empty [byteOf (lentCount ch)]
    | some m =>
      if mode = .lend ∧ Config.lendWindow ≤ lentCount ch then
        .reply s .window (halfBytes (((ch.queue.find? isLent).map (·.seq)).getD 0))
      else fetchMessage x c mode m s
  else .reply s .notOpen []

def handleFetch (x : Station) (f : Frame) (s : State) : State :=
  handleKnown x f fetchCheck (fun a t => ownerFetch x a.1 a.2 t) s

def execFetchLend (x : Station) (tag : Byte) (payload : List Byte) (s : State) :
    Host.Outcome State Fault Refusal :=
  .next (runRequest x (requestFrame kindFetch tag payload) (handleFetch x) s)

def execFetchPeek (x : Station) (tag : Byte) (payload : List Byte) (s : State) :
    Host.Outcome State Fault Refusal :=
  .next (runRequest x (requestFrame kindFetch tag payload) (handleFetch x) s)

/-- The LENT message with a sequence number (R61, R63). -/
def lentMessage (seq : Half) (ch : Channel) : Option Message :=
  ch.queue.find? fun m => isLent m && m.seq == seq

/-- R62: bytes of a LENT message are handed out. -/
def readMessage (x : Station) (r : ReadFields) (m : Message) (s : State) : Handled :=
  let (s1, bytes, bad) := deliver r.channel m r.offset (min Config.readBytes (m.length - r.offset)) s
  .reply (recordDamage x r.channel m.seq bad s1) .ok
    (halfBytes m.seq ++ natBytes2 r.offset ++ [messageFlags m.redelivered (m.damaged || bad) false] ++ bytes)

/-- R61: READ. -/
def ownerRead (x : Station) (r : ReadFields) (s : State) : Handled :=
  let ch := chanOf r.channel s
  if holdsActive x ch.receiver then
    match lentMessage r.seq ch with
    | none => .reply s .notLent []
    | some m => if m.length < r.offset then .reply s .badField (natBytes2 m.length) else readMessage x r m s
  else .reply s .notOpen []

def handleRead (x : Station) (f : Frame) (s : State) : State := handleKnown x f readCheck (ownerRead x) s

def execRead (x : Station) (tag : Byte) (payload : List Byte) (s : State) : Host.Outcome State Fault Refusal :=
  .next (runRequest x (requestFrame kindRead tag payload) (handleRead x) s)

/-- R63, R66: message records are removed: their blocks are freed and the charge falls by their number. -/
def removeMessages (c : Fin 8) (removed kept : List Message) (s : State) : State :=
  let s1 := setStore (freeBlocks (blocksOf removed) s.store) s
  let ch := chanOf c s1
  setChan c { ch with queue := kept, charged := ch.charged - (blocksOf removed).length } s1

/-- R63: the place of the LENT message with a sequence number in the queue, counting the oldest as 1. -/
def retireCount (seq : Half) (q : List Message) : Nat := (q.findIdx fun m => isLent m && m.seq == seq) + 1

/-- R63: RETIRE. -/
def ownerRetire (x : Station) (c : Fin 8) (seq : Half) (s : State) : Handled :=
  let ch := chanOf c s
  if holdsActive x ch.receiver then
    match lentMessage seq ch with
    | none => .reply s .notLent []
    | some _ =>
      let n := retireCount seq ch.queue
      let s1 := evalCongestion c (removeMessages c (ch.queue.take n) (ch.queue.drop n) s)
      .reply s1 .ok [byteOf n, byteOf (occupancy (chanOf c s1))]
  else .reply s .notOpen []

def handleRetire (x : Station) (f : Frame) (s : State) : State :=
  handleKnown x f retireCheck (fun a t => ownerRetire x a.1 a.2 t) s

def execRetire (x : Station) (tag : Byte) (payload : List Byte) (s : State) : Host.Outcome State Fault Refusal :=
  .next (runRequest x (requestFrame kindRetire tag payload) (handleRetire x) s)

/-- R64: RETURN. -/
def ownerReturn (x : Station) (c : Fin 8) (s : State) : Handled :=
  let ch := chanOf c s
  if holdsActive x ch.receiver then .reply (setChan c (returnLent ch) s) .ok [byteOf (lentCount ch)]
  else .reply s .notOpen []

def handleReturn (x : Station) (f : Frame) (s : State) : State := handleKnown x f channelCheck (ownerReturn x) s

def execReturn (x : Station) (tag : Byte) (payload : List Byte) (s : State) : Host.Outcome State Fault Refusal :=
  .next (runRequest x (requestFrame kindReturn tag payload) (handleReturn x) s)

/-- R66: PURGE. Congestion is evaluated when a message was removed; the ARRIVAL withdrawal is made in every case. -/
def purgeChannel (c : Fin 8) (s : State) : State :=
  let q := (chanOf c s).queue
  let removed := q.filter isQueued
  let s1 := removeMessages c removed (q.filter fun m => !(isQueued m)) s
  withdrawArrival c (if removed.isEmpty then s1 else evalCongestion c s1)

def ownerPurge (x : Station) (c : Fin 8) (s : State) : Handled :=
  let ch := chanOf c s
  if holdsActive x ch.receiver then
    let s1 := purgeChannel c s
    .reply s1 .ok [byteOf (queuedCount ch), byteOf (occupancy (chanOf c s1))]
  else .reply s .notOpen []

def handlePurge (x : Station) (f : Frame) (s : State) : State := handleKnown x f channelCheck (ownerPurge x) s

def execPurge (x : Station) (tag : Byte) (payload : List Byte) (s : State) : Host.Outcome State Fault Refusal :=
  .next (runRequest x (requestFrame kindPurge tag payload) (handlePurge x) s)

end Sys2Proof.Machine
end

