-- ==== Sys2Proof/Machine/Draws.lean ====
section
/-!
DEFINITION. DRAW, HALT, the item boundary and the spacing expiry (chapter 5), and the end of a transmission (R144).
-/

namespace Sys2Proof.Machine

/-- R75: the draw context that a DRAW creates. -/
def newDraw (f : Frame) (d : DrawFields) : Draw :=
  { channel := d.channel, tag := f.tag, requestCrc := f.crc, mode := d.mode, remaining := d.count,
    spacing := d.spacing, cursor := none, itemsSent := 0, haltTag := none, phase := .sending }

/-- R74, R75: DRAW. A draw that passes the checks begins with its first pick. -/
def ownerDraw (x : Station) (f : Frame) (d : DrawFields) (s : State) : Handled :=
  if holdsActive x (chanOf d.channel s).receiver then
    let ctx := newDraw f d
    .finished (pick x ctx (setUnit x { unitOf x s with draw := some ctx } s))
  else .reply s .notOpen []

def handleDraw (x : Station) (f : Frame) (s : State) : State := handleKnown x f drawCheck (ownerDraw x f) s

def execDraw (x : Station) (tag : Byte) (payload : List Byte) (s : State) : Host.Outcome State Fault Refusal :=
  .next (runRequest x (requestFrame kindDraw tag payload) (handleDraw x) s)

/-- R82: a HALT taken from the input queue finds no draw in flight. -/
def ownerHalt (s : State) : Handled := .reply s .noDraw []

def handleHalt (x : Station) (f : Frame) (s : State) : State :=
  handleKnown x f emptyCheck (fun _ t => ownerHalt t) s

def execHalt (x : Station) (tag : Byte) (payload : List Byte) (s : State) : Host.Outcome State Fault Refusal :=
  .next (runRequest x (requestFrame kindHalt tag payload) (handleHalt x) s)

/-- R144, R78: the transmission of the frame being sent on link `x` ends. When it is an item frame of the draw in flight,
that is the item boundary. The command says that it ends, whatever the count of clock periods still shows
(notes/assumptions/3.md). -/
def endTransmission (x : Station) (s : State) : State :=
  match (linkOf x s).tx with
  | [] => s
  | t :: _ =>
    let s1 := shiftTransmitter x s
    match t.drawItem, (unitOf x s1).draw with
    | true, some d => atBoundary x d s1
    | _, _ => s1

def execTransmissionEnd (x : Station) (s : State) : Host.Outcome State Fault Refusal :=
  .next (runEvent (endTransmission x) s)

/-- The frame being sent on link `x` is an item frame of the draw in flight. -/
def sendingItem (x : Station) (s : State) : Bool :=
  match (linkOf x s).tx with
  | [] => false
  | t :: _ => t.drawItem

/-- R78: the end of an item frame's transmission. -/
def itemBoundary (x : Station) (s : State) : State := if sendingItem x s then endTransmission x s else s

def execItemBoundary (x : Station) (s : State) : Host.Outcome State Fault Refusal :=
  .next (runEvent (itemBoundary x) s)

/-- R78: the spacing timer reaches zero and the next pick is made. While it runs the expiry does not happen
(notes/assumptions/2.md). -/
def expireSpacing (x : Station) (s : State) : State :=
  match (unitOf x s).draw with
  | none => s
  | some d =>
    match d.phase with
    | .sending => s
    | .spacing left => if left = 0 then pick x d s else s

def execSpacingExpiry (x : Station) (s : State) : Host.Outcome State Fault Refusal :=
  .next (runEvent (expireSpacing x) s)

end Sys2Proof.Machine
end

