-- ==== Sys2Proof/Machine/FaultRequests.lean ====
section
/-!
DEFINITION. FAULTS, CLEAR FAULTS and FAULT POLICY (chapter 10).
-/

namespace Sys2Proof.Machine

/-- The bytes of a capture's header or subject that are used (R151, R163). -/
def CaptureInfo.bytes : CaptureInfo → List Byte
  | .header bytes => bytes
  | .staging c received total => byteOf c.val :: (natBytes2 received ++ natBytes2 total)
  | .lostNotice kind subject => [kind, subject]
  | .delivery c seq => byteOf c.val :: halfBytes seq

/-- R163: the capture fields of a fault record reply; zeros when no capture is held (R158). -/
def captureBytes : Option Capture → List Byte
  | none => List.replicate 15 0x00
  | some c =>
    [0x01, FaultKind.code c.kind] ++ wordBytes c.time ++ [byteOf (CaptureInfo.bytes c.info).length] ++
      padTo 7 (CaptureInfo.bytes c.info) ++ [flagByte c.further]

/-- R163: one kind's count, report flag and severity. -/
def kindBytes (r : KindRecord) : List Byte := [byteOf r.count, flagByte r.reported, Severity.code r.severity]

/-- R154, R163: the fault record as a reply carries it. -/
def faultRecordBytes (x : Station) (s : State) : List Byte :=
  let u := unitOf x s
  allFaultKinds.flatMap (fun k => kindBytes (KindRecords.get u.faults.kinds k)) ++ captureBytes u.faults.capture ++
    wordBytes s.timeBase ++ [Presence.code u.record.presence] ++ halfBytes u.record.epoch ++
    [causeByte u.record.lastCause]

/-- R153, R154: FAULTS. -/
def ownerFaults (x : Station) (s : State) : Handled := .reply s .ok (faultRecordBytes x s)

def handleFaults (x : Station) (f : Frame) (s : State) : State :=
  handleKnown x f emptyCheck (fun _ t => ownerFaults x t) s

def execFaults (x : Station) (tag : Byte) (payload : List Byte) (s : State) : Host.Outcome State Fault Refusal :=
  .next (runRequest x (requestFrame kindFaults tag payload) (handleFaults x) s)

/-- R155: the counts and the capture are cleared, report flags and severities stay. -/
def clearRecord (r : FaultRecord) : FaultRecord :=
  { kinds := allFaultKinds.foldl
      (fun t k => KindRecords.set t k { KindRecords.get t k with count := 0 }) r.kinds
    capture := none }

def setFaults (x : Station) (r : FaultRecord) (s : State) : State := setUnit x { unitOf x s with faults := r } s

/-- R155: CLEAR FAULTS. The reply carries the record as it stood before. -/
def ownerClearFaults (x : Station) (s : State) : Handled :=
  .reply (setFaults x (clearRecord (unitOf x s).faults) s) .ok (faultRecordBytes x s)

def handleClearFaults (x : Station) (f : Frame) (s : State) : State :=
  handleKnown x f emptyCheck (fun _ t => ownerClearFaults x t) s

def execClearFaults (x : Station) (tag : Byte) (payload : List Byte) (s : State) :
    Host.Outcome State Fault Refusal :=
  .next (runRequest x (requestFrame kindClearFaults tag payload) (handleClearFaults x) s)

/-- R156: a policy replaces the report flags and severities of the kinds, in code order. -/
def applyPolicy (r : FaultRecord) (policy : List (Bool × Severity)) : FaultRecord :=
  { r with
    kinds := (allFaultKinds.zip policy).foldl
      (fun t kp => KindRecords.set t kp.1
        { KindRecords.get t kp.1 with reported := kp.2.1, severity := kp.2.2 }) r.kinds }

/-- R156, R161: the policy in force, as in the request. -/
def policyBytes (r : FaultRecord) : List Byte :=
  allFaultKinds.flatMap fun k =>
    [flagByte (KindRecords.get r.kinds k).reported, Severity.code (KindRecords.get r.kinds k).severity]

/-- R156: FAULT POLICY. -/
def ownerFaultPolicy (x : Station) (policy : List (Bool × Severity)) (s : State) : Handled :=
  let r := applyPolicy (unitOf x s).faults policy
  .reply (setFaults x r s) .ok (policyBytes r)

def handleFaultPolicy (x : Station) (f : Frame) (s : State) : State :=
  handleKnown x f policyCheck (ownerFaultPolicy x) s

def execFaultPolicy (x : Station) (tag : Byte) (payload : List Byte) (s : State) :
    Host.Outcome State Fault Refusal :=
  .next (runRequest x (requestFrame kindFaultPolicy tag payload) (handleFaultPolicy x) s)

end Sys2Proof.Machine
end

