-- ==== Sys2Proof/Machine/Channels.lean ====
section
/-!
DEFINITION. OPEN, CLOSE and the record of INQUIRE CHANNEL (chapter 1).
-/

namespace Sys2Proof.Machine

/-- R161: the fields of an OPEN reply with status OK, ALREADY_OPEN or MISMATCH. Parameters not set are zeros (R158). -/
def openFieldsOf (ch : Channel) : List Byte :=
  let p := ch.params.getD { depth := 0, quota := 0, high := 0, low := 0 }
  [ChannelState.code (channelState ch), byteOf p.depth] ++ natBytes2 p.quota ++
    [byteOf p.high, byteOf p.low, byteOf (occupancy ch), flagByte ch.congested]

/-- R11, R12: the requesting station becomes holder of the named end, active. -/
def takeEnd (x : Station) (role : Role) (arrival : Bool) (ch : Channel) : Channel :=
  match role with
  | .send => { ch with sender := { holder := some x, dormant := false } }
  | .receive => { ch with receiver := { holder := some x, dormant := false }, arrivalOption := arrival }

/-- R11: an OPEN in the given form takes the channel out of CLOSED. -/
def openClosed (x : Station) (o : OpenFields) (p : Params) (s : State) : State :=
  let ch := takeEnd x o.role o.arrival { chanOf o.channel s with params := some p, nextSeq := 0 }
  offer x.peer (.channelOpened o.channel o.role) (setChan o.channel ch s)

/-- R12: the request's parameters match the channel's. -/
def paramsMatch (given : Option Params) (ch : Channel) : Bool :=
  match given with
  | none => true
  | some p => ch.params == some p

/-- R12, R13: the other end is taken, the peer is told, and the opener is told of the channel's contents. -/
def openSecond (x : Station) (o : OpenFields) (s : State) : State :=
  let s1 := setChan o.channel (takeEnd x o.role o.arrival (chanOf o.channel s)) s
  let s2 := offer x.peer (.channelOpened o.channel o.role) s1
  match o.role with
  | .send => tellSender x o.channel s2
  | .receive => tellReceiver x o.channel s2

/-- R10: OPEN, from check 3 on. -/
def ownerOpen (x : Station) (o : OpenFields) (s : State) : Handled :=
  let ch := chanOf o.channel s
  if holdsEnd x (endOf o.role.other ch) then .reply s .sameStation []
  else if holdsEnd x (endOf o.role ch) then .reply s .alreadyOpen (openFieldsOf ch)
  else if endHeld (endOf o.role ch) then .reply s .roleTaken []
  else if endHeld (endOf o.role.other ch) then
    if paramsMatch o.given ch then
      let s1 := openSecond x o s
      .reply s1 .ok (openFieldsOf (chanOf o.channel s1))
    else .reply s .mismatch (openFieldsOf ch)
  else
    match o.given with
    | none => .reply s .badField []
    | some p =>
      let s1 := openClosed x o p s
      .reply s1 .ok (openFieldsOf (chanOf o.channel s1))

def handleOpen (x : Station) (f : Frame) (s : State) : State := handleKnown x f openCheck (ownerOpen x) s

def execOpen (x : Station) (tag : Byte) (payload : List Byte) (s : State) : Host.Outcome State Fault Refusal :=
  .next (runRequest x (requestFrame kindOpen tag payload) (handleOpen x) s)

/-- R14: CLOSE. -/
def ownerClose (x : Station) (c : Fin 8) (role : Role) (s : State) : Handled :=
  if holdsEnd x (endOf role (chanOf c s)) then
    let (s1, r) := closeEnd x c role s
    .reply s1 .ok
      [ChannelState.code (channelState (chanOf c s1)), flagByte r.staged, byteOf r.returned, byteOf r.discarded]
  else .reply s .notOpen []

def handleClose (x : Station) (f : Frame) (s : State) : State :=
  handleKnown x f closeCheck (fun a t => ownerClose x a.1 a.2 t) s

def execClose (x : Station) (tag : Byte) (payload : List Byte) (s : State) : Host.Outcome State Fault Refusal :=
  .next (runRequest x (requestFrame kindClose tag payload) (handleClose x) s)

/-- R21, R163: the CHANNEL record. -/
def channelInquiry (c : Fin 8) (s : State) : List Byte :=
  let ch := chanOf c s
  let p := ch.params.getD { depth := 0, quota := 0, high := 0, low := 0 }
  [byteOf c.val, ChannelState.code (channelState ch), stationByte ch.sender.holder, flagByte ch.sender.dormant,
    stationByte ch.receiver.holder, flagByte ch.receiver.dormant, flagByte ch.arrivalOption, byteOf p.depth] ++
    natBytes2 p.quota ++ [byteOf p.high, byteOf p.low] ++ halfBytes ch.nextSeq ++
    [byteOf (queuedCount ch), byteOf (lentCount ch), byteOf ch.reserved, byteOf (occupancy ch)] ++
    natBytes2 ch.charged ++ [flagByte ch.congested] ++
    halfBytes ((ch.queue.head?.map (·.seq)).getD 0) ++ halfBytes ((ch.queue.head?.map (·.epoch)).getD 0) ++
    halfBytes ((ch.queue.getLast?.map (·.seq)).getD 0)

end Sys2Proof.Machine
end

