-- ==== Sys2Proof/Machine/Leases.lean ====
section
/-!
DEFINITION. ACQUIRE, RENEW, RELEASE, CANCEL, the record of INQUIRE LEASE, hold lapse and wait expiry (chapter 6).
-/

namespace Sys2Proof.Machine

/-- R161: holder station, holder client and remaining time of a hold; zeros for a FREE entry (R158). -/
def holderBytes (l : LeaseEntry) : List Byte :=
  match l.hold with
  | none => [0x00, 0x00]
  | some h => [Station.code h.station, byteOf h.client.val]

def remainingBytes (l : LeaseEntry) : List Byte :=
  match l.hold with
  | none => [0x00, 0x00]
  | some h => natBytes2 h.remaining

/-- Lease state: 00H FREE, 01H HELD (R158). -/
def leaseStateByte (l : LeaseEntry) : Byte := flagByte l.hold.isSome

/-- R94: the claimant is appended to the wait list. -/
def appendWaiter (x : Station) (a : AcquireFields) (s : State) : State :=
  let l := leaseOf a.entry s
  let w : Waiter := { station := x, client := a.client, duration := a.duration, wait := a.wait }
  raiseWaitCount x (setLease a.entry { l with waiters := l.waiters ++ [w] } s)

/-- R92 tests 3 to 9, on a HELD entry. -/
def acquireHeld (x : Station) (a : AcquireFields) (l : LeaseEntry) (s : State) : Handled :=
  if holdsLease x a.client l then .reply s .alreadyHeld (wordBytes l.fence ++ remainingBytes l)
  else
    match l.waiters.find? (isWaiter x a.client) with
    | some w =>
      .reply s .alreadyWaiting (byteOf (l.waiters.findIdx (isWaiter x a.client) + 1) :: natBytes2 w.wait)
    | none =>
      if a.wait = 0 then .reply s .busy (holderBytes l ++ remainingBytes l)
      else if exhausted l then .reply s .badField (wordBytes l.fence)
      else if Config.maxWaiters ≤ l.waiters.length then .reply s .waitFull (holderBytes l ++ remainingBytes l)
      else if Config.maxWaits ≤ s.waitCounts.get x then .reply s .waitLimit [byteOf (s.waitCounts.get x)]
      else
        let s1 := appendWaiter x a s
        .reply s1 .queued [byteOf (l.waiters.length + 1), byteOf (s1.waitCounts.get x)]

/-- R92: ACQUIRE. -/
def ownerAcquire (x : Station) (a : AcquireFields) (s : State) : Handled :=
  let l := leaseOf a.entry s
  match l.hold with
  | none =>
    if exhausted l then .reply s .badField (wordBytes l.fence)
    else
      let l1 := grantLease x a.client a.duration l
      .reply (setLease a.entry l1 s) .ok (wordBytes l1.fence ++ natBytes2 a.duration)
  | some _ => acquireHeld x a l s

def handleAcquire (x : Station) (f : Frame) (s : State) : State := handleKnown x f acquireCheck (ownerAcquire x) s

def execAcquire (x : Station) (tag : Byte) (payload : List Byte) (s : State) : Host.Outcome State Fault Refusal :=
  .next (runRequest x (requestFrame kindAcquire tag payload) (handleAcquire x) s)

/-- The last-holder record in a STALE reply: station, client, fence, ending; zeros when absent (R158). -/
def lastHolderBytes : Option LastHolder → List Byte
  | none => List.replicate 7 0x00
  | some r => [Station.code r.station, byteOf r.client.val] ++ wordBytes r.fence ++ [Ending.code r.ending]

/-- R95, R161: the fields of a STALE reply. -/
def staleFields (l : LeaseEntry) : List Byte :=
  [leaseStateByte l] ++ wordBytes l.fence ++ holderBytes l ++ lastHolderBytes l.last

/-- The tests of R95 on a fence. -/
inductive FenceTest where
  | neverIssued | current | stale
  deriving DecidableEq, Repr

/-- R95. -/
def fenceTest (x : Station) (client : Fin 8) (fence : Word) (l : LeaseEntry) : FenceTest :=
  if l.fence < fence then .neverIssued
  else if holdsLease x client l && fence == l.fence then .current
  else .stale

/-- R96: the hold timer restarts at the new duration. -/
def renewHold (duration : Nat) (l : LeaseEntry) : LeaseEntry :=
  { l with hold := l.hold.map fun h => { h with remaining := duration, granted := duration } }

/-- R95, R96: RENEW. -/
def ownerRenew (x : Station) (r : RenewFields) (s : State) : Handled :=
  let l := leaseOf r.entry s
  match fenceTest x r.client r.fence l with
  | .neverIssued => .reply s .badField (wordBytes l.fence)
  | .stale => .reply s .stale (staleFields l)
  | .current =>
    .reply (setLease r.entry (renewHold r.duration l) s) .ok (wordBytes l.fence ++ natBytes2 r.duration)

def handleRenew (x : Station) (f : Frame) (s : State) : State := handleKnown x f renewCheck (ownerRenew x) s

def execRenew (x : Station) (tag : Byte) (payload : List Byte) (s : State) : Host.Outcome State Fault Refusal :=
  .next (runRequest x (requestFrame kindRenew tag payload) (handleRenew x) s)

/-- R97, R161: the fields of an OK reply to RELEASE: the released fence, the state after the hand-on, and the new holder
and fence when a waiter was granted. -/
def releaseFields (fence : Word) (after : LeaseEntry) : List Byte :=
  wordBytes fence ++ [leaseStateByte after] ++ holderBytes after ++
    (if after.hold.isSome then wordBytes after.fence else List.replicate 4 0x00)

/-- R95, R97: RELEASE. -/
def ownerRelease (x : Station) (r : ReleaseFields) (s : State) : Handled :=
  let l := leaseOf r.entry s
  match fenceTest x r.client r.fence l with
  | .neverIssued => .reply s .badField (wordBytes l.fence)
  | .stale => .reply s .stale (staleFields l)
  | .current =>
    let s1 := endHold r.entry .released s
    .reply s1 .ok (releaseFields l.fence (leaseOf r.entry s1))

def handleRelease (x : Station) (f : Frame) (s : State) : State := handleKnown x f releaseCheck (ownerRelease x) s

def execRelease (x : Station) (tag : Byte) (payload : List Byte) (s : State) : Host.Outcome State Fault Refusal :=
  .next (runRequest x (requestFrame kindRelease tag payload) (handleRelease x) s)

/-- A waiter leaves the list (R98, R101). -/
def removeWaiter (e : Fin 16) (x : Station) (client : Fin 8) (s : State) : State :=
  let l := leaseOf e s
  lowerWaitCount x (setLease e { l with waiters := l.waiters.filter fun w => !(isWaiter x client w) } s)

/-- R98, R161: the fields of a NOT_WAITING reply. -/
def notWaitingFields (x : Station) (client : Fin 8) (l : LeaseEntry) : List Byte :=
  [leaseStateByte l, flagByte (holdsLease x client l)] ++
    (if holdsLease x client l then wordBytes l.fence else List.replicate 4 0x00)

/-- R98: CANCEL. -/
def ownerCancel (x : Station) (e : Fin 16) (client : Fin 8) (s : State) : Handled :=
  let l := leaseOf e s
  if l.waiters.any (isWaiter x client) then
    .reply (removeWaiter e x client s) .ok [byteOf (l.waiters.findIdx (isWaiter x client) + 1)]
  else .reply s .notWaiting (notWaitingFields x client l)

def handleCancel (x : Station) (f : Frame) (s : State) : State :=
  handleKnown x f cancelCheck (fun a t => ownerCancel x a.1 a.2 t) s

def execCancel (x : Station) (tag : Byte) (payload : List Byte) (s : State) : Host.Outcome State Fault Refusal :=
  .next (runRequest x (requestFrame kindCancel tag payload) (handleCancel x) s)

/-- R163: a waiter slot of the LEASE record. -/
def waiterSlot (w : Waiter) : List Byte :=
  [Station.code w.station, byteOf w.client.val] ++ natBytes2 w.duration ++ natBytes2 w.wait

/-- R104, R163: the LEASE record. -/
def leaseInquiry (x : Station) (e : Fin 16) (s : State) : List Byte :=
  let l := leaseOf e s
  [byteOf e.val, leaseStateByte l] ++ holderBytes l ++ remainingBytes l ++
    natBytes2 ((l.hold.map (·.granted)).getD 0) ++ wordBytes l.fence ++ [byteOf l.waiters.length] ++
    padTo 24 (l.waiters.flatMap waiterSlot) ++
    (match l.last with
      | none => List.replicate 7 0x00
      | some r => [Ending.code r.ending, Station.code r.station, byteOf r.client.val] ++ wordBytes r.fence) ++
    [flagByte (exhausted l), byteOf (s.waitCounts.get x)]

/-- R100: the hold timer of an entry reaches zero. After a RELEASE or a RENEW that was taken first the timer is removed
or runs again, so the lapse does not happen (R102). -/
def lapseHold (e : Fin 16) (s : State) : State :=
  let l := leaseOf e s
  match l.hold with
  | none => s
  | some h =>
    if h.remaining = 0 then
      handOn e (offer h.station (.leaseLapsed e h.client l.fence) (setLease e (recordEnding .lapsed l) s))
    else s

def execHoldLapse (e : Fin 16) (s : State) : Host.Outcome State Fault Refusal :=
  .next (runEvent (lapseHold e) s)

/-- R101: the wait timer of a waiter reaches zero. For a claimant whose wait timer is gone or runs the expiry does not
happen (R102). -/
def expireWait (e : Fin 16) (x : Station) (client : Fin 8) (s : State) : State :=
  if (leaseOf e s).waiters.any fun w => isWaiter x client w && w.wait == 0 then
    offer x (.leaseWaitExpired e client) (removeWaiter e x client s)
  else s

def execWaitExpiry (e : Fin 16) (x : Station) (client : Fin 8) (s : State) : Host.Outcome State Fault Refusal :=
  .next (runEvent (expireWait e x client) s)

end Sys2Proof.Machine
end

