-- ==== Sys2Proof/Machine/Presence.lean ====
section
/-!
DEFINITION. Station presence: JOIN, LEAVE, KEEPALIVE, INQUIRE STATION's record, and the keepalive lapse (chapter 8).
-/

namespace Sys2Proof.Machine

/-- R124: the epoch rises by one and wraps from 65,535 to 1. -/
def nextEpoch (e : Half) : Half := if e = 0xFFFF then 1 else e + 1

/-- R125 steps 1 to 3. -/
def joinUnit (j : JoinFields) (u : StationUnit) : StationUnit :=
  { u with
    record := { u.record with
                presence := .present
                epoch := nextEpoch u.record.epoch
                period := j.period
                keepaliveTimer := if j.period = 0 then none else some j.period
                identity := j.identity
                joinMode := some j.mode }
    signals := resetSignals
    nextNotice := 0 }

/-- R125 from ABSENT: the JOIN is carried out. -/
def joinStation (x : Station) (j : JoinFields) (s : State) : State :=
  let s1 := setUnit x (joinUnit j (unitOf x s)) s
  let s2 := joinEnds x j.mode s1
  offer x.peer (.peerJoined (unitOf x s2).record.epoch j.identity) s2

/-- The peer's departure that the departure with cause REJOIN has caused by a SEVERE NOTICE_LOSS. R132 makes it when the
departure is complete, with the station ABSENT, and also when the event is complete, which for a REJOIN is after the JOIN
(R126): a free value says which (notes/assumptions/33.md). What is not done here `settle` does. -/
def settlePeerOfRejoin (x : Station) (s : State) : State :=
  if s.severe.contains x.peer then
    let s1 := { s with freeTick := s.freeTick + 1 }
    if Config.peerDepartsBeforeJoin s.freeTick then departFault x.peer s1 else s1
  else s

/-- R126: a JOIN from a PRESENT station first makes it depart with cause REJOIN. -/
def departForRejoin (x : Station) (s : State) : State :=
  if isPresent x s then settlePeerOfRejoin x (depart x .rejoin s) else s

/-- R125, R126: JOIN. The number of ends resumed or closed is the number of the station's dormant ends. -/
def ownerJoin (x : Station) (j : JoinFields) (s : State) : Handled :=
  let s1 := departForRejoin x s
  let s2 := joinStation x j s1
  .reply s2 .ok
    (halfBytes (unitOf x s2).record.epoch ++ [causeByte (unitOf x s1).record.lastCause] ++
      [Presence.code (unitOf x.peer s2).record.presence] ++ halfBytes (unitOf x.peer s2).record.epoch ++
      [byteOf (dormantEnds x s1)])

def handleJoin (x : Station) (f : Frame) (s : State) : State := handleKnown x f joinCheck (ownerJoin x) s

def execJoin (x : Station) (tag : Byte) (payload : List Byte) (s : State) : Host.Outcome State Fault Refusal :=
  .next (runRequest x (requestFrame kindJoin tag payload) (handleJoin x) s)

/-- R127: LEAVE. The reply is handed to the transmitter between steps 5 and 6 of the departure and is not cached. -/
def ownerLeave (x : Station) (f : Frame) (s : State) : Handled :=
  let s1 := departFirst x s
  let s2 := departEnds x .left s1
  let s3 := departLeases x s2
  let r := replyFrame f .ok
    (halfBytes (unitOf x s).record.epoch ++ [byteOf (endsHeld x s1), byteOf (leasesHeld x s2)])
  .finished (departUnit x .left (transmit x r false s3))

def handleLeave (x : Station) (f : Frame) (s : State) : State :=
  handleKnown x f emptyCheck (fun _ t => ownerLeave x f t) s

def execLeave (x : Station) (tag : Byte) (payload : List Byte) (s : State) : Host.Outcome State Fault Refusal :=
  .next (runRequest x (requestFrame kindLeave tag payload) (handleLeave x) s)

/-- R129: KEEPALIVE. -/
def ownerKeepalive (x : Station) (s : State) : Handled :=
  let u := unitOf x s
  let p := unitOf x.peer s
  .reply s .ok
    (halfBytes u.record.epoch ++ natBytes2 u.record.period ++ [byteOf u.notices.length] ++
      [Presence.code p.record.presence] ++ halfBytes p.record.epoch)

def handleKeepalive (x : Station) (f : Frame) (s : State) : State :=
  handleKnown x f emptyCheck (fun _ t => ownerKeepalive x t) s

def execKeepalive (x : Station) (tag : Byte) (payload : List Byte) (s : State) :
    Host.Outcome State Fault Refusal :=
  .next (runRequest x (requestFrame kindKeepalive tag payload) (handleKeepalive x) s)

/-- R136, R163: one station's part of the STATION record. -/
def stationRecordBytes (r : StationRecord) : List Byte :=
  [Presence.code r.presence] ++ halfBytes r.epoch ++ natBytes2 r.period ++ natBytes2 (r.keepaliveTimer.getD 0) ++
    wordBytes r.identity ++ [joinModeByte r.joinMode, causeByte r.lastCause]

/-- R136: the STATION record. -/
def stationInquiry (x : Station) (s : State) : List Byte :=
  stationRecordBytes (unitOf .a s).record ++ stationRecordBytes (unitOf .b s).record ++
    [byteOf (unitOf x s).notices.length, byteOf (unitOf x s).staging.length, byteOf (endsHeld x s)]

/-- R130: the keepalive timer reaches zero. A frame that completed first has restarted it, and the lapse does not
happen (R128, R135). -/
def lapseKeepalive (x : Station) (s : State) : State :=
  if isPresent x s && (unitOf x s).record.keepaliveTimer == some 0 then depart x .lapsed s else s

def execKeepaliveLapse (x : Station) (s : State) : Host.Outcome State Fault Refusal :=
  .next (runEvent (lapseKeepalive x) s)

end Sys2Proof.Machine
end

