-- ==== Sys2Proof/Machine/Inquiries.lean ====
section
/-!
DEFINITION. INQUIRE with its four subjects, and IDENTIFY (R21, R34, R104, R136, R149).
-/

namespace Sys2Proof.Machine

/-- R34, R163: the STORE record. -/
def storeInquiry (s : State) : List Byte :=
  let h := s.store.health
  natBytes2 (freeBlockCount s) ++ natBytes2 h.corrected ++ natBytes2 h.uncorrectable ++
    (match h.last with
      | none => List.replicate 6 0x00
      | some r => [0x01, byteOf r.block.val, byteOf r.channel.val, flagByte r.staged] ++ halfBytes r.seq)

/-- R21, R34, R104, R136: the reply carries the subject code and the record of the subject (R163). -/
def ownerInquire (x : Station) (q : InquireFields) (s : State) : Handled :=
  match q with
  | .channel c => .reply s .ok (0x01 :: channelInquiry c s)
  | .lease e => .reply s .ok (0x02 :: leaseInquiry x e s)
  | .store => .reply s .ok (0x03 :: storeInquiry s)
  | .station => .reply s .ok (0x04 :: stationInquiry x s)

def handleInquire (x : Station) (f : Frame) (s : State) : State := handleKnown x f inquireCheck (ownerInquire x) s

def execInquireChannel (x : Station) (tag : Byte) (payload : List Byte) (s : State) :
    Host.Outcome State Fault Refusal :=
  .next (runRequest x (requestFrame kindInquire tag payload) (handleInquire x) s)

def execInquireStore (x : Station) (tag : Byte) (payload : List Byte) (s : State) :
    Host.Outcome State Fault Refusal :=
  .next (runRequest x (requestFrame kindInquire tag payload) (handleInquire x) s)

def execInquireLease (x : Station) (tag : Byte) (payload : List Byte) (s : State) :
    Host.Outcome State Fault Refusal :=
  .next (runRequest x (requestFrame kindInquire tag payload) (handleInquire x) s)

def execInquireStation (x : Station) (tag : Byte) (payload : List Byte) (s : State) :
    Host.Outcome State Fault Refusal :=
  .next (runRequest x (requestFrame kindInquire tag payload) (handleInquire x) s)

/-- R149, R161: the fields of the IDENTIFY reply. -/
def identifyFields (s : State) : List Byte :=
  halfBytes Config.vendorCode ++ halfBytes Config.partCode ++
    [Config.revision, strapByte s.straps.a, strapByte s.straps.b, byteOf 8] ++ natBytes2 256 ++ [byteOf 16]

/-- R149: IDENTIFY. -/
def ownerIdentify (s : State) : Handled := .reply s .ok (identifyFields s)

def handleIdentify (x : Station) (f : Frame) (s : State) : State :=
  handleKnown x f emptyCheck (fun _ t => ownerIdentify t) s

def execIdentify (x : Station) (tag : Byte) (payload : List Byte) (s : State) : Host.Outcome State Fault Refusal :=
  .next (runRequest x (requestFrame kindIdentify tag payload) (handleIdentify x) s)

end Sys2Proof.Machine
end

