-- ==== Sys2Proof/Machine/Notices.lean ====
section
/-!
DEFINITION. COLLECT, RAISE, ACCEPT and MASK (chapter 7).
-/

namespace Sys2Proof.Machine

/-- R113, R114: the records of the entries taken, numbered from `next` on. -/
def numberNotices : Half → List Notice → List Byte
  | _, [] => []
  | next, n :: ns => noticeRecord next n ++ numberNotices (next + 1) ns

/-- R113: the m oldest entries leave the queue and take notice numbers. -/
def takeNotices (m : Nat) (u : StationUnit) : StationUnit :=
  { u with
    notices := u.notices.drop m
    nextNotice := u.nextNotice + BitVec.ofNat 16 (min m u.notices.length) }

/-- R113: COLLECT. -/
def ownerCollect (x : Station) (m : Nat) (s : State) : Handled :=
  let u := unitOf x s
  .reply (setUnit x (takeNotices m u) s) .ok
    ([byteOf (min m u.notices.length), byteOf (u.notices.length - m)] ++
      numberNotices u.nextNotice (u.notices.take m))

def handleCollect (x : Station) (f : Frame) (s : State) : State := handleKnown x f collectCheck (ownerCollect x) s

def execCollect (x : Station) (tag : Byte) (payload : List Byte) (s : State) : Host.Outcome State Fault Refusal :=
  .next (runRequest x (requestFrame kindCollect tag payload) (handleCollect x) s)

/-- The flags named that are at 15 (R119). -/
def fullFlags (flags : Half) (g : SignalSet) : Half :=
  flagSet fun f => named flags f && signalCount g f == Config.signalLimit

/-- R119 step 1: the named flags are raised. -/
def raiseFlags (flags : Half) (g : SignalSet) : SignalSet :=
  { g with
    counts := g.counts.mapIdx fun f v => if named flags f then min Config.signalLimit (v + 1) else v
    saturated := g.saturated || fullFlags flags g != 0 }

def setSignals (x : Station) (g : SignalSet) (s : State) : State :=
  setUnit x { unitOf x s with signals := g } s

/-- R119 step 2, R121: SIGNALS_PENDING is offered when an unmasked flag has a non-zero count. -/
def offerSignals (x : Station) (s : State) : State :=
  if anyUnmasked (unitOf x s).signals then offer x .signalsPending s else s

/-- R111: SIGNALS_PENDING is withdrawn when no unmasked flag has a non-zero count. -/
def withdrawSignals (x : Station) (s : State) : State :=
  if anyUnmasked (unitOf x s).signals then s else withdraw x .signalsPending s

/-- R119: RAISE. -/
def ownerRaise (x : Station) (flags : Half) (s : State) : Handled :=
  let p := unitOf x.peer s
  if isPresent x.peer s then
    .reply (offerSignals x.peer (setSignals x.peer (raiseFlags flags p.signals) s)) .ok
      (halfBytes p.record.epoch ++ halfBytes (fullFlags flags p.signals))
  else .reply s .peerAbsent []

def handleRaise (x : Station) (f : Frame) (s : State) : State := handleKnown x f raiseCheck (ownerRaise x) s

def execRaise (x : Station) (tag : Byte) (payload : List Byte) (s : State) : Host.Outcome State Fault Refusal :=
  .next (runRequest x (requestFrame kindRaise tag payload) (handleRaise x) s)

/-- R120 steps 2 and 3. -/
def acceptFlags (flags : Half) (g : SignalSet) : SignalSet :=
  { g with
    counts := g.counts.mapIdx fun f v => if named flags f then 0 else v
    saturated := false }

/-- R120 step 1: the counts an ACCEPT reports. -/
def acceptedCounts (flags : Half) (g : SignalSet) : List Nat :=
  (List.range 16).map fun f => if named flags f then signalCount g f else 0

/-- R120: ACCEPT. -/
def ownerAccept (x : Station) (flags : Half) (s : State) : Handled :=
  let g := (unitOf x s).signals
  .reply (withdrawSignals x (setSignals x (acceptFlags flags g) s)) .ok
    (countBytes (acceptedCounts flags g) ++ [flagByte g.saturated])

def handleAccept (x : Station) (f : Frame) (s : State) : State := handleKnown x f flagsCheck (ownerAccept x) s

def execAccept (x : Station) (tag : Byte) (payload : List Byte) (s : State) : Host.Outcome State Fault Refusal :=
  .next (runRequest x (requestFrame kindAccept tag payload) (handleAccept x) s)

/-- R121: some flag that was masked and is unmasked under `mask` has a non-zero count. -/
def newlyPending (mask : Half) (g : SignalSet) : Bool :=
  (List.range 16).any fun f => named g.mask f && !(named mask f) && signalCount g f != 0

/-- R121: the mask is replaced and SIGNALS_PENDING is offered or withdrawn. -/
def applyMask (x : Station) (mask : Half) (s : State) : State :=
  let g := (unitOf x s).signals
  let s1 := setSignals x { g with mask := mask } s
  if newlyPending mask g then offer x .signalsPending s1 else withdrawSignals x s1

/-- R121: MASK. -/
def ownerMask (x : Station) (mask : Half) (s : State) : Handled :=
  .reply (applyMask x mask s) .ok (halfBytes mask ++ halfBytes (nonZeroFlags (unitOf x s).signals))

def handleMask (x : Station) (f : Frame) (s : State) : State := handleKnown x f flagsCheck (ownerMask x) s

def execMask (x : Station) (tag : Byte) (payload : List Byte) (s : State) : Host.Outcome State Fault Refusal :=
  .next (runRequest x (requestFrame kindMask tag payload) (handleMask x) s)

end Sys2Proof.Machine
end

