-- ==== Sys2Proof/Machine/Posting.lean ====
section
/-!
DEFINITION. POST, SEGMENT, ABANDON and the segment timeout (chapter 3).
-/

namespace Sys2Proof.Machine

/-- R37: the admission test for a message of k blocks: none when it is admitted, or the refusal and its fields. -/
def admission (ch : Channel) (k : Nat) (s : State) : Option (Status × List Byte) :=
  match ch.params with
  | none => some (.full, [byteOf (occupancy ch), 0x00])
  | some p =>
    if channelFull p ch then some (.full, [byteOf (occupancy ch), byteOf p.depth])
    else if p.quota < ch.charged + k then some (.quota, natBytes2 ch.charged ++ [byteOf k] ++ natBytes2 p.quota)
    else if freeBlockCount s < k then some (.noBlocks, natBytes2 (freeBlockCount s) ++ [byteOf k])
    else none

/-- R25, R27: the blocks of an admitted message, with the request's bytes written from byte 0 on. -/
def allocateAndWrite (k : Nat) (data : List Byte) (s : State) : State × List (Fin 256) :=
  let (blocks, st) := allocate k s.store
  (setStore (writeMessage 0 0 data blocks st) s, blocks)

/-- R38: the admitted message is written, appended and charged; congestion is evaluated and ARRIVAL offered. -/
def postMessage (x : Station) (c : Fin 8) (data : List Byte) (s : State) : State :=
  let k := blocksNeeded data.length
  let (s1, blocks) := allocateAndWrite k data s
  let ch := chanOf c s1
  let m : Message :=
    { seq := ch.nextSeq, length := data.length, blocks := blocks, state := .queued, redelivered := false,
      damaged := false, epoch := (unitOf x s1).record.epoch }
  let s2 := setChan c { appendMessage m ch with charged := ch.charged + k } s1
  offerArrival c (evalCongestion c s2)

/-- R36 to R38: POST. -/
def ownerPost (x : Station) (c : Fin 8) (data : List Byte) (s : State) : Handled :=
  let ch := chanOf c s
  if holdsActive x ch.sender then
    match admission ch (blocksNeeded data.length) s with
    | some (status, fieldBytes) => .reply s status fieldBytes
    | none =>
      let s1 := postMessage x c data s
      .reply s1 .ok (halfBytes ch.nextSeq ++ [byteOf (occupancy (chanOf c s1))])
  else .reply s .notOpen []

def handlePost (x : Station) (f : Frame) (s : State) : State :=
  handleKnown x f postCheck (fun a t => ownerPost x a.1 a.2 t) s

def execPost (x : Station) (tag : Byte) (payload : List Byte) (s : State) : Host.Outcome State Fault Refusal :=
  .next (runRequest x (requestFrame kindPost tag payload) (handlePost x) s)

/-- R43: an admitted FIRST creates a staging record, reserves a place and charges its blocks. -/
def startStaging (x : Station) (c : Fin 8) (total : Nat) (data : List Byte) (s : State) : State :=
  let k := blocksNeeded total
  let (s1, blocks) := allocateAndWrite k data s
  let r : Staging :=
    { channel := c, total := total, received := data.length, blocks := blocks, damaged := false,
      timer := Config.segmentTime }
  let u := unitOf x s1
  let s2 := setUnit x { u with staging := u.staging ++ [r] } s1
  let ch := chanOf c s2
  evalCongestion c (setChan c { ch with reserved := 1, charged := ch.charged + k } s2)

/-- R42, R43: SEGMENT FIRST, after the sender-end check. -/
def ownerSegmentFirst (x : Station) (c : Fin 8) (total : Nat) (data : List Byte) (s : State) : Handled :=
  if (stagingOn x c s).isSome then .reply s .stagingBusy []
  else if Config.maxStaging ≤ (unitOf x s).staging.length then .reply s .stagingLimit []
  else if total < data.length then .reply s .overlength (natBytes2 data.length ++ natBytes2 total)
  else
    match admission (chanOf c s) (blocksNeeded total) s with
    | some (status, fieldBytes) => .reply s status fieldBytes
    | none => .reply (startStaging x c total data s) .ok (natBytes2 data.length ++ natBytes2 total)

/-- The station's staging record on the channel of `r` becomes `r`. -/
def replaceStaging (x : Station) (r : Staging) (s : State) : State :=
  let u := unitOf x s
  setUnit x { u with staging := u.staging.map fun t => if t.channel = r.channel then r else t } s

/-- R44, R28: a segment's bytes are added to a staging record, with the merge read where it begins inside a block. -/
def addSegment (x : Station) (r : Staging) (data : List Byte) (s : State) : State × Staging :=
  let (st, bad) := writeSegment r.channel r.blocks r.received data s.store
  let r1 := { r with received := r.received + data.length, damaged := r.damaged || bad }
  (replaceStaging x r1 (setStore st s), r1)

/-- R44: SEGMENT MIDDLE, after the sender-end check. -/
def ownerSegmentMiddle (x : Station) (c : Fin 8) (data : List Byte) (s : State) : Handled :=
  match stagingOn x c s with
  | none => .reply s .noStaging []
  | some r =>
    if r.total < r.received + data.length then
      .reply (abandonStaging x r s) .overlength (natBytes2 r.received ++ natBytes2 r.total)
    else
      let (s1, r1) := addSegment x r data s
      .reply (replaceStaging x { r1 with timer := Config.segmentTime } s1) .ok
        (natBytes2 r1.received ++ natBytes2 r1.total)

/-- R46: a completed staging record becomes a QUEUED message; O and charged are unchanged and congestion is not
evaluated. -/
def completeStaging (x : Station) (r : Staging) (s : State) : State :=
  let ch := chanOf r.channel s
  let m : Message :=
    { seq := ch.nextSeq, length := r.total, blocks := r.blocks, state := .queued, redelivered := false,
      damaged := r.damaged, epoch := (unitOf x s).record.epoch }
  let s1 := setChan r.channel { appendMessage m ch with reserved := 0 } s
  let u := unitOf x s1
  offerArrival r.channel (setUnit x { u with staging := u.staging.filter fun t => t.channel != r.channel } s1)

/-- R45, R46: SEGMENT LAST, after the sender-end check. -/
def ownerSegmentLast (x : Station) (c : Fin 8) (data : List Byte) (s : State) : Handled :=
  match stagingOn x c s with
  | none => .reply s .noStaging []
  | some r =>
    if r.total < r.received + data.length then
      .reply (abandonStaging x r s) .overlength (natBytes2 r.received ++ natBytes2 r.total)
    else if r.received + data.length < r.total then
      .reply (abandonStaging x r s) .short (natBytes2 (r.received + data.length) ++ natBytes2 r.total)
    else
      let (s1, r1) := addSegment x r data s
      let s2 := completeStaging x r1 s1
      .reply s2 .ok (halfBytes (chanOf c s).nextSeq ++ [byteOf (occupancy (chanOf c s2))])

/-- The channel a SEGMENT names. -/
def SegmentFields.channel : SegmentFields → Fin 8
  | .first c _ _ => c
  | .middle c _ => c
  | .last c _ => c

/-- R41: SEGMENT: the sender-end check of R4, then the control's own rule. -/
def ownerSegment (x : Station) (g : SegmentFields) (s : State) : Handled :=
  if holdsActive x (chanOf (SegmentFields.channel g) s).sender then
    match g with
    | .first c total data => ownerSegmentFirst x c total data s
    | .middle c data => ownerSegmentMiddle x c data s
    | .last c data => ownerSegmentLast x c data s
  else .reply s .notOpen []

def handleSegment (x : Station) (f : Frame) (s : State) : State := handleKnown x f segmentCheck (ownerSegment x) s

def execSegmentFirst (x : Station) (tag : Byte) (payload : List Byte) (s : State) :
    Host.Outcome State Fault Refusal :=
  .next (runRequest x (requestFrame kindSegment tag payload) (handleSegment x) s)

def execSegmentMiddle (x : Station) (tag : Byte) (payload : List Byte) (s : State) :
    Host.Outcome State Fault Refusal :=
  .next (runRequest x (requestFrame kindSegment tag payload) (handleSegment x) s)

def execSegmentLast (x : Station) (tag : Byte) (payload : List Byte) (s : State) :
    Host.Outcome State Fault Refusal :=
  .next (runRequest x (requestFrame kindSegment tag payload) (handleSegment x) s)

/-- R48: ABANDON. -/
def ownerAbandon (x : Station) (c : Fin 8) (s : State) : Handled :=
  if holdsActive x (chanOf c s).sender then
    match stagingOn x c s with
    | none => .reply s .noStaging []
    | some r => .reply (abandonStaging x r s) .ok (natBytes2 r.received ++ natBytes2 r.total)
  else .reply s .notOpen []

def handleAbandon (x : Station) (f : Frame) (s : State) : State := handleKnown x f channelCheck (ownerAbandon x) s

def execAbandon (x : Station) (tag : Byte) (payload : List Byte) (s : State) : Host.Outcome State Fault Refusal :=
  .next (runRequest x (requestFrame kindAbandon tag payload) (handleAbandon x) s)

/-- R50: a segment timer reaches zero. A segment taken first restarts the timer or ends the record, and the expiry does
not happen (R51). -/
def expireStaging (x : Station) (c : Fin 8) (s : State) : State :=
  match stagingOn x c s with
  | none => s
  | some r =>
    if r.timer = 0 then
      recordFault x .stagingExpired (.staging c r.received r.total)
        (offer x (.stagingExpired c r.received r.total) (abandonStaging x r s))
    else s

def execSegmentTimeout (x : Station) (c : Fin 8) (s : State) : Host.Outcome State Fault Refusal :=
  .next (runEvent (expireStaging x c) s)

end Sys2Proof.Machine
end

