-- ==== Sys2Proof/Machine/Taking.lean ====
section
/-!
DEFINITION. A frame of any kind: the dispatch table of R148 and R159, the unknown kinds, and the command that a frame in
an input queue spells.
-/

namespace Sys2Proof.Machine

/-- R148, R159: a frame is handled by its kind. -/
def handleFrame (x : Station) (f : Frame) (s : State) : State :=
  if f.kind = kindJoin then handleJoin x f s
  else if f.kind = kindLeave then handleLeave x f s
  else if f.kind = kindKeepalive then handleKeepalive x f s
  else if f.kind = kindIdentify then handleIdentify x f s
  else if f.kind = kindInquire then handleInquire x f s
  else if f.kind = kindCollect then handleCollect x f s
  else if f.kind = kindRaise then handleRaise x f s
  else if f.kind = kindAccept then handleAccept x f s
  else if f.kind = kindMask then handleMask x f s
  else if f.kind = kindOpen then handleOpen x f s
  else if f.kind = kindClose then handleClose x f s
  else if f.kind = kindPost then handlePost x f s
  else if f.kind = kindSegment then handleSegment x f s
  else if f.kind = kindAbandon then handleAbandon x f s
  else if f.kind = kindFetch then handleFetch x f s
  else if f.kind = kindRead then handleRead x f s
  else if f.kind = kindRetire then handleRetire x f s
  else if f.kind = kindReturn then handleReturn x f s
  else if f.kind = kindPurge then handlePurge x f s
  else if f.kind = kindDraw then handleDraw x f s
  else if f.kind = kindHalt then handleHalt x f s
  else if f.kind = kindAcquire then handleAcquire x f s
  else if f.kind = kindRenew then handleRenew x f s
  else if f.kind = kindRelease then handleRelease x f s
  else if f.kind = kindCancel then handleCancel x f s
  else if f.kind = kindFaults then handleFaults x f s
  else if f.kind = kindClearFaults then handleClearFaults x f s
  else if f.kind = kindFaultPolicy then handleFaultPolicy x f s
  else handleUnknown x f s

/-- R148 step 2: a request of unknown kind. An operand that is a known kind is handled as that kind (WellFormed refuses
such a command). -/
def execUnknownKindRequest (x : Station) (kind tag : Byte) (payload : List Byte) (s : State) :
    Host.Outcome State Fault Refusal :=
  .next (runRequest x (requestFrame kind tag payload) (handleFrame x) s)

/-- The row of an INQUIRE frame, by its subject. A frame whose subject is no valid code goes with the first row
(notes/assumptions/18.md). -/
def inquireCommand (x : Station) (tag : Byte) (payload : List Byte) : Instr :=
  if payload.head? = some 0x02 then .inquireLease x tag payload
  else if payload.head? = some 0x03 then .inquireStore x tag payload
  else if payload.head? = some 0x04 then .inquireStation x tag payload
  else .inquireChannel x tag payload

/-- The row of a SEGMENT frame, by its control byte (notes/assumptions/18.md). -/
def segmentCommand (x : Station) (tag : Byte) (payload : List Byte) : Instr :=
  if payload[1]? = some 0x02 then .segmentMiddle x tag payload
  else if payload[1]? = some 0x03 then .segmentLast x tag payload
  else .segmentFirst x tag payload

/-- The row of a FETCH frame, by its mode (notes/assumptions/18.md). -/
def fetchCommand (x : Station) (tag : Byte) (payload : List Byte) : Instr :=
  if payload[1]? = some 0x02 then .fetchPeek x tag payload else .fetchLend x tag payload

/-- The request command that a frame of station `x` spells (R159). -/
def requestCommand (x : Station) (kind tag : Byte) (payload : List Byte) : Instr :=
  if kind = kindJoin then .join x tag payload
  else if kind = kindLeave then .leave x tag payload
  else if kind = kindKeepalive then .keepalive x tag payload
  else if kind = kindIdentify then .identify x tag payload
  else if kind = kindInquire then inquireCommand x tag payload
  else if kind = kindCollect then .collect x tag payload
  else if kind = kindRaise then .raise x tag payload
  else if kind = kindAccept then .accept x tag payload
  else if kind = kindMask then .mask x tag payload
  else if kind = kindOpen then .open_ x tag payload
  else if kind = kindClose then .close x tag payload
  else if kind = kindPost then .post x tag payload
  else if kind = kindSegment then segmentCommand x tag payload
  else if kind = kindAbandon then .abandon x tag payload
  else if kind = kindFetch then fetchCommand x tag payload
  else if kind = kindRead then .read x tag payload
  else if kind = kindRetire then .retire x tag payload
  else if kind = kindReturn then .return_ x tag payload
  else if kind = kindPurge then .purge x tag payload
  else if kind = kindDraw then .draw x tag payload
  else if kind = kindHalt then .halt x tag payload
  else if kind = kindAcquire then .acquire x tag payload
  else if kind = kindRenew then .renew x tag payload
  else if kind = kindRelease then .release x tag payload
  else if kind = kindCancel then .cancel x tag payload
  else if kind = kindFaults then .faults x tag payload
  else if kind = kindClearFaults then .clearFaults x tag payload
  else if kind = kindFaultPolicy then .faultPolicy x tag payload
  else .unknownKindRequest x kind tag payload

end Sys2Proof.Machine
end

