-- ==== Sys2Proof/Machine/Idle.lean ====
section
/-!
DEFINITION. What the part does when no command waits (notes/assumptions/4.md): the events that are due inside it, and a
millisecond of the time base.
-/

namespace Sys2Proof.Machine

/-! ### The events that are due -/

/-- R145: the station unit takes the oldest frame of its input queue. -/
def dueTake (x : Station) (s : State) : List Instr :=
  match (linkOf x s).inQueue with
  | [] => []
  | f :: _ => if mayTake x s then [requestCommand x f.kind f.tag f.payload] else []

/-- R144, R78: the frame being sent has been sent. -/
def dueTransmission (x : Station) (s : State) : List Instr :=
  if !(linkOf x s).tx.isEmpty && (linkOf x s).txClocks == 0 then
    [if sendingItem x s then .itemBoundary x else .transmissionEnd x]
  else []

/-- R140: the gap limit has passed since the last character of the frame in reception (notes/assumptions/16.md). -/
def dueGap (x : Station) (s : State) : List Instr :=
  let rx := (linkOf x s).rx
  if rx.state != .hunt && !rx.inBreak && rx.lastCharacter != s.timeBase then [.gapLimitExpiry x] else []

/-- R78: the spacing timer has run out. -/
def dueSpacing (x : Station) (s : State) : List Instr :=
  match (unitOf x s).draw with
  | none => []
  | some d => if d.phase = .spacing 0 then [.spacingExpiry x] else []

/-- R50: a segment timer has run out. -/
def dueSegments (x : Station) (s : State) : List Instr :=
  ((unitOf x s).staging.filter fun r => r.timer == 0).map fun r => .segmentTimeout x r.channel

/-- R130: the keepalive timer has run out. -/
def dueKeepalive (x : Station) (s : State) : List Instr :=
  if (unitOf x s).record.keepaliveTimer = some 0 then [.keepaliveLapse x] else []

/-- R100: the hold timer of an entry has run out. -/
def dueHold (s : State) (e : Fin 16) : List Instr :=
  match (leaseOf e s).hold with
  | none => []
  | some h => if h.remaining = 0 then [.holdLapse e] else []

/-- R101: wait timers of an entry have run out. -/
def dueWaits (s : State) (e : Fin 16) : List Instr :=
  ((leaseOf e s).waiters.filter fun w => w.wait == 0).map fun w => .waitExpiry e w.station w.client

/-- The events of one station's link and unit that are due. -/
def dueAt (s : State) (x : Station) : List Instr :=
  dueTake x s ++ dueTransmission x s ++ dueGap x s ++ dueSpacing x s ++ dueSegments x s ++ dueKeepalive x s

/-- R35: the store initialisation completes at its bound at the latest, and before it at a moment the manual leaves open
(notes/assumptions/22.md). -/
def dueInit (s : State) : List Instr :=
  if decide (Config.initLimit ≤ s.timeBase.toNat) || Config.initCompletes s.freeTick then [.storeInitComplete] else []

/-- Every event that is due inside the part. -/
def dueEvents (s : State) : List Instr :=
  match s.phase with
  | .inReset => []
  | .initialising => dueInit s
  | .running =>
    bothStations.flatMap (dueAt s) ++ allEntries.flatMap (dueHold s) ++ allEntries.flatMap (dueWaits s)

/-! ### A millisecond -/

/-- R128: the keepalive timer. R49: the segment timers. R78: the spacing timer. -/
def tickUnit (u : StationUnit) : StationUnit :=
  { u with
    record := { u.record with keepaliveTimer := u.record.keepaliveTimer.map (· - 1) }
    staging := u.staging.map fun r => { r with timer := r.timer - 1 }
    draw := u.draw.map fun d =>
      { d with phase := match d.phase with
        | .sending => .sending
        | .spacing left => .spacing (left - 1) } }

/-- R144: a millisecond of the transmission under way. -/
def tickLink (l : LinkInterface) : LinkInterface := { l with txClocks := l.txClocks - Config.clocksPerMs }

/-- R90: the hold timer and the wait timers. -/
def tickLease (l : LeaseEntry) : LeaseEntry :=
  { l with
    hold := l.hold.map fun h => { h with remaining := h.remaining - 1 }
    waiters := l.waiters.map fun w => { w with wait := w.wait - 1 } }

/-- R150: one millisecond of the time base, and of every timer that counts from it. While RESET_N is low the time base is
held at 0. -/
def tick (s : State) : State :=
  match s.phase with
  | .inReset => s
  | .initialising => { s with timeBase := s.timeBase + 1, freeTick := s.freeTick + 1 }
  | .running =>
    { s with
      timeBase := s.timeBase + 1
      links := { a := tickLink s.links.a, b := tickLink s.links.b }
      units := { a := tickUnit s.units.a, b := tickUnit s.units.b }
      leases := s.leases.map tickLease }

/-- Which of several due events is taken first (notes/assumptions/5.md): a free value picks one. -/
def chooseEvent (first second : Instr) (rest : List Instr) (freeTick : Nat) : Instr :=
  let events := first :: second :: rest
  events.getD (Config.eventChoice freeTick % events.length) first

end Sys2Proof.Machine
end

