-- ==== Sys2Proof/Machine/Links.lean ====
section
/-!
DEFINITION. The receive side of a link interface: characters, character errors, complete frames, gaps and breaks
(chapter 9).
-/

namespace Sys2Proof.Machine

def setRx (x : Station) (rx : Receiver) (s : State) : State := setLink x { linkOf x s with rx := rx } s

/-- The receiver enters a state. -/
def enterState (x : Station) (st : RxState) (s : State) : State :=
  setRx x { (linkOf x s).rx with state := st } s

/-- R151: the header bytes of the frame in reception, as far as they were received. -/
def receivedHeader : RxState → List Byte
  | .hunt => []
  | .length => []
  | .body len kept => (len :: kept).take 7
  | .check len kept _ => (len :: kept).take 7

/-- R139: the frame in reception is dropped with a FRAMING fault, and the receiver returns to HUNT. -/
def dropFrame (x : Station) (header : List Byte) (s : State) : State :=
  recordFault x .framing (.header header) (enterState x .hunt s)

/-- R141: a frame with this length byte, body and CRC is complete. -/
def completeFrame (x : Station) (len : Byte) (body : List Byte) (crc : Half) (s : State) : State :=
  let s1 := enterState x .hunt s
  match body with
  | kind :: tag :: payload =>
    if crc = crc16 (len :: body) then goodFrame x { kind := kind, tag := tag, payload := payload, crc := crc } s1
    else recordFault x .crc (.header ((len :: body).take 7)) s1
  | _ => dropFrame x [len] s

/-- R139: a good character in LENGTH. -/
def takeLength (x : Station) (b : Byte) (s : State) : State :=
  if 2 ≤ b.toNat ∧ b.toNat ≤ 66 then enterState x (.body b []) s else dropFrame x [b] s

/-- R139: a good character in BODY. -/
def takeBody (x : Station) (len : Byte) (kept : List Byte) (b : Byte) (s : State) : State :=
  let kept1 := kept ++ [b]
  if len.toNat ≤ kept1.length then enterState x (.check len kept1 none) s else enterState x (.body len kept1) s

/-- R139: a good character in CHECK. -/
def takeCheck (x : Station) (len : Byte) (kept : List Byte) (crcHigh : Option Byte) (b : Byte) (s : State) : State :=
  match crcHigh with
  | none => enterState x (.check len kept (some b)) s
  | some h => completeFrame x len kept (halfOf h b) s

/-- R139: a good character with byte `b` is taken. After a break no character is taken until the line has been high for a
bit time (R143). -/
def takeCharacter (x : Station) (b : Byte) (s : State) : State :=
  let rx := (linkOf x s).rx
  if rx.inBreak then s
  else
    let s1 := setRx x { rx with lastCharacter := s.timeBase } s
    match rx.state with
    | .hunt => if b = Config.syncByte then enterState x .length s1 else s1
    | .length => takeLength x b s1
    | .body len kept => takeBody x len kept b s1
    | .check len kept crcHigh => takeCheck x len kept crcHigh b s1

def execReceiveCharacter (x : Station) (b : Byte) (s : State) : Host.Outcome State Fault Refusal :=
  .next (runEvent (takeCharacter x b) s)

/-- R138, R140: the frame in reception, if there is one, is dropped with a FRAMING fault. In HUNT nothing is recorded. The
command says that the gap limit has passed, whatever the time base shows (notes/assumptions/3.md). -/
def abortFrame (x : Station) (s : State) : State :=
  let rx := (linkOf x s).rx
  if rx.inBreak then s
  else if rx.state = .hunt then s
  else dropFrame x (receivedHeader rx.state) s

def execCharacterError (x : Station) (s : State) : Host.Outcome State Fault Refusal :=
  .next (runEvent (abortFrame x) s)

def execGapLimitExpiry (x : Station) (s : State) : Host.Outcome State Fault Refusal :=
  .next (runEvent (abortFrame x) s)

/-- R141: FRAME_COMPLETE. The receiver is in HUNT after it, whatever frame it was in before (notes/assumptions/32.md). A
body whose length is not 2 to 66 is no frame: its length byte has it dropped (R139). -/
def frameArrives (x : Station) (body : List Byte) (crc : Half) (s : State) : State :=
  if (linkOf x s).rx.inBreak then s
  else
    let s1 := setRx x { (linkOf x s).rx with lastCharacter := s.timeBase } s
    if 2 ≤ body.length ∧ body.length ≤ 66 then completeFrame x (byteOf body.length) body crc s1
    else dropFrame x [byteOf body.length] s1

def execFrameComplete (x : Station) (body : List Byte) (crc : Half) (s : State) : Host.Outcome State Fault Refusal :=
  .next (runEvent (frameArrives x body crc) s)

/-- R143, R131: a break is detected. A break in progress is one event however long the line stays low. -/
def detectBreak (x : Station) (s : State) : State :=
  let l := linkOf x s
  if l.rx.inBreak then s
  else
    let s1 := setLink x { l with rx := { l.rx with state := .hunt, inBreak := true }, inQueue := [] } s
    if isPresent x s1 then depart x .lineBreak s1 else s1

def execLineBreak (x : Station) (s : State) : Host.Outcome State Fault Refusal :=
  .next (runEvent (detectBreak x) s)

/-- R143: the break ends; the receiver takes characters again, in HUNT. -/
def endBreak (x : Station) (s : State) : State := setRx x { (linkOf x s).rx with inBreak := false } s

def execBreakEnd (x : Station) (s : State) : Host.Outcome State Fault Refusal :=
  .next (runEvent (endBreak x) s)

end Sys2Proof.Machine
end

