-- ==== Sys2Proof/Machine/Part.lean ====
section
/-!
DEFINITION. Device reset, the store initialisation, and bit errors in stored blocks (chapter 2, R137, R164).
-/

namespace Sys2Proof.Machine

/-- R35: RESET_N goes low, or power comes on: every piece of state takes its reset value, and the straps are sampled
(R137). -/
def execResetAssert (straps : StrapPins) (s : State) : Host.Outcome State Fault Refusal :=
  .next (resetState .inReset (sampleStraps straps) s.pending s.freeTick)

/-- R35, R164: RESET_N rises: the last sampled straps are kept, the time base begins to count and the store
initialisation begins. -/
def releaseReset (straps : StrapPins) (s : State) : State :=
  match s.phase with
  | .inReset => { s with phase := .initialising, straps := sampleStraps straps }
  | .initialising => s
  | .running => s

def execResetRelease (straps : StrapPins) (s : State) : Host.Outcome State Fault Refusal :=
  .next (releaseReset straps s)

/-- R35: the store initialisation completes: every block is 00H with its check bits and free, the health record is reset,
and the link interfaces take characters (R138). -/
def completeInit (s : State) : State :=
  match s.phase with
  | .initialising => { s with phase := .running, store := resetStore }
  | .inReset => s
  | .running => s

def execStoreInitComplete (s : State) : Host.Outcome State Fault Refusal := .next (completeInit s)

/-- A bit of a block changes: a wrong bit that changes again is right again. -/
def toggleFlip (f : Fin 256 × BitPlace) (flips : List (Fin 256 × BitPlace)) : List (Fin 256 × BitPlace) :=
  if flips.contains f then flips.filter fun g => g != f else flips ++ [f]

/-- One bit of a stored block changes (R29): its data byte, if it is a data bit, and the set of wrong bits. -/
def flipStored (b : Fin 256) (p : BitPlace) (st : Store) : Store :=
  let mem :=
    match p with
    | .data byte bit =>
      Memory.write st.mem (blockBase b + byte.val) (Memory.read st.mem (blockBase b + byte.val) ^^^ (1#8 <<< bit.val))
    | .check _ => st.mem
  { st with mem := mem, flips := toggleFlip (b, p) st.flips }

/-- R29, R35: bit errors arise in a block. While RESET_N is low the store holds its reset state. -/
def bitErrors (b : Fin 256) (places : List BitPlace) (s : State) : State :=
  match s.phase with
  | .inReset => s
  | .initialising => { s with store := places.foldl (fun st p => flipStored b p st) s.store }
  | .running => { s with store := places.foldl (fun st p => flipStored b p st) s.store }

def execBitError (b : Fin 256) (places : List BitPlace) (s : State) : Host.Outcome State Fault Refusal :=
  .next (bitErrors b places s)

end Sys2Proof.Machine
end

