-- ==== Sys2Proof/Machine/Dispatch.lean ====
section
/-!
DEFINITION. The one map from commands to meanings, an arm for each row of spec/opcode_table.json in the table's order.
-/

namespace Sys2Proof.Machine

def exec (i : Instr) (s : State) : Host.Outcome State Fault Refusal :=
  match i with
  | .join x tag payload => Sys2Proof.Machine.execJoin x tag payload s
  | .leave x tag payload => Sys2Proof.Machine.execLeave x tag payload s
  | .keepalive x tag payload => Sys2Proof.Machine.execKeepalive x tag payload s
  | .identify x tag payload => Sys2Proof.Machine.execIdentify x tag payload s
  | .inquireChannel x tag payload => Sys2Proof.Machine.execInquireChannel x tag payload s
  | .inquireStore x tag payload => Sys2Proof.Machine.execInquireStore x tag payload s
  | .inquireLease x tag payload => Sys2Proof.Machine.execInquireLease x tag payload s
  | .inquireStation x tag payload => Sys2Proof.Machine.execInquireStation x tag payload s
  | .collect x tag payload => Sys2Proof.Machine.execCollect x tag payload s
  | .raise x tag payload => Sys2Proof.Machine.execRaise x tag payload s
  | .accept x tag payload => Sys2Proof.Machine.execAccept x tag payload s
  | .mask x tag payload => Sys2Proof.Machine.execMask x tag payload s
  | .open_ x tag payload => Sys2Proof.Machine.execOpen x tag payload s
  | .close x tag payload => Sys2Proof.Machine.execClose x tag payload s
  | .post x tag payload => Sys2Proof.Machine.execPost x tag payload s
  | .segmentFirst x tag payload => Sys2Proof.Machine.execSegmentFirst x tag payload s
  | .segmentMiddle x tag payload => Sys2Proof.Machine.execSegmentMiddle x tag payload s
  | .segmentLast x tag payload => Sys2Proof.Machine.execSegmentLast x tag payload s
  | .abandon x tag payload => Sys2Proof.Machine.execAbandon x tag payload s
  | .fetchLend x tag payload => Sys2Proof.Machine.execFetchLend x tag payload s
  | .fetchPeek x tag payload => Sys2Proof.Machine.execFetchPeek x tag payload s
  | .read x tag payload => Sys2Proof.Machine.execRead x tag payload s
  | .retire x tag payload => Sys2Proof.Machine.execRetire x tag payload s
  | .return_ x tag payload => Sys2Proof.Machine.execReturn x tag payload s
  | .purge x tag payload => Sys2Proof.Machine.execPurge x tag payload s
  | .draw x tag payload => Sys2Proof.Machine.execDraw x tag payload s
  | .halt x tag payload => Sys2Proof.Machine.execHalt x tag payload s
  | .acquire x tag payload => Sys2Proof.Machine.execAcquire x tag payload s
  | .renew x tag payload => Sys2Proof.Machine.execRenew x tag payload s
  | .release x tag payload => Sys2Proof.Machine.execRelease x tag payload s
  | .cancel x tag payload => Sys2Proof.Machine.execCancel x tag payload s
  | .faults x tag payload => Sys2Proof.Machine.execFaults x tag payload s
  | .clearFaults x tag payload => Sys2Proof.Machine.execClearFaults x tag payload s
  | .faultPolicy x tag payload => Sys2Proof.Machine.execFaultPolicy x tag payload s
  | .unknownKindRequest x kind tag payload => Sys2Proof.Machine.execUnknownKindRequest x kind tag payload s
  | .receiveCharacter x b => Sys2Proof.Machine.execReceiveCharacter x b s
  | .characterError x => Sys2Proof.Machine.execCharacterError x s
  | .frameComplete x body crc => Sys2Proof.Machine.execFrameComplete x body crc s
  | .gapLimitExpiry x => Sys2Proof.Machine.execGapLimitExpiry x s
  | .lineBreak x => Sys2Proof.Machine.execLineBreak x s
  | .itemBoundary x => Sys2Proof.Machine.execItemBoundary x s
  | .transmissionEnd x => Sys2Proof.Machine.execTransmissionEnd x s
  | .spacingExpiry x => Sys2Proof.Machine.execSpacingExpiry x s
  | .segmentTimeout x c => Sys2Proof.Machine.execSegmentTimeout x c s
  | .keepaliveLapse x => Sys2Proof.Machine.execKeepaliveLapse x s
  | .holdLapse e => Sys2Proof.Machine.execHoldLapse e s
  | .waitExpiry e x client => Sys2Proof.Machine.execWaitExpiry e x client s
  | .resetAssert straps => Sys2Proof.Machine.execResetAssert straps s
  | .resetRelease straps => Sys2Proof.Machine.execResetRelease straps s
  | .storeInitComplete => Sys2Proof.Machine.execStoreInitComplete s
  | .bitError block places => Sys2Proof.Machine.execBitError block places s
  | .breakEnd x => Sys2Proof.Machine.execBreakEnd x s

end Sys2Proof.Machine
end

