-- ==== Sys2Proof/Machine/Step.lean ====
section
/-!
DEFINITION. One step: the command at the front of the queue, or, when none waits, an event due inside the part or a
millisecond of its time base.
-/

namespace Sys2Proof.Machine

/-- The step of an empty command queue (notes/assumptions/4.md). -/
def idle (s : State) : Host.Outcome State Fault Refusal :=
  match dueEvents s with
  | [] => .next (tick s)
  | [c] => exec c s
  | c :: d :: rest => exec (chooseEvent c d rest s.freeTick) { s with freeTick := s.freeTick + 1 }

/-- One step of the 2410. -/
def step (s : State) : Host.Outcome State Fault Refusal :=
  match s.pending with
  | c :: rest => exec c { s with pending := rest }
  | [] => idle s

/-- The state with the command that a word spells put at the front of its queue; unchanged where the word spells none. -/
def State.withFetchWord (s : State) (nbits w : Nat) : State :=
  match decodeTableWord nbits w with
  | none => s
  | some c => { s with pending := c :: s.pending }

end Sys2Proof.Machine
end

