-- ==== Sys2Proof/Safety.lean ====
section
/-!
DEFINITION. What claims about the 2410 are stated with: the conditions under which a request is taken at once, the
answer a PRESENT station gets, and the laws of the state that the manual says always hold.
-/

namespace Sys2Proof.Machine

/-! ### A request that is taken at once -/

/-- A good request frame that arrives on link `x` is taken by station unit `x` in the same command: the part is running
(R138), no break is in progress (R143), the input queue is empty (R142), no draw is in flight and every frame in the
transmitter's list has begun transmission (R145), and no departure is outstanding (R132). -/
abbrev TakenAtOnce (x : Station) (s : State) : Prop :=
  s.phase = .running ∧ (linkOf x s).rx.inBreak = false ∧ (linkOf x s).inQueue = [] ∧ (unitOf x s).draw = none ∧
    (linkOf x s).tx.length ≤ 1 ∧ s.severe = []

/-- The request frame `f` is taken at once and is no repeat: no reply-cache entry matches it (R147). -/
abbrev Ready (x : Station) (f : Frame) (s : State) : Prop := TakenAtOnce x s ∧ cacheMatch x f s = none

/-- R81: the frame `f` is a HALT on which link interface `x` acts at its arrival: a draw is in flight with no HALT
recorded, the payload is empty, and no reply-cache entry matches. -/
abbrev HaltActs (x : Station) (f : Frame) (s : State) : Prop :=
  (unitOf x s).draw.any (fun d => d.haltTag == none) = true ∧ f.kind = 0x2E ∧ f.payload = [] ∧
    cacheMatch x f s = none

/-- The part is running and no departure is outstanding: an event happens and is carried out by its own rule. -/
abbrev Running (s : State) : Prop := s.phase = .running ∧ s.severe = []

/-- No fault kind of station `x` is SEVERE, as after device reset (R150). -/
abbrev AdvisoryAt (x : Station) (s : State) : Prop :=
  allFaultKinds.all (fun k => (KindRecords.get (unitOf x s).faults.kinds k).severity == .advisory) = true

/-- No fault kind of either station is SEVERE: no fault makes a station depart (R132, R152). -/
abbrev Advisory (s : State) : Prop := AdvisoryAt .a s ∧ AdvisoryAt .b s

/-- R148 steps 7 and 8 for a PRESENT station that does not depart: the reply to `f` is entered in the reply cache and
handed to the transmitter. -/
def answered (x : Station) (f : Frame) (status : Status) (fieldBytes : List Byte) (s : State) : State :=
  transmit x (replyFrame f status fieldBytes) false
    (enterCache x
      { tag := f.tag, kind := f.kind, crc := f.crc, reply := replyFrame f status fieldBytes } s)

/-- The status with which a request of a known kind is refused for its payload at dispatch steps 4 and 5, if it is
(R148, R160). -/
def payloadRefusal (kind : Byte) (payload : List Byte) : Option Status :=
  let refusal {α : Type} (r : Except Status α) : Option Status :=
    match r with
    | .error e => some e
    | .ok _ => none
  if kind = kindJoin then refusal (joinCheck payload)
  else if kind = kindInquire then refusal (inquireCheck payload)
  else if kind = kindCollect then refusal (collectCheck payload)
  else if kind = kindRaise then refusal (raiseCheck payload)
  else if kind = kindAccept ∨ kind = kindMask then refusal (flagsCheck payload)
  else if kind = kindOpen then refusal (openCheck payload)
  else if kind = kindClose then refusal (closeCheck payload)
  else if kind = kindPost then refusal (postCheck payload)
  else if kind = kindSegment then refusal (segmentCheck payload)
  else if kind = kindAbandon ∨ kind = kindReturn ∨ kind = kindPurge then refusal (channelCheck payload)
  else if kind = kindFetch then refusal (fetchCheck payload)
  else if kind = kindRead then refusal (readCheck payload)
  else if kind = kindRetire then refusal (retireCheck payload)
  else if kind = kindDraw then refusal (drawCheck payload)
  else if kind = kindAcquire then refusal (acquireCheck payload)
  else if kind = kindRenew then refusal (renewCheck payload)
  else if kind = kindRelease then refusal (releaseCheck payload)
  else if kind = kindCancel then refusal (cancelCheck payload)
  else if kind = kindFaultPolicy then refusal (policyCheck payload)
  else refusal (emptyCheck payload)

/-- The payload lengths of R160's table, for a request of a known kind whose payload holds these bytes. With an invalid
selector every length from the shortest on is allowed: R41 states so for SEGMENT, and OPEN and INQUIRE are read alike
(notes/assumptions/34.md). -/
def lengthAllowed (kind : Byte) (payload : List Byte) : Bool :=
  let n := payload.length
  if kind = kindJoin then n == 7
  else if kind = kindInquire then
    (if payload.head? = some 0x01 ∨ payload.head? = some 0x02 then n == 2
     else if payload.head? = some 0x03 ∨ payload.head? = some 0x04 then n == 1
     else decide (1 ≤ n))
  else if kind = kindCollect ∨ kind = kindAbandon ∨ kind = kindReturn ∨ kind = kindPurge then n == 1
  else if kind = kindRaise ∨ kind = kindAccept ∨ kind = kindMask ∨ kind = kindClose ∨ kind = kindFetch ∨
      kind = kindCancel then n == 2
  else if kind = kindOpen then
    (if payload[2]? = some 0x01 then n == 9 else if payload[2]? = some 0x02 then n == 4 else decide (4 ≤ n))
  else if kind = kindPost then decide (2 ≤ n ∧ n ≤ 64)
  else if kind = kindSegment then
    (if payload[1]? = some 0x01 then decide (4 ≤ n ∧ n ≤ 64)
     else if payload[1]? = some 0x02 ∨ payload[1]? = some 0x03 then decide (3 ≤ n ∧ n ≤ 64)
     else decide (3 ≤ n))
  else if kind = kindRead then n == 5
  else if kind = kindRetire then n == 3
  else if kind = kindDraw then n == 4
  else if kind = kindAcquire ∨ kind = kindRelease then n == 6
  else if kind = kindRenew then n == 8
  else if kind = kindFaultPolicy then n == 18
  else n == 0

/-- The ranges of the fields of a request whose length is allowed, by the layouts of R160, as the owners' chapters
give them: channels 0 to 7 (R4), parameters (R5), the OPEN and CLOSE codes (R10, R14), the POST options (R36), a
declared total and an offset up to 512 (R41, R61), the DRAW fields (R74), entries, clients, durations and waits (R91),
the COLLECT maximum (R113), a RAISE that names a flag (R119), the JOIN period and mode (R125), the policy pairs (R156),
and the enumerated codes and flag bytes of R158. `v i` is the byte at place i, `w i` the two bytes from it on, high
first. -/
def fieldsInRange (kind : Byte) (payload : List Byte) : Bool :=
  let v (i : Nat) : Nat := (payload.getD i 0x00).toNat
  let w (i : Nat) : Nat := 256 * v i + v (i + 1)
  let code (i : Nat) : Bool := v i == 1 || v i == 2
  let channel : Bool := decide (v 0 ≤ 7)
  let claimant : Bool := decide (v 0 ≤ 15 ∧ v 1 ≤ 7)
  if kind = kindJoin then decide (w 0 = 0 ∨ (50 ≤ w 0 ∧ w 0 ≤ 60000)) && code 2
  else if kind = kindInquire then
    decide ((v 0 = 1 ∧ v 1 ≤ 7) ∨ (v 0 = 2 ∧ v 1 ≤ 15) ∨ v 0 = 3 ∨ v 0 = 4)
  else if kind = kindCollect then decide (1 ≤ v 0 ∧ v 0 ≤ 6)
  else if kind = kindRaise then decide (w 0 ≠ 0)
  else if kind = kindOpen then
    channel && code 1 && code 2 && decide (v 3 ≤ 1) &&
      (v 2 == 2 || decide (1 ≤ v 4 ∧ v 4 ≤ 32 ∧ 1 ≤ w 5 ∧ w 5 ≤ 256 ∧ 1 ≤ v 7 ∧ v 7 ≤ v 4 ∧ v 8 < v 7))
  else if kind = kindClose ∨ kind = kindFetch then channel && code 1
  else if kind = kindPost then channel && v 1 == 0
  else if kind = kindSegment then channel && decide ((v 1 = 1 ∧ w 2 ≤ 512) ∨ v 1 = 2 ∨ v 1 = 3)
  else if kind = kindAbandon ∨ kind = kindReturn ∨ kind = kindPurge ∨ kind = kindRetire then channel
  else if kind = kindRead then channel && decide (w 3 ≤ 512)
  else if kind = kindDraw then channel && decide (1 ≤ v 1 ∧ v 1 ≤ 8) && code 2 && decide (v 3 ≤ 15)
  else if kind = kindAcquire then claimant && decide (10 ≤ w 2 ∧ w 4 ≤ 30000)
  else if kind = kindRenew then claimant && decide (10 ≤ w 6)
  else if kind = kindRelease ∨ kind = kindCancel then claimant
  else if kind = kindFaultPolicy then (List.range 9).all fun i => decide (v (2 * i) ≤ 1) && code (2 * i + 1)
  else true

/-! ### Laws of the state -/

/-- The store's bytes are in their canonical form. -/
abbrev MemoryCanonical (s : State) : Prop := Memory.wf s.store.mem = true

/-- R132: no departure for a SEVERE fault is outstanding. -/
abbrev Settled (s : State) : Prop := s.severe = []

/-- R8, R60: the LENT messages of a channel are the oldest of its queue, and there are at most 8. -/
abbrev LentFirst (ch : Channel) : Prop :=
  (ch.queue.dropWhile isLent).all isQueued = true ∧ lentCount ch ≤ Config.lendWindow

/-- R8 and R60 for every channel. -/
abbrev LentFirstLaw (s : State) : Prop := ∀ c : Fin 8, LentFirst (chanOf c s)

/-- R8: the sequence numbers of a channel's queue rise, as distances forward from the oldest message's, and lie below
next_seq. R37 admits a message, and a FIRST segment, only where next_seq is less than 32,768 ahead; a message posted
meanwhile and the staged one (R46) then lie at most 32,769 ahead together. -/
abbrev SequenceOk (ch : Channel) : Prop :=
  ∀ h ∈ ch.queue.head?,
    ch.queue.Pairwise (fun m n => (m.seq - h.seq).toNat < (n.seq - h.seq).toNat) ∧
      (∀ m ∈ ch.queue, (m.seq - h.seq).toNat < (ch.nextSeq - h.seq).toNat) ∧
      (ch.nextSeq - h.seq).toNat + ch.reserved ≤ 32769

/-- R8 for every channel. -/
abbrev SequenceLaw (s : State) : Prop := ∀ c : Fin 8, SequenceOk (chanOf c s)

/-- The staging records on a channel, of both stations. -/
def stagingRecords (c : Fin 8) (s : State) : List Staging :=
  ((unitOf .a s).staging ++ (unitOf .b s).staging).filter fun r => r.channel == c

/-- R3, R9, R15, R40: the accounts of a channel. No station holds both ends. Parameters are set exactly while an end is
held; then O is at most D and charged at most Q, and without them nothing is queued, reserved or charged. charged counts
the blocks of the messages and of the staging record, reserved the record, of which there is at most one; its station
holds the sender end, active. -/
abbrev ChannelOk (c : Fin 8) (s : State) : Prop :=
  ((chanOf c s).sender.holder = none ∨ (chanOf c s).sender.holder ≠ (chanOf c s).receiver.holder) ∧
    ((chanOf c s).params = none ↔ (chanOf c s).sender.holder = none ∧ (chanOf c s).receiver.holder = none) ∧
    ((chanOf c s).params = none →
      (chanOf c s).queue = [] ∧ (chanOf c s).reserved = 0 ∧ (chanOf c s).charged = 0) ∧
    (∀ p ∈ (chanOf c s).params,
      (chanOf c s).queue.length + (chanOf c s).reserved ≤ p.depth ∧ (chanOf c s).charged ≤ p.quota) ∧
    (chanOf c s).charged =
      (blocksOf (chanOf c s).queue).length + ((stagingRecords c s).flatMap (·.blocks)).length ∧
    (chanOf c s).reserved = (stagingRecords c s).length ∧ (stagingRecords c s).length ≤ 1 ∧
    (∀ r ∈ (unitOf .a s).staging, r.channel = c → holdsActive .a (chanOf c s).sender = true) ∧
    (∀ r ∈ (unitOf .b s).staging, r.channel = c → holdsActive .b (chanOf c s).sender = true)

/-- R3, R9, R15, R40 for every channel. -/
abbrev ChannelLaw (s : State) : Prop := ∀ c : Fin 8, ChannelOk c s

/-- R107, R109: at most 23 regular entries; OVERFLOW only in the last place; no two entries that would coalesce. -/
abbrev NoticesOk (q : List Notice) : Prop :=
  q.countP (fun n => !(Notice.isOverflow n)) ≤ Config.regularPlaces ∧
    q.dropLast.all (fun n => !(Notice.isOverflow n)) = true ∧
    q.Pairwise (fun m n => Notice.coalesces m n = false ∧ Notice.coalesces n m = false)

/-- R107 for both notice queues. -/
abbrev NoticeLaw (s : State) : Prop := NoticesOk (unitOf .a s).notices ∧ NoticesOk (unitOf .b s).notices

/-- R88: at most 4 waiters, no two with the same station and client, never the holder; a FREE entry has none. -/
abbrev LeaseOk (l : LeaseEntry) : Prop :=
  l.waiters.length ≤ Config.maxWaiters ∧
    l.waiters.Pairwise (fun v w => ¬(v.station = w.station ∧ v.client = w.client)) ∧
    l.waiters.all (fun w => !(holdsLease w.station w.client l)) = true ∧ (l.hold = none → l.waiters = [])

/-- R88 for every entry. -/
abbrev LeaseLaw (s : State) : Prop := ∀ e : Fin 16, LeaseOk (leaseOf e s)

/-- R90: a station's wait count is the number of its waiters on all entries together. -/
abbrev WaitCountOk (x : Station) (s : State) : Prop :=
  s.waitCounts.get x = (allEntries.flatMap fun e => (leaseOf e s).waiters.filter fun w => w.station == x).length

/-- R90 for both stations. -/
abbrev WaitCountLaw (s : State) : Prop := WaitCountOk .a s ∧ WaitCountOk .b s

/-- Every block that the part accounts for: the free pool, the block lists of the messages in the eight queues, the
blocks of the staging records of both stations. -/
def accountedBlocks (s : State) : List (Fin 256) :=
  s.store.freePool ++ allChannels.flatMap (fun c => blocksOf (chanOf c s).queue) ++
    ((unitOf .a s).staging.flatMap (·.blocks) ++ (unitOf .b s).staging.flatMap (·.blocks))

/-- R23: each block is free, or in the block list of exactly one message record, or held by exactly one staging record.
R25, R40: the free pool is in ascending order, and a station has at most one staging record on a channel. R35: no
message and no staging record exists before the store initialisation completes. -/
abbrev BlockLaw (s : State) : Prop :=
  (∀ b : Fin 256, (accountedBlocks s).count b = 1) ∧ s.store.freePool.Pairwise (· < ·) ∧
    ((unitOf .a s).staging.map (·.channel)).Nodup ∧ ((unitOf .b s).staging.map (·.channel)).Nodup ∧
    (s.phase ≠ .running →
      (∀ c : Fin 8, (chanOf c s).queue = []) ∧ (unitOf .a s).staging = [] ∧ (unitOf .b s).staging = [])

/-- R134: what a station does not have once it has departed: staging records, a draw, notices, reply-cache entries,
leases, waits, active ends, LENT messages under an end it holds. -/
abbrev HasNothing (x : Station) (s : State) : Prop :=
  isPresent x s = false ∧ (unitOf x s).staging = [] ∧ (unitOf x s).draw = none ∧ (unitOf x s).notices = [] ∧
    (unitOf x s).cache = [] ∧ s.waitCounts.get x = 0 ∧
    (∀ e : Fin 16, heldBy x (leaseOf e s) = false ∧
      (leaseOf e s).waiters.all (fun w => w.station != x) = true) ∧
    (∀ c : Fin 8, holdsActive x (chanOf c s).sender = false ∧ holdsActive x (chanOf c s).receiver = false ∧
      (holdsEnd x (chanOf c s).receiver = true → (chanOf c s).queue.any isLent = false))

/-- R146: at most 8 reply-cache entries, no two of one tag. R142: at most 4 frames wait. R40: at most 2 staging
records. R118: signal counts up to 15. R134, R128: an ABSENT station has nothing and no keepalive timer. R17, R18: a
dormant end is an ABSENT station's. R74, R80, R85: the station of a draw in flight holds the receiver end of its
channel, active. -/
abbrev StationOk (x : Station) (s : State) : Prop :=
  (unitOf x s).cache.length ≤ 8 ∧ ((unitOf x s).cache.map (·.tag)).Nodup ∧ (linkOf x s).inQueue.length ≤ 4 ∧
    (unitOf x s).staging.length ≤ 2 ∧ (∀ f : Fin 16, (unitOf x s).signals.counts[f] ≤ 15) ∧
    (isPresent x s = false → HasNothing x s ∧ (unitOf x s).record.keepaliveTimer = none) ∧
    (∀ c : Fin 8, isPresent x s = true →
      (chanOf c s).sender ≠ { holder := some x, dormant := true } ∧
        (chanOf c s).receiver ≠ { holder := some x, dormant := true }) ∧
    (∀ d ∈ (unitOf x s).draw, holdsActive x (chanOf d.channel s).receiver = true)

/-- The bounds of both stations. -/
abbrev StationLaw (s : State) : Prop := StationOk .a s ∧ StationOk .b s

end Sys2Proof.Machine
end

