-- ==== Sys2Proof/Certificates/Slice0/Obligations.lean ====
section
/-!
DEFINITION. The statements for the provers. Every docstring names the rules of spec/ that a statement formalises
and, where it rests on a choice of the model, the assumption log's entry. The conditions `TakenAtOnce`, `Ready`,
`Running`, `Advisory`, the answer `answered` and the laws stand in Sys2Proof/Safety.lean. A request is written with
its operands: its payload is the bytes of R160. That a request command is the arrival of its frame, taken in the
same step where the station unit is free, is the model's choice (notes/assumptions/1.md). `restartKeepalive x s` is
`s` with station `x`'s keepalive timer restarted by the frame (R128), see CompleteFrameIsCheckedAndQueued.
-/

open Sys2Proof Sys2Proof.Machine

/-! ### The part -/

/-- A step with a command at the front of the queue is `exec` of that command on the state with the queue's rest. -/
def Obligations.StepRunsFrontCommand : Prop :=
  ∀ (c : Instr) (rest : List Instr) (s : State),
    step { s with pending := c :: rest } = exec c { s with pending := rest }

/-- The state after device reset meets every law that a step keeps. -/
def Obligations.ResetStateMeetsTheLaws : Prop :=
  MemoryCanonical State.reset ∧ Settled State.reset ∧ LentFirstLaw State.reset ∧ SequenceLaw State.reset ∧
    ChannelLaw State.reset ∧ NoticeLaw State.reset ∧ StationLaw State.reset ∧ LeaseLaw State.reset ∧
    WaitCountLaw State.reset ∧ BlockLaw State.reset

/-- RESET_N low gives every piece of state its value after device reset: R1 (channels), R33 and R35 (store), R40,
R75, R107, R118, R123, R146, R150 (station units), R87 and R90 (leases), R139, R142, R144 (links), and the straps
are sampled (R137, R164). The commands that wait and the counter of free values, the model's own, stay
(notes/assumptions/19.md). Two points are the model's: the value 0 for the time of the last character, for which the
manual gives no reset value (notes/assumptions/16.md, DESIGN CHOICE), and that the command acts from every phase,
device reset and the store initialisation included (notes/assumptions/27.md, DEDUCED). -/
def Obligations.ResetAssertGivesResetValues : Prop :=
  ∀ (straps : StrapPins) (s : State), ∃ t, exec (.resetAssert straps) s = .next t ∧ t.phase = .inReset ∧
    t.timeBase = 0 ∧ t.straps = sampleStraps straps ∧ t.severe = [] ∧ t.pending = s.pending ∧
    t.freeTick = s.freeTick ∧
    (∀ c : Fin 8, chanOf c t =
      { sender := { holder := none, dormant := false }, receiver := { holder := none, dormant := false },
        arrivalOption := false, params := none, nextSeq := 0, queue := [], reserved := 0, charged := 0,
        congested := false }) ∧
    t.store.freePool = List.finRange 256 ∧ t.store.flips = [] ∧ (∀ a, Memory.read t.store.mem a = 0x00) ∧
    t.store.health = { corrected := 0, uncorrectable := 0, last := none } ∧
    (∀ e : Fin 16, leaseOf e t = { hold := none, fence := 0, waiters := [], last := none }) ∧
    (∀ x, t.waitCounts.get x = 0) ∧
    (∀ x, linkOf x t =
      { rx := { state := .hunt, lastCharacter := 0, inBreak := false }, inQueue := [], tx := [], txClocks := 0 }) ∧
    (∀ x, (unitOf x t).record =
      { presence := .absent, epoch := 0, period := 0, keepaliveTimer := none, identity := 0, joinMode := none,
        lastCause := none }) ∧
    (∀ x, (unitOf x t).cache = [] ∧ (unitOf x t).staging = [] ∧ (unitOf x t).draw = none ∧
      (unitOf x t).notices = [] ∧ (unitOf x t).nextNotice = 0 ∧ attentionAsserted x t = false) ∧
    (∀ x, (unitOf x t).signals.mask = 0xFFFF ∧ (unitOf x t).signals.saturated = false ∧
      ∀ f, signalCount (unitOf x t).signals f = 0) ∧
    (∀ x, (unitOf x t).faults.capture = none ∧
      ∀ k, KindRecords.get (unitOf x t).faults.kinds k = { count := 0, reported := true, severity := .advisory })

/-- R35, R137, R138: when RESET_N rises, the straps sampled last are kept and the store initialisation begins; when
it completes, every block is free and 00H and the health record is reset, and the links take characters. Before
that, nothing that reaches a link has an effect. -/
def Obligations.LinksWaitForTheStore : Prop :=
  (∀ (straps : StrapPins) (s : State), s.phase = .inReset →
    exec (.resetRelease straps) s = .next { s with phase := .initialising, straps := sampleStraps straps }) ∧
  (∀ s : State, s.phase = .initialising → ∃ st : Store,
    exec .storeInitComplete s = .next { s with phase := .running, store := st } ∧
      st.freePool = List.finRange 256 ∧ (∀ a, Memory.read st.mem a = 0x00) ∧ (∀ b, classOf st b = .correct) ∧
      st.health = { corrected := 0, uncorrectable := 0, last := none }) ∧
  (∀ (x : Station) (b kind tag : Byte) (payload body : List Byte) (crc : Half) (s : State), s.phase ≠ .running →
    exec (.receiveCharacter x b) s = .next s ∧ exec (.characterError x) s = .next s ∧
      exec (.frameComplete x body crc) s = .next s ∧ exec (.gapLimitExpiry x) s = .next s ∧
      exec (.lineBreak x) s = .next s ∧ exec (.breakEnd x) s = .next s ∧
      exec (requestCommand x kind tag payload) s = .next s)

/-- R29: bit errors complete in every state of a running part and change the stored bits of their block alone: the free
pool and the health record stay, and the other blocks keep their wrong bits. One wrong bit, a data bit or a check bit,
is classed as a single-bit error and two wrong bits as a double-bit error. Where the store's bytes are in the canonical
form that every step keeps (notes/assumptions/29.md), every byte outside the block stays, the other blocks keep their
class, and the error of one data bit changes that bit alone. -/
def Obligations.BitErrorsChangeTheirBlock : Prop :=
  ∀ (b : Fin 256) (places : List BitPlace) (s : State), s.phase = .running → ∃ st : Store,
    exec (.bitError b places) s = .next { s with store := st } ∧ st.freePool = s.store.freePool ∧
      st.health = s.store.health ∧
      (∀ b', b' ≠ b → wrongBits st b' = wrongBits s.store b') ∧
      (wrongBits s.store b = [] → ∀ p, places = [p] → classOf st b = .singleBit) ∧
      (wrongBits s.store b = [] → ∀ p q, p ≠ q → places = [p, q] → classOf st b = .doubleBit) ∧
      (MemoryCanonical s →
        (∀ a, a < blockBase b ∨ blockBase b + 32 ≤ a → Memory.read st.mem a = Memory.read s.store.mem a) ∧
        (∀ b', b' ≠ b → classOf st b' = classOf s.store b') ∧
        ∀ (byte : Fin 32) (bit : Fin 8), places = [.data byte bit] →
          Memory.read st.mem (blockBase b + byte.val) =
            Memory.read s.store.mem (blockBase b + byte.val) ^^^ (1#8 <<< bit.val) ∧
          ∀ a, a ≠ blockBase b + byte.val → Memory.read st.mem a = Memory.read s.store.mem a)

/-- R49, R78, R90, R128, R150: a millisecond in which nothing is due. The time base rises by one and every timer
that runs falls by one. That a step on an empty queue is this millisecond is the model's choice
(notes/assumptions/4.md), as is the count of a transmission in clock periods (notes/assumptions/15.md). R145, R144, R78,
R50, R130, R100, R101, R140: the events that are due inside a running part. Where one is due, the step takes it instead;
where several are, it takes one of them, which one is open (notes/assumptions/5.md). The gap limit is due at the next
millisecond (notes/assumptions/16.md). R35: the store initialisation ends at any time up to 2 ms
(notes/assumptions/22.md). In device reset the step changes nothing. -/
def Obligations.MillisecondLowersEveryTimer : Prop :=
  (∀ s : State, s.pending = [] → s.phase = .running → dueEvents s = [] → ∃ t, step s = .next t ∧
        t.timeBase = s.timeBase + 1 ∧ t.phase = s.phase ∧ t.pending = [] ∧ t.channels = s.channels ∧ t.store = s.store ∧
        t.straps = s.straps ∧ t.waitCounts = s.waitCounts ∧ t.severe = s.severe ∧ t.freeTick = s.freeTick ∧
        (∀ x, linkOf x t = { linkOf x s with txClocks := (linkOf x s).txClocks - 18432 }) ∧
        (∀ x, unitOf x t =
          { unitOf x s with
            record := { (unitOf x s).record with keepaliveTimer := (unitOf x s).record.keepaliveTimer.map (· - 1) }
            staging := (unitOf x s).staging.map fun r => { r with timer := r.timer - 1 }
            draw := (unitOf x t).draw }) ∧
        (∀ x, (unitOf x s).draw = none → (unitOf x t).draw = none) ∧
        (∀ x d, (unitOf x s).draw = some d → d.phase = .sending → (unitOf x t).draw = some d) ∧
        (∀ x d n, (unitOf x s).draw = some d → d.phase = .spacing n →
          (unitOf x t).draw = some { d with phase := .spacing (n - 1) }) ∧
        (∀ e, leaseOf e t =
          { leaseOf e s with
            hold := (leaseOf e s).hold.map fun h => { h with remaining := h.remaining - 1 }
            waiters := (leaseOf e s).waiters.map fun w => { w with wait := w.wait - 1 } })) ∧
  (∀ s : State, s.pending = [] →
    (∀ i, dueEvents s = [i] → step s = exec i s) ∧
    (2 ≤ (dueEvents s).length → ∃ i ∈ dueEvents s, step s = exec i { s with freeTick := s.freeTick + 1 }) ∧
    (s.phase = .inReset → step s = .next s) ∧
    (s.phase = .initialising →
      step s = exec .storeInitComplete s ∨
        (s.timeBase.toNat < 2 ∧
          step s = .next { s with timeBase := s.timeBase + 1, freeTick := s.freeTick + 1 }))) ∧
  (∀ (s : State) (i : Instr), s.phase = .running →
    (i ∈ dueEvents s ↔
      (∃ x f rest, (linkOf x s).inQueue = f :: rest ∧ (unitOf x s).draw = none ∧ (linkOf x s).tx.length ≤ 1 ∧
        i = requestCommand x f.kind f.tag f.payload) ∨
      (∃ x first rest, (linkOf x s).tx = first :: rest ∧ (linkOf x s).txClocks = 0 ∧
        i = if first.drawItem = true then .itemBoundary x else .transmissionEnd x) ∨
      (∃ x, (linkOf x s).rx.state ≠ .hunt ∧ (linkOf x s).rx.inBreak = false ∧
        (linkOf x s).rx.lastCharacter ≠ s.timeBase ∧ i = .gapLimitExpiry x) ∨
      (∃ x d, (unitOf x s).draw = some d ∧ d.phase = .spacing 0 ∧ i = .spacingExpiry x) ∨
      (∃ x, ∃ r ∈ (unitOf x s).staging, r.timer = 0 ∧ i = .segmentTimeout x r.channel) ∨
      (∃ x, (unitOf x s).record.keepaliveTimer = some 0 ∧ i = .keepaliveLapse x) ∨
      (∃ e h, (leaseOf e s).hold = some h ∧ h.remaining = 0 ∧ i = .holdLapse e) ∨
      (∃ e, ∃ w ∈ (leaseOf e s).waiters, w.wait = 0 ∧ i = .waitExpiry e w.station w.client)))

/-! ### Links -/

/-- R139: a good character at the receiver, state by state. The second CRC byte completes the frame, which
CompleteFrameIsCheckedAndQueued describes. R151: a bad length byte is the capture's header. R138, R140: a character
error and a gap above the limit drop the frame in reception with a FRAMING fault, which holds what was received of
the header (R151); in HUNT neither has an effect. -/
def Obligations.ReceiverFollowsItsStates : Prop :=
  (∀ (x : Station) (b : Byte) (s : State), Running s → AdvisoryAt x s → (linkOf x s).rx.inBreak = false →
      let entered (state : RxState) : State :=
        setLink x { linkOf x s with rx := { state := state, lastCharacter := s.timeBase, inBreak := false } } s
      ((linkOf x s).rx.state = .hunt →
        exec (.receiveCharacter x b) s = .next (entered (if b = 0xC3 then .length else .hunt))) ∧
      ((linkOf x s).rx.state = .length → 2 ≤ b.toNat → b.toNat ≤ 66 →
        exec (.receiveCharacter x b) s = .next (entered (.body b []))) ∧
      ((linkOf x s).rx.state = .length → b.toNat < 2 ∨ 66 < b.toNat →
        exec (.receiveCharacter x b) s = .next (recordFault x .framing (.header [b]) (entered .hunt))) ∧
      (∀ len kept, (linkOf x s).rx.state = .body len kept → kept.length + 1 < len.toNat →
        exec (.receiveCharacter x b) s = .next (entered (.body len (kept ++ [b])))) ∧
      (∀ len kept, (linkOf x s).rx.state = .body len kept → kept.length + 1 = len.toNat →
        exec (.receiveCharacter x b) s = .next (entered (.check len (kept ++ [b]) none))) ∧
      (∀ len kept, (linkOf x s).rx.state = .check len kept none →
        exec (.receiveCharacter x b) s = .next (entered (.check len kept (some b)))) ∧
      (∀ len kept high, (linkOf x s).rx.state = .check len kept (some high) → kept.length = len.toNat →
        2 ≤ kept.length → kept.length ≤ 66 →
        exec (.receiveCharacter x b) s = exec (.frameComplete x kept (halfOf high b)) s)) ∧
  (∀ (x : Station) (s : State), Running s → AdvisoryAt x s → (linkOf x s).rx.inBreak = false →
      let dropped (header : List Byte) : State :=
        recordFault x .framing (.header header)
          (setLink x { linkOf x s with rx := { (linkOf x s).rx with state := .hunt } } s)
      ((linkOf x s).rx.state = .hunt →
        exec (.gapLimitExpiry x) s = .next s ∧ exec (.characterError x) s = .next s) ∧
      ((linkOf x s).rx.state = .length →
        exec (.gapLimitExpiry x) s = .next (dropped []) ∧ exec (.characterError x) s = .next (dropped [])) ∧
      (∀ len kept, (linkOf x s).rx.state = .body len kept ∨ (∃ high, (linkOf x s).rx.state = .check len kept high) →
        exec (.gapLimitExpiry x) s = .next (dropped ((len :: kept).take 7)) ∧
          exec (.characterError x) s = .next (dropped ((len :: kept).take 7))))

/-- R141, R142, R128, R81: a complete frame. With the right CRC it restarts the keepalive timer of a PRESENT station
with K above 0 and joins the input queue, or is discarded as OVERRUN when 4 frames wait. With a wrong CRC it is
dropped with a CRC fault and restarts nothing. A HALT that is acted on at arrival (HaltActs, R81) is in
HaltStopsTheDraw; one that is not, since a HALT is recorded already, its payload is not empty or it repeats a cached
request, joins the queue like any other frame while the draw is in flight (R82). R145, R80, R134: the waiting frames
are taken oldest first, in either presence state of the station, while no draw is in flight and every frame in the
transmitter's list has begun. The oldest is removed and handled as one that arrives at an empty queue is, with no
second restart of the timer; an ABSENT station's is answered NOT_JOINED. A frame that is not the oldest, or may not be
taken yet, waits; one that arrives then joins the queue behind it, or is OVERRUN. That a request command whose frame
waits is the taking of that frame is the model's choice (notes/assumptions/1.md). -/
def Obligations.CompleteFrameIsCheckedAndQueued : Prop :=
  (∀ (x : Station) (kind tag : Byte) (payload : List Byte) (crc : Half) (s : State), Running s → AdvisoryAt x s →
        (linkOf x s).rx.inBreak = false → payload.length ≤ 64 →
        let f : Frame := { kind := kind, tag := tag, payload := payload, crc := crc }
        let received (queue : List Frame) (u : State) : State :=
          setLink x { linkOf x s with
            rx := { state := .hunt, lastCharacter := s.timeBase, inBreak := false }, inQueue := queue } u
        let timed : State :=
          if isPresent x s = true ∧ 0 < (unitOf x s).record.period then
            setUnit x { unitOf x s with
              record := { (unitOf x s).record with keepaliveTimer := some (unitOf x s).record.period } } s
          else s
        let good : Half := crc16 (byteOf (payload.length + 2) :: kind :: tag :: payload)
        (crc = good → ¬HaltActs x f s → (linkOf x s).inQueue.length < 4 →
          exec (.frameComplete x (kind :: tag :: payload) crc) s =
            .next (received ((linkOf x s).inQueue ++ [f]) timed)) ∧
        (crc = good → ¬HaltActs x f s → 4 ≤ (linkOf x s).inQueue.length →
          exec (.frameComplete x (kind :: tag :: payload) crc) s =
            .next (recordFault x .overrun (.header (byteOf (payload.length + 2) :: kind :: tag :: payload.take 4))
              (received (linkOf x s).inQueue timed))) ∧
        (crc ≠ good →
          exec (.frameComplete x (kind :: tag :: payload) crc) s =
            .next (recordFault x .crc (.header (byteOf (payload.length + 2) :: kind :: tag :: payload.take 4))
              (received (linkOf x s).inQueue s)))) ∧
  (∀ (x : Station) (kind tag : Byte) (payload : List Byte) (s : State), Running s →
    let f := requestFrame kind tag payload
    let i := requestCommand x kind tag payload
    let l := linkOf x s
    let s0 := restartKeepalive x s
    let mayBeTaken : Prop := (unitOf x s).draw = none ∧ l.tx.length ≤ 1
    let left (rest : List Frame) : State := setLink x { l with inQueue := rest } s
    (∀ rest, l.inQueue = f :: rest → mayBeTaken →
      exec i s = .next (settle (handleFrame x f (left rest))) ∧
      (isPresent x s = false → cacheMatch x f s = none → knownKind kind = true →
        kind ≠ 0x01 → kind ≠ 0x04 → kind ≠ 0x38 →
        exec i s =
          .next (transmit x
            (replyFrame f .notJoined
              (halfBytes (unitOf x s).record.epoch ++ [causeByte (unitOf x s).record.lastCause])) false
            (recordFault x .notJoined (.header (headerBytes f)) (left rest))))) ∧
    (l.inQueue = [] → l.rx.inBreak = false → mayBeTaken → exec i s = .next (settle (handleFrame x f s0))) ∧
    (f ∈ l.inQueue → ¬mayBeTaken ∨ l.inQueue.head? ≠ some f → exec i s = .next s) ∧
    (f ∉ l.inQueue → l.rx.inBreak = false → ¬mayBeTaken ∨ l.inQueue ≠ [] → ¬HaltActs x f s →
      (l.inQueue.length < 4 → exec i s = .next (setLink x { l with inQueue := l.inQueue ++ [f] } s0)) ∧
      (4 ≤ l.inQueue.length → AdvisoryAt x s →
        exec i s = .next (recordFault x .overrun (.header (headerBytes f)) s0))))

/-- R139, R141, R144: the bytes the transmitter sends for a frame, received one after the other from HUNT, are a
good frame of that kind, tag and payload: it joins the input queue with its CRC. -/
def Obligations.SentFrameIsReceivedGood : Prop :=
  ∀ (x : Station) (f : OutFrame) (s : State), Running s → (linkOf x s).rx.state = .hunt →
    (linkOf x s).rx.inBreak = false → f.payload.length ≤ 64 → (unitOf x s).draw = none →
    (linkOf x s).inQueue.length < 4 →
    core.run (f.payload.length + 6) { s with pending := (wireBytes f).map (Instr.receiveCharacter x) } =
      .next (setLink x { linkOf x s with
          rx := { state := .hunt, lastCharacter := s.timeBase, inBreak := false }
          inQueue := (linkOf x s).inQueue ++
            [{ kind := f.kind, tag := f.tag, payload := f.payload, crc := frameCrc f.kind f.tag f.payload }] }
        (restartKeepalive x { s with pending := [] }))

/-- R131, R143: a break drops the frame in reception without a fault, empties the input queue and makes a PRESENT
station depart with cause BREAK, once however long the line stays low; it ends without another effect. R130: when
the keepalive timer of a PRESENT station reaches zero, the station departs with cause LAPSED. Where there is no timer
or it runs, no lapse happens (R128; notes/assumptions/2.md). -/
def Obligations.BreakAndLapseMakeTheStationDepart : Prop :=
  (∀ (x : Station) (s : State), Running s → Advisory s →
      let cleared : State :=
        setLink x { linkOf x s with
          rx := { (linkOf x s).rx with state := .hunt, inBreak := true }, inQueue := [] } s
      ((linkOf x s).rx.inBreak = true → exec (.lineBreak x) s = .next s) ∧
      ((linkOf x s).rx.inBreak = false → isPresent x s = false → exec (.lineBreak x) s = .next cleared) ∧
      ((linkOf x s).rx.inBreak = false → isPresent x s = true →
        exec (.lineBreak x) s = .next (depart x .lineBreak cleared)) ∧
      exec (.breakEnd x) s =
        .next (setLink x { linkOf x s with rx := { (linkOf x s).rx with inBreak := false } } s)) ∧
  (∀ (x : Station) (s : State), Running s → Advisory s →
      (isPresent x s = true → (unitOf x s).record.keepaliveTimer = some 0 →
        exec (.keepaliveLapse x) s = .next (depart x .lapsed s)) ∧
      ((unitOf x s).record.keepaliveTimer ≠ some 0 → exec (.keepaliveLapse x) s = .next s))

/-! ### Departure -/

/-- R133, R134: after a departure, whatever its cause, the station has nothing; its epoch, period, identity and join
mode are kept, its signal set is reset, the frames in its input queue and its transmitter stay, and the other
station's link, record, signals and staging records are untouched. The commands that wait, the time base, the
straps, the store's bytes and its health record, the leases it neither held nor waited for and the channels it had
no part in are not changed. R17, R65: a departure with a cause other than LEFT makes every end of the station
dormant and keeps the channels' states; the LENT messages under its receiver ends return to QUEUED in their places
with redelivered set, and no message is lost. R103: the station's waiters leave every list; an entry it held gets the
last-holder record with ending REVOKED and is handed on to the peer's head waiter, or becomes FREE, with all its
waiters gone where it is exhausted (R99). R133 step 10: PEER_DEPARTED is the last offer. With a cause other than LEFT
and room in the queue of a PRESENT peer, the peer is offered the lease notices in ascending order of entry, then
PEER_DEPARTED, and nothing else; its wait count falls by its waiters that left. -/
def Obligations.DepartureLeavesNothing : Prop :=
  (∀ (x : Station) (cause : Cause) (s : State), let t := depart x cause s
      HasNothing x t ∧ attentionAsserted x t = false ∧
      (unitOf x t).record =
        { (unitOf x s).record with presence := .absent, keepaliveTimer := none, lastCause := some cause } ∧
      (unitOf x t).signals = { counts := Vector.replicate 16 0, mask := 0xFFFF, saturated := false } ∧
      (linkOf x t).inQueue = (linkOf x s).inQueue ∧ (linkOf x t).rx = (linkOf x s).rx ∧
      (linkOf x t).tx.map (·.frame) = (linkOf x s).tx.map (·.frame) ∧ (linkOf x t).txClocks = (linkOf x s).txClocks ∧
      linkOf x.peer t = linkOf x.peer s ∧ (unitOf x.peer t).record = (unitOf x.peer s).record ∧
      (unitOf x.peer t).signals = (unitOf x.peer s).signals ∧ (unitOf x.peer t).staging = (unitOf x.peer s).staging ∧
      (unitOf x.peer t).cache = (unitOf x.peer s).cache ∧ (unitOf x.peer t).draw = (unitOf x.peer s).draw ∧
      t.store.mem = s.store.mem ∧ t.store.health = s.store.health ∧ t.timeBase = s.timeBase ∧ t.straps = s.straps ∧
      t.pending = s.pending ∧
      (∀ e : Fin 16, heldBy x (leaseOf e s) = false → (leaseOf e s).waiters.all (fun w => w.station != x) = true →
        leaseOf e t = leaseOf e s) ∧
      (∀ c : Fin 8, holdsEnd x (chanOf c s).sender = false → holdsEnd x (chanOf c s).receiver = false →
        stagingOn x c s = none → chanOf c t = chanOf c s)) ∧
  (∀ (x : Station) (cause : Cause) (c : Fin 8) (s : State), cause ≠ .left →
      let ch := chanOf c s
      let t := chanOf c (depart x cause s)
      channelState t = channelState ch ∧ t.params = ch.params ∧ t.nextSeq = ch.nextSeq ∧
      t.arrivalOption = ch.arrivalOption ∧
      (holdsEnd x ch.sender = true → t.sender = { holder := some x, dormant := true }) ∧
      (holdsEnd x ch.sender = false → t.sender = ch.sender) ∧
      (holdsEnd x ch.receiver = true → t.receiver = { holder := some x, dormant := true } ∧
        t.queue = ch.queue.map fun m =>
          match m.state with
          | .lent => { m with state := .queued, redelivered := true }
          | .queued => m) ∧
      (holdsEnd x ch.receiver = false → t.receiver = ch.receiver ∧ t.queue = ch.queue)) ∧
  (∀ (x : Station) (cause : Cause) (s : State), ∃ u, HasNothing x u ∧
      depart x cause s = offer x.peer (.peerDeparted cause (unitOf x s).record.epoch) u) ∧
  (∀ (x : Station) (cause : Cause) (e : Fin 16) (s : State),
      let l := leaseOf e s
      let t := leaseOf e (depart x cause s)
      let others := l.waiters.filter fun w => w.station == x.peer
      (heldBy x l = false → t = { l with waiters := others }) ∧
      (∀ h, l.hold = some h → h.station = x →
        let revoked : LeaseEntry :=
          { l with
            hold := none, waiters := []
            last := some { station := x, client := h.client, fence := l.fence, ending := .revoked } }
        (others = [] ∨ l.fence = 0xFFFFFFFF → t = revoked) ∧
        (∀ w ws, others = w :: ws → l.fence ≠ 0xFFFFFFFF →
          t = { revoked with
                hold := some { station := x.peer, client := w.client, remaining := w.duration, granted := w.duration }
                fence := l.fence + 1, waiters := ws }))) ∧
  (∀ (x : Station) (cause : Cause) (s : State), cause ≠ .left → isPresent x.peer s = true →
      (unitOf x s).staging.all (fun r => holdsEnd x (chanOf r.channel s).sender) = true →
      let t := depart x cause s
      let q := (unitOf x.peer s).notices
      let leaves (e : Fin 16) : List Waiter :=
        let l := leaseOf e s
        let others := l.waiters.filter fun w => w.station == x.peer
        if heldBy x l = true then (if l.fence = 0xFFFFFFFF then others else others.take 1) else []
      let told (e : Fin 16) : List Notice :=
        (leaves e).map fun w =>
          if (leaseOf e s).fence = 0xFFFFFFFF then .leaseWaitExpired e w.client
          else .leaseGranted e w.client ((leaseOf e s).fence + 1) w.duration
      t.waitCounts.get x.peer = s.waitCounts.get x.peer - ((List.finRange 16).flatMap leaves).length ∧
      (q.length + ((List.finRange 16).flatMap told).length < 23 → (∀ v, .overflow v ∉ q) →
        (unitOf x.peer t).notices =
          q ++ (List.finRange 16).flatMap told ++ [.peerDeparted cause (unitOf x s).record.epoch]))

/-- R132, R148, R152: a request that is refused with a SEVERE, reported MALFORMED fault runs to its end. Its reply
is handed to the transmitter and not cached, and the station departs with cause FAULT. -/
def Obligations.SevereFaultDepartsAfterTheReply : Prop :=
  ∀ (x : Station) (kind tag : Byte) (payload : List Byte) (status : Status) (s : State),
    let f := requestFrame kind tag payload
    let r := KindRecords.get (unitOf x s).faults.kinds .malformed
    Ready x f s → isPresent x s = true → knownKind kind = true → payloadRefusal kind payload = some status →
    r.reported = true → r.severity = .severe → AdvisoryAt x.peer s →
    exec (requestCommand x kind tag payload) s =
      .next (depart x .fault (transmit x (replyFrame f status []) false
        (recordFault x .malformed (.header (headerBytes f)) (restartKeepalive x s))))

/-- R132, R77, R152: a SEVERE, reported fault of a PRESENT station makes it depart with cause FAULT when its event is
complete. CRC, OVERRUN and FRAMING: after the frame has been dropped. UNKNOWN_KIND, and DAMAGED_DELIVERY at a FETCH or a
READ: after the reply has been handed over, uncached. STAGING_EXPIRED: after the abandonment. NOTICE_LOSS: after the
event that made the offer, the peer's departure included, and at the station's own MASK or ABANDON after its reply has
been handed over, uncached. DAMAGED_DELIVERY of a draw item, at the DRAW, after a spacing and at an item boundary with
spacing 0: before the remaining count falls, and the item frame is not handed over. -/
def Obligations.SevereFaultsMakeTheStationDepart : Prop :=
  ∀ (x : Station) (k : FaultKind) (s : State), Running s → isPresent x s = true → AdvisoryAt x.peer s →
    let r := KindRecords.get (unitOf x s).faults.kinds k
    r.reported = true → r.severity = .severe →
    let departs (i : Instr) (t : State) : Prop := exec i s = .next (depart x .fault t)
    let s0 := restartKeepalive x s
    let q := (unitOf x s).notices
    let received (t : State) : State :=
      setLink x { linkOf x s with rx := { state := .hunt, lastCharacter := s.timeBase, inBreak := false } } t
    let dropped (header : List Byte) : State :=
      recordFault x .framing (.header header)
        (setLink x { linkOf x s with rx := { (linkOf x s).rx with state := .hunt } } s)
    let handed (d : State × List Byte × Bool) (c : Fin 8) (mode : DeliveryMode) (seq : Half) : State :=
      let t := setChan c { chanOf c d.1 with queue := lendFirst (chanOf c d.1).queue } d.1
      recordFault x .damagedDelivery (.delivery c seq)
        (match mode with
          | .peek => d.1
          | .lend => if (chanOf c t).queue.any isQueued = true then t else withdraw x (.arrival c) t)
    ((linkOf x s).rx.inBreak = false →
      (∀ (kind tag : Byte) (payload : List Byte) (crc : Half), payload.length ≤ 64 →
        let good : Half := crc16 (byteOf (payload.length + 2) :: kind :: tag :: payload)
        let header : CaptureInfo := .header (byteOf (payload.length + 2) :: kind :: tag :: payload.take 4)
        (k = .crc → crc ≠ good →
          departs (.frameComplete x (kind :: tag :: payload) crc) (recordFault x .crc header (received s))) ∧
        (k = .overrun → crc = good → 4 ≤ (linkOf x s).inQueue.length →
          ¬HaltActs x { kind := kind, tag := tag, payload := payload, crc := crc } s →
          departs (.frameComplete x (kind :: tag :: payload) crc) (recordFault x .overrun header (received s0)))) ∧
      (k = .framing → (linkOf x s).rx.state = .length →
        departs (.gapLimitExpiry x) (dropped []) ∧ departs (.characterError x) (dropped [])) ∧
      (∀ len kept, k = .framing →
        (linkOf x s).rx.state = .body len kept ∨ (∃ high, (linkOf x s).rx.state = .check len kept high) →
        departs (.gapLimitExpiry x) (dropped ((len :: kept).take 7)) ∧
          departs (.characterError x) (dropped ((len :: kept).take 7)))) ∧
    (∀ (kind tag : Byte) (payload : List Byte), let f := requestFrame kind tag payload
      k = .unknownKind → Ready x f s → knownKind kind = false →
      departs (.unknownKindRequest x kind tag payload)
        (transmit x { kind := 0xFE, tag := tag, payload := [0x03, kind] } false
          (recordFault x .unknownKind (.header (headerBytes f)) s0))) ∧
    (∀ (c : Fin 8) (v : Staging), k = .stagingExpired → stagingOn x c s = some v → v.timer = 0 →
      departs (.segmentTimeout x c)
        (recordFault x .stagingExpired (.staging c v.received v.total)
          (offer x (.stagingExpired c v.received v.total) (abandonStaging x v s)))) ∧
    (k = .noticeLoss → NoticesOk q → 23 ≤ q.length →
      (∀ (e : Fin 16) (client : Fin 8) (before after : List Waiter) (w : Waiter),
        (leaseOf e s).waiters = before ++ w :: after → (before ++ after).any (isWaiter x client) = false →
        w.station = x → w.client = client → w.wait = 0 →
        departs (.waitExpiry e x client)
          (offer x (.leaseWaitExpired e client)
            (setWaitCount x (s.waitCounts.get x - 1)
              (setLease e { leaseOf e s with waiters := before ++ after } s)))) ∧
      (isPresent x.peer s = true → (unitOf x.peer s).record.keepaliveTimer = some 0 →
        departs (.keepaliveLapse x.peer) (depart x.peer .lapsed s)) ∧
      (∀ (tag : Byte) (flags : Half), let f := requestFrame 0x15 tag (halfBytes flags)
        let g := (unitOf x s).signals
        Ready x f s → .signalsPending ∉ q →
        (∃ i : Fin 16, g.mask.getLsbD i.val = true ∧ flags.getLsbD i.val = false ∧ g.counts[i] ≠ 0) →
        ∃ nonZero : Half, (∀ i : Fin 16, nonZero.getLsbD i.val = (g.counts[i] != 0)) ∧
          departs (.mask x tag (halfBytes flags))
            (transmit x (replyFrame f .ok (halfBytes flags ++ halfBytes nonZero)) false
              (offer x .signalsPending (setUnit x { unitOf x s0 with signals := { g with mask := flags } } s0)))) ∧
      (∀ (tag : Byte) (c : Fin 8) (v : Staging) (p : Params), let f := requestFrame 0x22 tag [byteOf c.val]
        Ready x f s → holdsActive x (chanOf c s).sender = true → stagingOn x c s = some v →
        (chanOf c s).params = some p → (chanOf c s).congested = true → (chanOf c s).queue.length ≤ p.low →
        (∀ w o, .flow c w o ∉ q) →
        departs (.abandon x tag [byteOf c.val])
          (transmit x (replyFrame f .ok (natBytes2 v.received ++ natBytes2 v.total)) false
            (abandonStaging x v s0)))) ∧
    (∀ (tag : Byte) (c : Fin 8) (mode : DeliveryMode) (m : Message),
      let ch := chanOf c s
      let modeByte : Byte := match mode with | .lend => 0x01 | .peek => 0x02
      let fetch := [byteOf c.val, modeByte]
      let i : Instr := match mode with | .lend => .fetchLend x tag fetch | .peek => .fetchPeek x tag fetch
      let d := deliver c m 0 (min 56 m.length) s0
      k = .damagedDelivery → holdsActive x ch.receiver = true →
      ch.queue.find? isQueued = some m → mode = .peek ∨ lentCount ch < 8 → d.2.2 = true →
      (Ready x (requestFrame 0x28 tag fetch) s →
        departs i
          (transmit x
            (replyFrame (requestFrame 0x28 tag fetch) .ok
              (halfBytes m.seq ++ natBytes2 m.length ++
                [messageFlags m.redelivered true false,
                  byteOf (match mode with | .lend => queuedCount ch - 1 | .peek => queuedCount ch)] ++ d.2.1)) false
            (handed d c mode m.seq))) ∧
      (∀ count spacing : Nat, let draw := [byteOf c.val, byteOf count, modeByte, byteOf spacing]
        1 ≤ count → count ≤ 8 → spacing ≤ 15 → Ready x (requestFrame 0x2D tag draw) s →
        departs (.draw x tag draw) (handed d c mode m.seq))) ∧
    (∀ (tag : Byte) (c : Fin 8) (seq offset : Half) (m : Message),
      let payload := [byteOf c.val] ++ halfBytes seq ++ halfBytes offset
      let f := requestFrame 0x29 tag payload
      let d := deliver c m offset.toNat (min 58 (m.length - offset.toNat)) s0
      k = .damagedDelivery → Ready x f s → holdsActive x (chanOf c s).receiver = true → offset.toNat ≤ m.length →
      offset.toNat ≤ 512 → (chanOf c s).queue.find? (fun m => isLent m && m.seq == seq) = some m → d.2.2 = true →
      departs (.read x tag payload)
        (transmit x
          (replyFrame f .ok
            (halfBytes seq ++ halfBytes offset ++ [messageFlags m.redelivered true false] ++ d.2.1)) false
          (recordFault x .damagedDelivery (.delivery c seq) d.1))) ∧
    (∀ (d : Draw) (m : Message), let ch := chanOf d.channel s
      let after : List Message :=
        match d.mode, d.cursor with
        | .peek, some n => (ch.queue.dropWhile fun m => m.seq != n).drop 1
        | _, _ => ch.queue
      let g := deliver d.channel m 0 (min 56 m.length) s
      k = .damagedDelivery → (unitOf x s).draw = some d → d.phase = .spacing 0 →
      holdsActive x ch.receiver = true → after.find? isQueued = some m → d.mode = .peek ∨ lentCount ch < 8 →
      g.2.2 = true → departs (.spacingExpiry x) (handed g d.channel d.mode m.seq)) ∧
    (∀ (d : Draw) (m : Message) (first : TxEntry) (rest : List TxEntry), let ch := chanOf d.channel s
      let after : List Message :=
        match d.mode, d.cursor with
        | .peek, some n => (ch.queue.dropWhile fun m => m.seq != n).drop 1
        | _, _ => ch.queue
      let shifted : State :=
        setLink x { linkOf x s with
          tx := rest
          txClocks := match rest with | [] => 0 | next :: _ => frameClocks (s.straps.get x) next.frame } s
      let g := deliver d.channel m 0 (min 56 m.length) shifted
      k = .damagedDelivery → (linkOf x s).tx = first :: rest → first.drawItem = true →
      (unitOf x s).draw = some d → d.remaining ≠ 0 → d.haltTag = none → d.spacing = 0 →
      holdsActive x ch.receiver = true → after.find? isQueued = some m → d.mode = .peek ∨ lentCount ch < 8 →
      g.2.2 = true → departs (.itemBoundary x) (handed g d.channel d.mode m.seq))

/-! ### Request handling -/

/-- R147: a request frame whose tag, kind and CRC match an entry of the reply cache is answered with the cached
frame, unchanged; the entry becomes the most recent, and nothing else changes but the keepalive timer. -/
def Obligations.RepeatIsAnsweredFromTheCache : Prop :=
  ∀ (x : Station) (kind tag : Byte) (payload : List Byte) (e : CacheEntry) (s : State), TakenAtOnce x s →
    cacheMatch x (requestFrame kind tag payload) s = some e →
    let s0 := restartKeepalive x s
    exec (requestCommand x kind tag payload) s =
      .next (transmit x e.reply false
        (setUnit x { unitOf x s0 with
          cache := (e :: (unitOf x s).cache.filter fun old => old.tag != e.tag).take 8 } s0))

/-- R134, R148 step 3: every request of an ABSENT station but JOIN, IDENTIFY and FAULTS is answered NOT_JOINED with
the station's epoch and last departure cause; a NOT_JOINED fault is recorded and the reply is not cached. R148 step
2, R159: a request of unknown kind is answered with kind FEH and the kind received, in either state of the station,
and an UNKNOWN_KIND fault is recorded. -/
def Obligations.AbsentAndUnknownKindAreRefused : Prop :=
  (∀ (x : Station) (kind tag : Byte) (payload : List Byte) (s : State),
      let f := requestFrame kind tag payload
      Ready x f s → isPresent x s = false → knownKind kind = true → kind ≠ 0x01 → kind ≠ 0x04 → kind ≠ 0x38 →
      exec (requestCommand x kind tag payload) s =
        .next (transmit x
          (replyFrame f .notJoined
            (halfBytes (unitOf x s).record.epoch ++ [causeByte (unitOf x s).record.lastCause])) false
          (recordFault x .notJoined (.header (headerBytes f)) s))) ∧
  (∀ (x : Station) (kind tag : Byte) (payload : List Byte) (s : State),
      let f := requestFrame kind tag payload
      Ready x f s → AdvisoryAt x s → knownKind kind = false →
      let r : OutFrame := { kind := 0xFE, tag := tag, payload := [0x03, kind] }
      let t := recordFault x .unknownKind (.header (headerBytes f)) (restartKeepalive x s)
      (isPresent x s = true →
        exec (.unknownKindRequest x kind tag payload) s =
          .next (transmit x r false (enterCache x { tag := tag, kind := kind, crc := f.crc, reply := r } t))) ∧
      (isPresent x s = false → exec (.unknownKindRequest x kind tag payload) s = .next (transmit x r false t)))

/-- R148 steps 4, 5, 7 and 8: a request whose length or field is refused changes nothing but the fault record and
what follows from it; the refusal is the status alone, and it is cached when the station is PRESENT. -/
def Obligations.MalformedRequestIsRefused : Prop :=
  ∀ (x : Station) (kind tag : Byte) (payload : List Byte) (status : Status) (s : State),
    let f := requestFrame kind tag payload
    Ready x f s → AdvisoryAt x s → knownKind kind = true → payloadRefusal kind payload = some status →
    let t := recordFault x .malformed (.header (headerBytes f)) (restartKeepalive x s)
    (isPresent x s = true → exec (requestCommand x kind tag payload) s = .next (answered x f status [] t)) ∧
    (isPresent x s = false → kindForAbsent kind = true →
      exec (requestCommand x kind tag payload) s = .next (transmit x (replyFrame f status []) false t))

/-- R160: the payload lengths of each request kind. A known kind's request is refused with BAD_LENGTH exactly when
its length is not one that the table allows for it, the length of a selector's own code where it is valid and the
shortest one or more where it is not (stated for SEGMENT by R41, read from it for OPEN and INQUIRE:
notes/assumptions/34.md); and no other refusal than BAD_LENGTH and BAD_FIELD is made at these steps. R148 step 5: a
request whose length is allowed is refused with BAD_FIELD exactly when a field lies out of the range that its owner's
chapter gives it (R4, R5, R10, R36, R41, R61, R74, R91, R113, R119, R125, R156, R158, as fieldsInRange lists them). -/
def Obligations.LengthsFollowTheTable : Prop :=
  ∀ (kind : Byte) (payload : List Byte), knownKind kind = true →
    (payloadRefusal kind payload = some .badLength ↔ lengthAllowed kind payload = false) ∧
    (lengthAllowed kind payload = true →
      (payloadRefusal kind payload = some .badField ↔ fieldsInRange kind payload = false)) ∧
    ∀ status, payloadRefusal kind payload = some status → status = .badLength ∨ status = .badField

/-! ### Presence and inquiries -/

/-- R123, R124, R125, R118, R114: a JOIN of an ABSENT station. The reply's last departure cause is the one before
the JOIN; its count is the number of ends the station held dormant. In RESUME mode they become active, in FRESH mode
they are released. PEER_JOINED is the last offer made. The leases, the links, the store's bytes, the channels it has
no end of and the peer's unit but for its notices and faults are unchanged. R126: a JOIN of a PRESENT station first
makes it depart with cause REJOIN; it then joins as from ABSENT, and the reply's last departure cause is REJOIN. R18:
with RESUME an empty notice queue then holds ARRIVAL for each receiver end with the arrival option on and a QUEUED
message, FLOW (CONGESTED, O) for each sender end on a congested channel, each once, and nothing else. With FRESH a
PRESENT peer with room in its queue is offered CHANNEL_CLOSED for each end that is closed and whose other end is held,
and nothing else before PEER_JOINED. R14, R15: a dormant end that FRESH closes is released; with the other end held the
queue, the parameters, O and charged stay, with LENT messages QUEUED again and the arrival option off at a receiver
end; with no end left the channel is CLOSED and its messages' blocks are free. -/
def Obligations.JoinMakesTheStationPresent : Prop :=
  (∀ (x : Station) (tag : Byte) (period : Half) (mode : JoinMode) (identity : Word) (s : State),
      let f := requestFrame 0x01 tag (halfBytes period ++ [joinModeByte (some mode)] ++ wordBytes identity)
      Ready x f s → Advisory s → isPresent x s = false →
      period = 0 ∨ (50 ≤ period.toNat ∧ period.toNat ≤ 60000) →
      let u := unitOf x s
      let epoch : Half := if u.record.epoch = 0xFFFF then 1 else u.record.epoch + 1
      ∃ t, exec (.join x tag (halfBytes period ++ [joinModeByte (some mode)] ++ wordBytes identity)) s =
          .next (answered x f .ok
            (halfBytes epoch ++ [causeByte u.record.lastCause, Presence.code (unitOf x.peer s).record.presence] ++
              halfBytes (unitOf x.peer s).record.epoch ++ [byteOf (dormantEnds x s)])
            (offer x.peer (.peerJoined epoch identity) t)) ∧
        (unitOf x t).record =
          { presence := .present, epoch := epoch, period := period.toNat
            keepaliveTimer := if period = 0 then none else some period.toNat
            identity := identity, joinMode := some mode, lastCause := u.record.lastCause } ∧
        (unitOf x t).signals = { counts := Vector.replicate 16 0, mask := 0xFFFF, saturated := false } ∧
        (unitOf x t).nextNotice = 0 ∧ dormantEnds x t = 0 ∧ t.leases = s.leases ∧ t.links = s.links ∧
        t.waitCounts = s.waitCounts ∧ t.store.mem = s.store.mem ∧ t.store.health = s.store.health ∧
        (unitOf x t).cache = u.cache ∧ (unitOf x t).draw = u.draw ∧
        (unitOf x.peer t).record = (unitOf x.peer s).record ∧ (unitOf x.peer t).signals = (unitOf x.peer s).signals ∧
        (unitOf x.peer t).staging = (unitOf x.peer s).staging ∧ (unitOf x.peer t).cache = (unitOf x.peer s).cache ∧
        (unitOf x.peer t).draw = (unitOf x.peer s).draw ∧
        (∀ c : Fin 8, holdsEnd x (chanOf c s).sender = false → holdsEnd x (chanOf c s).receiver = false →
          chanOf c t = chanOf c s) ∧
        (mode = .resume → t.store = s.store ∧ ∀ c : Fin 8,
          (holdsEnd x (chanOf c s).sender = true → (chanOf c t).sender = { holder := some x, dormant := false }) ∧
          (holdsEnd x (chanOf c s).receiver = true → (chanOf c t).receiver = { holder := some x, dormant := false }) ∧
          (chanOf c t).queue = (chanOf c s).queue ∧ (chanOf c t).params = (chanOf c s).params) ∧
        (mode = .fresh → ∀ c : Fin 8,
          ((chanOf c s).sender = { holder := some x, dormant := true } → endHeld (chanOf c t).sender = false) ∧
          ((chanOf c s).receiver = { holder := some x, dormant := true } → endHeld (chanOf c t).receiver = false)) ∧
        (mode = .resume → (unitOf x.peer t).notices = (unitOf x.peer s).notices ∧
          (u.notices = [] → (unitOf x t).notices.Nodup ∧ ∀ n, n ∈ (unitOf x t).notices ↔
            (∃ c : Fin 8, n = .arrival c ∧ holdsEnd x (chanOf c s).receiver = true ∧
              (chanOf c s).arrivalOption = true ∧ (chanOf c s).queue.any isQueued = true) ∨
            (∃ c : Fin 8, n = .flow c true ((chanOf c s).queue.length + (chanOf c s).reserved) ∧
              holdsEnd x (chanOf c s).sender = true ∧ (chanOf c s).congested = true))) ∧
        (mode = .fresh → isPresent x.peer s = true → u.staging = [] → (unitOf x.peer s).notices.length ≤ 15 →
          (∀ v, .overflow v ∉ (unitOf x.peer s).notices) →
          (∀ c : Fin 8, holdsEnd x (chanOf c s).sender = false ∨ holdsEnd x (chanOf c s).receiver = false) →
          ∃ told : List Notice, (unitOf x.peer t).notices = (unitOf x.peer s).notices ++ told ∧ told.Nodup ∧
            ∀ n, n ∈ told ↔ ∃ (c : Fin 8) (role : Role), n = .channelClosed c role ∧
              endOf role (chanOf c s) = { holder := some x, dormant := true } ∧
              endHeld (endOf role.other (chanOf c s)) = true) ∧
        (mode = .fresh → ChannelLaw s → ∀ (c : Fin 8) (role : Role), let ch := chanOf c s
          endOf role ch = { holder := some x, dormant := true } →
          (endHeld (endOf role.other ch) = true → chanOf c t =
            match role with
            | .send => { ch with sender := { holder := none, dormant := false } }
            | .receive =>
              { ch with
                receiver := { holder := none, dormant := false }
                arrivalOption := false
                queue := ch.queue.map fun m =>
                  match m.state with
                  | .lent => { m with state := .queued, redelivered := true }
                  | .queued => m }) ∧
          (endHeld (endOf role.other ch) = false →
            chanOf c t =
              { sender := { holder := none, dormant := false }, receiver := { holder := none, dormant := false },
                arrivalOption := false, params := none, nextSeq := 0, queue := [], reserved := 0, charged := 0,
                congested := false } ∧
            ∀ m ∈ ch.queue, ∀ b ∈ m.blocks, b ∈ t.store.freePool))) ∧
  (∀ (x : Station) (tag : Byte) (period : Half) (mode : JoinMode) (identity : Word) (s : State),
      let f := requestFrame 0x01 tag (halfBytes period ++ [joinModeByte (some mode)] ++ wordBytes identity)
      Ready x f s → Advisory s → isPresent x s = true →
      period = 0 ∨ (50 ≤ period.toNat ∧ period.toNat ≤ 60000) →
      let departed := depart x .rejoin (restartKeepalive x s)
      let t := joinStation x { period := period.toNat, mode := mode, identity := identity } departed
      exec (.join x tag (halfBytes period ++ [joinModeByte (some mode)] ++ wordBytes identity)) s =
        .next (answered x f .ok
          (halfBytes (nextEpoch (unitOf x s).record.epoch) ++
            [0x04, Presence.code (unitOf x.peer s).record.presence] ++ halfBytes (unitOf x.peer s).record.epoch ++
            [byteOf (dormantEnds x departed)]) t))

/-- R127: LEAVE. The station departs with cause LEFT: nothing of it stays, its ends are closed. The reply carries
the departing epoch and the numbers of ends closed and leases revoked; it is the last frame handed over and is not
cached. The peer's unit but for its notices and faults, and the leases and channels the station had no part in, are
unchanged. The state is that of a departure with cause LEFT with the reply handed over. R14, R15, R17: each end is
closed: with the other end held the queue is kept, LENT messages are QUEUED again, and a staging record's reservation
and charge drop; with no end left the channel is CLOSED and the blocks are free. R103: the leases are revoked and handed
on. R133: a PRESENT peer with room in its queue is offered CHANNEL_CLOSED for each end closed whose other end it holds,
then the lease notices in ascending order of entry, then PEER_DEPARTED (LEFT), and nothing else. -/
def Obligations.LeaveClosesAndDeparts : Prop :=
  ∀ (x : Station) (tag : Byte) (s : State), let f := requestFrame 0x02 tag []
    Ready x f s → Advisory s → isPresent x s = true →
    ∃ t, exec (.leave x tag []) s = .next t ∧ HasNothing x t ∧ endsHeld x t = 0 ∧
      (unitOf x t).record =
        { (unitOf x s).record with presence := .absent, keepaliveTimer := none, lastCause := some .left } ∧
      (linkOf x t).tx.map (·.frame) = (linkOf x s).tx.map (·.frame) ++
        [replyFrame f .ok
          (halfBytes (unitOf x s).record.epoch ++ [byteOf (endsHeld x s), byteOf (leasesHeld x s)])] ∧
      t.store.health = s.store.health ∧ t.store.mem = s.store.mem ∧ t.timeBase = s.timeBase ∧
      linkOf x.peer t = linkOf x.peer s ∧ (unitOf x.peer t).record = (unitOf x.peer s).record ∧
      (unitOf x.peer t).signals = (unitOf x.peer s).signals ∧ (unitOf x.peer t).staging = (unitOf x.peer s).staging ∧
      (unitOf x.peer t).cache = (unitOf x.peer s).cache ∧ (unitOf x.peer t).draw = (unitOf x.peer s).draw ∧
      (∀ e : Fin 16, heldBy x (leaseOf e s) = false → (leaseOf e s).waiters.all (fun w => w.station != x) = true →
        leaseOf e t = leaseOf e s) ∧
      (∀ c : Fin 8, holdsEnd x (chanOf c s).sender = false → holdsEnd x (chanOf c s).receiver = false →
        stagingOn x c s = none → chanOf c t = chanOf c s) ∧
      t = transmit x
        (replyFrame f .ok (halfBytes (unitOf x s).record.epoch ++ [byteOf (endsHeld x s), byteOf (leasesHeld x s)]))
        false (depart x .left (restartKeepalive x s)) ∧
      (ChannelLaw s → BlockLaw s → ∀ c : Fin 8,
        let ch := chanOf c s
        let released : End := { holder := none, dormant := false }
        let closed : Channel :=
          { sender := released, receiver := released, arrivalOption := false, params := none, nextSeq := 0, queue := [],
            reserved := 0, charged := 0, congested := false }
        (ch.sender.holder = some x → ch.receiver.holder = some x.peer →
          (stagingOn x c s = none → chanOf c t = { ch with sender := released }) ∧
          (∀ r p, stagingOn x c s = some r → ch.params = some p →
            chanOf c t =
              { ch with
                sender := released, reserved := 0, charged := ch.charged - r.blocks.length
                congested :=
                  if ch.congested = true then decide (p.low < ch.queue.length)
                  else decide (p.high ≤ ch.queue.length) })) ∧
        (ch.receiver.holder = some x → ch.sender.holder = some x.peer →
          chanOf c t =
            { ch with
              receiver := released, arrivalOption := false
              queue := ch.queue.map fun m =>
                match m.state with
                | .lent => { m with state := .queued, redelivered := true }
                | .queued => m }) ∧
        (ch.sender.holder = some x ∧ ch.receiver.holder = none ∨ ch.receiver.holder = some x ∧ ch.sender.holder = none →
          chanOf c t = closed ∧ ∀ m ∈ ch.queue, ∀ b ∈ m.blocks, b ∈ t.store.freePool) ∧
        ∀ r, stagingOn x c s = some r → ∀ b ∈ r.blocks, b ∈ t.store.freePool) ∧
      (∀ e : Fin 16, let l := leaseOf e s
        let others := l.waiters.filter fun w => w.station == x.peer
        (heldBy x l = false → leaseOf e t = { l with waiters := others }) ∧
        (∀ h, l.hold = some h → h.station = x →
          let revoked : LeaseEntry :=
            { l with
              hold := none, waiters := []
              last := some { station := x, client := h.client, fence := l.fence, ending := .revoked } }
          (others = [] ∨ l.fence = 0xFFFFFFFF → leaseOf e t = revoked) ∧
          (∀ w ws, others = w :: ws → l.fence ≠ 0xFFFFFFFF →
            leaseOf e t =
              { revoked with
                hold := some { station := x.peer, client := w.client, remaining := w.duration, granted := w.duration }
                fence := l.fence + 1, waiters := ws }))) ∧
      (isPresent x.peer s = true → ChannelLaw s →
        let q := (unitOf x.peer s).notices
        let told (e : Fin 16) : List Notice :=
          let l := leaseOf e s
          let others := l.waiters.filter fun w => w.station == x.peer
          if heldBy x l = false then []
          else if l.fence = 0xFFFFFFFF then others.map fun w => .leaseWaitExpired e w.client
          else (others.take 1).map fun w => .leaseGranted e w.client (l.fence + 1) w.duration
        ∃ ends : List Notice, ends.Nodup ∧
          (∀ n, n ∈ ends ↔ ∃ (c : Fin 8) (role : Role), n = .channelClosed c role ∧
            (endOf role (chanOf c s)).holder = some x ∧ endHeld (endOf role.other (chanOf c s)) = true) ∧
          (q.length + ends.length + ((List.finRange 16).flatMap told).length < 23 → (∀ v, .overflow v ∉ q) →
            (unitOf x.peer t).notices =
              q ++ ends ++ (List.finRange 16).flatMap told ++ [.peerDeparted .left (unitOf x s).record.epoch]))

/-- R129: KEEPALIVE reports presence and changes nothing beyond the restart of the timer that its arrival made. From
an ABSENT station it is answered NOT_JOINED, with the fault of R148 step 3. R149: IDENTIFY is answered in either
state of the station and changes nothing; the reply is cached for a PRESENT station alone. -/
def Obligations.KeepaliveAndIdentifyReport : Prop :=
  (∀ (x : Station) (tag : Byte) (s : State), let f := requestFrame 0x03 tag []
      Ready x f s →
      let u := unitOf x s
      (isPresent x s = true → exec (.keepalive x tag []) s =
        .next (answered x f .ok
          (halfBytes u.record.epoch ++ natBytes2 u.record.period ++ [byteOf u.notices.length] ++
            [Presence.code (unitOf x.peer s).record.presence] ++ halfBytes (unitOf x.peer s).record.epoch)
          (restartKeepalive x s))) ∧
      (isPresent x s = false → exec (.keepalive x tag []) s =
        .next (transmit x (replyFrame f .notJoined (halfBytes u.record.epoch ++ [causeByte u.record.lastCause])) false
          (recordFault x .notJoined (.header (headerBytes f)) s)))) ∧
  (∀ (x : Station) (tag : Byte) (s : State), let f := requestFrame 0x04 tag []
      Ready x f s →
      let strap (r : Straps) : Byte :=
        match r.rate1, r.rate0 with
        | false, false => 0x00
        | false, true => 0x01
        | true, false => 0x02
        | true, true => 0x03
      let fieldBytes : List Byte :=
        [0x0B, 0x7C, 0x24, 0x10, 0x03, strap s.straps.a, strap s.straps.b, 8, 0x01, 0x00, 16]
      (isPresent x s = true →
        exec (.identify x tag []) s = .next (answered x f .ok fieldBytes (restartKeepalive x s))) ∧
      (isPresent x s = false →
        exec (.identify x tag []) s = .next (transmit x (replyFrame f .ok fieldBytes) false s)))

/-- R21, R34, R104, R136: the four inquiries of a PRESENT station. Each is answered OK with its subject code and the
record of R163 and changes nothing. -/
def Obligations.InquiriesReportAndChangeNothing : Prop :=
  ∀ (x : Station) (tag : Byte) (c : Fin 8) (e : Fin 16) (s : State), isPresent x s = true →
    let s0 := restartKeepalive x s
    let ch := chanOf c s
    let l := leaseOf e s
    let h := s.store.health
    let p := ch.params.getD { depth := 0, quota := 0, high := 0, low := 0 }
    let station (r : StationRecord) : List Byte :=
      [Presence.code r.presence] ++ halfBytes r.epoch ++ natBytes2 r.period ++ natBytes2 (r.keepaliveTimer.getD 0) ++
        wordBytes r.identity ++ [joinModeByte r.joinMode, causeByte r.lastCause]
    (Ready x (requestFrame 0x08 tag [0x01, byteOf c.val]) s →
      exec (.inquireChannel x tag [0x01, byteOf c.val]) s =
        .next (answered x (requestFrame 0x08 tag [0x01, byteOf c.val]) .ok
          ([0x01, byteOf c.val, ChannelState.code (channelState ch), stationByte ch.sender.holder,
              flagByte ch.sender.dormant, stationByte ch.receiver.holder, flagByte ch.receiver.dormant,
              flagByte ch.arrivalOption, byteOf p.depth] ++ natBytes2 p.quota ++ [byteOf p.high, byteOf p.low] ++
            halfBytes ch.nextSeq ++
            [byteOf (queuedCount ch), byteOf (lentCount ch), byteOf ch.reserved,
              byteOf (ch.queue.length + ch.reserved)] ++ natBytes2 ch.charged ++ [flagByte ch.congested] ++
            halfBytes ((ch.queue.head?.map (·.seq)).getD 0) ++ halfBytes ((ch.queue.head?.map (·.epoch)).getD 0) ++
            halfBytes ((ch.queue.getLast?.map (·.seq)).getD 0)) s0)) ∧
    (Ready x (requestFrame 0x08 tag [0x02, byteOf e.val]) s →
      exec (.inquireLease x tag [0x02, byteOf e.val]) s =
        .next (answered x (requestFrame 0x08 tag [0x02, byteOf e.val]) .ok
          ([0x02, byteOf e.val, flagByte l.hold.isSome] ++
            (match l.hold with
              | none => [0x00, 0x00, 0x00, 0x00, 0x00, 0x00]
              | some k => [Station.code k.station, byteOf k.client.val] ++ natBytes2 k.remaining ++
                  natBytes2 k.granted) ++ wordBytes l.fence ++ [byteOf l.waiters.length] ++
            padTo 24 (l.waiters.flatMap fun w =>
              [Station.code w.station, byteOf w.client.val] ++ natBytes2 w.duration ++ natBytes2 w.wait) ++
            (match l.last with
              | none => [0x00, 0x00, 0x00, 0x00, 0x00, 0x00, 0x00]
              | some r => [Ending.code r.ending, Station.code r.station, byteOf r.client.val] ++ wordBytes r.fence) ++
            [flagByte (l.fence == 0xFFFFFFFF), byteOf (s.waitCounts.get x)]) s0)) ∧
    (Ready x (requestFrame 0x08 tag [0x03]) s →
      exec (.inquireStore x tag [0x03]) s =
        .next (answered x (requestFrame 0x08 tag [0x03]) .ok
          ([0x03] ++ natBytes2 s.store.freePool.length ++ natBytes2 h.corrected ++ natBytes2 h.uncorrectable ++
            (match h.last with
              | none => [0x00, 0x00, 0x00, 0x00, 0x00, 0x00]
              | some r => [0x01, byteOf r.block.val, byteOf r.channel.val, flagByte r.staged] ++ halfBytes r.seq))
          s0)) ∧
    (Ready x (requestFrame 0x08 tag [0x04]) s →
      exec (.inquireStation x tag [0x04]) s =
        .next (answered x (requestFrame 0x08 tag [0x04]) .ok
          ([0x04] ++ station (unitOf .a s0).record ++ station (unitOf .b s0).record ++
            [byteOf (unitOf x s).notices.length, byteOf (unitOf x s).staging.length, byteOf (endsHeld x s)]) s0))

/-! ### Channels -/

/-- R19, R20: the congested flag is evaluated against O. At H or more it is set, at L or less it is cleared, and
between the marks it stays; a flip offers FLOW, with the new state and O, to the holder of a sender end that is held
and active, and to no one else. R39: the ARRIVAL offer at an append. It is made to the holder of a receiver end that
is held, active and has its arrival option on, and in no other case. -/
def Obligations.EndsAreToldOfQueueChanges : Prop :=
  (∀ (c : Fin 8) (p : Params) (s : State), (chanOf c s).params = some p →
      let ch := chanOf c s
      let o := ch.queue.length + ch.reserved
      let flipped (v : Bool) : State := setChan c { ch with congested := v } s
      let flowTo (v : Bool) (t : State) : State :=
        if ch.sender.dormant = true then t
        else
          match ch.sender.holder with
          | none => t
          | some y => offer y (.flow c v o) t
      (ch.congested = false → p.high ≤ o → evalCongestion c s = flowTo true (flipped true)) ∧
      (ch.congested = false → o < p.high → evalCongestion c s = s) ∧
      (ch.congested = true → o ≤ p.low → evalCongestion c s = flowTo false (flipped false)) ∧
      (ch.congested = true → p.low < o → evalCongestion c s = s)) ∧
  (∀ (c : Fin 8) (s : State), let ch := chanOf c s
      (∀ y, ch.receiver = { holder := some y, dormant := false } → ch.arrivalOption = true →
        offerArrival c s = offer y (.arrival c) s) ∧
      (ch.receiver.holder = none ∨ ch.receiver.dormant = true ∨ ch.arrivalOption = false → offerArrival c s = s))

/-- R5, R6, R10, R11: an OPEN in the "given" form with valid parameters on a CLOSED channel. The station holds the
named end, active; parameters and next_seq are set; CHANNEL_OPENED is offered to the peer. In the "accept" form it
is answered BAD_FIELD and nothing changes. -/
def Obligations.OpenTakesAClosedChannel : Prop :=
  ∀ (x : Station) (tag : Byte) (c : Fin 8) (role : Role) (arrival : Bool) (p : Params) (s : State),
    let given := [byteOf c.val, Role.code role, 0x01, flagByte arrival, byteOf p.depth] ++ natBytes2 p.quota ++
      [byteOf p.high, byteOf p.low]
    let accept := [byteOf c.val, Role.code role, 0x02, flagByte arrival]
    let ch := chanOf c s
    isPresent x s = true → ch.sender.holder = none → ch.receiver.holder = none →
    (Ready x (requestFrame 0x18 tag given) s → Advisory s →
      1 ≤ p.depth → p.depth ≤ 32 → 1 ≤ p.quota → p.quota ≤ 256 → 1 ≤ p.high → p.high ≤ p.depth → p.low < p.high →
      exec (.open_ x tag given) s =
        .next (answered x (requestFrame 0x18 tag given) .ok
          ([match role with | .send => 0x01 | .receive => 0x02] ++ [byteOf p.depth] ++ natBytes2 p.quota ++
            [byteOf p.high, byteOf p.low, byteOf (occupancy ch), flagByte ch.congested])
          (offer x.peer (.channelOpened c role)
            (setChan c
              (match role with
                | .send =>
                  { ch with sender := { holder := some x, dormant := false }, params := some p, nextSeq := 0 }
                | .receive =>
                  { ch with
                    receiver := { holder := some x, dormant := false }
                    arrivalOption := arrival, params := some p, nextSeq := 0 })
              (restartKeepalive x s))))) ∧
    (Ready x (requestFrame 0x18 tag accept) s →
      exec (.open_ x tag accept) s =
        .next (answered x (requestFrame 0x18 tag accept) .badField [] (restartKeepalive x s)))

/-- R12, R13: an OPEN of the second end of a channel in the "accept" form, or with the channel's own parameters. The
end is taken, CHANNEL_OPENED is offered to the peer, and the opener is told of QUEUED messages (ARRIVAL) or of
congestion (FLOW). Other parameters are answered MISMATCH and nothing changes. -/
def Obligations.OpenTakesTheSecondEnd : Prop :=
  ∀ (x : Station) (tag : Byte) (c : Fin 8) (role : Role) (arrival : Bool) (p : Params) (s : State),
    let given := [byteOf c.val, Role.code role, 0x01, flagByte arrival, byteOf p.depth] ++ natBytes2 p.quota ++
      [byteOf p.high, byteOf p.low]
    let accept := [byteOf c.val, Role.code role, 0x02, flagByte arrival]
    let ch := chanOf c s
    isPresent x s = true → paramsValid p = true → Advisory s →
    (endOf role ch).holder = none → (endOf role.other ch).holder = some x.peer →
    let opened : Channel :=
      match role with
      | .send => { ch with sender := { holder := some x, dormant := false } }
      | .receive => { ch with receiver := { holder := some x, dormant := false }, arrivalOption := arrival }
    let told : State := offer x.peer (.channelOpened c role) (setChan c opened (restartKeepalive x s))
    let done : State :=
      match role with
      | .send => if ch.congested = true then offer x (.flow c true (occupancy ch)) told else told
      | .receive =>
        if arrival = true ∧ ch.queue.any isQueued = true then offer x (.arrival c) told else told
    let q := ch.params.getD { depth := 0, quota := 0, high := 0, low := 0 }
    let tail : List Byte := [byteOf q.depth] ++ natBytes2 q.quota ++
      [byteOf q.high, byteOf q.low, byteOf (occupancy ch), flagByte ch.congested]
    (Ready x (requestFrame 0x18 tag accept) s →
      exec (.open_ x tag accept) s = .next (answered x (requestFrame 0x18 tag accept) .ok (0x03 :: tail) done)) ∧
    (Ready x (requestFrame 0x18 tag given) s → ch.params = some p →
      exec (.open_ x tag given) s = .next (answered x (requestFrame 0x18 tag given) .ok (0x03 :: tail) done)) ∧
    (Ready x (requestFrame 0x18 tag given) s → ch.params ≠ some p →
      exec (.open_ x tag given) s =
        .next (answered x (requestFrame 0x18 tag given) .mismatch
          ((match role with | .send => 0x02 | .receive => 0x01) :: tail) (restartKeepalive x s)))

/-- R3, R10 checks 3 to 5: an OPEN is refused with SAME_STATION when the station holds the other end, with
ALREADY_OPEN when it holds this end, and with ROLE_TAKEN when its peer does; nothing changes, the arrival option
included. -/
def Obligations.OpenIsRefusedForAHeldEnd : Prop :=
  ∀ (x : Station) (tag : Byte) (c : Fin 8) (role : Role) (arrival : Bool) (p : Params) (payload : List Byte)
    (s : State),
    payload = [byteOf c.val, Role.code role, 0x02, flagByte arrival] ∨
      paramsValid p = true ∧
        payload = [byteOf c.val, Role.code role, 0x01, flagByte arrival, byteOf p.depth] ++ natBytes2 p.quota ++
          [byteOf p.high, byteOf p.low] →
    let f := requestFrame 0x18 tag payload
    let ch := chanOf c s
    let q := ch.params.getD { depth := 0, quota := 0, high := 0, low := 0 }
    Ready x f s → isPresent x s = true →
    ((endOf role.other ch).holder = some x →
      exec (.open_ x tag payload) s = .next (answered x f .sameStation [] (restartKeepalive x s))) ∧
    ((endOf role.other ch).holder ≠ some x → (endOf role ch).holder = some x →
      exec (.open_ x tag payload) s =
        .next (answered x f .alreadyOpen
          ([ChannelState.code (channelState ch), byteOf q.depth] ++ natBytes2 q.quota ++
            [byteOf q.high, byteOf q.low, byteOf (occupancy ch), flagByte ch.congested]) (restartKeepalive x s))) ∧
    ((endOf role.other ch).holder ≠ some x → (endOf role ch).holder = some x.peer →
      exec (.open_ x tag payload) s = .next (answered x f .roleTaken [] (restartKeepalive x s)))

/-- R14, R15: CLOSE. The end is released: at the sender end the station's staging record is abandoned without
notice or fault, at the receiver end the LENT messages return to QUEUED and the arrival option goes off. While the other
end is held the queue is kept and CHANNEL_CLOSED, the one offer made, is offered to the peer; with the last end the
channel becomes CLOSED and its messages' blocks are freed. The reply says whether a staging record was abandoned, how
many LENT messages returned and how many messages were discarded. An abandoned record's blocks are freed, its
reservation and charge drop and congestion is evaluated, with no FLOW offer; nothing else changes O or charged. Of the
two station units only that record goes, and no other channel changes. A station that does not hold the end is answered
NOT_OPEN. -/
def Obligations.CloseReleasesTheEnd : Prop :=
  ∀ (x : Station) (tag : Byte) (c : Fin 8) (role : Role) (s : State),
    let payload := [byteOf c.val, Role.code role]
    let f := requestFrame 0x19 tag payload
    let ch := chanOf c s
    let released : End := { holder := none, dormant := false }
    let own : StationUnit :=
      { unitOf x (restartKeepalive x s) with
        staging :=
          match role with
          | .send => (unitOf x s).staging.filter fun r => r.channel != c
          | .receive => (unitOf x s).staging }
    let withBlocks (blocks : List (Fin 256)) (st : Store) : Store :=
      { st with freePool := blocks.foldr insertBlock st.freePool }
    Ready x f s → Advisory s → isPresent x s = true →
    ((endOf role ch).holder ≠ some x →
      exec (.close x tag payload) s = .next (answered x f .notOpen [] (restartKeepalive x s))) ∧
    ((endOf role ch).holder = some x → endHeld (endOf role.other ch) = true →
      ∃ t staged returned, exec (.close x tag payload) s =
          .next (answered x f .ok
            [match role with | .send => 0x02 | .receive => 0x01, flagByte staged, byteOf returned, 0]
            (offer x.peer (.channelClosed c role) t)) ∧
        unitOf x t = own ∧ unitOf x.peer t = unitOf x.peer s ∧ (∀ d, d ≠ c → chanOf d t = chanOf d s) ∧
        t = { s with channels := t.channels, units := t.units, store := t.store } ∧
        (role = .send → returned = 0 ∧ (staged = true ↔ stagingOn x c s ≠ none) ∧
          (stagingOn x c s = none → t.store = s.store ∧ chanOf c t = { ch with sender := released }) ∧
          (∀ r, stagingOn x c s = some r →
            t.store = withBlocks r.blocks s.store ∧
            chanOf c t =
              { ch with
                sender := released, reserved := 0, charged := ch.charged - r.blocks.length
                congested :=
                  match ch.params with
                  | none => ch.congested
                  | some p =>
                    if ch.congested = true then decide (p.low < ch.queue.length)
                    else decide (p.high ≤ ch.queue.length) })) ∧
        (role = .receive → staged = false ∧ returned = lentCount ch ∧ t.store = s.store ∧
          chanOf c t =
            { ch with
              receiver := released, arrivalOption := false
              queue := ch.queue.map fun m =>
                match m.state with
                | .lent => { m with state := .queued, redelivered := true }
                | .queued => m })) ∧
    ((endOf role ch).holder = some x → endHeld (endOf role.other ch) = false →
      ∃ t staged returned, exec (.close x tag payload) s =
          .next (answered x f .ok [0x00, flagByte staged, byteOf returned, byteOf ch.queue.length] t) ∧
        chanOf c t =
          { sender := released, receiver := released, arrivalOption := false, params := none, nextSeq := 0, queue := [],
            reserved := 0, charged := 0, congested := false } ∧
        (∀ m ∈ ch.queue, ∀ b ∈ m.blocks, b ∈ t.store.freePool) ∧
        (role = .send → returned = 0 ∧ (staged = true ↔ stagingOn x c s ≠ none) ∧
          (stagingOn x c s = none → t.store = withBlocks (blocksOf ch.queue) s.store) ∧
          ∀ r, stagingOn x c s = some r →
            t.store = withBlocks (blocksOf ch.queue) (withBlocks r.blocks s.store) ∧
            ∀ b ∈ r.blocks, b ∈ t.store.freePool) ∧
        (role = .receive → staged = false ∧ returned = lentCount ch ∧
          t.store = withBlocks (blocksOf ch.queue) s.store) ∧
        unitOf x t = own ∧ unitOf x.peer t = unitOf x.peer s ∧ (∀ d, d ≠ c → chanOf d t = chanOf d s) ∧
        t = { s with channels := t.channels, units := t.units, store := t.store })

/-- R4: a request on a channel's queue needs its end. A station that does not hold the sender end, active, is
answered NOT_OPEN to POST, SEGMENT and ABANDON; one that does not hold the receiver end, active, to FETCH, READ,
RETIRE, RETURN, PURGE and DRAW. Nothing changes and no fault is recorded. -/
def Obligations.QueueRequestsNeedTheirEnd : Prop :=
  ∀ (x : Station) (kind tag : Byte) (c : Fin 8) (rest : List Byte) (s : State),
    let payload := byteOf c.val :: rest
    let f := requestFrame kind tag payload
    Ready x f s → isPresent x s = true → payloadRefusal kind payload = none →
    (kind = 0x20 ∨ kind = 0x21 ∨ kind = 0x22) ∧ holdsActive x (chanOf c s).sender = false ∨
      (kind = 0x28 ∨ kind = 0x29 ∨ kind = 0x2A ∨ kind = 0x2B ∨ kind = 0x2C ∨ kind = 0x2D) ∧
        holdsActive x (chanOf c s).receiver = false →
    exec (requestCommand x kind tag payload) s = .next (answered x f .notOpen [] (restartKeepalive x s))

/-! ### Store and posting -/

/-- R24, R27: the bytes of an admitted message lie where R24 puts them. After a message of n bytes has taken the
blocks of R25 and its data has been written from byte 0 on, byte i reads at block i / 32 of the list, position i mod
32; the bytes beyond the data read 00H, every block of the message is correct, and no other block is touched. R28:
the bytes of a MIDDLE or LAST segment lie at the positions after the bytes received, and all other bytes of the
staged blocks are kept. A block entered at a position other than 0 is read first: one wrong bit is corrected and
counted; two are counted as uncorrectable with the staged indicator set and mark the record, and the bytes are kept as
stored. Each block written is then correct; the others are not touched. That the bytes kept in a block that is not read
first are those stored is read from R27 (notes/assumptions/23.md). The store's bytes are in the canonical form that
every step keeps (notes/assumptions/29.md). -/
def Obligations.MessageBytesAreReadBack : Prop :=
  (∀ (n : Nat) (data : List Byte) (s : State), MemoryCanonical s → data.length ≤ n → n ≤ 512 →
      let k := max 1 ((n + 31) / 32)
      k ≤ s.store.freePool.length → s.store.freePool.Pairwise (· < ·) →
      let r := allocateAndWrite k data s
      r.2 = s.store.freePool.take k ∧ r.1.store.freePool = s.store.freePool.drop k ∧
      r.1 = { s with store := r.1.store } ∧
      (∀ i < 32 * k, ∃ b, r.2[i / 32]? = some b ∧
        Memory.read r.1.store.mem (blockBase b + i % 32) = data.getD i 0x00) ∧
      (∀ b ∈ r.2, classOf r.1.store b = .correct) ∧
      (∀ b, b ∉ r.2 → ∀ i < 32,
        Memory.read r.1.store.mem (blockBase b + i) = Memory.read s.store.mem (blockBase b + i)) ∧
      r.1.store.health = s.store.health) ∧
  (∀ (c : Fin 8) (blocks : List (Fin 256)) (off : Nat) (data : List Byte) (st : Store),
      Memory.wf st.mem = true → blocks.Nodup → data ≠ [] → off + data.length ≤ 32 * blocks.length →
      let at_ (j : Nat) : Fin 256 := blocks.getD j 0
      let entered := at_ (off / 32)
      let stored (b : Fin 256) : List Byte := (List.range 32).map fun i => Memory.read st.mem (blockBase b + i)
      let w := writeSegment c blocks off data st
      (wrongBits st entered).length ≤ 2 →
      (∀ i < 32 * blocks.length,
        Memory.read w.1.mem (blockBase (at_ (i / 32)) + i % 32) =
          if off ≤ i ∧ i < off + data.length then data.getD (i - off) 0x00
          else if off % 32 ≠ 0 ∧ i / 32 = off / 32 then
            (match wrongBits st entered with
              | [p] => flipBit (stored entered) p
              | _ => stored entered).getD (i % 32) 0x00
          else (stored (at_ (i / 32))).getD (i % 32) 0x00) ∧
      (∀ j < blocks.length,
        if off < 32 * (j + 1) ∧ 32 * j < off + data.length then classOf w.1 (at_ j) = .correct
        else wrongBits w.1 (at_ j) = wrongBits st (at_ j)) ∧
      (∀ b, b ∉ blocks → wrongBits w.1 b = wrongBits st b ∧
        ∀ i < 32, Memory.read w.1.mem (blockBase b + i) = Memory.read st.mem (blockBase b + i)) ∧
      w.1.freePool = st.freePool ∧
      (off % 32 = 0 ∨ wrongBits st entered = [] → w.2 = false ∧ w.1.health = st.health) ∧
      (∀ p, off % 32 ≠ 0 → wrongBits st entered = [p] →
        w.2 = false ∧ w.1.health = { st.health with corrected := min 65535 (st.health.corrected + 1) }) ∧
      (∀ p q, off % 32 ≠ 0 → wrongBits st entered = [p, q] →
        w.2 = true ∧ w.1.health =
          { st.health with
            uncorrectable := min 65535 (st.health.uncorrectable + 1)
            last := some { block := entered, channel := c, staged := true, seq := 0 } }))

/-- R29 to R31, R33: one block read for a delivery. A correct block is delivered as stored. A block with one wrong
bit is delivered corrected, rewritten and counted. A block with two wrong bits is delivered as stored, not
rewritten, counted, and the last-uncorrectable record names it. R24, R29: the bytes that a delivery hands out of a
message whose blocks are all correct are the message's own bytes from the offset on, as R24 places them; nothing
changes and no error is found. With up to two wrong bits a block, a delivery reads each block that holds one of its
bytes once and no other: each with one wrong bit is corrected, rewritten and counted, each with two is delivered as
stored and counted, the last-uncorrectable record names the last of them, and the message record of that number, and
no other, gets its damaged flag set. Where a block is rewritten the store's bytes are in the canonical form that every
step keeps (notes/assumptions/29.md). -/
def Obligations.DeliveryReadsTheBlocks : Prop :=
  (∀ (c : Fin 8) (seq : Half) (b : Fin 256) (st : Store),
      let bytes := (List.range 32).map fun i => Memory.read st.mem (blockBase b + i)
      (wrongBits st b = [] → readBlock c seq b st = (st, bytes, false)) ∧
      (∀ p, Memory.wf st.mem = true → wrongBits st b = [p] → ∃ st1 good, readBlock c seq b st = (st1, good, false) ∧
        good = flipBit bytes p ∧ classOf st1 b = .correct ∧
        (∀ i < 32, Memory.read st1.mem (blockBase b + i) = good.getD i 0x00) ∧
        (∀ b', b' ≠ b → ∀ i < 32, Memory.read st1.mem (blockBase b' + i) = Memory.read st.mem (blockBase b' + i)) ∧
        st1.freePool = st.freePool ∧
        st1.health = { st.health with corrected := min 65535 (st.health.corrected + 1) }) ∧
      (∀ p q, wrongBits st b = [p, q] →
        readBlock c seq b st =
          ({ st with
              health := { st.health with
                uncorrectable := min 65535 (st.health.uncorrectable + 1)
                last := some { block := b, channel := c, staged := false, seq := seq } } }, bytes, true))) ∧
  (∀ (c : Fin 8) (m : Message) (off n : Nat) (s : State), m.blocks.length = max 1 ((m.length + 31) / 32) →
      off + n ≤ m.length → (∀ b ∈ m.blocks, wrongBits s.store b = []) →
      deliver c m off n s =
        (s, (List.range n).map fun i =>
          Memory.read s.store.mem (32 * ((m.blocks.getD ((off + i) / 32) 0).val) + (off + i) % 32), false)) ∧
  (∀ (c : Fin 8) (m : Message) (off n : Nat) (s : State), m.blocks.length = max 1 ((m.length + 31) / 32) →
      MemoryCanonical s → m.blocks.Nodup → off + n ≤ m.length → (∀ b ∈ m.blocks, (wrongBits s.store b).length ≤ 2) →
      let at_ (i : Nat) : Fin 256 := m.blocks.getD (i / 32) 0
      let stored (b : Fin 256) : List Byte := (List.range 32).map fun i => Memory.read s.store.mem (blockBase b + i)
      let good (b : Fin 256) : List Byte :=
        match wrongBits s.store b with
        | [p] => flipBit (stored b) p
        | _ => stored b
      let spanned : List (Fin 256) :=
        ((List.range m.blocks.length).filter fun j =>
          decide (max off (32 * j) < min (off + n) (32 * (j + 1)))).map fun j => m.blocks.getD j 0
      let single := spanned.filter fun b => (wrongBits s.store b).length == 1
      let double := spanned.filter fun b => (wrongBits s.store b).length == 2
      let h := s.store.health
      let d := deliver c m off n s
      d.2.1 = ((List.range n).map fun i => (good (at_ (off + i))).getD ((off + i) % 32) 0x00) ∧
      d.2.2 = !double.isEmpty ∧
      d.1 = { s with store := d.1.store, channels := d.1.channels } ∧
      (∀ e, e ≠ c → chanOf e d.1 = chanOf e s) ∧
      chanOf c d.1 =
        (if double = [] then chanOf c s
          else { chanOf c s with
            queue := (chanOf c s).queue.map fun k => if k.seq = m.seq then { k with damaged := true } else k }) ∧
      d.1.store.freePool = s.store.freePool ∧
      d.1.store.health =
        { corrected := if single = [] then h.corrected else min 65535 (h.corrected + single.length)
          uncorrectable := if double = [] then h.uncorrectable else min 65535 (h.uncorrectable + double.length)
          last :=
            match double.getLast? with
            | none => h.last
            | some b => some { block := b, channel := c, staged := false, seq := m.seq } } ∧
      (∀ b ∈ single, classOf d.1.store b = .correct) ∧
      (∀ b, b ∉ single → wrongBits d.1.store b = wrongBits s.store b) ∧
      (∀ b, ∀ i < 32, Memory.read d.1.store.mem (blockBase b + i) =
        (if b ∈ single then good b else stored b).getD i 0x00))

/-- R36, R38: a POST that is admitted (R37). A record with next_seq is appended in state QUEUED, next_seq and
charged rise, congestion is evaluated and ARRIVAL offered; the reply carries the number and O. -/
def Obligations.PostAppendsAMessage : Prop :=
  ∀ (x : Station) (tag : Byte) (c : Fin 8) (data : List Byte) (p : Params) (s : State),
    let payload := [byteOf c.val, 0x00] ++ data
    let f := requestFrame 0x20 tag payload
    let ch := chanOf c s
    let k := max 1 ((data.length + 31) / 32)
    Ready x f s → Advisory s → isPresent x s = true → holdsActive x ch.sender = true → data.length ≤ 62 →
    ch.params = some p → occupancy ch < p.depth → (∀ m ∈ ch.queue.head?, (ch.nextSeq - m.seq).toNat < 32768) →
    ch.charged + k ≤ p.quota → k ≤ s.store.freePool.length →
    exec (.post x tag payload) s =
      .next (answered x f .ok (halfBytes ch.nextSeq ++ [byteOf (occupancy ch + 1)])
        (offerArrival c (evalCongestion c (setChan c
          { ch with
            queue := ch.queue ++
              [{ seq := ch.nextSeq, length := data.length, blocks := s.store.freePool.take k, state := .queued,
                 redelivered := false, damaged := false, epoch := (unitOf x s).record.epoch }]
            nextSeq := ch.nextSeq + 1
            charged := ch.charged + k }
          (allocateAndWrite k data (restartKeepalive x s)).1))))

/-- R37: the admission test's refusals, for a POST of n bytes and for a SEGMENT FIRST that declares n bytes: FULL,
then QUOTA, then NO_BLOCKS, with their fields; nothing changes, no fault is recorded and no notice is offered. -/
def Obligations.AdmissionIsRefusedInOrder : Prop :=
  ∀ (x : Station) (tag : Byte) (c : Fin 8) (total : Half) (data : List Byte) (p : Params) (s : State),
    let ch := chanOf c s
    let first := [byteOf c.val, 0x01] ++ halfBytes total ++ data
    let post := [byteOf c.val, 0x00] ++ data
    isPresent x s = true → holdsActive x ch.sender = true → ch.params = some p →
    ∀ (n : Nat) (i : Instr) (f : Frame),
      data.length ≤ 62 ∧ n = data.length ∧ i = .post x tag post ∧ f = requestFrame 0x20 tag post ∨
        data.length ≤ 60 ∧ data.length ≤ total.toNat ∧ total.toNat ≤ 512 ∧ stagingOn x c s = none ∧
          (unitOf x s).staging.length < 2 ∧ n = total.toNat ∧ i = .segmentFirst x tag first ∧
          f = requestFrame 0x21 tag first →
      Ready x f s →
      let k := max 1 ((n + 31) / 32)
      let full := p.depth ≤ occupancy ch ∨ ∃ m ∈ ch.queue.head?, 32768 ≤ (ch.nextSeq - m.seq).toNat
      let refused (status : Status) (fieldBytes : List Byte) : Host.Outcome State Fault Refusal :=
        .next (answered x f status fieldBytes (restartKeepalive x s))
      (full → exec i s = refused .full [byteOf (occupancy ch), byteOf p.depth]) ∧
      (¬ full → p.quota < ch.charged + k →
        exec i s = refused .quota (natBytes2 ch.charged ++ [byteOf k] ++ natBytes2 p.quota)) ∧
      (¬ full → ch.charged + k ≤ p.quota → s.store.freePool.length < k →
        exec i s = refused .noBlocks (natBytes2 s.store.freePool.length ++ [byteOf k]))

/-- R42, R43: a SEGMENT FIRST that is admitted. All blocks of the declared total are allocated, the data is written,
a staging record with a segment timer of 250 ms is created, a place is reserved and the blocks are charged;
congestion is evaluated. The tests of R42 come first: STAGING_BUSY, STAGING_LIMIT, OVERLENGTH. -/
def Obligations.SegmentFirstStagesAMessage : Prop :=
  ∀ (x : Station) (tag : Byte) (c : Fin 8) (total : Half) (data : List Byte) (p : Params) (s : State),
    let payload := [byteOf c.val, 0x01] ++ halfBytes total ++ data
    let f := requestFrame 0x21 tag payload
    let ch := chanOf c s
    let u := unitOf x s
    let k := max 1 ((total.toNat + 31) / 32)
    let a := allocateAndWrite k data (restartKeepalive x s)
    let u0 := unitOf x (restartKeepalive x s)
    Ready x f s → isPresent x s = true → holdsActive x ch.sender = true → data.length ≤ 60 → total.toNat ≤ 512 →
    (stagingOn x c s ≠ none →
      exec (.segmentFirst x tag payload) s = .next (answered x f .stagingBusy [] (restartKeepalive x s))) ∧
    (stagingOn x c s = none → 2 ≤ u.staging.length →
      exec (.segmentFirst x tag payload) s = .next (answered x f .stagingLimit [] (restartKeepalive x s))) ∧
    (stagingOn x c s = none → u.staging.length < 2 → total.toNat < data.length →
      exec (.segmentFirst x tag payload) s =
        .next (answered x f .overlength (natBytes2 data.length ++ halfBytes total) (restartKeepalive x s))) ∧
    (stagingOn x c s = none → u.staging.length < 2 → data.length ≤ total.toNat → Advisory s →
      ch.params = some p → occupancy ch < p.depth → (∀ m ∈ ch.queue.head?, (ch.nextSeq - m.seq).toNat < 32768) →
      ch.charged + k ≤ p.quota → k ≤ s.store.freePool.length →
      exec (.segmentFirst x tag payload) s =
        .next (answered x f .ok (natBytes2 data.length ++ halfBytes total)
          (evalCongestion c
            (setChan c { ch with reserved := 1, charged := ch.charged + k }
              (setUnit x { u0 with
                staging := u.staging ++
                  [{ channel := c, total := total.toNat, received := data.length,
                     blocks := s.store.freePool.take k, damaged := false, timer := 250 }] } a.1)))))

/-- R28, R44: a SEGMENT MIDDLE. It adds its bytes to the station's staging record and restarts the timer at 250 ms;
one that would pass the declared total is answered OVERLENGTH and abandons the record; without a record the answer
is NO_STAGING. R45, R46: a SEGMENT LAST. When the bytes reach the declared total exactly, they are written and the
staged message is appended to the queue with next_seq: its blocks pass from the record, O and charged stay, and
ARRIVAL is offered. With too many bytes it is answered OVERLENGTH, with too few SHORT, and the record is abandoned;
without a record the answer is NO_STAGING. -/
def Obligations.SegmentMiddleAndLast : Prop :=
  (∀ (x : Station) (tag : Byte) (c : Fin 8) (data : List Byte) (s : State),
      let payload := [byteOf c.val, 0x02] ++ data
      let f := requestFrame 0x21 tag payload
      let s0 := restartKeepalive x s
      Ready x f s → isPresent x s = true → holdsActive x (chanOf c s).sender = true → 1 ≤ data.length →
      data.length ≤ 62 →
      (stagingOn x c s = none → exec (.segmentMiddle x tag payload) s = .next (answered x f .noStaging [] s0)) ∧
      (∀ r, stagingOn x c s = some r → r.total < r.received + data.length → Advisory s →
        exec (.segmentMiddle x tag payload) s =
          .next (answered x f .overlength (natBytes2 r.received ++ natBytes2 r.total) (abandonStaging x r s0))) ∧
      (∀ r, stagingOn x c s = some r → r.received + data.length ≤ r.total →
        let w := writeSegment c r.blocks r.received data s.store
        exec (.segmentMiddle x tag payload) s =
          .next (answered x f .ok (natBytes2 (r.received + data.length) ++ natBytes2 r.total)
            (replaceStaging x
              { r with received := r.received + data.length, damaged := r.damaged || w.2, timer := 250 }
              (setStore w.1 s0))))) ∧
  (∀ (x : Station) (tag : Byte) (c : Fin 8) (data : List Byte) (s : State),
      let payload := [byteOf c.val, 0x03] ++ data
      let f := requestFrame 0x21 tag payload
      let s0 := restartKeepalive x s
      let u0 := unitOf x s0
      let ch := chanOf c s
      Ready x f s → isPresent x s = true → holdsActive x ch.sender = true → 1 ≤ data.length → data.length ≤ 62 →
      (stagingOn x c s = none → exec (.segmentLast x tag payload) s = .next (answered x f .noStaging [] s0)) ∧
      (∀ r, stagingOn x c s = some r → r.total < r.received + data.length → Advisory s →
        exec (.segmentLast x tag payload) s =
          .next (answered x f .overlength (natBytes2 r.received ++ natBytes2 r.total) (abandonStaging x r s0))) ∧
      (∀ r, stagingOn x c s = some r → r.received + data.length < r.total → Advisory s →
        exec (.segmentLast x tag payload) s =
          .next (answered x f .short (natBytes2 (r.received + data.length) ++ natBytes2 r.total)
            (abandonStaging x r s0))) ∧
      (∀ r, stagingOn x c s = some r → r.received + data.length = r.total → Advisory s →
        let w := writeSegment c r.blocks r.received data s.store
        exec (.segmentLast x tag payload) s =
          .next (answered x f .ok (halfBytes ch.nextSeq ++ [byteOf (ch.queue.length + 1)])
            (offerArrival c
              (setUnit x { u0 with staging := u0.staging.filter fun t => t.channel != c }
                (setChan c
                  { ch with
                    queue := ch.queue ++
                      [{ seq := ch.nextSeq, length := r.total, blocks := r.blocks, state := .queued,
                         redelivered := false, damaged := r.damaged || w.2, epoch := (unitOf x s).record.epoch }]
                    nextSeq := ch.nextSeq + 1
                    reserved := 0 }
                  (setStore w.1 s0)))))))

/-- R26, R47, R48, R50: the end of a staging record by ABANDON and by its segment timer. Its blocks are freed, the
reservation and the charge are dropped, the record is removed and congestion is evaluated. The timeout then offers
STAGING_EXPIRED and records the STAGING_EXPIRED fault. Where the station holds no record on the channel, ABANDON is
answered NO_STAGING, and there, as where a segment has restarted the timer (R51), no timeout happens
(notes/assumptions/2.md). -/
def Obligations.StagingRecordIsAbandoned : Prop :=
  ∀ (x : Station) (tag : Byte) (c : Fin 8) (s : State),
    let f := requestFrame 0x22 tag [byteOf c.val]
    let abandoned (r : Staging) (t : State) : State :=
      let u := unitOf x t
      evalCongestion c
        (setUnit x { u with staging := u.staging.filter fun v => v.channel != c }
          (setChan c { chanOf c t with reserved := 0, charged := (chanOf c t).charged - r.blocks.length }
            (setStore { t.store with freePool := r.blocks.foldr insertBlock t.store.freePool } t)))
    (Ready x f s → isPresent x s = true → holdsActive x (chanOf c s).sender = true → stagingOn x c s = none →
      exec (.abandon x tag [byteOf c.val]) s = .next (answered x f .noStaging [] (restartKeepalive x s))) ∧
    (∀ r, Ready x f s → isPresent x s = true → holdsActive x (chanOf c s).sender = true → Advisory s →
      stagingOn x c s = some r →
      exec (.abandon x tag [byteOf c.val]) s =
        .next (answered x f .ok (natBytes2 r.received ++ natBytes2 r.total)
          (abandoned r (restartKeepalive x s)))) ∧
    (∀ r, Running s → Advisory s → stagingOn x c s = some r → r.timer = 0 →
      exec (.segmentTimeout x c) s =
        .next (recordFault x .stagingExpired (.staging c r.received r.total)
          (offer x (.stagingExpired c r.received r.total) (abandoned r s)))) ∧
    (Running s → (∀ r, stagingOn x c s = some r → r.timer ≠ 0) → exec (.segmentTimeout x c) s = .next s)

/-! ### Delivery and draws -/

/-- R55 to R59, R32: a FETCH by the active holder of the receiver end. Without a QUEUED message it is answered
EMPTY, in LEND mode with 8 messages LENT it is answered WINDOW, and nothing changes. Otherwise the oldest QUEUED
message is read and reported; in LEND mode it becomes LENT, and ARRIVAL is withdrawn when no QUEUED message is left;
in PEEK mode it stays. A double-bit error is recorded last (notes/assumptions/14.md). -/
def Obligations.FetchDeliversTheOldestQueued : Prop :=
  ∀ (x : Station) (tag : Byte) (c : Fin 8) (mode : DeliveryMode) (s : State),
    let payload := [byteOf c.val, match mode with | .lend => 0x01 | .peek => 0x02]
    let i : Instr := match mode with | .lend => .fetchLend x tag payload | .peek => .fetchPeek x tag payload
    let f := requestFrame 0x28 tag payload
    let ch := chanOf c s
    let s0 := restartKeepalive x s
    Ready x f s → isPresent x s = true → holdsActive x ch.receiver = true →
    (ch.queue.find? isQueued = none → exec i s = .next (answered x f .empty [byteOf (lentCount ch)] s0)) ∧
    (∀ first, ch.queue.find? isQueued ≠ none → mode = .lend → 8 ≤ lentCount ch → ch.queue.find? isLent = some first →
      exec i s = .next (answered x f .window (halfBytes first.seq) s0)) ∧
    (∀ m, ch.queue.find? isQueued = some m → mode = .peek ∨ lentCount ch < 8 → Advisory s →
      let d := deliver c m 0 (min 56 m.length) s0
      let lent : State :=
        match mode with
        | .peek => d.1
        | .lend =>
          let t := setChan c { chanOf c d.1 with queue := lendFirst (chanOf c d.1).queue } d.1
          if (chanOf c t).queue.any isQueued = true then t else withdraw x (.arrival c) t
      exec i s =
        .next (answered x f .ok
          (halfBytes m.seq ++ natBytes2 m.length ++
            [messageFlags m.redelivered (m.damaged || d.2.2) false,
              byteOf (match mode with | .lend => queuedCount ch - 1 | .peek => queuedCount ch)] ++ d.2.1)
          (if d.2.2 = true then recordFault x .damagedDelivery (.delivery c m.seq) lent else lent)))

/-- R61, R62: a READ by the active holder of the receiver end. A number that no LENT message has is answered
NOT_LENT and an offset beyond the message BAD_FIELD with its length; nothing changes and no fault is recorded.
Otherwise bytes from the offset on are handed out, at most 58, and the message keeps its state and place. -/
def Obligations.ReadHandsOutLentBytes : Prop :=
  ∀ (x : Station) (tag : Byte) (c : Fin 8) (seq offset : Half) (s : State),
    let payload := [byteOf c.val] ++ halfBytes seq ++ halfBytes offset
    let f := requestFrame 0x29 tag payload
    let ch := chanOf c s
    let s0 := restartKeepalive x s
    let named (m : Message) : Bool := isLent m && m.seq == seq
    Ready x f s → isPresent x s = true → holdsActive x ch.receiver = true → offset.toNat ≤ 512 →
    (ch.queue.any named = false → exec (.read x tag payload) s = .next (answered x f .notLent [] s0)) ∧
    (∀ m, ch.queue.find? named = some m → m.length < offset.toNat →
      exec (.read x tag payload) s = .next (answered x f .badField (natBytes2 m.length) s0)) ∧
    (∀ m, ch.queue.find? named = some m → offset.toNat ≤ m.length → AdvisoryAt x s →
      let d := deliver c m offset.toNat (min 58 (m.length - offset.toNat)) s0
      exec (.read x tag payload) s =
        .next (answered x f .ok
          (halfBytes seq ++ halfBytes offset ++ [messageFlags m.redelivered (m.damaged || d.2.2) false] ++ d.2.1)
          (if d.2.2 = true then recordFault x .damagedDelivery (.delivery c seq) d.1 else d.1)))

/-- R63: a RETIRE by the active holder of the receiver end removes every message from the oldest up to and including
the LENT one named, frees their blocks, lowers charged by their number and evaluates congestion once; the reply
carries how many and O. A number that no LENT message has is answered NOT_LENT and nothing changes. -/
def Obligations.RetireRemovesTheLentPrefix : Prop :=
  ∀ (x : Station) (tag : Byte) (c : Fin 8) (seq : Half) (s : State),
    let payload := [byteOf c.val] ++ halfBytes seq
    let f := requestFrame 0x2A tag payload
    let ch := chanOf c s
    let s0 := restartKeepalive x s
    let named (m : Message) : Bool := isLent m && m.seq == seq
    Ready x f s → isPresent x s = true → holdsActive x ch.receiver = true →
    (ch.queue.any named = false → exec (.retire x tag payload) s = .next (answered x f .notLent [] s0)) ∧
    (∀ before m after, ch.queue = before ++ m :: after → before.any named = false → named m = true → Advisory s →
      let blocks := (before ++ [m]).flatMap (·.blocks)
      exec (.retire x tag payload) s =
        .next (answered x f .ok [byteOf (before.length + 1), byteOf (after.length + ch.reserved)]
          (evalCongestion c
            (setChan c { ch with queue := after, charged := ch.charged - blocks.length }
              (setStore { s.store with freePool := blocks.foldr insertBlock s.store.freePool } s0)))))

/-- R64: a RETURN by the active holder of the receiver end makes every LENT message QUEUED again, in its place, with
redelivered set; nothing else changes, and the reply carries their number. R66, R59: a PURGE by the active holder of
the receiver end removes every QUEUED message, frees their blocks, lowers charged, evaluates congestion when one was
removed, and withdraws ARRIVAL; the LENT messages stay. The reply carries how many and O. -/
def Obligations.ReturnAndPurge : Prop :=
  (∀ (x : Station) (tag : Byte) (c : Fin 8) (s : State),
      let f := requestFrame 0x2B tag [byteOf c.val]
      let ch := chanOf c s
      Ready x f s → isPresent x s = true → holdsActive x ch.receiver = true →
      exec (.return_ x tag [byteOf c.val]) s =
        .next (answered x f .ok [byteOf (ch.queue.countP fun m => m.state == .lent)]
          (setChan c { ch with
            queue := ch.queue.map fun m =>
              match m.state with
              | .lent => { m with state := .queued, redelivered := true }
              | .queued => m } (restartKeepalive x s)))) ∧
  (∀ (x : Station) (tag : Byte) (c : Fin 8) (s : State),
      let f := requestFrame 0x2C tag [byteOf c.val]
      let ch := chanOf c s
      let s0 := restartKeepalive x s
      let gone := ch.queue.filter fun m => m.state == .queued
      let kept := ch.queue.filter fun m => m.state == .lent
      let blocks := gone.flatMap (·.blocks)
      let removed := setChan c { ch with queue := kept, charged := ch.charged - blocks.length }
        (setStore { s.store with freePool := blocks.foldr insertBlock s.store.freePool } s0)
      Ready x f s → isPresent x s = true → holdsActive x ch.receiver = true → Advisory s →
      exec (.purge x tag [byteOf c.val]) s =
        .next (answered x f .ok [byteOf gone.length, byteOf (kept.length + ch.reserved)]
          (withdraw x (.arrival c) (if gone = [] then removed else evalCongestion c removed))))

/-- R74 to R77: a DRAW that passes its checks. With a candidate, the first item is built: its message is read and,
in LEND mode, lent; the item frame is handed to the transmitter, the remaining count falls to n - 1 and the draw is
in flight, in phase SENDING. R79, R86: without one, the draw ends at once; its end frame alone is sent, is entered
in the cache, and no draw is in flight. -/
def Obligations.DrawBeginsWithItsFirstItem : Prop :=
  ∀ (x : Station) (tag : Byte) (c : Fin 8) (count spacing : Nat) (mode : DeliveryMode) (s : State),
    let payload := [byteOf c.val, byteOf count, match mode with | .lend => 0x01 | .peek => 0x02, byteOf spacing]
    let f := requestFrame 0x2D tag payload
    let ch := chanOf c s
    let s0 := restartKeepalive x s
    1 ≤ count → count ≤ 8 → spacing ≤ 15 → Ready x f s → isPresent x s = true → holdsActive x ch.receiver = true →
    (∀ reason : DrawReason,
      (reason = .queueEmpty ∧ ch.queue.find? isQueued = none) ∨
        (reason = .window ∧ mode = .lend ∧ ch.queue.find? isQueued ≠ none ∧ 8 ≤ lentCount ch) →
      let last : OutFrame := { kind := 0xC1, tag := tag, payload := [0x00, DrawReason.code reason, 0x00] }
      exec (.draw x tag payload) s =
        .next (transmit x last false (enterCache x { tag := tag, kind := 0x2D, crc := f.crc, reply := last } s0))) ∧
    (∀ m, ch.queue.find? isQueued = some m → mode = .peek ∨ lentCount ch < 8 → AdvisoryAt x s →
      let d := deliver c m 0 (min 56 m.length) s0
      let lent : State :=
        match mode with
        | .peek => d.1
        | .lend =>
          let t := setChan c { chanOf c d.1 with queue := lendFirst (chanOf c d.1).queue } d.1
          if (chanOf c t).queue.any isQueued = true then t else withdraw x (.arrival c) t
      let taken : State := if d.2.2 = true then recordFault x .damagedDelivery (.delivery c m.seq) lent else lent
      let context : Draw :=
        { channel := c, tag := tag, requestCrc := f.crc, mode := mode, remaining := count - 1, spacing := spacing,
          cursor := (match mode with | .lend => none | .peek => some m.seq), itemsSent := 1, haltTag := none,
          phase := .sending }
      let item : OutFrame :=
        { kind := 0xC0, tag := tag
          payload := [0x00, byteOf (count - 1)] ++ halfBytes m.seq ++ natBytes2 m.length ++
            [messageFlags m.redelivered (m.damaged || d.2.2) (decide (56 < m.length))] ++ d.2.1 }
      exec (.draw x tag payload) s =
        .next (transmit x item true (setUnit x { unitOf x taken with draw := some context } taken)))

/-- R78, R79, R144: the end of an item frame's transmission is the item boundary. With no item left the draw ends
with COUNT; otherwise, with a HALT recorded, with HALTED, and the HALT is answered after the end frame; otherwise,
with a spacing above 0, the draw waits. The end of any other frame's transmission only lets the next frame begin. An
item boundary while another frame is being sent has no effect: it cannot occur (notes/assumptions/2.md, DEDUCED), and
which frame is an item of the draw in flight is the model's drawItem mark (notes/assumptions/19.md). R137, R141, R144: a
frame handed to an idle transmitter begins at once, one handed to a busy one waits behind the others; its transmission
takes 10 bits for each of its characters, which are its payload's and 6 more, and a bit takes 160, 80, 40 or 20 periods
of the 18.432 MHz clock by the link's straps. Counting in clock periods is the model's (notes/assumptions/15.md). -/
def Obligations.ItemBoundaryDecidesTheDraw : Prop :=
  (∀ (x : Station) (first : TxEntry) (rest : List TxEntry) (s : State), Running s →
        (linkOf x s).tx = first :: rest →
        let shifted : State :=
          setLink x { linkOf x s with
            tx := rest
            txClocks := match rest with | [] => 0 | next :: _ => frameClocks (s.straps.get x) next.frame } s
        (first.drawItem = false ∨ (unitOf x s).draw = none → exec (.transmissionEnd x) s = .next shifted) ∧
        (first.drawItem = false → exec (.itemBoundary x) s = .next s) ∧
        (∀ d, first.drawItem = true → (unitOf x s).draw = some d →
          let last (reason : Byte) : OutFrame :=
            { kind := 0xC1, tag := d.tag, payload := [0x00, reason, byteOf d.itemsSent] }
          let ended (reason : Byte) : State :=
            let t := enterCache x { tag := d.tag, kind := 0x2D, crc := d.requestCrc, reply := last reason } shifted
            transmit x (last reason) false (setUnit x { unitOf x t with draw := none } t)
          let halted (reason : Byte) (halt : Byte) : State :=
            let r : OutFrame := { kind := 0xAE, tag := halt, payload := [0x00] }
            transmit x r false
              (enterCache x { tag := halt, kind := 0x2E, crc := frameCrc 0x2E halt [], reply := r } (ended reason))
          (d.remaining = 0 → d.haltTag = none → exec (.itemBoundary x) s = .next (ended 0x01)) ∧
          (∀ halt, d.remaining = 0 → d.haltTag = some halt → exec (.itemBoundary x) s = .next (halted 0x01 halt)) ∧
          (∀ halt, d.remaining ≠ 0 → d.haltTag = some halt → exec (.itemBoundary x) s = .next (halted 0x04 halt)) ∧
          (d.remaining ≠ 0 → d.haltTag = none → d.spacing ≠ 0 →
            exec (.itemBoundary x) s =
              .next (setUnit x { unitOf x s with draw := some { d with phase := .spacing d.spacing } } shifted)) ∧
          (d.remaining ≠ 0 → d.haltTag = none → d.spacing = 0 →
            exec (.itemBoundary x) s = .next (settle (pick x d shifted))))) ∧
  (∀ (x : Station) (f : OutFrame) (item : Bool) (s : State),
    let entry : TxEntry := { frame := f, drawItem := item }
    let clocks (bit : Nat) : Prop :=
      frameClocks (s.straps.get x) f = 10 * (f.payload.length + 6) * bit ∧
      ((linkOf x s).tx = [] → transmit x f item s =
        setLink x { linkOf x s with tx := [entry], txClocks := 10 * (f.payload.length + 6) * bit } s)
    ((s.straps.get x).rate1 = false → (s.straps.get x).rate0 = false → clocks 160) ∧
    ((s.straps.get x).rate1 = false → (s.straps.get x).rate0 = true → clocks 80) ∧
    ((s.straps.get x).rate1 = true → (s.straps.get x).rate0 = false → clocks 40) ∧
    ((s.straps.get x).rate1 = true → (s.straps.get x).rate0 = true → clocks 20) ∧
    ((linkOf x s).tx ≠ [] → transmit x f item s =
      setLink x { linkOf x s with tx := (linkOf x s).tx ++ [entry] } s))

/-- R76, R77, R78: the expiry of the spacing timer makes the next pick. In LEND mode it takes the oldest QUEUED
message, in PEEK mode the first QUEUED one after the cursor; the item carries the counts after it. With no candidate
the draw ends. In phase SENDING no spacing timer runs, and while it runs it does not expire (notes/assumptions/2.md). -/
def Obligations.SpacingExpiryPicksTheNextItem : Prop :=
  ∀ (x : Station) (d : Draw) (s : State), Running s → (unitOf x s).draw = some d →
    let ch := chanOf d.channel s
    let after : List Message :=
      match d.mode, d.cursor with
      | .peek, some n => (ch.queue.dropWhile fun m => m.seq != n).drop 1
      | _, _ => ch.queue
    (d.phase ≠ .spacing 0 → exec (.spacingExpiry x) s = .next s) ∧
    (d.phase = .spacing 0 → d.haltTag = none →
      (∀ reason : DrawReason,
        (reason = .queueEmpty ∧ after.find? isQueued = none) ∨
          (reason = .window ∧ d.mode = .lend ∧ after.find? isQueued ≠ none ∧ 8 ≤ lentCount ch) →
        let last : OutFrame :=
          { kind := 0xC1, tag := d.tag, payload := [0x00, DrawReason.code reason, byteOf d.itemsSent] }
        let t := enterCache x { tag := d.tag, kind := 0x2D, crc := d.requestCrc, reply := last } s
        exec (.spacingExpiry x) s =
          .next (transmit x last false (setUnit x { unitOf x t with draw := none } t))) ∧
      (∀ m, after.find? isQueued = some m → d.mode = .peek ∨ lentCount ch < 8 → AdvisoryAt x s →
        let g := deliver d.channel m 0 (min 56 m.length) s
        let lent : State :=
          match d.mode with
          | .peek => g.1
          | .lend =>
            let t := setChan d.channel
              { chanOf d.channel g.1 with queue := lendFirst (chanOf d.channel g.1).queue } g.1
            if (chanOf d.channel t).queue.any isQueued = true then t
            else
              match ch.receiver.holder with
              | none => t
              | some y => withdraw y (.arrival d.channel) t
        let taken : State :=
          if g.2.2 = true then recordFault x .damagedDelivery (.delivery d.channel m.seq) lent else lent
        let context : Draw :=
          { d with
            remaining := d.remaining - 1, itemsSent := d.itemsSent + 1, phase := .sending
            cursor := (match d.mode with | .lend => d.cursor | .peek => some m.seq) }
        let item : OutFrame :=
          { kind := 0xC0, tag := d.tag
            payload := [0x00, byteOf (d.remaining - 1)] ++ halfBytes m.seq ++ natBytes2 m.length ++
              [messageFlags m.redelivered (m.damaged || g.2.2) (decide (56 < m.length))] ++ g.2.1 }
        exec (.spacingExpiry x) s =
          .next (transmit x item true (setUnit x { unitOf x taken with draw := some context } taken))))

/-- R81, R82: a HALT. One that arrives while a draw is in flight with no HALT recorded is acted on at arrival and
joins no queue: in phase SENDING it is recorded, in phase SPACING the draw ends with HALTED and the HALT is answered
after the end frame. One that is taken with no draw in flight is answered NO_DRAW and changes nothing. One that arrives
during a draw and is not acted on joins the input queue: CompleteFrameIsCheckedAndQueued says so. -/
def Obligations.HaltStopsTheDraw : Prop :=
  ∀ (x : Station) (tag : Byte) (s : State), let f := requestFrame 0x2E tag []
    let s0 := restartKeepalive x s
    (Ready x f s → isPresent x s = true → exec (.halt x tag []) s = .next (answered x f .noDraw [] s0)) ∧
    (∀ d, Running s → (linkOf x s).rx.inBreak = false → f ∉ (linkOf x s).inQueue → cacheMatch x f s = none →
      (unitOf x s).draw = some d → d.haltTag = none →
      (d.phase = .sending →
        exec (.halt x tag []) s =
          .next (setUnit x { unitOf x s0 with draw := some { d with haltTag := some tag } } s0)) ∧
      (∀ left, d.phase = .spacing left →
        let last : OutFrame := { kind := 0xC1, tag := d.tag, payload := [0x00, 0x04, byteOf d.itemsSent] }
        let r : OutFrame := { kind := 0xAE, tag := tag, payload := [0x00] }
        let t := enterCache x { tag := d.tag, kind := 0x2D, crc := d.requestCrc, reply := last } s0
        let t1 := transmit x last false (setUnit x { unitOf x t with draw := none } t)
        exec (.halt x tag []) s =
          .next (transmit x r false
            (enterCache x { tag := tag, kind := 0x2E, crc := f.crc, reply := r } t1))))

/-! ### Leases -/

/-- R93: an ACQUIRE of a FREE entry that is not exhausted. The fence rises by one, the claimant holds the entry for
the duration given, and the last-holder record stays; no notice is offered. R94: an ACQUIRE that reaches test 9 of
R92. The claimant is appended to the wait list with its duration and wait, and its station's wait count rises by
one; the holder and the fence stay. -/
def Obligations.AcquireGrantsOrQueues : Prop :=
  (∀ (x : Station) (tag : Byte) (e : Fin 16) (client : Fin 8) (duration wait : Half) (s : State),
      let payload := [byteOf e.val, byteOf client.val] ++ halfBytes duration ++ halfBytes wait
      let f := requestFrame 0x30 tag payload
      let l := leaseOf e s
      Ready x f s → isPresent x s = true → 10 ≤ duration.toNat → wait.toNat ≤ 30000 → l.hold = none →
      l.fence ≠ 0xFFFFFFFF →
      exec (.acquire x tag payload) s =
        .next (answered x f .ok (wordBytes (l.fence + 1) ++ halfBytes duration)
          (setLease e
            { l with
              fence := l.fence + 1
              hold := some { station := x, client := client, remaining := duration.toNat, granted := duration.toNat } }
            (restartKeepalive x s)))) ∧
  (∀ (x : Station) (tag : Byte) (e : Fin 16) (client : Fin 8) (duration wait : Half) (s : State),
      let payload := [byteOf e.val, byteOf client.val] ++ halfBytes duration ++ halfBytes wait
      let f := requestFrame 0x30 tag payload
      let l := leaseOf e s
      Ready x f s → isPresent x s = true → 10 ≤ duration.toNat → 0 < wait.toNat → wait.toNat ≤ 30000 → l.hold ≠ none →
      holdsLease x client l = false → l.waiters.any (isWaiter x client) = false → l.fence ≠ 0xFFFFFFFF →
      l.waiters.length < 4 → s.waitCounts.get x < 8 →
      exec (.acquire x tag payload) s =
        .next (answered x f .queued [byteOf (l.waiters.length + 1), byteOf (s.waitCounts.get x + 1)]
          (setWaitCount x (s.waitCounts.get x + 1)
            (setLease e
              { l with
                waiters := l.waiters ++
                  [{ station := x, client := client, duration := duration.toNat, wait := wait.toNat }] }
              (restartKeepalive x s)))))

/-- R92 tests 2 to 8: the refusals of an ACQUIRE, in their order, each with the fields its reply carries; nothing
changes, no timer is restarted, no fault is recorded. -/
def Obligations.AcquireIsRefusedInOrder : Prop :=
  ∀ (x : Station) (tag : Byte) (e : Fin 16) (client : Fin 8) (duration wait : Half) (s : State),
    let payload := [byteOf e.val, byteOf client.val] ++ halfBytes duration ++ halfBytes wait
    let f := requestFrame 0x30 tag payload
    let l := leaseOf e s
    let refused (status : Status) (fieldBytes : List Byte) : Prop :=
      exec (.acquire x tag payload) s = .next (answered x f status fieldBytes (restartKeepalive x s))
    Ready x f s → isPresent x s = true → 10 ≤ duration.toNat → wait.toNat ≤ 30000 →
    (l.hold = none → l.fence = 0xFFFFFFFF → refused .badField (wordBytes l.fence)) ∧
    (∀ h, l.hold = some h → h.station = x → h.client = client →
      refused .alreadyHeld (wordBytes l.fence ++ natBytes2 h.remaining)) ∧
    (∀ h, l.hold = some h → ¬(h.station = x ∧ h.client = client) →
      let holder := [Station.code h.station, byteOf h.client.val] ++ natBytes2 h.remaining
      (∀ before w after, l.waiters = before ++ w :: after → before.any (isWaiter x client) = false →
        isWaiter x client w = true →
        refused .alreadyWaiting (byteOf (before.length + 1) :: natBytes2 w.wait)) ∧
      (l.waiters.any (isWaiter x client) = false →
        (wait = 0 → refused .busy holder) ∧
        (wait ≠ 0 → l.fence = 0xFFFFFFFF → refused .badField (wordBytes l.fence)) ∧
        (wait ≠ 0 → l.fence ≠ 0xFFFFFFFF → 4 ≤ l.waiters.length → refused .waitFull holder) ∧
        (wait ≠ 0 → l.fence ≠ 0xFFFFFFFF → l.waiters.length < 4 → 8 ≤ s.waitCounts.get x →
          refused .waitLimit [byteOf (s.waitCounts.get x)])))

/-- R95, R96: a RENEW by the holder with the entry's fence restarts the hold timer at the duration given and makes
it the granted duration; the fence, the holder and the wait list stay. R95, R97: a RELEASE by the holder with the
entry's fence. The last-holder record is written with ending RELEASED and the entry is handed on; the reply carries
the released fence and the entry after the hand-on. R95: a RENEW or a RELEASE that does not match. A fence above the
entry's was never issued and is answered BAD_FIELD with the entry's fence; any other mismatch is answered STALE with
the state, the fence, the holder and the last-holder record. Nothing changes. -/
def Obligations.RenewAndReleaseNeedTheFence : Prop :=
  (∀ (x : Station) (tag : Byte) (e : Fin 16) (client : Fin 8) (duration : Half) (h : Hold) (s : State),
      let l := leaseOf e s
      let payload := [byteOf e.val, byteOf client.val] ++ wordBytes l.fence ++ halfBytes duration
      let f := requestFrame 0x31 tag payload
      Ready x f s → isPresent x s = true → 10 ≤ duration.toNat → l.hold = some h → h.station = x → h.client = client →
      exec (.renew x tag payload) s =
        .next (answered x f .ok (wordBytes l.fence ++ halfBytes duration)
          (setLease e
            { l with
              hold := some { station := x, client := client, remaining := duration.toNat, granted := duration.toNat } }
            (restartKeepalive x s)))) ∧
  (∀ (x : Station) (tag : Byte) (e : Fin 16) (client : Fin 8) (h : Hold) (s : State),
      let l := leaseOf e s
      let payload := [byteOf e.val, byteOf client.val] ++ wordBytes l.fence
      let f := requestFrame 0x32 tag payload
      Ready x f s → isPresent x s = true → Advisory s → l.hold = some h → h.station = x → h.client = client →
      let t := handOn e
        (setLease e
          { l with last := some { station := x, client := client, fence := l.fence, ending := .released } }
          (restartKeepalive x s))
      exec (.release x tag payload) s =
        .next (answered x f .ok
          (wordBytes l.fence ++
            (match l.waiters with
              | [] => [0x00, 0x00, 0x00, 0x00, 0x00, 0x00, 0x00]
              | w :: _ =>
                if l.fence = 0xFFFFFFFF then [0x00, 0x00, 0x00, 0x00, 0x00, 0x00, 0x00]
                else [0x01, Station.code w.station, byteOf w.client.val] ++ wordBytes (l.fence + 1))) t)) ∧
  (∀ (x : Station) (tag : Byte) (e : Fin 16) (client : Fin 8) (fence : Word) (duration : Half) (s : State),
      let l := leaseOf e s
      let renew := [byteOf e.val, byteOf client.val] ++ wordBytes fence ++ halfBytes duration
      let release := [byteOf e.val, byteOf client.val] ++ wordBytes fence
      let stale : List Byte :=
        [flagByte l.hold.isSome] ++ wordBytes l.fence ++
          (match l.hold with
            | none => [0x00, 0x00]
            | some h => [Station.code h.station, byteOf h.client.val]) ++
          (match l.last with
            | none => [0x00, 0x00, 0x00, 0x00, 0x00, 0x00, 0x00]
            | some r => [Station.code r.station, byteOf r.client.val] ++ wordBytes r.fence ++ [Ending.code r.ending])
      isPresent x s = true →
      ∀ (i : Instr) (f : Frame),
        10 ≤ duration.toNat ∧ i = .renew x tag renew ∧ f = requestFrame 0x31 tag renew ∨
          i = .release x tag release ∧ f = requestFrame 0x32 tag release →
        Ready x f s →
        (l.fence.toNat < fence.toNat →
          exec i s = .next (answered x f .badField (wordBytes l.fence) (restartKeepalive x s))) ∧
        (fence.toNat ≤ l.fence.toNat → (holdsLease x client l = false ∨ fence ≠ l.fence) →
          exec i s = .next (answered x f .stale stale (restartKeepalive x s))))

/-- R98: CANCEL. A claimant on the wait list leaves it, its station's wait count falls by one, and the waiters
behind it move up; the reply carries its position and no notice is offered. Otherwise the answer is NOT_WAITING,
with the fence when the claimant is the holder, and nothing changes. -/
def Obligations.CancelRemovesTheWaiter : Prop :=
  ∀ (x : Station) (tag : Byte) (e : Fin 16) (client : Fin 8) (s : State),
    let payload := [byteOf e.val, byteOf client.val]
    let f := requestFrame 0x33 tag payload
    let l := leaseOf e s
    let s0 := restartKeepalive x s
    Ready x f s → isPresent x s = true →
    (∀ before w after, l.waiters = before ++ w :: after → (before ++ after).any (isWaiter x client) = false →
      w.station = x → w.client = client →
      exec (.cancel x tag payload) s =
        .next (answered x f .ok [byteOf (before.length + 1)]
          (setWaitCount x (s.waitCounts.get x - 1) (setLease e { l with waiters := before ++ after } s0)))) ∧
    (l.waiters.any (isWaiter x client) = false →
      exec (.cancel x tag payload) s =
        .next (answered x f .notWaiting
          ([flagByte l.hold.isSome] ++
            (if holdsLease x client l = true then 0x01 :: wordBytes l.fence else [0x00, 0x00, 0x00, 0x00, 0x00]))
          s0))

/-- R99, R89, R90: the hand-on of an entry whose hold has ended. With an empty wait list it becomes FREE and keeps
its fence. Otherwise the head waiter is granted: the fence rises by one, its requested duration is granted, its
station's wait count falls and LEASE_GRANTED is offered to it. An exhausted entry becomes FREE and loses its waiters,
head first, each with a fall of its station's wait count and a LEASE_WAIT_EXPIRED offer. R100: the lapse of a hold
whose timer has reached zero writes the last-holder record with ending LAPSED, offers LEASE_LAPSED to the holder's
station and hands the entry on. R101: the expiry of a wait whose timer has reached zero removes the waiter, lowers its
station's wait count and offers LEASE_WAIT_EXPIRED to it. R102: where the entry is FREE, the claimant does not wait,
or the timer runs again, neither happens (notes/assumptions/2.md). -/
def Obligations.HoldsEndAndAreHandedOn : Prop :=
  (∀ (e : Fin 16) (s : State), let l := leaseOf e s
      (l.waiters = [] → handOn e s = setLease e { l with hold := none } s) ∧
      (∀ w ws, l.waiters = w :: ws → l.fence ≠ 0xFFFFFFFF →
        handOn e s =
          offer w.station (.leaseGranted e w.client (l.fence + 1) w.duration)
            (setWaitCount w.station (s.waitCounts.get w.station - 1)
              (setLease e
                { l with
                  waiters := ws
                  fence := l.fence + 1
                  hold := some { station := w.station, client := w.client, remaining := w.duration
                                 granted := w.duration } } s))) ∧
      (l.fence = 0xFFFFFFFF →
        handOn e s =
          l.waiters.foldl
            (fun t w =>
              offer w.station (.leaseWaitExpired e w.client)
                (setWaitCount w.station (t.waitCounts.get w.station - 1) t))
            (setLease e { l with hold := none, waiters := [] } s))) ∧
  (∀ (e : Fin 16) (x : Station) (client : Fin 8) (s : State), Running s → Advisory s →
      let l := leaseOf e s
      (∀ h, l.hold = some h → h.remaining = 0 →
        exec (.holdLapse e) s =
          .next (handOn e (offer h.station (.leaseLapsed e h.client l.fence)
            (setLease e
              { l with
                last := some { station := h.station, client := h.client, fence := l.fence, ending := .lapsed } }
              s)))) ∧
      ((∀ h, l.hold = some h → h.remaining ≠ 0) → exec (.holdLapse e) s = .next s) ∧
      (∀ before w after, l.waiters = before ++ w :: after → (before ++ after).any (isWaiter x client) = false →
        w.station = x → w.client = client → w.wait = 0 →
        exec (.waitExpiry e x client) s =
          .next (offer x (.leaseWaitExpired e client)
            (setWaitCount x (s.waitCounts.get x - 1) (setLease e { l with waiters := before ++ after } s)))) ∧
      ((∀ w ∈ l.waiters, w.station = x → w.client = client → w.wait ≠ 0) → exec (.waitExpiry e x client) s = .next s))

/-! ### Notices and signals -/

/-- R108, R109, R110, R116: an offer other than FAULT. It is discarded for an ABSENT station; absorbed, or merged
for FLOW, where an entry of its kind and key is pending; appended when no OVERFLOW entry and fewer than 23 regular
entries are there; otherwise dropped: the drop is counted in the OVERFLOW entry and a NOTICE_LOSS fault is recorded.
After an offer to a PRESENT station its attention line is asserted. -/
def Obligations.OfferTakesItsFirstStep : Prop :=
  ∀ (x : Station) (n : Notice) (s : State), (∀ k v, n ≠ .fault k v) → (∀ v, n ≠ .overflow v) →
    let q := (unitOf x s).notices
    let put (q' : List Notice) : State := setUnit x { unitOf x s with notices := q' } s
    let lost (q' : List Notice) : State :=
      recordFault x .noticeLoss (.lostNotice (Notice.kindCode n) (Notice.subject n)) (put q')
    NoticesOk q →
    (isPresent x s = false → offer x n s = s) ∧
    (isPresent x s = true →
      attentionAsserted x (offer x n s) = true ∧
      (n ∈ q → (∃ c, n = .arrival c) ∨ n = .signalsPending → offer x n s = s) ∧
      (∀ c v o v' o' before after, n = .flow c v o → q = before ++ .flow c v' o' :: after →
        offer x n s = put (before ++ .flow c v o :: after)) ∧
      (∀ partner : Bool,
        partner = (match n with
          | .arrival c => q.contains (.arrival c)
          | .flow c _ _ => q.any fun m => match m with | .flow d _ _ => d == c | _ => false
          | .signalsPending => q.contains .signalsPending
          | _ => false) → partner = false →
        ((∀ v, .overflow v ∉ q) → q.length < 23 → offer x n s = put (q ++ [n])) ∧
        ((∀ v, .overflow v ∉ q) → 23 ≤ q.length → offer x n s = lost (q ++ [.overflow 1])) ∧
        (∀ before v, q = before ++ [.overflow v] → offer x n s = lost (before ++ [.overflow (min 255 (v + 1))]))))

/-- R113, R114: COLLECT with a maximum m removes the t oldest entries, t the lesser of m and the number pending, and
gives them the next t notice numbers in order. The reply carries t, what stays and the t records in the layout of
R163; the attention line goes off when nothing stays. -/
def Obligations.CollectTakesTheOldestNotices : Prop :=
  ∀ (x : Station) (tag : Byte) (m : Nat) (s : State),
    let f := requestFrame 0x12 tag [byteOf m]
    let s0 := restartKeepalive x s
    let u := unitOf x s0
    let t := min m u.notices.length
    Ready x f s → isPresent x s = true → 1 ≤ m → m ≤ 6 →
    let left := setUnit x
      { u with notices := u.notices.drop t, nextNotice := u.nextNotice + BitVec.ofNat 16 t } s0
    exec (.collect x tag [byteOf m]) s =
      .next (answered x f .ok
        ([byteOf t, byteOf (u.notices.length - t)] ++
          (List.range t).flatMap fun i =>
            let n := u.notices.getD i (.overflow 0)
            halfBytes (u.nextNotice + BitVec.ofNat 16 i) ++ [Notice.kindCode n, Notice.subject n] ++
              padTo 6 (Notice.detail n)) left) ∧
    attentionAsserted x left = decide (m < u.notices.length)

/-- R119: RAISE. With the peer ABSENT it is answered PEER_ABSENT and changes nothing. Otherwise each named flag of
the peer's set rises by one up to 15, a named flag found at 15 sets the indicator and is in the reply, and
SIGNALS_PENDING is offered to the peer when an unmasked flag is then non-zero. -/
def Obligations.RaiseCountsInThePeersSet : Prop :=
  ∀ (x : Station) (tag : Byte) (flags : Half) (s : State),
    let f := requestFrame 0x13 tag (halfBytes flags)
    let s0 := restartKeepalive x s
    let p := unitOf x.peer s
    let pending (g : SignalSet) : Prop := ∃ i : Fin 16, g.mask.getLsbD i.val = false ∧ g.counts[i] ≠ 0
    Ready x f s → Advisory s → isPresent x s = true → flags ≠ 0 →
    (isPresent x.peer s = false →
      exec (.raise x tag (halfBytes flags)) s = .next (answered x f .peerAbsent [] s0)) ∧
    (isPresent x.peer s = true → ∃ (g : SignalSet) (full : Half),
      g.mask = p.signals.mask ∧
      (∀ i : Fin 16, g.counts[i] =
        if flags.getLsbD i.val = true then min 15 (p.signals.counts[i] + 1) else p.signals.counts[i]) ∧
      (∀ i : Fin 16, full.getLsbD i.val = (flags.getLsbD i.val && p.signals.counts[i] == 15)) ∧
      g.saturated = (p.signals.saturated || full != 0) ∧
      let raised := setUnit x.peer { p with signals := g } s0
      (pending g → exec (.raise x tag (halfBytes flags)) s =
        .next (answered x f .ok (halfBytes p.record.epoch ++ halfBytes full)
          (offer x.peer .signalsPending raised))) ∧
      (¬ pending g → exec (.raise x tag (halfBytes flags)) s =
        .next (answered x f .ok (halfBytes p.record.epoch ++ halfBytes full) raised)))

/-- R120, R111: ACCEPT reports the counts of the named flags and the indicator, zeroes those counts, clears the
indicator and withdraws SIGNALS_PENDING when no unmasked flag is non-zero. R121: MASK replaces the mask;
SIGNALS_PENDING is offered when a flag that was masked and is unmasked now is non-zero, withdrawn when no unmasked
flag is, and left otherwise. -/
def Obligations.AcceptAndMaskActOnTheOwnSet : Prop :=
  ∀ (x : Station) (tag : Byte) (flags : Half) (s : State),
    let accept := requestFrame 0x14 tag (halfBytes flags)
    let mask := requestFrame 0x15 tag (halfBytes flags)
    let s0 := restartKeepalive x s
    let u := unitOf x s0
    let g := u.signals
    let pending (h : SignalSet) : Prop := ∃ i : Fin 16, h.mask.getLsbD i.val = false ∧ h.counts[i] ≠ 0
    let set (h : SignalSet) : State := setUnit x { u with signals := h } s0
    let withdrawn (h : SignalSet) : State :=
      setUnit x { u with signals := h, notices := u.notices.filter fun n => n != .signalsPending } s0
    isPresent x s = true →
    (Ready x accept s → ∃ h : SignalSet, h.mask = g.mask ∧ h.saturated = false ∧
      (∀ i : Fin 16, h.counts[i] = if flags.getLsbD i.val = true then 0 else g.counts[i]) ∧
      let report (i : Nat) : Nat := if flags.getLsbD i = true then g.counts.toList.getD i 0 else 0
      let fieldBytes : List Byte :=
        ((List.range 8).map fun j => byteOf (16 * report (2 * j) + report (2 * j + 1))) ++ [flagByte g.saturated]
      (pending h → exec (.accept x tag (halfBytes flags)) s = .next (answered x accept .ok fieldBytes (set h))) ∧
      (¬ pending h →
        exec (.accept x tag (halfBytes flags)) s = .next (answered x accept .ok fieldBytes (withdrawn h)))) ∧
    (Ready x mask s → Advisory s → ∃ nonZero : Half,
      (∀ i : Fin 16, nonZero.getLsbD i.val = (g.counts[i] != 0)) ∧
      let h : SignalSet := { g with mask := flags }
      let newly : Prop :=
        ∃ i : Fin 16, g.mask.getLsbD i.val = true ∧ flags.getLsbD i.val = false ∧ g.counts[i] ≠ 0
      let fieldBytes := halfBytes flags ++ halfBytes nonZero
      (newly → exec (.mask x tag (halfBytes flags)) s =
        .next (answered x mask .ok fieldBytes (offer x .signalsPending (set h)))) ∧
      (¬ newly → pending h →
        exec (.mask x tag (halfBytes flags)) s = .next (answered x mask .ok fieldBytes (set h))) ∧
      (¬ pending h →
        exec (.mask x tag (halfBytes flags)) s = .next (answered x mask .ok fieldBytes (withdrawn h))))

/-! ### The fault record -/

/-- R152: the recording of a fault, step by step. The count rises, saturating at 255. A kind that is reported fills
the capture or sets its further-faults flag, FAULT is offered to a PRESENT station (R109, R110), and a SEVERE kind
marks the station for departure, which SevereFaultDepartsAfterTheReply shows. The other station and all else are
unchanged. -/
def Obligations.FaultIsRecordedStepByStep : Prop :=
  ∀ (x : Station) (k : FaultKind) (info : CaptureInfo) (s : State), NoticesOk (unitOf x s).notices →
    let u := unitOf x s
    let r := KindRecords.get u.faults.kinds k
    let count := min 255 (r.count + 1)
    let t := recordFault x k info s
    let v := unitOf x t
    let q := u.notices
    KindRecords.get v.faults.kinds k = { r with count := count } ∧
    (∀ k', k' ≠ k → KindRecords.get v.faults.kinds k' = KindRecords.get u.faults.kinds k') ∧
    t = { setUnit x { u with faults := v.faults, notices := v.notices } s with severe := t.severe } ∧
    (r.reported = false → v.faults.capture = u.faults.capture ∧ v.notices = q ∧ t.severe = s.severe) ∧
    (r.reported = true →
      v.faults.capture = some
        (match u.faults.capture with
          | none => { kind := k, time := s.timeBase, info := info, further := false }
          | some c => { c with further := true }) ∧
      (isPresent x s = false → v.notices = q ∧ t.severe = s.severe) ∧
      (isPresent x s = true →
        (∀ y, y ∈ t.severe ↔ y ∈ s.severe ∨ y = x ∧ r.severity = .severe) ∧
        ((∃ k' n, .fault k' n ∈ q) → v.notices = q) ∧
        ((∀ k' n, .fault k' n ∉ q) →
          ((∀ n, .overflow n ∉ q) → q.length < 23 → v.notices = q ++ [.fault k count]) ∧
          ((∀ n, .overflow n ∉ q) → 23 ≤ q.length → v.notices = q ++ [.overflow 1]) ∧
          (∀ before n, q = before ++ [.overflow n] → v.notices = before ++ [.overflow (min 255 (n + 1))]))))

/-- R153, R154, R163: FAULTS reports the record of the station in either state and changes nothing. R155: CLEAR
FAULTS of a PRESENT station reports the record as it stood, zeroes the nine counts and removes the capture; the
report flags, the severities and the notice queue stay. R156: FAULT POLICY replaces every report flag and severity
and reports them; the counts and the capture stay. -/
def Obligations.FaultRequestsActOnTheRecord : Prop :=
  ∀ (x : Station) (tag : Byte) (s : State),
    let s0 := restartKeepalive x s
    let u := unitOf x s0
    let r := u.faults
    let captured : List Byte :=
      match r.capture with
      | none => List.replicate 15 0x00
      | some c =>
        let bytes : List Byte :=
          match c.info with
          | .header h => h
          | .staging ch received total => [byteOf ch.val] ++ natBytes2 received ++ natBytes2 total
          | .lostNotice kind subject => [kind, subject]
          | .delivery ch seq => [byteOf ch.val] ++ halfBytes seq
        [0x01, FaultKind.code c.kind] ++ wordBytes c.time ++ [byteOf bytes.length] ++ padTo 7 bytes ++
          [flagByte c.further]
    let record : List Byte :=
      (allFaultKinds.flatMap fun k =>
        let v := KindRecords.get r.kinds k
        [byteOf v.count, flagByte v.reported, Severity.code v.severity]) ++ captured ++ wordBytes s.timeBase ++
        [Presence.code u.record.presence] ++ halfBytes u.record.epoch ++ [causeByte u.record.lastCause]
    (Ready x (requestFrame 0x38 tag []) s →
      (isPresent x s = true →
        exec (.faults x tag []) s = .next (answered x (requestFrame 0x38 tag []) .ok record s0)) ∧
      (isPresent x s = false →
        exec (.faults x tag []) s =
          .next (transmit x (replyFrame (requestFrame 0x38 tag []) .ok record) false s))) ∧
    (Ready x (requestFrame 0x39 tag []) s → isPresent x s = true → ∃ kinds : KindRecords,
      (∀ k, KindRecords.get kinds k = { KindRecords.get r.kinds k with count := 0 }) ∧
      exec (.clearFaults x tag []) s =
        .next (answered x (requestFrame 0x39 tag []) .ok record
          (setUnit x { u with faults := { kinds := kinds, capture := none } } s0))) ∧
    (∀ policy : FaultKind → Bool × Severity,
      let payload := allFaultKinds.flatMap fun k => [flagByte (policy k).1, Severity.code (policy k).2]
      let f := requestFrame 0x3A tag payload
      Ready x f s → isPresent x s = true → ∃ kinds : KindRecords,
        (∀ k, KindRecords.get kinds k =
          { KindRecords.get r.kinds k with reported := (policy k).1, severity := (policy k).2 }) ∧
        exec (.faultPolicy x tag payload) s =
          .next (answered x f .ok payload (setUnit x { u with faults := { r with kinds := kinds } } s0)))

/-! ### What every step keeps -/

/-- Every step keeps the store's bytes in their canonical form; that form is the model's representation
(notes/assumptions/29.md), as is the list of stations whose departure is outstanding (notes/assumptions/19.md). R132: a
departure that a SEVERE fault demands is carried out within the step that records the fault, with every departure that
follows from it: none is outstanding after a step. -/
def Obligations.StepsKeepMemoryCanonicalAndSettled : Prop :=
  (∀ s t : State, MemoryCanonical s → step s = .next t → MemoryCanonical t) ∧
    (∀ s t : State, Settled s → step s = .next t → Settled t)

/-- R8, R60: every step keeps the LENT messages of each channel the oldest of its queue, at most 8 of them.
R8, R37, R46: with the accounts of StepsKeepTheChannelAccounts, every step keeps the sequence numbers of a queue rising
from the oldest message's, as distances from it, and below next_seq. That the distance and a reservation stay at most
32,769 together is read from R37 and R46. -/
def Obligations.StepsKeepLentMessagesFirst : Prop :=
  (∀ s t : State, LentFirstLaw s → step s = .next t → LentFirstLaw t) ∧
  (∀ s t : State, ChannelLaw s → SequenceLaw s → step s = .next t → SequenceLaw t)

/-- R3, R9, R15, R40: every step keeps the accounts of each channel. Its two ends are never held by one station; its
messages and its reservation are at most D, its charge at most Q; charged is the sum of the block counts of its
messages and of the staging record on it; reserved is 1 exactly while there is such a record, whose station holds the
sender end, active; a CLOSED channel has no parameters, no messages, no reservation and no charge. -/
def Obligations.StepsKeepTheChannelAccounts : Prop :=
  ∀ s t : State, ChannelLaw s → step s = .next t → ChannelLaw t

/-- R107, R109, R110: every step keeps at most 23 regular entries in each notice queue, OVERFLOW last, and no two
entries that would coalesce. R146, R142, R40, R118: every step keeps at most 8 reply-cache entries, no two of one tag,
4 frames in an input queue, 2 staging records of a station, and 15 in a signal count. R134, R128: an ABSENT station has
nothing of what R134 names and no keepalive timer. R17, R18: a dormant end is an ABSENT station's. R74, R80, R85: the
station of a draw in flight holds the receiver end of its channel, active. -/
def Obligations.StepsKeepTheNoticeQueues : Prop :=
  (∀ s t : State, NoticeLaw s → step s = .next t → NoticeLaw t) ∧
  (∀ s t : State, StationLaw s → step s = .next t → StationLaw t)

/-- R88: every step keeps the law of the lease entries: at most 4 waiters, all different claimants and none the
holder, and none on a FREE entry. R90: with it, every step keeps each station's wait count the number of its waiters
on all entries together. -/
def Obligations.StepsKeepTheLeaseLaw : Prop :=
  (∀ s t : State, LeaseLaw s → step s = .next t → LeaseLaw t) ∧
    (∀ s t : State, LeaseLaw s → WaitCountLaw s → step s = .next t → WaitCountLaw t)

/-- R89: no step but one that asserts device reset lowers the fence of a lease entry. -/
def Obligations.FencesNeverFall : Prop :=
  ∀ (s t : State) (e : Fin 16), step s = .next t →
    (∀ straps rest, s.pending ≠ Instr.resetAssert straps :: rest) →
    (leaseOf e s).fence.toNat ≤ (leaseOf e t).fence.toNat

/-- R23, R25, R26, R40: every step keeps each block in exactly one place: the free pool, one message record or one
staging record; the free pool stays in ascending order. -/
def Obligations.StepsKeepEachBlockInOnePlace : Prop :=
  ∀ s t : State, BlockLaw s → step s = .next t → BlockLaw t
end

