-- ==== Sys2Proof/Laws/State.lean ====
section
/-!
SUPPORT. One lemma per field per update of the state: what an update leaves, and what it writes. They are true by
unfolding, so that no later proof unfolds a record update.
-/

namespace Sys2Proof

@[simp] theorem Station.peer_peer (x : Station) : x.peer.peer = x := by cases x <;> rfl

@[simp] theorem Station.peer_ne (x : Station) : x.peer ≠ x := by cases x <;> decide

@[simp] theorem Station.ne_peer (x : Station) : x ≠ x.peer := by cases x <;> decide

/-- A station that is not `x` is its peer. -/
theorem Station.eq_peer_of_ne {x y : Station} (h : y ≠ x) : y = x.peer := by
  cases x <;> cases y <;> first | rfl | exact absurd rfl h

namespace Machine

variable {α : Type}

@[simp] theorem Pair.get_set_self (p : Pair α) (x : Station) (v : α) : (p.set x v).get x = v := by cases x <;> rfl

theorem Pair.get_set_ne (p : Pair α) {x y : Station} (v : α) (h : y ≠ x) : (p.set x v).get y = p.get y := by
  cases x <;> cases y <;> first | rfl | exact absurd rfl h

@[simp] theorem Pair.get_set_peer (p : Pair α) (x : Station) (v : α) : (p.set x v).get x.peer = p.get x.peer := by
  cases x <;> rfl

@[simp] theorem Pair.get_set_of_peer (p : Pair α) (x : Station) (v : α) : (p.set x.peer v).get x = p.get x := by
  cases x <;> rfl

theorem Pair.get_set (p : Pair α) (x y : Station) (v : α) : (p.set x v).get y = if y = x then v else p.get y := by
  cases x <;> cases y <;> rfl

@[simp] theorem Pair.set_set (p : Pair α) (x : Station) (v w : α) : (p.set x v).set x w = p.set x w := by
  cases x <;> rfl

@[simp] theorem Pair.set_get (p : Pair α) (x : Station) : p.set x (p.get x) = p := by cases x <;> rfl

/-- Two pairs with the same value for each station are equal. -/
theorem Pair.ext_get {p q : Pair α} (h : ∀ x, p.get x = q.get x) : p = q := by
  cases p; cases q
  have ha := h .a
  have hb := h .b
  simp only [Pair.get] at ha hb
  subst ha hb
  rfl

/-! ### setUnit -/

@[simp] theorem setUnit_pending (x : Station) (u : StationUnit) (s : State) : (setUnit x u s).pending = s.pending := rfl
@[simp] theorem setUnit_phase (x : Station) (u : StationUnit) (s : State) : (setUnit x u s).phase = s.phase := rfl
@[simp] theorem setUnit_timeBase (x : Station) (u : StationUnit) (s : State) : (setUnit x u s).timeBase = s.timeBase := rfl
@[simp] theorem setUnit_straps (x : Station) (u : StationUnit) (s : State) : (setUnit x u s).straps = s.straps := rfl
@[simp] theorem setUnit_links (x : Station) (u : StationUnit) (s : State) : (setUnit x u s).links = s.links := rfl
@[simp] theorem setUnit_channels (x : Station) (u : StationUnit) (s : State) : (setUnit x u s).channels = s.channels := rfl
@[simp] theorem setUnit_store (x : Station) (u : StationUnit) (s : State) : (setUnit x u s).store = s.store := rfl
@[simp] theorem setUnit_leases (x : Station) (u : StationUnit) (s : State) : (setUnit x u s).leases = s.leases := rfl
@[simp] theorem setUnit_waitCounts (x : Station) (u : StationUnit) (s : State) : (setUnit x u s).waitCounts = s.waitCounts := rfl
@[simp] theorem setUnit_severe (x : Station) (u : StationUnit) (s : State) : (setUnit x u s).severe = s.severe := rfl
@[simp] theorem setUnit_freeTick (x : Station) (u : StationUnit) (s : State) : (setUnit x u s).freeTick = s.freeTick := rfl

/-! ### setLink -/

@[simp] theorem setLink_pending (x : Station) (l : LinkInterface) (s : State) : (setLink x l s).pending = s.pending := rfl
@[simp] theorem setLink_phase (x : Station) (l : LinkInterface) (s : State) : (setLink x l s).phase = s.phase := rfl
@[simp] theorem setLink_timeBase (x : Station) (l : LinkInterface) (s : State) : (setLink x l s).timeBase = s.timeBase := rfl
@[simp] theorem setLink_straps (x : Station) (l : LinkInterface) (s : State) : (setLink x l s).straps = s.straps := rfl
@[simp] theorem setLink_units (x : Station) (l : LinkInterface) (s : State) : (setLink x l s).units = s.units := rfl
@[simp] theorem setLink_channels (x : Station) (l : LinkInterface) (s : State) : (setLink x l s).channels = s.channels := rfl
@[simp] theorem setLink_store (x : Station) (l : LinkInterface) (s : State) : (setLink x l s).store = s.store := rfl
@[simp] theorem setLink_leases (x : Station) (l : LinkInterface) (s : State) : (setLink x l s).leases = s.leases := rfl
@[simp] theorem setLink_waitCounts (x : Station) (l : LinkInterface) (s : State) : (setLink x l s).waitCounts = s.waitCounts := rfl
@[simp] theorem setLink_severe (x : Station) (l : LinkInterface) (s : State) : (setLink x l s).severe = s.severe := rfl
@[simp] theorem setLink_freeTick (x : Station) (l : LinkInterface) (s : State) : (setLink x l s).freeTick = s.freeTick := rfl

/-! ### setChan -/

@[simp] theorem setChan_pending (c : Fin 8) (ch : Channel) (s : State) : (setChan c ch s).pending = s.pending := rfl
@[simp] theorem setChan_phase (c : Fin 8) (ch : Channel) (s : State) : (setChan c ch s).phase = s.phase := rfl
@[simp] theorem setChan_timeBase (c : Fin 8) (ch : Channel) (s : State) : (setChan c ch s).timeBase = s.timeBase := rfl
@[simp] theorem setChan_straps (c : Fin 8) (ch : Channel) (s : State) : (setChan c ch s).straps = s.straps := rfl
@[simp] theorem setChan_links (c : Fin 8) (ch : Channel) (s : State) : (setChan c ch s).links = s.links := rfl
@[simp] theorem setChan_units (c : Fin 8) (ch : Channel) (s : State) : (setChan c ch s).units = s.units := rfl
@[simp] theorem setChan_store (c : Fin 8) (ch : Channel) (s : State) : (setChan c ch s).store = s.store := rfl
@[simp] theorem setChan_leases (c : Fin 8) (ch : Channel) (s : State) : (setChan c ch s).leases = s.leases := rfl
@[simp] theorem setChan_waitCounts (c : Fin 8) (ch : Channel) (s : State) : (setChan c ch s).waitCounts = s.waitCounts := rfl
@[simp] theorem setChan_severe (c : Fin 8) (ch : Channel) (s : State) : (setChan c ch s).severe = s.severe := rfl
@[simp] theorem setChan_freeTick (c : Fin 8) (ch : Channel) (s : State) : (setChan c ch s).freeTick = s.freeTick := rfl

/-! ### setLease -/

@[simp] theorem setLease_pending (e : Fin 16) (l : LeaseEntry) (s : State) : (setLease e l s).pending = s.pending := rfl
@[simp] theorem setLease_phase (e : Fin 16) (l : LeaseEntry) (s : State) : (setLease e l s).phase = s.phase := rfl
@[simp] theorem setLease_timeBase (e : Fin 16) (l : LeaseEntry) (s : State) : (setLease e l s).timeBase = s.timeBase := rfl
@[simp] theorem setLease_straps (e : Fin 16) (l : LeaseEntry) (s : State) : (setLease e l s).straps = s.straps := rfl
@[simp] theorem setLease_links (e : Fin 16) (l : LeaseEntry) (s : State) : (setLease e l s).links = s.links := rfl
@[simp] theorem setLease_units (e : Fin 16) (l : LeaseEntry) (s : State) : (setLease e l s).units = s.units := rfl
@[simp] theorem setLease_channels (e : Fin 16) (l : LeaseEntry) (s : State) : (setLease e l s).channels = s.channels := rfl
@[simp] theorem setLease_store (e : Fin 16) (l : LeaseEntry) (s : State) : (setLease e l s).store = s.store := rfl
@[simp] theorem setLease_waitCounts (e : Fin 16) (l : LeaseEntry) (s : State) : (setLease e l s).waitCounts = s.waitCounts := rfl
@[simp] theorem setLease_severe (e : Fin 16) (l : LeaseEntry) (s : State) : (setLease e l s).severe = s.severe := rfl
@[simp] theorem setLease_freeTick (e : Fin 16) (l : LeaseEntry) (s : State) : (setLease e l s).freeTick = s.freeTick := rfl

/-! ### setStore -/

@[simp] theorem setStore_pending (st : Store) (s : State) : (setStore st s).pending = s.pending := rfl
@[simp] theorem setStore_phase (st : Store) (s : State) : (setStore st s).phase = s.phase := rfl
@[simp] theorem setStore_timeBase (st : Store) (s : State) : (setStore st s).timeBase = s.timeBase := rfl
@[simp] theorem setStore_straps (st : Store) (s : State) : (setStore st s).straps = s.straps := rfl
@[simp] theorem setStore_links (st : Store) (s : State) : (setStore st s).links = s.links := rfl
@[simp] theorem setStore_units (st : Store) (s : State) : (setStore st s).units = s.units := rfl
@[simp] theorem setStore_channels (st : Store) (s : State) : (setStore st s).channels = s.channels := rfl
@[simp] theorem setStore_leases (st : Store) (s : State) : (setStore st s).leases = s.leases := rfl
@[simp] theorem setStore_waitCounts (st : Store) (s : State) : (setStore st s).waitCounts = s.waitCounts := rfl
@[simp] theorem setStore_severe (st : Store) (s : State) : (setStore st s).severe = s.severe := rfl
@[simp] theorem setStore_freeTick (st : Store) (s : State) : (setStore st s).freeTick = s.freeTick := rfl

/-! ### setWaitCount -/

@[simp] theorem setWaitCount_pending (x : Station) (n : Nat) (s : State) : (setWaitCount x n s).pending = s.pending := rfl
@[simp] theorem setWaitCount_phase (x : Station) (n : Nat) (s : State) : (setWaitCount x n s).phase = s.phase := rfl
@[simp] theorem setWaitCount_timeBase (x : Station) (n : Nat) (s : State) : (setWaitCount x n s).timeBase = s.timeBase := rfl
@[simp] theorem setWaitCount_straps (x : Station) (n : Nat) (s : State) : (setWaitCount x n s).straps = s.straps := rfl
@[simp] theorem setWaitCount_links (x : Station) (n : Nat) (s : State) : (setWaitCount x n s).links = s.links := rfl
@[simp] theorem setWaitCount_units (x : Station) (n : Nat) (s : State) : (setWaitCount x n s).units = s.units := rfl
@[simp] theorem setWaitCount_channels (x : Station) (n : Nat) (s : State) : (setWaitCount x n s).channels = s.channels := rfl
@[simp] theorem setWaitCount_store (x : Station) (n : Nat) (s : State) : (setWaitCount x n s).store = s.store := rfl
@[simp] theorem setWaitCount_leases (x : Station) (n : Nat) (s : State) : (setWaitCount x n s).leases = s.leases := rfl
@[simp] theorem setWaitCount_severe (x : Station) (n : Nat) (s : State) : (setWaitCount x n s).severe = s.severe := rfl
@[simp] theorem setWaitCount_freeTick (x : Station) (n : Nat) (s : State) : (setWaitCount x n s).freeTick = s.freeTick := rfl

/-! ### setSevere -/

@[simp] theorem setSevere_pending (l : List Station) (s : State) : (setSevere l s).pending = s.pending := rfl
@[simp] theorem setSevere_phase (l : List Station) (s : State) : (setSevere l s).phase = s.phase := rfl
@[simp] theorem setSevere_timeBase (l : List Station) (s : State) : (setSevere l s).timeBase = s.timeBase := rfl
@[simp] theorem setSevere_straps (l : List Station) (s : State) : (setSevere l s).straps = s.straps := rfl
@[simp] theorem setSevere_links (l : List Station) (s : State) : (setSevere l s).links = s.links := rfl
@[simp] theorem setSevere_units (l : List Station) (s : State) : (setSevere l s).units = s.units := rfl
@[simp] theorem setSevere_channels (l : List Station) (s : State) : (setSevere l s).channels = s.channels := rfl
@[simp] theorem setSevere_store (l : List Station) (s : State) : (setSevere l s).store = s.store := rfl
@[simp] theorem setSevere_leases (l : List Station) (s : State) : (setSevere l s).leases = s.leases := rfl
@[simp] theorem setSevere_waitCounts (l : List Station) (s : State) : (setSevere l s).waitCounts = s.waitCounts := rfl
@[simp] theorem setSevere_freeTick (l : List Station) (s : State) : (setSevere l s).freeTick = s.freeTick := rfl

@[simp] theorem linkOf_setUnit (y : Station) (x : Station) (u : StationUnit) (s : State) : linkOf y (setUnit x u s) = linkOf y s := rfl
@[simp] theorem chanOf_setUnit (d : Fin 8) (x : Station) (u : StationUnit) (s : State) : chanOf d (setUnit x u s) = chanOf d s := rfl
@[simp] theorem leaseOf_setUnit (f : Fin 16) (x : Station) (u : StationUnit) (s : State) : leaseOf f (setUnit x u s) = leaseOf f s := rfl

@[simp] theorem unitOf_setLink (y : Station) (x : Station) (l : LinkInterface) (s : State) : unitOf y (setLink x l s) = unitOf y s := rfl
@[simp] theorem chanOf_setLink (d : Fin 8) (x : Station) (l : LinkInterface) (s : State) : chanOf d (setLink x l s) = chanOf d s := rfl
@[simp] theorem leaseOf_setLink (f : Fin 16) (x : Station) (l : LinkInterface) (s : State) : leaseOf f (setLink x l s) = leaseOf f s := rfl

@[simp] theorem unitOf_setChan (y : Station) (c : Fin 8) (ch : Channel) (s : State) : unitOf y (setChan c ch s) = unitOf y s := rfl
@[simp] theorem linkOf_setChan (y : Station) (c : Fin 8) (ch : Channel) (s : State) : linkOf y (setChan c ch s) = linkOf y s := rfl
@[simp] theorem leaseOf_setChan (f : Fin 16) (c : Fin 8) (ch : Channel) (s : State) : leaseOf f (setChan c ch s) = leaseOf f s := rfl

@[simp] theorem unitOf_setLease (y : Station) (e : Fin 16) (l : LeaseEntry) (s : State) : unitOf y (setLease e l s) = unitOf y s := rfl
@[simp] theorem linkOf_setLease (y : Station) (e : Fin 16) (l : LeaseEntry) (s : State) : linkOf y (setLease e l s) = linkOf y s := rfl
@[simp] theorem chanOf_setLease (d : Fin 8) (e : Fin 16) (l : LeaseEntry) (s : State) : chanOf d (setLease e l s) = chanOf d s := rfl

@[simp] theorem unitOf_setStore (y : Station) (st : Store) (s : State) : unitOf y (setStore st s) = unitOf y s := rfl
@[simp] theorem linkOf_setStore (y : Station) (st : Store) (s : State) : linkOf y (setStore st s) = linkOf y s := rfl
@[simp] theorem chanOf_setStore (d : Fin 8) (st : Store) (s : State) : chanOf d (setStore st s) = chanOf d s := rfl
@[simp] theorem leaseOf_setStore (f : Fin 16) (st : Store) (s : State) : leaseOf f (setStore st s) = leaseOf f s := rfl

@[simp] theorem unitOf_setWaitCount (y : Station) (x : Station) (n : Nat) (s : State) : unitOf y (setWaitCount x n s) = unitOf y s := rfl
@[simp] theorem linkOf_setWaitCount (y : Station) (x : Station) (n : Nat) (s : State) : linkOf y (setWaitCount x n s) = linkOf y s := rfl
@[simp] theorem chanOf_setWaitCount (d : Fin 8) (x : Station) (n : Nat) (s : State) : chanOf d (setWaitCount x n s) = chanOf d s := rfl
@[simp] theorem leaseOf_setWaitCount (f : Fin 16) (x : Station) (n : Nat) (s : State) : leaseOf f (setWaitCount x n s) = leaseOf f s := rfl

@[simp] theorem unitOf_setSevere (y : Station) (l : List Station) (s : State) : unitOf y (setSevere l s) = unitOf y s := rfl
@[simp] theorem linkOf_setSevere (y : Station) (l : List Station) (s : State) : linkOf y (setSevere l s) = linkOf y s := rfl
@[simp] theorem chanOf_setSevere (d : Fin 8) (l : List Station) (s : State) : chanOf d (setSevere l s) = chanOf d s := rfl
@[simp] theorem leaseOf_setSevere (f : Fin 16) (l : List Station) (s : State) : leaseOf f (setSevere l s) = leaseOf f s := rfl

@[simp] theorem unitOf_setUnit_self (x : Station) (u : StationUnit) (s : State) : unitOf x (setUnit x u s) = u :=
  Pair.get_set_self _ _ _

@[simp] theorem unitOf_setUnit_peer (x : Station) (u : StationUnit) (s : State) :
    unitOf x.peer (setUnit x u s) = unitOf x.peer s := Pair.get_set_peer _ _ _

@[simp] theorem unitOf_setUnit_of_peer (x : Station) (u : StationUnit) (s : State) :
    unitOf x (setUnit x.peer u s) = unitOf x s := Pair.get_set_of_peer _ _ _

theorem unitOf_setUnit (x y : Station) (u : StationUnit) (s : State) :
    unitOf y (setUnit x u s) = if y = x then u else unitOf y s := Pair.get_set _ _ _ _

@[simp] theorem linkOf_setLink_self (x : Station) (l : LinkInterface) (s : State) : linkOf x (setLink x l s) = l :=
  Pair.get_set_self _ _ _

@[simp] theorem linkOf_setLink_peer (x : Station) (l : LinkInterface) (s : State) :
    linkOf x.peer (setLink x l s) = linkOf x.peer s := Pair.get_set_peer _ _ _

@[simp] theorem linkOf_setLink_of_peer (x : Station) (l : LinkInterface) (s : State) :
    linkOf x (setLink x.peer l s) = linkOf x s := Pair.get_set_of_peer _ _ _

theorem linkOf_setLink (x y : Station) (l : LinkInterface) (s : State) :
    linkOf y (setLink x l s) = if y = x then l else linkOf y s := Pair.get_set _ _ _ _

@[simp] theorem chanOf_setChan_self (c : Fin 8) (ch : Channel) (s : State) : chanOf c (setChan c ch s) = ch := by
  simp [chanOf, setChan]

theorem chanOf_setChan_ne {c d : Fin 8} (ch : Channel) (s : State) (h : d ≠ c) :
    chanOf d (setChan c ch s) = chanOf d s := by
  have h' : (c : Nat) ≠ (d : Nat) := fun e => h (Fin.ext e.symm)
  simp [chanOf, setChan, h']

theorem chanOf_setChan (c d : Fin 8) (ch : Channel) (s : State) :
    chanOf d (setChan c ch s) = if d = c then ch else chanOf d s := by
  split
  · subst d; simp
  · exact chanOf_setChan_ne _ _ ‹_›

@[simp] theorem leaseOf_setLease_self (e : Fin 16) (l : LeaseEntry) (s : State) : leaseOf e (setLease e l s) = l := by
  simp [leaseOf, setLease]

theorem leaseOf_setLease_ne {e f : Fin 16} (l : LeaseEntry) (s : State) (h : f ≠ e) :
    leaseOf f (setLease e l s) = leaseOf f s := by
  have h' : (e : Nat) ≠ (f : Nat) := fun k => h (Fin.ext k.symm)
  simp [leaseOf, setLease, h']

theorem leaseOf_setLease (e f : Fin 16) (l : LeaseEntry) (s : State) :
    leaseOf f (setLease e l s) = if f = e then l else leaseOf f s := by
  split
  · subst f; simp
  · exact leaseOf_setLease_ne _ _ ‹_›

@[simp] theorem setStore_store (st : Store) (s : State) : (setStore st s).store = st := rfl

@[simp] theorem setSevere_severe (l : List Station) (s : State) : (setSevere l s).severe = l := rfl

@[simp] theorem waitCounts_setWaitCount_self (x : Station) (n : Nat) (s : State) :
    (setWaitCount x n s).waitCounts.get x = n := Pair.get_set_self _ _ _

theorem waitCounts_setWaitCount (x y : Station) (n : Nat) (s : State) :
    (setWaitCount x n s).waitCounts.get y = if y = x then n else s.waitCounts.get y := Pair.get_set _ _ _ _

/-! ### An update of an update -/

@[simp] theorem setUnit_setUnit (x : Station) (u v : StationUnit) (s : State) :
    setUnit x v (setUnit x u s) = setUnit x v s := by simp [setUnit]

@[simp] theorem setLink_setLink (x : Station) (l m : LinkInterface) (s : State) :
    setLink x m (setLink x l s) = setLink x m s := by simp [setLink]

@[simp] theorem setChan_setChan (c : Fin 8) (ch dh : Channel) (s : State) :
    setChan c dh (setChan c ch s) = setChan c dh s := by simp [setChan]

@[simp] theorem setLease_setLease (e : Fin 16) (l m : LeaseEntry) (s : State) :
    setLease e m (setLease e l s) = setLease e m s := by simp [setLease]

@[simp] theorem setStore_setStore (st tt : Store) (s : State) : setStore tt (setStore st s) = setStore tt s := rfl

@[simp] theorem setUnit_unitOf (x : Station) (s : State) : setUnit x (unitOf x s) s = s := by
  simp [setUnit, unitOf]

@[simp] theorem setLink_linkOf (x : Station) (s : State) : setLink x (linkOf x s) s = s := by
  simp [setLink, linkOf]

@[simp] theorem setChan_chanOf (c : Fin 8) (s : State) : setChan c (chanOf c s) s = s := by
  simp [setChan, chanOf]

@[simp] theorem setLease_leaseOf (e : Fin 16) (s : State) : setLease e (leaseOf e s) s = s := by
  simp [setLease, leaseOf]

/-! ### Presence -/

@[simp] theorem isPresent_setLink (y x : Station) (l : LinkInterface) (s : State) :
    isPresent y (setLink x l s) = isPresent y s := rfl
@[simp] theorem isPresent_setChan (y : Station) (c : Fin 8) (ch : Channel) (s : State) :
    isPresent y (setChan c ch s) = isPresent y s := rfl
@[simp] theorem isPresent_setLease (y : Station) (e : Fin 16) (l : LeaseEntry) (s : State) :
    isPresent y (setLease e l s) = isPresent y s := rfl
@[simp] theorem isPresent_setStore (y : Station) (st : Store) (s : State) :
    isPresent y (setStore st s) = isPresent y s := rfl
@[simp] theorem isPresent_setWaitCount (y x : Station) (n : Nat) (s : State) :
    isPresent y (setWaitCount x n s) = isPresent y s := rfl
@[simp] theorem isPresent_setSevere (y : Station) (l : List Station) (s : State) :
    isPresent y (setSevere l s) = isPresent y s := rfl

/-- A unit whose record's presence is kept leaves both stations' presence as it was. -/
theorem isPresent_setUnit (x y : Station) (u : StationUnit) (s : State)
    (h : u.record.presence = (unitOf x s).record.presence) : isPresent y (setUnit x u s) = isPresent y s := by
  unfold isPresent
  rw [unitOf_setUnit]
  split
  · subst y; rw [h]
  · rfl

/-! ### Two states with the same fields -/

/-- States that agree on every field are equal. -/
theorem State.ext_fields {s t : State} (h1 : s.pending = t.pending) (h2 : s.phase = t.phase)
    (h3 : s.timeBase = t.timeBase) (h4 : s.straps = t.straps) (h5 : s.links = t.links) (h6 : s.units = t.units)
    (h7 : s.channels = t.channels) (h8 : s.store = t.store) (h9 : s.leases = t.leases)
    (h10 : s.waitCounts = t.waitCounts) (h11 : s.severe = t.severe) (h12 : s.freeTick = t.freeTick) : s = t := by
  cases s; cases t; simp_all

end Machine

end Sys2Proof
end

