-- ==== Sys2Proof/Laws/Ops.lean ====
section
/-!
SUPPORT. For each shared operation of Machine/Ops.lean one lemma that says which fields it can change, and the field
lemmas that follow from it.
-/

namespace Sys2Proof.Machine

/-! ### Notices and faults: only units and the list of departures to come -/

theorem setNotices_frame (x : Station) (q : List Notice) (s : State) :
    setNotices x q s = setUnit x { unitOf x s with notices := q } s := rfl

/-- An offer of FAULT changes the notices of station `x`, nothing else. -/
theorem offerFault_frame (x : Station) (k : FaultKind) (n : Nat) (s : State) :
    offerFault x k n s = setUnit x { unitOf x s with notices := (unitOf x (offerFault x k n s)).notices } s := by
  unfold offerFault
  split
  · simp [setNotices]
  · exact (setUnit_unitOf x s).symm

/-- A fault changes the fault record and the notices of station `x` and the list of departures to come. -/
theorem recordFault_frame (x : Station) (k : FaultKind) (i : CaptureInfo) (s : State) :
    recordFault x k i s =
      setSevere (recordFault x k i s).severe
        (setUnit x { unitOf x s with
          faults := (unitOf x (recordFault x k i s)).faults
          notices := (unitOf x (recordFault x k i s)).notices } s) := by
  unfold recordFault
  simp only
  split
  · split
    · unfold markSevere offerFault
      split <;> split <;> simp [setNotices, setUnit, setSevere, unitOf]
    · unfold offerFault
      split <;> simp [setNotices, setUnit, setSevere, unitOf]
  · simp [setUnit, setSevere, unitOf]

/-- An offer changes the notices and, by a NOTICE_LOSS fault, the fault record of station `x`, and the list of departures
to come. -/
theorem offer_frame (x : Station) (n : Notice) (s : State) :
    offer x n s =
      setSevere (offer x n s).severe
        (setUnit x { unitOf x s with
          faults := (unitOf x (offer x n s)).faults
          notices := (unitOf x (offer x n s)).notices } s) := by
  unfold offer
  simp only
  split
  · split
    · conv_lhs => rw [recordFault_frame]
      simp [setNotices]
    · simp [setNotices, setUnit, setSevere, unitOf]
  · exact (setUnit_unitOf x s).symm

/-- A withdrawal changes the notices of station `x`, nothing else. -/
theorem withdraw_frame (x : Station) (n : Notice) (s : State) :
    withdraw x n s = setUnit x { unitOf x s with notices := (unitOf x (withdraw x n s)).notices } s := by
  simp [withdraw, setNotices]

/-! ### What recordFault leaves -/

@[simp] theorem recordFault_pending (x : Station) (k : FaultKind) (i : CaptureInfo) (s : State) : (recordFault x k i s).pending = s.pending := by
  rw [recordFault_frame]; rfl
@[simp] theorem recordFault_phase (x : Station) (k : FaultKind) (i : CaptureInfo) (s : State) : (recordFault x k i s).phase = s.phase := by
  rw [recordFault_frame]; rfl
@[simp] theorem recordFault_timeBase (x : Station) (k : FaultKind) (i : CaptureInfo) (s : State) : (recordFault x k i s).timeBase = s.timeBase := by
  rw [recordFault_frame]; rfl
@[simp] theorem recordFault_straps (x : Station) (k : FaultKind) (i : CaptureInfo) (s : State) : (recordFault x k i s).straps = s.straps := by
  rw [recordFault_frame]; rfl
@[simp] theorem recordFault_links (x : Station) (k : FaultKind) (i : CaptureInfo) (s : State) : (recordFault x k i s).links = s.links := by
  rw [recordFault_frame]; rfl
@[simp] theorem recordFault_channels (x : Station) (k : FaultKind) (i : CaptureInfo) (s : State) : (recordFault x k i s).channels = s.channels := by
  rw [recordFault_frame]; rfl
@[simp] theorem recordFault_store (x : Station) (k : FaultKind) (i : CaptureInfo) (s : State) : (recordFault x k i s).store = s.store := by
  rw [recordFault_frame]; rfl
@[simp] theorem recordFault_leases (x : Station) (k : FaultKind) (i : CaptureInfo) (s : State) : (recordFault x k i s).leases = s.leases := by
  rw [recordFault_frame]; rfl
@[simp] theorem recordFault_waitCounts (x : Station) (k : FaultKind) (i : CaptureInfo) (s : State) : (recordFault x k i s).waitCounts = s.waitCounts := by
  rw [recordFault_frame]; rfl
@[simp] theorem recordFault_freeTick (x : Station) (k : FaultKind) (i : CaptureInfo) (s : State) : (recordFault x k i s).freeTick = s.freeTick := by
  rw [recordFault_frame]; rfl

@[simp] theorem linkOf_recordFault (y : Station) (x : Station) (k : FaultKind) (i : CaptureInfo) (s : State) : linkOf y (recordFault x k i s) = linkOf y s := by
  rw [recordFault_frame]; rfl
@[simp] theorem chanOf_recordFault (c : Fin 8) (x : Station) (k : FaultKind) (i : CaptureInfo) (s : State) : chanOf c (recordFault x k i s) = chanOf c s := by
  rw [recordFault_frame]; rfl
@[simp] theorem leaseOf_recordFault (e : Fin 16) (x : Station) (k : FaultKind) (i : CaptureInfo) (s : State) : leaseOf e (recordFault x k i s) = leaseOf e s := by
  rw [recordFault_frame]; rfl
@[simp] theorem recordFault_record (y : Station) (x : Station) (k : FaultKind) (i : CaptureInfo) (s : State) :
    (unitOf y (recordFault x k i s)).record = (unitOf y s).record := by
  rw [recordFault_frame]
  by_cases h : y = x
  · subst h; simp
  · rw [Station.eq_peer_of_ne h]; simp
@[simp] theorem recordFault_cache (y : Station) (x : Station) (k : FaultKind) (i : CaptureInfo) (s : State) :
    (unitOf y (recordFault x k i s)).cache = (unitOf y s).cache := by
  rw [recordFault_frame]
  by_cases h : y = x
  · subst h; simp
  · rw [Station.eq_peer_of_ne h]; simp
@[simp] theorem recordFault_staging (y : Station) (x : Station) (k : FaultKind) (i : CaptureInfo) (s : State) :
    (unitOf y (recordFault x k i s)).staging = (unitOf y s).staging := by
  rw [recordFault_frame]
  by_cases h : y = x
  · subst h; simp
  · rw [Station.eq_peer_of_ne h]; simp
@[simp] theorem recordFault_draw (y : Station) (x : Station) (k : FaultKind) (i : CaptureInfo) (s : State) :
    (unitOf y (recordFault x k i s)).draw = (unitOf y s).draw := by
  rw [recordFault_frame]
  by_cases h : y = x
  · subst h; simp
  · rw [Station.eq_peer_of_ne h]; simp
@[simp] theorem recordFault_signals (y : Station) (x : Station) (k : FaultKind) (i : CaptureInfo) (s : State) :
    (unitOf y (recordFault x k i s)).signals = (unitOf y s).signals := by
  rw [recordFault_frame]
  by_cases h : y = x
  · subst h; simp
  · rw [Station.eq_peer_of_ne h]; simp
@[simp] theorem recordFault_nextNotice (y : Station) (x : Station) (k : FaultKind) (i : CaptureInfo) (s : State) :
    (unitOf y (recordFault x k i s)).nextNotice = (unitOf y s).nextNotice := by
  rw [recordFault_frame]
  by_cases h : y = x
  · subst h; simp
  · rw [Station.eq_peer_of_ne h]; simp
@[simp] theorem unitOf_recordFault_peer (x : Station) (k : FaultKind) (i : CaptureInfo) (s : State) :
    unitOf x.peer (recordFault x k i s) = unitOf x.peer s := by
  rw [recordFault_frame]; simp
@[simp] theorem unitOf_recordFault_of_peer (x : Station) (k : FaultKind) (i : CaptureInfo) (s : State) :
    unitOf x (recordFault x.peer k i s) = unitOf x s := by
  rw [recordFault_frame]; simp
@[simp] theorem isPresent_recordFault (y : Station) (x : Station) (k : FaultKind) (i : CaptureInfo) (s : State) :
    isPresent y (recordFault x k i s) = isPresent y s := by
  simp [isPresent]

/-! ### What offer leaves -/

@[simp] theorem offer_pending (x : Station) (n : Notice) (s : State) : (offer x n s).pending = s.pending := by
  rw [offer_frame]; rfl
@[simp] theorem offer_phase (x : Station) (n : Notice) (s : State) : (offer x n s).phase = s.phase := by
  rw [offer_frame]; rfl
@[simp] theorem offer_timeBase (x : Station) (n : Notice) (s : State) : (offer x n s).timeBase = s.timeBase := by
  rw [offer_frame]; rfl
@[simp] theorem offer_straps (x : Station) (n : Notice) (s : State) : (offer x n s).straps = s.straps := by
  rw [offer_frame]; rfl
@[simp] theorem offer_links (x : Station) (n : Notice) (s : State) : (offer x n s).links = s.links := by
  rw [offer_frame]; rfl
@[simp] theorem offer_channels (x : Station) (n : Notice) (s : State) : (offer x n s).channels = s.channels := by
  rw [offer_frame]; rfl
@[simp] theorem offer_store (x : Station) (n : Notice) (s : State) : (offer x n s).store = s.store := by
  rw [offer_frame]; rfl
@[simp] theorem offer_leases (x : Station) (n : Notice) (s : State) : (offer x n s).leases = s.leases := by
  rw [offer_frame]; rfl
@[simp] theorem offer_waitCounts (x : Station) (n : Notice) (s : State) : (offer x n s).waitCounts = s.waitCounts := by
  rw [offer_frame]; rfl
@[simp] theorem offer_freeTick (x : Station) (n : Notice) (s : State) : (offer x n s).freeTick = s.freeTick := by
  rw [offer_frame]; rfl

@[simp] theorem linkOf_offer (y : Station) (x : Station) (n : Notice) (s : State) : linkOf y (offer x n s) = linkOf y s := by
  rw [offer_frame]; rfl
@[simp] theorem chanOf_offer (c : Fin 8) (x : Station) (n : Notice) (s : State) : chanOf c (offer x n s) = chanOf c s := by
  rw [offer_frame]; rfl
@[simp] theorem leaseOf_offer (e : Fin 16) (x : Station) (n : Notice) (s : State) : leaseOf e (offer x n s) = leaseOf e s := by
  rw [offer_frame]; rfl
@[simp] theorem offer_record (y : Station) (x : Station) (n : Notice) (s : State) :
    (unitOf y (offer x n s)).record = (unitOf y s).record := by
  rw [offer_frame]
  by_cases h : y = x
  · subst h; simp
  · rw [Station.eq_peer_of_ne h]; simp
@[simp] theorem offer_cache (y : Station) (x : Station) (n : Notice) (s : State) :
    (unitOf y (offer x n s)).cache = (unitOf y s).cache := by
  rw [offer_frame]
  by_cases h : y = x
  · subst h; simp
  · rw [Station.eq_peer_of_ne h]; simp
@[simp] theorem offer_staging (y : Station) (x : Station) (n : Notice) (s : State) :
    (unitOf y (offer x n s)).staging = (unitOf y s).staging := by
  rw [offer_frame]
  by_cases h : y = x
  · subst h; simp
  · rw [Station.eq_peer_of_ne h]; simp
@[simp] theorem offer_draw (y : Station) (x : Station) (n : Notice) (s : State) :
    (unitOf y (offer x n s)).draw = (unitOf y s).draw := by
  rw [offer_frame]
  by_cases h : y = x
  · subst h; simp
  · rw [Station.eq_peer_of_ne h]; simp
@[simp] theorem offer_signals (y : Station) (x : Station) (n : Notice) (s : State) :
    (unitOf y (offer x n s)).signals = (unitOf y s).signals := by
  rw [offer_frame]
  by_cases h : y = x
  · subst h; simp
  · rw [Station.eq_peer_of_ne h]; simp
@[simp] theorem offer_nextNotice (y : Station) (x : Station) (n : Notice) (s : State) :
    (unitOf y (offer x n s)).nextNotice = (unitOf y s).nextNotice := by
  rw [offer_frame]
  by_cases h : y = x
  · subst h; simp
  · rw [Station.eq_peer_of_ne h]; simp
@[simp] theorem unitOf_offer_peer (x : Station) (n : Notice) (s : State) :
    unitOf x.peer (offer x n s) = unitOf x.peer s := by
  rw [offer_frame]; simp
@[simp] theorem unitOf_offer_of_peer (x : Station) (n : Notice) (s : State) :
    unitOf x (offer x.peer n s) = unitOf x s := by
  rw [offer_frame]; simp
@[simp] theorem isPresent_offer (y : Station) (x : Station) (n : Notice) (s : State) :
    isPresent y (offer x n s) = isPresent y s := by
  simp [isPresent]

/-! ### What withdraw leaves -/

@[simp] theorem withdraw_pending (x : Station) (n : Notice) (s : State) : (withdraw x n s).pending = s.pending := by
  rw [withdraw_frame]; rfl
@[simp] theorem withdraw_phase (x : Station) (n : Notice) (s : State) : (withdraw x n s).phase = s.phase := by
  rw [withdraw_frame]; rfl
@[simp] theorem withdraw_timeBase (x : Station) (n : Notice) (s : State) : (withdraw x n s).timeBase = s.timeBase := by
  rw [withdraw_frame]; rfl
@[simp] theorem withdraw_straps (x : Station) (n : Notice) (s : State) : (withdraw x n s).straps = s.straps := by
  rw [withdraw_frame]; rfl
@[simp] theorem withdraw_links (x : Station) (n : Notice) (s : State) : (withdraw x n s).links = s.links := by
  rw [withdraw_frame]; rfl
@[simp] theorem withdraw_channels (x : Station) (n : Notice) (s : State) : (withdraw x n s).channels = s.channels := by
  rw [withdraw_frame]; rfl
@[simp] theorem withdraw_store (x : Station) (n : Notice) (s : State) : (withdraw x n s).store = s.store := by
  rw [withdraw_frame]; rfl
@[simp] theorem withdraw_leases (x : Station) (n : Notice) (s : State) : (withdraw x n s).leases = s.leases := by
  rw [withdraw_frame]; rfl
@[simp] theorem withdraw_waitCounts (x : Station) (n : Notice) (s : State) : (withdraw x n s).waitCounts = s.waitCounts := by
  rw [withdraw_frame]; rfl
@[simp] theorem withdraw_freeTick (x : Station) (n : Notice) (s : State) : (withdraw x n s).freeTick = s.freeTick := by
  rw [withdraw_frame]; rfl
@[simp] theorem withdraw_severe (x : Station) (n : Notice) (s : State) : (withdraw x n s).severe = s.severe := by
  rw [withdraw_frame]; rfl

@[simp] theorem linkOf_withdraw (y : Station) (x : Station) (n : Notice) (s : State) : linkOf y (withdraw x n s) = linkOf y s := by
  rw [withdraw_frame]; rfl
@[simp] theorem chanOf_withdraw (c : Fin 8) (x : Station) (n : Notice) (s : State) : chanOf c (withdraw x n s) = chanOf c s := by
  rw [withdraw_frame]; rfl
@[simp] theorem leaseOf_withdraw (e : Fin 16) (x : Station) (n : Notice) (s : State) : leaseOf e (withdraw x n s) = leaseOf e s := by
  rw [withdraw_frame]; rfl
@[simp] theorem withdraw_record (y : Station) (x : Station) (n : Notice) (s : State) :
    (unitOf y (withdraw x n s)).record = (unitOf y s).record := by
  rw [withdraw_frame]
  by_cases h : y = x
  · subst h; simp
  · rw [Station.eq_peer_of_ne h]; simp
@[simp] theorem withdraw_cache (y : Station) (x : Station) (n : Notice) (s : State) :
    (unitOf y (withdraw x n s)).cache = (unitOf y s).cache := by
  rw [withdraw_frame]
  by_cases h : y = x
  · subst h; simp
  · rw [Station.eq_peer_of_ne h]; simp
@[simp] theorem withdraw_staging (y : Station) (x : Station) (n : Notice) (s : State) :
    (unitOf y (withdraw x n s)).staging = (unitOf y s).staging := by
  rw [withdraw_frame]
  by_cases h : y = x
  · subst h; simp
  · rw [Station.eq_peer_of_ne h]; simp
@[simp] theorem withdraw_draw (y : Station) (x : Station) (n : Notice) (s : State) :
    (unitOf y (withdraw x n s)).draw = (unitOf y s).draw := by
  rw [withdraw_frame]
  by_cases h : y = x
  · subst h; simp
  · rw [Station.eq_peer_of_ne h]; simp
@[simp] theorem withdraw_signals (y : Station) (x : Station) (n : Notice) (s : State) :
    (unitOf y (withdraw x n s)).signals = (unitOf y s).signals := by
  rw [withdraw_frame]
  by_cases h : y = x
  · subst h; simp
  · rw [Station.eq_peer_of_ne h]; simp
@[simp] theorem withdraw_nextNotice (y : Station) (x : Station) (n : Notice) (s : State) :
    (unitOf y (withdraw x n s)).nextNotice = (unitOf y s).nextNotice := by
  rw [withdraw_frame]
  by_cases h : y = x
  · subst h; simp
  · rw [Station.eq_peer_of_ne h]; simp
@[simp] theorem withdraw_faults (y : Station) (x : Station) (n : Notice) (s : State) :
    (unitOf y (withdraw x n s)).faults = (unitOf y s).faults := by
  rw [withdraw_frame]
  by_cases h : y = x
  · subst h; simp
  · rw [Station.eq_peer_of_ne h]; simp
@[simp] theorem unitOf_withdraw_peer (x : Station) (n : Notice) (s : State) :
    unitOf x.peer (withdraw x n s) = unitOf x.peer s := by
  rw [withdraw_frame]; simp
@[simp] theorem unitOf_withdraw_of_peer (x : Station) (n : Notice) (s : State) :
    unitOf x (withdraw x.peer n s) = unitOf x s := by
  rw [withdraw_frame]; simp
@[simp] theorem isPresent_withdraw (y : Station) (x : Station) (n : Notice) (s : State) :
    isPresent y (withdraw x n s) = isPresent y s := by
  simp [isPresent]

/-! ### What offerFault leaves -/

@[simp] theorem offerFault_pending (x : Station) (k : FaultKind) (n : Nat) (s : State) : (offerFault x k n s).pending = s.pending := by
  rw [offerFault_frame]; rfl
@[simp] theorem offerFault_phase (x : Station) (k : FaultKind) (n : Nat) (s : State) : (offerFault x k n s).phase = s.phase := by
  rw [offerFault_frame]; rfl
@[simp] theorem offerFault_timeBase (x : Station) (k : FaultKind) (n : Nat) (s : State) : (offerFault x k n s).timeBase = s.timeBase := by
  rw [offerFault_frame]; rfl
@[simp] theorem offerFault_straps (x : Station) (k : FaultKind) (n : Nat) (s : State) : (offerFault x k n s).straps = s.straps := by
  rw [offerFault_frame]; rfl
@[simp] theorem offerFault_links (x : Station) (k : FaultKind) (n : Nat) (s : State) : (offerFault x k n s).links = s.links := by
  rw [offerFault_frame]; rfl
@[simp] theorem offerFault_channels (x : Station) (k : FaultKind) (n : Nat) (s : State) : (offerFault x k n s).channels = s.channels := by
  rw [offerFault_frame]; rfl
@[simp] theorem offerFault_store (x : Station) (k : FaultKind) (n : Nat) (s : State) : (offerFault x k n s).store = s.store := by
  rw [offerFault_frame]; rfl
@[simp] theorem offerFault_leases (x : Station) (k : FaultKind) (n : Nat) (s : State) : (offerFault x k n s).leases = s.leases := by
  rw [offerFault_frame]; rfl
@[simp] theorem offerFault_waitCounts (x : Station) (k : FaultKind) (n : Nat) (s : State) : (offerFault x k n s).waitCounts = s.waitCounts := by
  rw [offerFault_frame]; rfl
@[simp] theorem offerFault_freeTick (x : Station) (k : FaultKind) (n : Nat) (s : State) : (offerFault x k n s).freeTick = s.freeTick := by
  rw [offerFault_frame]; rfl
@[simp] theorem offerFault_severe (x : Station) (k : FaultKind) (n : Nat) (s : State) : (offerFault x k n s).severe = s.severe := by
  rw [offerFault_frame]; rfl

@[simp] theorem linkOf_offerFault (y : Station) (x : Station) (k : FaultKind) (n : Nat) (s : State) : linkOf y (offerFault x k n s) = linkOf y s := by
  rw [offerFault_frame]; rfl
@[simp] theorem chanOf_offerFault (c : Fin 8) (x : Station) (k : FaultKind) (n : Nat) (s : State) : chanOf c (offerFault x k n s) = chanOf c s := by
  rw [offerFault_frame]; rfl
@[simp] theorem leaseOf_offerFault (e : Fin 16) (x : Station) (k : FaultKind) (n : Nat) (s : State) : leaseOf e (offerFault x k n s) = leaseOf e s := by
  rw [offerFault_frame]; rfl
@[simp] theorem offerFault_record (y : Station) (x : Station) (k : FaultKind) (n : Nat) (s : State) :
    (unitOf y (offerFault x k n s)).record = (unitOf y s).record := by
  rw [offerFault_frame]
  by_cases h : y = x
  · subst h; simp
  · rw [Station.eq_peer_of_ne h]; simp
@[simp] theorem offerFault_cache (y : Station) (x : Station) (k : FaultKind) (n : Nat) (s : State) :
    (unitOf y (offerFault x k n s)).cache = (unitOf y s).cache := by
  rw [offerFault_frame]
  by_cases h : y = x
  · subst h; simp
  · rw [Station.eq_peer_of_ne h]; simp
@[simp] theorem offerFault_staging (y : Station) (x : Station) (k : FaultKind) (n : Nat) (s : State) :
    (unitOf y (offerFault x k n s)).staging = (unitOf y s).staging := by
  rw [offerFault_frame]
  by_cases h : y = x
  · subst h; simp
  · rw [Station.eq_peer_of_ne h]; simp
@[simp] theorem offerFault_draw (y : Station) (x : Station) (k : FaultKind) (n : Nat) (s : State) :
    (unitOf y (offerFault x k n s)).draw = (unitOf y s).draw := by
  rw [offerFault_frame]
  by_cases h : y = x
  · subst h; simp
  · rw [Station.eq_peer_of_ne h]; simp
@[simp] theorem offerFault_signals (y : Station) (x : Station) (k : FaultKind) (n : Nat) (s : State) :
    (unitOf y (offerFault x k n s)).signals = (unitOf y s).signals := by
  rw [offerFault_frame]
  by_cases h : y = x
  · subst h; simp
  · rw [Station.eq_peer_of_ne h]; simp
@[simp] theorem offerFault_nextNotice (y : Station) (x : Station) (k : FaultKind) (n : Nat) (s : State) :
    (unitOf y (offerFault x k n s)).nextNotice = (unitOf y s).nextNotice := by
  rw [offerFault_frame]
  by_cases h : y = x
  · subst h; simp
  · rw [Station.eq_peer_of_ne h]; simp
@[simp] theorem offerFault_faults (y : Station) (x : Station) (k : FaultKind) (n : Nat) (s : State) :
    (unitOf y (offerFault x k n s)).faults = (unitOf y s).faults := by
  rw [offerFault_frame]
  by_cases h : y = x
  · subst h; simp
  · rw [Station.eq_peer_of_ne h]; simp
@[simp] theorem unitOf_offerFault_peer (x : Station) (k : FaultKind) (n : Nat) (s : State) :
    unitOf x.peer (offerFault x k n s) = unitOf x.peer s := by
  rw [offerFault_frame]; simp
@[simp] theorem unitOf_offerFault_of_peer (x : Station) (k : FaultKind) (n : Nat) (s : State) :
    unitOf x (offerFault x.peer k n s) = unitOf x s := by
  rw [offerFault_frame]; simp
@[simp] theorem isPresent_offerFault (y : Station) (x : Station) (k : FaultKind) (n : Nat) (s : State) :
    isPresent y (offerFault x k n s) = isPresent y s := by
  simp [isPresent]

/-! ### The reply cache and the transmitter -/

theorem enterCache_frame (x : Station) (e : CacheEntry) (s : State) :
    enterCache x e s = setUnit x { unitOf x s with cache := cacheInsert e (unitOf x s).cache } s := rfl

/-- Handing a frame over changes the transmitter of link `x`, nothing else. -/
theorem transmit_frame (x : Station) (f : OutFrame) (d : Bool) (s : State) :
    transmit x f d s =
      setLink x { linkOf x s with
        tx := (linkOf x s).tx ++ [{ frame := f, drawItem := d }]
        txClocks := (linkOf x (transmit x f d s)).txClocks } s := by
  simp [transmit]

@[simp] theorem transmit_pending (x : Station) (f : OutFrame) (d : Bool) (s : State) : (transmit x f d s).pending = s.pending := rfl
@[simp] theorem transmit_phase (x : Station) (f : OutFrame) (d : Bool) (s : State) : (transmit x f d s).phase = s.phase := rfl
@[simp] theorem transmit_timeBase (x : Station) (f : OutFrame) (d : Bool) (s : State) : (transmit x f d s).timeBase = s.timeBase := rfl
@[simp] theorem transmit_straps (x : Station) (f : OutFrame) (d : Bool) (s : State) : (transmit x f d s).straps = s.straps := rfl
@[simp] theorem transmit_units (x : Station) (f : OutFrame) (d : Bool) (s : State) : (transmit x f d s).units = s.units := rfl
@[simp] theorem transmit_channels (x : Station) (f : OutFrame) (d : Bool) (s : State) : (transmit x f d s).channels = s.channels := rfl
@[simp] theorem transmit_store (x : Station) (f : OutFrame) (d : Bool) (s : State) : (transmit x f d s).store = s.store := rfl
@[simp] theorem transmit_leases (x : Station) (f : OutFrame) (d : Bool) (s : State) : (transmit x f d s).leases = s.leases := rfl
@[simp] theorem transmit_waitCounts (x : Station) (f : OutFrame) (d : Bool) (s : State) : (transmit x f d s).waitCounts = s.waitCounts := rfl
@[simp] theorem transmit_severe (x : Station) (f : OutFrame) (d : Bool) (s : State) : (transmit x f d s).severe = s.severe := rfl
@[simp] theorem transmit_freeTick (x : Station) (f : OutFrame) (d : Bool) (s : State) : (transmit x f d s).freeTick = s.freeTick := rfl
@[simp] theorem unitOf_transmit (y : Station) (x : Station) (f : OutFrame) (d : Bool) (s : State) : unitOf y (transmit x f d s) = unitOf y s := rfl
@[simp] theorem chanOf_transmit (c : Fin 8) (x : Station) (f : OutFrame) (d : Bool) (s : State) : chanOf c (transmit x f d s) = chanOf c s := rfl
@[simp] theorem leaseOf_transmit (e : Fin 16) (x : Station) (f : OutFrame) (d : Bool) (s : State) : leaseOf e (transmit x f d s) = leaseOf e s := rfl
@[simp] theorem isPresent_transmit (y x : Station) (f : OutFrame) (d : Bool) (s : State) :
    isPresent y (transmit x f d s) = isPresent y s := rfl

@[simp] theorem enterCache_pending (x : Station) (e : CacheEntry) (s : State) : (enterCache x e s).pending = s.pending := rfl
@[simp] theorem enterCache_phase (x : Station) (e : CacheEntry) (s : State) : (enterCache x e s).phase = s.phase := rfl
@[simp] theorem enterCache_timeBase (x : Station) (e : CacheEntry) (s : State) : (enterCache x e s).timeBase = s.timeBase := rfl
@[simp] theorem enterCache_straps (x : Station) (e : CacheEntry) (s : State) : (enterCache x e s).straps = s.straps := rfl
@[simp] theorem enterCache_links (x : Station) (e : CacheEntry) (s : State) : (enterCache x e s).links = s.links := rfl
@[simp] theorem enterCache_channels (x : Station) (e : CacheEntry) (s : State) : (enterCache x e s).channels = s.channels := rfl
@[simp] theorem enterCache_store (x : Station) (e : CacheEntry) (s : State) : (enterCache x e s).store = s.store := rfl
@[simp] theorem enterCache_leases (x : Station) (e : CacheEntry) (s : State) : (enterCache x e s).leases = s.leases := rfl
@[simp] theorem enterCache_waitCounts (x : Station) (e : CacheEntry) (s : State) : (enterCache x e s).waitCounts = s.waitCounts := rfl
@[simp] theorem enterCache_severe (x : Station) (e : CacheEntry) (s : State) : (enterCache x e s).severe = s.severe := rfl
@[simp] theorem enterCache_freeTick (x : Station) (e : CacheEntry) (s : State) : (enterCache x e s).freeTick = s.freeTick := rfl
@[simp] theorem linkOf_enterCache (y : Station) (x : Station) (e : CacheEntry) (s : State) : linkOf y (enterCache x e s) = linkOf y s := rfl
@[simp] theorem chanOf_enterCache (c : Fin 8) (x : Station) (e : CacheEntry) (s : State) : chanOf c (enterCache x e s) = chanOf c s := rfl
@[simp] theorem leaseOf_enterCache (e' : Fin 16) (x : Station) (e : CacheEntry) (s : State) : leaseOf e' (enterCache x e s) = leaseOf e' s := rfl
@[simp] theorem enterCache_record (y x : Station) (e : CacheEntry) (s : State) :
    (unitOf y (enterCache x e s)).record = (unitOf y s).record := by
  rw [enterCache_frame]
  by_cases h : y = x
  · subst h; simp
  · rw [Station.eq_peer_of_ne h]; simp
@[simp] theorem enterCache_staging (y x : Station) (e : CacheEntry) (s : State) :
    (unitOf y (enterCache x e s)).staging = (unitOf y s).staging := by
  rw [enterCache_frame]
  by_cases h : y = x
  · subst h; simp
  · rw [Station.eq_peer_of_ne h]; simp
@[simp] theorem enterCache_draw (y x : Station) (e : CacheEntry) (s : State) :
    (unitOf y (enterCache x e s)).draw = (unitOf y s).draw := by
  rw [enterCache_frame]
  by_cases h : y = x
  · subst h; simp
  · rw [Station.eq_peer_of_ne h]; simp
@[simp] theorem enterCache_signals (y x : Station) (e : CacheEntry) (s : State) :
    (unitOf y (enterCache x e s)).signals = (unitOf y s).signals := by
  rw [enterCache_frame]
  by_cases h : y = x
  · subst h; simp
  · rw [Station.eq_peer_of_ne h]; simp
@[simp] theorem enterCache_notices (y x : Station) (e : CacheEntry) (s : State) :
    (unitOf y (enterCache x e s)).notices = (unitOf y s).notices := by
  rw [enterCache_frame]
  by_cases h : y = x
  · subst h; simp
  · rw [Station.eq_peer_of_ne h]; simp
@[simp] theorem enterCache_nextNotice (y x : Station) (e : CacheEntry) (s : State) :
    (unitOf y (enterCache x e s)).nextNotice = (unitOf y s).nextNotice := by
  rw [enterCache_frame]
  by_cases h : y = x
  · subst h; simp
  · rw [Station.eq_peer_of_ne h]; simp
@[simp] theorem enterCache_faults (y x : Station) (e : CacheEntry) (s : State) :
    (unitOf y (enterCache x e s)).faults = (unitOf y s).faults := by
  rw [enterCache_frame]
  by_cases h : y = x
  · subst h; simp
  · rw [Station.eq_peer_of_ne h]; simp
@[simp] theorem isPresent_enterCache (y x : Station) (e : CacheEntry) (s : State) :
    isPresent y (enterCache x e s) = isPresent y s := by simp [isPresent]
@[simp] theorem enterCache_cache (x : Station) (e : CacheEntry) (s : State) :
    (unitOf x (enterCache x e s)).cache = cacheInsert e (unitOf x s).cache := by simp [enterCache]
@[simp] theorem unitOf_enterCache_peer (x : Station) (e : CacheEntry) (s : State) :
    unitOf x.peer (enterCache x e s) = unitOf x.peer s := by simp [enterCache]

@[simp] theorem transmit_tx (x : Station) (f : OutFrame) (d : Bool) (s : State) :
    (linkOf x (transmit x f d s)).tx = (linkOf x s).tx ++ [{ frame := f, drawItem := d }] := by simp [transmit]
@[simp] theorem transmit_rx (y x : Station) (f : OutFrame) (d : Bool) (s : State) :
    (linkOf y (transmit x f d s)).rx = (linkOf y s).rx := by
  rw [transmit_frame]
  by_cases h : y = x
  · subst h; simp
  · rw [Station.eq_peer_of_ne h]; simp
@[simp] theorem transmit_inQueue (y x : Station) (f : OutFrame) (d : Bool) (s : State) :
    (linkOf y (transmit x f d s)).inQueue = (linkOf y s).inQueue := by
  rw [transmit_frame]
  by_cases h : y = x
  · subst h; simp
  · rw [Station.eq_peer_of_ne h]; simp
@[simp] theorem linkOf_transmit_peer (x : Station) (f : OutFrame) (d : Bool) (s : State) :
    linkOf x.peer (transmit x f d s) = linkOf x.peer s := by simp [transmit]

end Sys2Proof.Machine
end

