-- ==== Sys2Proof/Laws/Requests.lean ====
section
/-!
SUPPORT. What a request and an event amount to under the conditions of Sys2Proof/Safety.lean: the path from the link to
the owner (R141 to R148), said once, and the offers and faults that make no station depart.
-/

namespace Sys2Proof.Machine

/-! ### A HALT at its arrival (R81) -/

/-- A frame stops no draw at its arrival exactly where R81's conditions do not all hold. -/
theorem haltTarget_eq_none (x : Station) (f : Frame) (s : State) : haltTarget x f s = none ↔ ¬HaltActs x f s := by
  unfold haltTarget HaltActs
  cases (unitOf x s).draw <;> simp [kindHalt]
  tauto

/-! ### The keepalive restart (R128) -/

/-- The restart changes the keepalive timer of station `x`, nothing else. -/
theorem restartKeepalive_frame (x : Station) (s : State) :
    restartKeepalive x s =
      setUnit x { unitOf x s with
        record := { (unitOf x s).record with
          keepaliveTimer := (unitOf x (restartKeepalive x s)).record.keepaliveTimer } } s := by
  unfold restartKeepalive
  simp only
  split
  · simp
  · exact (setUnit_unitOf x s).symm

@[simp] theorem restartKeepalive_pending (x : Station) (s : State) : (restartKeepalive x s).pending = s.pending := by
  rw [restartKeepalive_frame]; rfl
@[simp] theorem restartKeepalive_phase (x : Station) (s : State) : (restartKeepalive x s).phase = s.phase := by
  rw [restartKeepalive_frame]; rfl
@[simp] theorem restartKeepalive_timeBase (x : Station) (s : State) : (restartKeepalive x s).timeBase = s.timeBase := by
  rw [restartKeepalive_frame]; rfl
@[simp] theorem restartKeepalive_straps (x : Station) (s : State) : (restartKeepalive x s).straps = s.straps := by
  rw [restartKeepalive_frame]; rfl
@[simp] theorem restartKeepalive_links (x : Station) (s : State) : (restartKeepalive x s).links = s.links := by
  rw [restartKeepalive_frame]; rfl
@[simp] theorem restartKeepalive_channels (x : Station) (s : State) : (restartKeepalive x s).channels = s.channels := by
  rw [restartKeepalive_frame]; rfl
@[simp] theorem restartKeepalive_store (x : Station) (s : State) : (restartKeepalive x s).store = s.store := by
  rw [restartKeepalive_frame]; rfl
@[simp] theorem restartKeepalive_leases (x : Station) (s : State) : (restartKeepalive x s).leases = s.leases := by
  rw [restartKeepalive_frame]; rfl
@[simp] theorem restartKeepalive_waitCounts (x : Station) (s : State) : (restartKeepalive x s).waitCounts = s.waitCounts := by
  rw [restartKeepalive_frame]; rfl
@[simp] theorem restartKeepalive_severe (x : Station) (s : State) : (restartKeepalive x s).severe = s.severe := by
  rw [restartKeepalive_frame]; rfl
@[simp] theorem restartKeepalive_freeTick (x : Station) (s : State) : (restartKeepalive x s).freeTick = s.freeTick := by
  rw [restartKeepalive_frame]; rfl
@[simp] theorem linkOf_restartKeepalive (y : Station) (x : Station) (s : State) :
    linkOf y (restartKeepalive x s) = linkOf y s := by rw [restartKeepalive_frame]; rfl
@[simp] theorem chanOf_restartKeepalive (c : Fin 8) (x : Station) (s : State) :
    chanOf c (restartKeepalive x s) = chanOf c s := by rw [restartKeepalive_frame]; rfl
@[simp] theorem leaseOf_restartKeepalive (e : Fin 16) (x : Station) (s : State) :
    leaseOf e (restartKeepalive x s) = leaseOf e s := by rw [restartKeepalive_frame]; rfl
@[simp] theorem unitOf_restartKeepalive_peer (x : Station) (s : State) :
    unitOf x.peer (restartKeepalive x s) = unitOf x.peer s := by rw [restartKeepalive_frame]; simp
@[simp] theorem restartKeepalive_cache (y x : Station) (s : State) :
    (unitOf y (restartKeepalive x s)).cache = (unitOf y s).cache := by
  rw [restartKeepalive_frame]
  by_cases h : y = x
  · subst h; simp
  · rw [Station.eq_peer_of_ne h]; simp
@[simp] theorem restartKeepalive_staging (y x : Station) (s : State) :
    (unitOf y (restartKeepalive x s)).staging = (unitOf y s).staging := by
  rw [restartKeepalive_frame]
  by_cases h : y = x
  · subst h; simp
  · rw [Station.eq_peer_of_ne h]; simp
@[simp] theorem restartKeepalive_draw (y x : Station) (s : State) :
    (unitOf y (restartKeepalive x s)).draw = (unitOf y s).draw := by
  rw [restartKeepalive_frame]
  by_cases h : y = x
  · subst h; simp
  · rw [Station.eq_peer_of_ne h]; simp
@[simp] theorem restartKeepalive_signals (y x : Station) (s : State) :
    (unitOf y (restartKeepalive x s)).signals = (unitOf y s).signals := by
  rw [restartKeepalive_frame]
  by_cases h : y = x
  · subst h; simp
  · rw [Station.eq_peer_of_ne h]; simp
@[simp] theorem restartKeepalive_notices (y x : Station) (s : State) :
    (unitOf y (restartKeepalive x s)).notices = (unitOf y s).notices := by
  rw [restartKeepalive_frame]
  by_cases h : y = x
  · subst h; simp
  · rw [Station.eq_peer_of_ne h]; simp
@[simp] theorem restartKeepalive_nextNotice (y x : Station) (s : State) :
    (unitOf y (restartKeepalive x s)).nextNotice = (unitOf y s).nextNotice := by
  rw [restartKeepalive_frame]
  by_cases h : y = x
  · subst h; simp
  · rw [Station.eq_peer_of_ne h]; simp
@[simp] theorem restartKeepalive_faults (y x : Station) (s : State) :
    (unitOf y (restartKeepalive x s)).faults = (unitOf y s).faults := by
  rw [restartKeepalive_frame]
  by_cases h : y = x
  · subst h; simp
  · rw [Station.eq_peer_of_ne h]; simp
@[simp] theorem restartKeepalive_presence (y x : Station) (s : State) :
    (unitOf y (restartKeepalive x s)).record.presence = (unitOf y s).record.presence := by
  rw [restartKeepalive_frame]
  by_cases h : y = x
  · subst h; simp
  · rw [Station.eq_peer_of_ne h]; simp
@[simp] theorem restartKeepalive_epoch (y x : Station) (s : State) :
    (unitOf y (restartKeepalive x s)).record.epoch = (unitOf y s).record.epoch := by
  rw [restartKeepalive_frame]
  by_cases h : y = x
  · subst h; simp
  · rw [Station.eq_peer_of_ne h]; simp
@[simp] theorem restartKeepalive_period (y x : Station) (s : State) :
    (unitOf y (restartKeepalive x s)).record.period = (unitOf y s).record.period := by
  rw [restartKeepalive_frame]
  by_cases h : y = x
  · subst h; simp
  · rw [Station.eq_peer_of_ne h]; simp
@[simp] theorem restartKeepalive_identity (y x : Station) (s : State) :
    (unitOf y (restartKeepalive x s)).record.identity = (unitOf y s).record.identity := by
  rw [restartKeepalive_frame]
  by_cases h : y = x
  · subst h; simp
  · rw [Station.eq_peer_of_ne h]; simp
@[simp] theorem restartKeepalive_joinMode (y x : Station) (s : State) :
    (unitOf y (restartKeepalive x s)).record.joinMode = (unitOf y s).record.joinMode := by
  rw [restartKeepalive_frame]
  by_cases h : y = x
  · subst h; simp
  · rw [Station.eq_peer_of_ne h]; simp
@[simp] theorem restartKeepalive_lastCause (y x : Station) (s : State) :
    (unitOf y (restartKeepalive x s)).record.lastCause = (unitOf y s).record.lastCause := by
  rw [restartKeepalive_frame]
  by_cases h : y = x
  · subst h; simp
  · rw [Station.eq_peer_of_ne h]; simp
@[simp] theorem isPresent_restartKeepalive (y x : Station) (s : State) :
    isPresent y (restartKeepalive x s) = isPresent y s := by simp [isPresent]
@[simp] theorem cacheMatch_restartKeepalive (y x : Station) (f : Frame) (s : State) :
    cacheMatch y f (restartKeepalive x s) = cacheMatch y f s := by simp [cacheMatch]

/-! ### Departures after an event -/

theorem settle_nil {s : State} (h : s.severe = []) : settle s = s := by unfold settle; rw [h]

theorem settleSecond_nil {s : State} (h : s.severe = []) : settleSecond s = s := by unfold settleSecond; rw [h]

theorem departFault_present {x : Station} {s : State} (h : isPresent x s = true) : departFault x s = depart x .fault s := by
  unfold departFault; rw [if_pos h]

/-- R132: one PRESENT station to depart, whose departure leaves no other to depart. -/
theorem settle_one {x : Station} {s : State} (h : s.severe = [x]) (p : isPresent x s = true)
    (n : (depart x .fault s).severe = []) : settle s = depart x .fault s := by
  unfold settle; rw [h]
  simp only [departFault_present p, settleSecond_nil n]

theorem runEvent_running {event : State → State} {s : State} (hs : s.phase = .running) (h : (event s).severe = []) :
    runEvent event s = event s := by
  unfold runEvent isRunning
  rw [hs, settle_nil h]; rfl

/-- No kind of the station is SEVERE. -/
theorem AdvisoryAt.severity {x : Station} {s : State} (h : AdvisoryAt x s) (k : FaultKind) :
    (KindRecords.get (unitOf x s).faults.kinds k).severity = .advisory := by
  have := List.all_eq_true.mp h k (by cases k <;> decide)
  simpa using this

theorem AdvisoryAt.of_severity {x : Station} {s : State}
    (h : ∀ k, (KindRecords.get (unitOf x s).faults.kinds k).severity = .advisory) : AdvisoryAt x s := by
  unfold AdvisoryAt
  rw [List.all_eq_true]
  intro k _
  rw [h k]; decide

/-- A station whose fault record's kinds are unchanged is as advisory as before. -/
theorem AdvisoryAt.of_eq {x : Station} {s t : State} (e : (unitOf x t).faults.kinds = (unitOf x s).faults.kinds)
    (h : AdvisoryAt x s) : AdvisoryAt x t := by unfold AdvisoryAt at *; rw [e]; exact h

theorem Advisory.at {s : State} (h : Advisory s) (x : Station) : AdvisoryAt x s := by
  cases x
  · exact h.1
  · exact h.2

theorem Advisory.of_at {s : State} (h : ∀ x, AdvisoryAt x s) : Advisory s := ⟨h .a, h .b⟩

theorem Advisory.of_units {s t : State} (e : t.units = s.units) (h : Advisory s) : Advisory t :=
  Advisory.of_at fun x => AdvisoryAt.of_eq (by unfold unitOf; rw [e]) (h.at x)

/-- A unit with the same fault record is as advisory as before. -/
theorem Advisory.of_setUnit {x : Station} {u : StationUnit} {s : State} (e : u.faults = (unitOf x s).faults)
    (h : Advisory s) : Advisory (setUnit x u s) :=
  Advisory.of_at fun y => AdvisoryAt.of_eq (s := s) (by
    rw [unitOf_setUnit]; split
    · subst y; rw [e]
    · rfl) (h.at y)

theorem KindRecords.get_set (r : KindRecords) (k j : FaultKind) (v : KindRecord) :
    KindRecords.get (KindRecords.set r k v) j = if j = k then v else KindRecords.get r j := by
  cases k <;> cases j <;> rfl

/-- Recording a fault changes no severity (R150, R152). -/
theorem recordFault_severity (y x : Station) (k j : FaultKind) (i : CaptureInfo) (s : State) :
    (KindRecords.get (unitOf y (recordFault x k i s)).faults.kinds j).severity =
      (KindRecords.get (unitOf y s).faults.kinds j).severity := by
  by_cases h : y = x
  · subst h
    unfold recordFault
    simp only
    have key : ∀ c, (KindRecords.get (KindRecords.set (unitOf y s).faults.kinds k
        { (KindRecords.get (unitOf y s).faults.kinds k) with count := c }) j).severity =
          (KindRecords.get (unitOf y s).faults.kinds j).severity := by
      intro c; rw [KindRecords.get_set]; split
      · subst j; rfl
      · rfl
    split
    · split
      · unfold markSevere
        split <;> simp [key]
      · simp [key]
    · simp [key]
  · rw [Station.eq_peer_of_ne h]; simp

theorem Advisory.recordFault {x : Station} {k : FaultKind} {i : CaptureInfo} {s : State} (h : Advisory s) :
    Advisory (recordFault x k i s) :=
  Advisory.of_at fun y => AdvisoryAt.of_severity fun j => by rw [recordFault_severity]; exact (h.at y).severity j

/-- R152: an ADVISORY fault makes no station depart. -/
theorem recordFault_severe {x : Station} {k : FaultKind} {i : CaptureInfo} {s : State} (h : AdvisoryAt x s) :
    (Sys2Proof.Machine.recordFault x k i s).severe = s.severe := by
  unfold Sys2Proof.Machine.recordFault
  simp only
  rw [h.severity k]
  split
  · split
    · simp_all
    · simp
  · rfl

/-- R152: a fault of an ABSENT station makes none depart. -/
theorem recordFault_severe_absent {x : Station} {k : FaultKind} {i : CaptureInfo} {s : State}
    (h : isPresent x s = false) : (Sys2Proof.Machine.recordFault x k i s).severe = s.severe := by
  unfold Sys2Proof.Machine.recordFault
  simp only
  split
  · split
    · rename_i hc
      rw [isPresent_offerFault, isPresent_setUnit _ _ _ _ (by rfl), h, Bool.and_false] at hc
      cases hc
    · simp
  · rfl

theorem Advisory.offer {x : Station} {n : Notice} {s : State} (h : Advisory s) : Advisory (offer x n s) := by
  unfold Sys2Proof.Machine.offer
  simp only
  split
  · split
    · exact Advisory.recordFault (Advisory.of_setUnit rfl h)
    · exact Advisory.of_setUnit rfl h
  · exact h

/-- R110: while no kind is SEVERE, an offer makes no station depart. -/
theorem offer_severe {x : Station} {n : Notice} {s : State} (h : AdvisoryAt x s) :
    (Sys2Proof.Machine.offer x n s).severe = s.severe := by
  unfold Sys2Proof.Machine.offer
  simp only
  split
  · split
    · rw [recordFault_severe]
      · rfl
      · exact AdvisoryAt.of_eq (s := s) (by simp [setNotices]) h
    · rfl
  · rfl

/-! ### The path of a request -/

/-- A good frame that is taken at once is handled in the same command (R141, R142, R145). -/
theorem runRequest_taken {x : Station} {f : Frame} {handler : Frame → State → State} {s : State}
    (h : TakenAtOnce x s) : runRequest x f handler s = settle (handler f (restartKeepalive x s)) := by
  obtain ⟨hph, hb, hq, hd, htx, _⟩ := h
  have hg : goodFrame x f s = setLink x { linkOf x s with inQueue := [f] } (restartKeepalive x s) := by
    unfold goodFrame haltTarget joinQueue
    simp [hd, hq]
  have ht : takeHead x f handler (goodFrame x f s) = handler f (restartKeepalive x s) := by
    rw [hg]
    have hl : setLink x { linkOf x s with inQueue := [] } (restartKeepalive x s) = restartKeepalive x s := by
      rw [← hq]
      have := setLink_linkOf x (restartKeepalive x s)
      rwa [linkOf_restartKeepalive] at this
    unfold takeHead mayTake
    simp [hd, htx, hl]
  unfold runRequest isRunning
  simp only [hph, hq, hb, ht]
  simp

/-- R146, R148: the reply to a PRESENT station that does not depart. -/
theorem finishReply_present {x : Station} {f : Frame} {status : Status} {fieldBytes : List Byte} {s : State}
    (hp : isPresent x s = true) (hs : s.severe = []) :
    finishReply x f (replyFrame f status fieldBytes) s = answered x f status fieldBytes s := by
  unfold finishReply answered
  simp [hp, hs]

/-- R146: the reply to an ABSENT station is not cached. -/
theorem finishReply_absent {x : Station} {f : Frame} {r : OutFrame} {s : State} (hp : isPresent x s = false) :
    finishReply x f r s = transmit x r false s := by
  unfold finishReply
  simp [hp]

/-- A request of a PRESENT station that passes its checks and is answered by its owner. -/
theorem runRequest_answered {α : Type} {x : Station} {f : Frame} {handler : Frame → State → State}
    {check : List Byte → Except Status α} {owner : α → State → Handled} {s t : State} {a : α} {status : Status}
    {fieldBytes : List Byte} (hr : Ready x f s) (hp : isPresent x s = true)
    (hh : ∀ t, handler f t = handleKnown x f check owner t) (hc : check f.payload = .ok a)
    (ho : owner a (restartKeepalive x s) = .reply t status fieldBytes) (ht : t.severe = [])
    (hpt : isPresent x t = true) : runRequest x f handler s = answered x f status fieldBytes t := by
  have : handler f (restartKeepalive x s) = answered x f status fieldBytes t := by
    rw [hh]
    unfold handleKnown dispatch
    simp [hr.2, hp, hc, ho, finishReply_present hpt ht]
  rw [runRequest_taken hr.1, this]
  apply settle_nil
  simp [answered, ht]

end Sys2Proof.Machine
end

