-- ==== Sys2Proof/Laws/Channels.lean ====
section
/-!
SUPPORT. What the channel controller's offers can change: evaluating congestion, and the offers of ARRIVAL and FLOW
(R13, R18, R19, R20, R39).
-/

namespace Sys2Proof.Machine

/-! ### One lemma for each operation -/

/-- Evaluating congestion is a new value of the congested flag and at most one offer (R19, R20). -/
theorem evalCongestion_cases (c : Fin 8) (s : State) :
    evalCongestion c s = s ∨
      ∃ v, evalCongestion c s = setChan c { chanOf c s with congested := v } s ∨
        ∃ y, evalCongestion c s =
          offer y (.flow c v (occupancy (chanOf c s))) (setChan c { chanOf c s with congested := v } s) := by
  unfold evalCongestion
  simp only
  split
  · exact .inl rfl
  · split
    · exact .inl rfl
    · rename_i v _
      refine .inr ⟨v, ?_⟩
      unfold offerFlow
      split
      · exact .inl rfl
      · rename_i y _
        refine .inr ⟨y, ?_⟩
        rw [chanOf_setChan_self]
        rfl

/-- The offers of R13, R18 and R39 are one offer or none. -/
theorem offerArrival_cases (c : Fin 8) (s : State) :
    offerArrival c s = s ∨ ∃ y, offerArrival c s = offer y (.arrival c) s := by
  unfold offerArrival
  simp only
  split
  · split
    · exact .inl rfl
    · exact .inr ⟨_, rfl⟩
  · exact .inl rfl

theorem tellReceiver_cases (z : Station) (c : Fin 8) (s : State) :
    tellReceiver z c s = s ∨ ∃ y, tellReceiver z c s = offer y (.arrival c) s := by
  unfold tellReceiver
  simp only
  split
  · exact .inr ⟨_, rfl⟩
  · exact .inl rfl

theorem tellSender_cases (z : Station) (c : Fin 8) (s : State) :
    tellSender z c s = s ∨ ∃ y, tellSender z c s = offer y (.flow c true (occupancy (chanOf c s))) s := by
  unfold tellSender
  simp only
  split
  · exact .inr ⟨_, rfl⟩
  · exact .inl rfl

/-- The channel record after the evaluation differs in the congested flag alone. -/
theorem chanOf_evalCongestion (c d : Fin 8) (s : State) :
    ∃ v, chanOf d (evalCongestion c s) = { chanOf d s with congested := v } := by
  rcases evalCongestion_cases c s with h | ⟨v, h | ⟨y, h⟩⟩ <;> rw [h]
  · exact ⟨_, rfl⟩
  all_goals
    simp only [chanOf_offer, chanOf_setChan]
    split
    · subst d; exact ⟨_, rfl⟩
    · exact ⟨_, rfl⟩

/-! ### What they leave -/

@[simp] theorem evalCongestion_pending (c : Fin 8) (s : State) : (evalCongestion c s).pending = s.pending := by
  rcases evalCongestion_cases c s with h | ⟨v, h | ⟨y, h⟩⟩ <;> simp [h]
@[simp] theorem evalCongestion_phase (c : Fin 8) (s : State) : (evalCongestion c s).phase = s.phase := by
  rcases evalCongestion_cases c s with h | ⟨v, h | ⟨y, h⟩⟩ <;> simp [h]
@[simp] theorem evalCongestion_timeBase (c : Fin 8) (s : State) : (evalCongestion c s).timeBase = s.timeBase := by
  rcases evalCongestion_cases c s with h | ⟨v, h | ⟨y, h⟩⟩ <;> simp [h]
@[simp] theorem evalCongestion_straps (c : Fin 8) (s : State) : (evalCongestion c s).straps = s.straps := by
  rcases evalCongestion_cases c s with h | ⟨v, h | ⟨y, h⟩⟩ <;> simp [h]
@[simp] theorem evalCongestion_links (c : Fin 8) (s : State) : (evalCongestion c s).links = s.links := by
  rcases evalCongestion_cases c s with h | ⟨v, h | ⟨y, h⟩⟩ <;> simp [h]
@[simp] theorem evalCongestion_store (c : Fin 8) (s : State) : (evalCongestion c s).store = s.store := by
  rcases evalCongestion_cases c s with h | ⟨v, h | ⟨y, h⟩⟩ <;> simp [h]
@[simp] theorem evalCongestion_leases (c : Fin 8) (s : State) : (evalCongestion c s).leases = s.leases := by
  rcases evalCongestion_cases c s with h | ⟨v, h | ⟨y, h⟩⟩ <;> simp [h]
@[simp] theorem evalCongestion_waitCounts (c : Fin 8) (s : State) : (evalCongestion c s).waitCounts = s.waitCounts := by
  rcases evalCongestion_cases c s with h | ⟨v, h | ⟨y, h⟩⟩ <;> simp [h]
@[simp] theorem evalCongestion_freeTick (c : Fin 8) (s : State) : (evalCongestion c s).freeTick = s.freeTick := by
  rcases evalCongestion_cases c s with h | ⟨v, h | ⟨y, h⟩⟩ <;> simp [h]
@[simp] theorem evalCongestion_record (x : Station) (c : Fin 8) (s : State) :
    (unitOf x (evalCongestion c s)).record = (unitOf x s).record := by
  rcases evalCongestion_cases c s with h | ⟨v, h | ⟨y, h⟩⟩ <;> simp [h]
@[simp] theorem evalCongestion_cache (x : Station) (c : Fin 8) (s : State) :
    (unitOf x (evalCongestion c s)).cache = (unitOf x s).cache := by
  rcases evalCongestion_cases c s with h | ⟨v, h | ⟨y, h⟩⟩ <;> simp [h]
@[simp] theorem evalCongestion_staging (x : Station) (c : Fin 8) (s : State) :
    (unitOf x (evalCongestion c s)).staging = (unitOf x s).staging := by
  rcases evalCongestion_cases c s with h | ⟨v, h | ⟨y, h⟩⟩ <;> simp [h]
@[simp] theorem evalCongestion_draw (x : Station) (c : Fin 8) (s : State) :
    (unitOf x (evalCongestion c s)).draw = (unitOf x s).draw := by
  rcases evalCongestion_cases c s with h | ⟨v, h | ⟨y, h⟩⟩ <;> simp [h]
@[simp] theorem evalCongestion_signals (x : Station) (c : Fin 8) (s : State) :
    (unitOf x (evalCongestion c s)).signals = (unitOf x s).signals := by
  rcases evalCongestion_cases c s with h | ⟨v, h | ⟨y, h⟩⟩ <;> simp [h]
@[simp] theorem evalCongestion_nextNotice (x : Station) (c : Fin 8) (s : State) :
    (unitOf x (evalCongestion c s)).nextNotice = (unitOf x s).nextNotice := by
  rcases evalCongestion_cases c s with h | ⟨v, h | ⟨y, h⟩⟩ <;> simp [h]
@[simp] theorem linkOf_evalCongestion (x : Station) (c : Fin 8) (s : State) : linkOf x (evalCongestion c s) = linkOf x s := by
  rcases evalCongestion_cases c s with h | ⟨v, h | ⟨y, h⟩⟩ <;> simp [h]
@[simp] theorem leaseOf_evalCongestion (e : Fin 16) (c : Fin 8) (s : State) : leaseOf e (evalCongestion c s) = leaseOf e s := by
  rcases evalCongestion_cases c s with h | ⟨v, h | ⟨y, h⟩⟩ <;> simp [h]
@[simp] theorem isPresent_evalCongestion (x : Station) (c : Fin 8) (s : State) :
    isPresent x (evalCongestion c s) = isPresent x s := by
  rcases evalCongestion_cases c s with h | ⟨v, h | ⟨y, h⟩⟩ <;> simp [h]
@[simp] theorem evalCongestion_sender (d c : Fin 8) (s : State) :
    (chanOf d (evalCongestion c s)).sender = (chanOf d s).sender := by
  obtain ⟨v, h⟩ := chanOf_evalCongestion c d s; rw [h]
@[simp] theorem evalCongestion_receiver (d c : Fin 8) (s : State) :
    (chanOf d (evalCongestion c s)).receiver = (chanOf d s).receiver := by
  obtain ⟨v, h⟩ := chanOf_evalCongestion c d s; rw [h]
@[simp] theorem evalCongestion_arrivalOption (d c : Fin 8) (s : State) :
    (chanOf d (evalCongestion c s)).arrivalOption = (chanOf d s).arrivalOption := by
  obtain ⟨v, h⟩ := chanOf_evalCongestion c d s; rw [h]
@[simp] theorem evalCongestion_params (d c : Fin 8) (s : State) :
    (chanOf d (evalCongestion c s)).params = (chanOf d s).params := by
  obtain ⟨v, h⟩ := chanOf_evalCongestion c d s; rw [h]
@[simp] theorem evalCongestion_nextSeq (d c : Fin 8) (s : State) :
    (chanOf d (evalCongestion c s)).nextSeq = (chanOf d s).nextSeq := by
  obtain ⟨v, h⟩ := chanOf_evalCongestion c d s; rw [h]
@[simp] theorem evalCongestion_queue (d c : Fin 8) (s : State) :
    (chanOf d (evalCongestion c s)).queue = (chanOf d s).queue := by
  obtain ⟨v, h⟩ := chanOf_evalCongestion c d s; rw [h]
@[simp] theorem evalCongestion_reserved (d c : Fin 8) (s : State) :
    (chanOf d (evalCongestion c s)).reserved = (chanOf d s).reserved := by
  obtain ⟨v, h⟩ := chanOf_evalCongestion c d s; rw [h]
@[simp] theorem evalCongestion_charged (d c : Fin 8) (s : State) :
    (chanOf d (evalCongestion c s)).charged = (chanOf d s).charged := by
  obtain ⟨v, h⟩ := chanOf_evalCongestion c d s; rw [h]
@[simp] theorem occupancy_evalCongestion (d c : Fin 8) (s : State) :
    occupancy (chanOf d (evalCongestion c s)) = occupancy (chanOf d s) := by simp [occupancy]
theorem Advisory.evalCongestion {c : Fin 8} {s : State} (h : Advisory s) : Advisory (evalCongestion c s) := by
  rcases evalCongestion_cases c s with k | ⟨v, k | ⟨y, k⟩⟩ <;> rw [k]
  · exact h
  · exact Advisory.of_units rfl h
  · exact Advisory.offer (Advisory.of_units rfl h)
theorem evalCongestion_severe {c : Fin 8} {s : State} (h : Advisory s) :
    (Sys2Proof.Machine.evalCongestion c s).severe = s.severe := by
  rcases evalCongestion_cases c s with k | ⟨v, k | ⟨y, k⟩⟩ <;> rw [k]
  · rfl
  · rw [offer_severe]
    · rfl
    · exact (Advisory.of_units rfl h : Advisory (setChan c _ s)).at y

@[simp] theorem offerArrival_pending (c : Fin 8) (s : State) : (offerArrival c s).pending = s.pending := by
  rcases offerArrival_cases c s with h | ⟨y, h⟩ <;> simp [h]
@[simp] theorem offerArrival_phase (c : Fin 8) (s : State) : (offerArrival c s).phase = s.phase := by
  rcases offerArrival_cases c s with h | ⟨y, h⟩ <;> simp [h]
@[simp] theorem offerArrival_timeBase (c : Fin 8) (s : State) : (offerArrival c s).timeBase = s.timeBase := by
  rcases offerArrival_cases c s with h | ⟨y, h⟩ <;> simp [h]
@[simp] theorem offerArrival_straps (c : Fin 8) (s : State) : (offerArrival c s).straps = s.straps := by
  rcases offerArrival_cases c s with h | ⟨y, h⟩ <;> simp [h]
@[simp] theorem offerArrival_links (c : Fin 8) (s : State) : (offerArrival c s).links = s.links := by
  rcases offerArrival_cases c s with h | ⟨y, h⟩ <;> simp [h]
@[simp] theorem offerArrival_store (c : Fin 8) (s : State) : (offerArrival c s).store = s.store := by
  rcases offerArrival_cases c s with h | ⟨y, h⟩ <;> simp [h]
@[simp] theorem offerArrival_leases (c : Fin 8) (s : State) : (offerArrival c s).leases = s.leases := by
  rcases offerArrival_cases c s with h | ⟨y, h⟩ <;> simp [h]
@[simp] theorem offerArrival_waitCounts (c : Fin 8) (s : State) : (offerArrival c s).waitCounts = s.waitCounts := by
  rcases offerArrival_cases c s with h | ⟨y, h⟩ <;> simp [h]
@[simp] theorem offerArrival_freeTick (c : Fin 8) (s : State) : (offerArrival c s).freeTick = s.freeTick := by
  rcases offerArrival_cases c s with h | ⟨y, h⟩ <;> simp [h]
@[simp] theorem offerArrival_record (x : Station) (c : Fin 8) (s : State) :
    (unitOf x (offerArrival c s)).record = (unitOf x s).record := by
  rcases offerArrival_cases c s with h | ⟨y, h⟩ <;> simp [h]
@[simp] theorem offerArrival_cache (x : Station) (c : Fin 8) (s : State) :
    (unitOf x (offerArrival c s)).cache = (unitOf x s).cache := by
  rcases offerArrival_cases c s with h | ⟨y, h⟩ <;> simp [h]
@[simp] theorem offerArrival_staging (x : Station) (c : Fin 8) (s : State) :
    (unitOf x (offerArrival c s)).staging = (unitOf x s).staging := by
  rcases offerArrival_cases c s with h | ⟨y, h⟩ <;> simp [h]
@[simp] theorem offerArrival_draw (x : Station) (c : Fin 8) (s : State) :
    (unitOf x (offerArrival c s)).draw = (unitOf x s).draw := by
  rcases offerArrival_cases c s with h | ⟨y, h⟩ <;> simp [h]
@[simp] theorem offerArrival_signals (x : Station) (c : Fin 8) (s : State) :
    (unitOf x (offerArrival c s)).signals = (unitOf x s).signals := by
  rcases offerArrival_cases c s with h | ⟨y, h⟩ <;> simp [h]
@[simp] theorem offerArrival_nextNotice (x : Station) (c : Fin 8) (s : State) :
    (unitOf x (offerArrival c s)).nextNotice = (unitOf x s).nextNotice := by
  rcases offerArrival_cases c s with h | ⟨y, h⟩ <;> simp [h]
@[simp] theorem linkOf_offerArrival (x : Station) (c : Fin 8) (s : State) : linkOf x (offerArrival c s) = linkOf x s := by
  rcases offerArrival_cases c s with h | ⟨y, h⟩ <;> simp [h]
@[simp] theorem leaseOf_offerArrival (e : Fin 16) (c : Fin 8) (s : State) : leaseOf e (offerArrival c s) = leaseOf e s := by
  rcases offerArrival_cases c s with h | ⟨y, h⟩ <;> simp [h]
@[simp] theorem isPresent_offerArrival (x : Station) (c : Fin 8) (s : State) :
    isPresent x (offerArrival c s) = isPresent x s := by
  rcases offerArrival_cases c s with h | ⟨y, h⟩ <;> simp [h]
@[simp] theorem chanOf_offerArrival (d : Fin 8) (c : Fin 8) (s : State) : chanOf d (offerArrival c s) = chanOf d s := by
  rcases offerArrival_cases c s with h | ⟨y, h⟩ <;> simp [h]
theorem Advisory.offerArrival {c : Fin 8} {s : State} (h : Advisory s) : Advisory (offerArrival c s) := by
  rcases offerArrival_cases c s with k | ⟨y, k⟩ <;> rw [k]
  · exact h
  · exact h.offer
theorem offerArrival_severe {c : Fin 8} {s : State} (h : Advisory s) :
    (Sys2Proof.Machine.offerArrival c s).severe = s.severe := by
  rcases offerArrival_cases c s with k | ⟨y, k⟩ <;> rw [k]
  exact offer_severe (h.at y)

@[simp] theorem tellReceiver_pending (z : Station) (c : Fin 8) (s : State) : (tellReceiver z c s).pending = s.pending := by
  rcases tellReceiver_cases z c s with h | ⟨y, h⟩ <;> simp [h]
@[simp] theorem tellReceiver_phase (z : Station) (c : Fin 8) (s : State) : (tellReceiver z c s).phase = s.phase := by
  rcases tellReceiver_cases z c s with h | ⟨y, h⟩ <;> simp [h]
@[simp] theorem tellReceiver_timeBase (z : Station) (c : Fin 8) (s : State) : (tellReceiver z c s).timeBase = s.timeBase := by
  rcases tellReceiver_cases z c s with h | ⟨y, h⟩ <;> simp [h]
@[simp] theorem tellReceiver_straps (z : Station) (c : Fin 8) (s : State) : (tellReceiver z c s).straps = s.straps := by
  rcases tellReceiver_cases z c s with h | ⟨y, h⟩ <;> simp [h]
@[simp] theorem tellReceiver_links (z : Station) (c : Fin 8) (s : State) : (tellReceiver z c s).links = s.links := by
  rcases tellReceiver_cases z c s with h | ⟨y, h⟩ <;> simp [h]
@[simp] theorem tellReceiver_store (z : Station) (c : Fin 8) (s : State) : (tellReceiver z c s).store = s.store := by
  rcases tellReceiver_cases z c s with h | ⟨y, h⟩ <;> simp [h]
@[simp] theorem tellReceiver_leases (z : Station) (c : Fin 8) (s : State) : (tellReceiver z c s).leases = s.leases := by
  rcases tellReceiver_cases z c s with h | ⟨y, h⟩ <;> simp [h]
@[simp] theorem tellReceiver_waitCounts (z : Station) (c : Fin 8) (s : State) : (tellReceiver z c s).waitCounts = s.waitCounts := by
  rcases tellReceiver_cases z c s with h | ⟨y, h⟩ <;> simp [h]
@[simp] theorem tellReceiver_freeTick (z : Station) (c : Fin 8) (s : State) : (tellReceiver z c s).freeTick = s.freeTick := by
  rcases tellReceiver_cases z c s with h | ⟨y, h⟩ <;> simp [h]
@[simp] theorem tellReceiver_record (x : Station) (z : Station) (c : Fin 8) (s : State) :
    (unitOf x (tellReceiver z c s)).record = (unitOf x s).record := by
  rcases tellReceiver_cases z c s with h | ⟨y, h⟩ <;> simp [h]
@[simp] theorem tellReceiver_cache (x : Station) (z : Station) (c : Fin 8) (s : State) :
    (unitOf x (tellReceiver z c s)).cache = (unitOf x s).cache := by
  rcases tellReceiver_cases z c s with h | ⟨y, h⟩ <;> simp [h]
@[simp] theorem tellReceiver_staging (x : Station) (z : Station) (c : Fin 8) (s : State) :
    (unitOf x (tellReceiver z c s)).staging = (unitOf x s).staging := by
  rcases tellReceiver_cases z c s with h | ⟨y, h⟩ <;> simp [h]
@[simp] theorem tellReceiver_draw (x : Station) (z : Station) (c : Fin 8) (s : State) :
    (unitOf x (tellReceiver z c s)).draw = (unitOf x s).draw := by
  rcases tellReceiver_cases z c s with h | ⟨y, h⟩ <;> simp [h]
@[simp] theorem tellReceiver_signals (x : Station) (z : Station) (c : Fin 8) (s : State) :
    (unitOf x (tellReceiver z c s)).signals = (unitOf x s).signals := by
  rcases tellReceiver_cases z c s with h | ⟨y, h⟩ <;> simp [h]
@[simp] theorem tellReceiver_nextNotice (x : Station) (z : Station) (c : Fin 8) (s : State) :
    (unitOf x (tellReceiver z c s)).nextNotice = (unitOf x s).nextNotice := by
  rcases tellReceiver_cases z c s with h | ⟨y, h⟩ <;> simp [h]
@[simp] theorem linkOf_tellReceiver (x : Station) (z : Station) (c : Fin 8) (s : State) : linkOf x (tellReceiver z c s) = linkOf x s := by
  rcases tellReceiver_cases z c s with h | ⟨y, h⟩ <;> simp [h]
@[simp] theorem leaseOf_tellReceiver (e : Fin 16) (z : Station) (c : Fin 8) (s : State) : leaseOf e (tellReceiver z c s) = leaseOf e s := by
  rcases tellReceiver_cases z c s with h | ⟨y, h⟩ <;> simp [h]
@[simp] theorem isPresent_tellReceiver (x : Station) (z : Station) (c : Fin 8) (s : State) :
    isPresent x (tellReceiver z c s) = isPresent x s := by
  rcases tellReceiver_cases z c s with h | ⟨y, h⟩ <;> simp [h]
@[simp] theorem chanOf_tellReceiver (d : Fin 8) (z : Station) (c : Fin 8) (s : State) : chanOf d (tellReceiver z c s) = chanOf d s := by
  rcases tellReceiver_cases z c s with h | ⟨y, h⟩ <;> simp [h]
theorem Advisory.tellReceiver {z : Station} {c : Fin 8} {s : State} (h : Advisory s) : Advisory (tellReceiver z c s) := by
  rcases tellReceiver_cases z c s with k | ⟨y, k⟩ <;> rw [k]
  · exact h
  · exact h.offer
theorem tellReceiver_severe {z : Station} {c : Fin 8} {s : State} (h : Advisory s) :
    (Sys2Proof.Machine.tellReceiver z c s).severe = s.severe := by
  rcases tellReceiver_cases z c s with k | ⟨y, k⟩ <;> rw [k]
  exact offer_severe (h.at y)

@[simp] theorem tellSender_pending (z : Station) (c : Fin 8) (s : State) : (tellSender z c s).pending = s.pending := by
  rcases tellSender_cases z c s with h | ⟨y, h⟩ <;> simp [h]
@[simp] theorem tellSender_phase (z : Station) (c : Fin 8) (s : State) : (tellSender z c s).phase = s.phase := by
  rcases tellSender_cases z c s with h | ⟨y, h⟩ <;> simp [h]
@[simp] theorem tellSender_timeBase (z : Station) (c : Fin 8) (s : State) : (tellSender z c s).timeBase = s.timeBase := by
  rcases tellSender_cases z c s with h | ⟨y, h⟩ <;> simp [h]
@[simp] theorem tellSender_straps (z : Station) (c : Fin 8) (s : State) : (tellSender z c s).straps = s.straps := by
  rcases tellSender_cases z c s with h | ⟨y, h⟩ <;> simp [h]
@[simp] theorem tellSender_links (z : Station) (c : Fin 8) (s : State) : (tellSender z c s).links = s.links := by
  rcases tellSender_cases z c s with h | ⟨y, h⟩ <;> simp [h]
@[simp] theorem tellSender_store (z : Station) (c : Fin 8) (s : State) : (tellSender z c s).store = s.store := by
  rcases tellSender_cases z c s with h | ⟨y, h⟩ <;> simp [h]
@[simp] theorem tellSender_leases (z : Station) (c : Fin 8) (s : State) : (tellSender z c s).leases = s.leases := by
  rcases tellSender_cases z c s with h | ⟨y, h⟩ <;> simp [h]
@[simp] theorem tellSender_waitCounts (z : Station) (c : Fin 8) (s : State) : (tellSender z c s).waitCounts = s.waitCounts := by
  rcases tellSender_cases z c s with h | ⟨y, h⟩ <;> simp [h]
@[simp] theorem tellSender_freeTick (z : Station) (c : Fin 8) (s : State) : (tellSender z c s).freeTick = s.freeTick := by
  rcases tellSender_cases z c s with h | ⟨y, h⟩ <;> simp [h]
@[simp] theorem tellSender_record (x : Station) (z : Station) (c : Fin 8) (s : State) :
    (unitOf x (tellSender z c s)).record = (unitOf x s).record := by
  rcases tellSender_cases z c s with h | ⟨y, h⟩ <;> simp [h]
@[simp] theorem tellSender_cache (x : Station) (z : Station) (c : Fin 8) (s : State) :
    (unitOf x (tellSender z c s)).cache = (unitOf x s).cache := by
  rcases tellSender_cases z c s with h | ⟨y, h⟩ <;> simp [h]
@[simp] theorem tellSender_staging (x : Station) (z : Station) (c : Fin 8) (s : State) :
    (unitOf x (tellSender z c s)).staging = (unitOf x s).staging := by
  rcases tellSender_cases z c s with h | ⟨y, h⟩ <;> simp [h]
@[simp] theorem tellSender_draw (x : Station) (z : Station) (c : Fin 8) (s : State) :
    (unitOf x (tellSender z c s)).draw = (unitOf x s).draw := by
  rcases tellSender_cases z c s with h | ⟨y, h⟩ <;> simp [h]
@[simp] theorem tellSender_signals (x : Station) (z : Station) (c : Fin 8) (s : State) :
    (unitOf x (tellSender z c s)).signals = (unitOf x s).signals := by
  rcases tellSender_cases z c s with h | ⟨y, h⟩ <;> simp [h]
@[simp] theorem tellSender_nextNotice (x : Station) (z : Station) (c : Fin 8) (s : State) :
    (unitOf x (tellSender z c s)).nextNotice = (unitOf x s).nextNotice := by
  rcases tellSender_cases z c s with h | ⟨y, h⟩ <;> simp [h]
@[simp] theorem linkOf_tellSender (x : Station) (z : Station) (c : Fin 8) (s : State) : linkOf x (tellSender z c s) = linkOf x s := by
  rcases tellSender_cases z c s with h | ⟨y, h⟩ <;> simp [h]
@[simp] theorem leaseOf_tellSender (e : Fin 16) (z : Station) (c : Fin 8) (s : State) : leaseOf e (tellSender z c s) = leaseOf e s := by
  rcases tellSender_cases z c s with h | ⟨y, h⟩ <;> simp [h]
@[simp] theorem isPresent_tellSender (x : Station) (z : Station) (c : Fin 8) (s : State) :
    isPresent x (tellSender z c s) = isPresent x s := by
  rcases tellSender_cases z c s with h | ⟨y, h⟩ <;> simp [h]
@[simp] theorem chanOf_tellSender (d : Fin 8) (z : Station) (c : Fin 8) (s : State) : chanOf d (tellSender z c s) = chanOf d s := by
  rcases tellSender_cases z c s with h | ⟨y, h⟩ <;> simp [h]
theorem Advisory.tellSender {z : Station} {c : Fin 8} {s : State} (h : Advisory s) : Advisory (tellSender z c s) := by
  rcases tellSender_cases z c s with k | ⟨y, k⟩ <;> rw [k]
  · exact h
  · exact h.offer
theorem tellSender_severe {z : Station} {c : Fin 8} {s : State} (h : Advisory s) :
    (Sys2Proof.Machine.tellSender z c s).severe = s.severe := by
  rcases tellSender_cases z c s with k | ⟨y, k⟩ <;> rw [k]
  exact offer_severe (h.at y)

/-! ### The order of the channels -/

theorem insertByRank_perm (rank : Fin 8 → Nat) (c : Fin 8) (l : List (Fin 8)) :
    (insertByRank rank c l).Perm (c :: l) := by
  induction l with
  | nil => exact .refl _
  | cons d ds ih =>
    unfold insertByRank
    split
    · exact .refl _
    · exact (ih.cons d).trans (.swap c d ds)

/-- Whatever the free value is, the order names each of the eight channels once. -/
theorem channelOrder_perm (n : Nat) : (channelOrder n).Perm allChannels := by
  unfold channelOrder
  generalize allChannels = l
  induction l with
  | nil => exact .refl _
  | cons c l ih => exact (insertByRank_perm _ c _).trans (ih.cons c)

theorem channelOrder_nodup (n : Nat) : (channelOrder n).Nodup :=
  (channelOrder_perm n).nodup_iff.mpr (by decide)

theorem mem_channelOrder (n : Nat) (c : Fin 8) : c ∈ channelOrder n :=
  (channelOrder_perm n).mem_iff.mpr (by revert c; decide)

/-! ### The congestion evaluation with no sender end held (R14) -/

/-- With the sender end not held, a change of the congested flag offers no FLOW: nothing but the flag changes. -/
theorem evalCongestion_of_sender_free (c : Fin 8) (s : State) (h : (chanOf c s).sender = resetEnd) :
    evalCongestion c s = s ∨ ∃ v, evalCongestion c s = setChan c { chanOf c s with congested := v } s := by
  cases hp : (chanOf c s).params with
  | none => exact .inl (by simp [evalCongestion, hp])
  | some p =>
    cases hv : congestionFlip p (occupancy (chanOf c s)) (chanOf c s).congested with
    | none => exact .inl (by simp [evalCongestion, hp, hv])
    | some v => exact .inr ⟨v, by simp [evalCongestion, hp, hv, offerFlow, h, activeHolder, resetEnd]⟩

end Sys2Proof.Machine
end

