-- ==== Sys2Proof/Laws/Memory.lean ====
section
/-!
SUPPORT. The store's bytes: every memory operation keeps the canonical form, a read after a write gives the byte written
and leaves every other byte, and what each store operation does to bytes and to the free pool.
-/

namespace Sys2Proof.Machine

/-! ### The canonical form -/

theorem Memory.wfFrom_mono {m : Memory} {n n' : Nat} (h : Memory.wfFrom n m = true) (hn : n' ≤ n) :
    Memory.wfFrom n' m = true := by
  cases m with
  | nil => rfl
  | cons c m =>
    obtain ⟨k, v⟩ := c
    simp only [Memory.wfFrom, Bool.and_eq_true, decide_eq_true_eq] at h ⊢
    exact ⟨⟨le_trans hn h.1.1, h.1.2⟩, h.2⟩

theorem Memory.write_wfFrom {m : Memory} {n a : Nat} {v : Byte} (h : Memory.wfFrom n m = true) (ha : n ≤ a) :
    Memory.wfFrom n (Memory.write m a v) = true := by
  induction m generalizing n with
  | nil =>
    unfold Memory.write
    split <;> simp_all [Memory.wfFrom]
  | cons c m ih =>
    obtain ⟨k, w⟩ := c
    simp only [Memory.wfFrom, Bool.and_eq_true, decide_eq_true_eq] at h
    unfold Memory.write
    split
    · split
      · simp only [Memory.wfFrom, Bool.and_eq_true, decide_eq_true_eq]
        exact h
      · rename_i hk hv
        simp only [Memory.wfFrom, Bool.and_eq_true, decide_eq_true_eq]
        exact ⟨⟨ha, hv⟩, ⟨by omega, h.1.2⟩, h.2⟩
    · split
      · rename_i hk
        subst hk
        split
        · exact Memory.wfFrom_mono h.2 (by omega)
        · rename_i hv
          simp only [Memory.wfFrom, Bool.and_eq_true, decide_eq_true_eq]
          exact ⟨⟨ha, hv⟩, h.2⟩
      · simp only [Memory.wfFrom, Bool.and_eq_true, decide_eq_true_eq]
        exact ⟨h.1, ih h.2 (by omega)⟩

/-- A write keeps the canonical form. -/
theorem Memory.write_wf {m : Memory} (a : Nat) (v : Byte) (h : Memory.wf m = true) :
    Memory.wf (Memory.write m a v) = true := Memory.write_wfFrom h (Nat.zero_le _)

/-- Writes at consecutive addresses keep the canonical form. -/
theorem Memory.writeAll_wf {m : Memory} (a : Nat) (vs : List Byte) (h : Memory.wf m = true) :
    Memory.wf (Memory.writeAll m a vs) = true := by
  induction vs generalizing m a with
  | nil => exact h
  | cons v vs ih => exact ih _ (Memory.write_wf _ _ h)

/-! ### Read after write -/

theorem Memory.read_below {m : Memory} {n a : Nat} (h : Memory.wfFrom n m = true) (ha : a < n) :
    Memory.read m a = unlistedByte := by
  induction m generalizing n with
  | nil => rfl
  | cons c m ih =>
    obtain ⟨k, w⟩ := c
    simp only [Memory.wfFrom, Bool.and_eq_true, decide_eq_true_eq] at h
    unfold Memory.read
    rw [if_neg (by omega)]
    exact ih h.2 (by omega)

theorem Memory.read_write_from {m : Memory} {n : Nat} (a b : Nat) (v : Byte) (h : Memory.wfFrom n m = true) :
    Memory.read (Memory.write m a v) b = if b = a then v else Memory.read m b := by
  induction m generalizing n with
  | nil =>
    unfold Memory.write
    split
    · subst v
      simp [Memory.read]
    · by_cases hb : b = a
      · simp [Memory.read, hb]
      · simp [Memory.read, hb, Ne.symm hb]
  | cons c m ih =>
    obtain ⟨k, w⟩ := c
    simp only [Memory.wfFrom, Bool.and_eq_true, decide_eq_true_eq] at h
    unfold Memory.write
    split
    · rename_i hk
      split
      · subst v
        by_cases hb : b = a
        · rw [if_pos hb]
          subst hb
          unfold Memory.read
          rw [if_neg (by omega)]
          exact Memory.read_below h.2 (by omega)
        · rw [if_neg hb]
      · by_cases hb : b = a
        · simp [Memory.read, hb]
        · simp [Memory.read, hb, Ne.symm hb]
    · split
      · rename_i hk
        subst hk
        split
        · subst v
          by_cases hb : b = a
          · rw [if_pos hb]
            subst hb
            exact Memory.read_below h.2 (by omega)
          · simp [Memory.read, hb, Ne.symm hb]
        · by_cases hb : b = a
          · simp [Memory.read, hb]
          · simp [Memory.read, hb, Ne.symm hb]
      · unfold Memory.read
        rw [ih h.2]
        split
        · rename_i hk
          subst hk
          rw [if_neg (by omega)]
        · rfl

/-- A read after a write gives the byte written there, and every other byte as before. -/
theorem Memory.read_write {m : Memory} (a b : Nat) (v : Byte) (h : Memory.wf m = true) :
    Memory.read (Memory.write m a v) b = if b = a then v else Memory.read m b := Memory.read_write_from _ _ _ h

/-- A read after writes at consecutive addresses. -/
theorem Memory.read_writeAll {m : Memory} (a b : Nat) (vs : List Byte) (h : Memory.wf m = true) :
    Memory.read (Memory.writeAll m a vs) b =
      if a ≤ b ∧ b < a + vs.length then vs.getD (b - a) 0x00 else Memory.read m b := by
  induction vs generalizing m a with
  | nil => rw [if_neg (by simp only [List.length_nil]; omega)]; rfl
  | cons v vs ih =>
    unfold Memory.writeAll
    rw [ih _ (Memory.write_wf _ _ h), Memory.read_write _ _ _ h]
    simp only [List.length_cons]
    by_cases h1 : b = a
    · subst h1
      rw [if_neg (by omega), if_pos rfl, if_pos (by omega)]
      simp
    · by_cases h2 : a + 1 ≤ b ∧ b < a + 1 + vs.length
      · rw [if_pos h2, if_pos (by omega)]
        obtain ⟨j, hj⟩ : ∃ j, b - a = j + 1 := ⟨b - a - 1, by omega⟩
        rw [hj, show b - (a + 1) = j by omega]
        simp
      · rw [if_neg h2, if_neg h1, if_neg (by omega)]

theorem Memory.ext_from {m m' : Memory} {n : Nat} (h : Memory.wfFrom n m = true) (h' : Memory.wfFrom n m' = true)
    (hr : ∀ a, Memory.read m a = Memory.read m' a) : m = m' := by
  induction m generalizing m' n with
  | nil =>
    cases m' with
    | nil => rfl
    | cons c m' =>
      obtain ⟨k, w⟩ := c
      simp only [Memory.wfFrom, Bool.and_eq_true, decide_eq_true_eq] at h'
      have := hr k
      simp only [Memory.read, if_pos] at this
      exact absurd this.symm h'.1.2
  | cons c m ih =>
    obtain ⟨k, v⟩ := c
    simp only [Memory.wfFrom, Bool.and_eq_true, decide_eq_true_eq] at h
    cases m' with
    | nil =>
      have := hr k
      simp only [Memory.read, if_pos] at this
      exact absurd this h.1.2
    | cons c' m' =>
      obtain ⟨k', v'⟩ := c'
      simp only [Memory.wfFrom, Bool.and_eq_true, decide_eq_true_eq] at h'
      have hk : k = k' := by
        rcases Nat.lt_trichotomy k k' with hlt | heq | hgt
        · have := hr k
          simp only [Memory.read, if_pos] at this
          rw [if_neg (by omega), Memory.read_below h'.2 (by omega)] at this
          exact absurd this h.1.2
        · exact heq
        · have := hr k'
          simp only [Memory.read, if_pos] at this
          rw [if_neg (by omega), Memory.read_below h.2 (by omega)] at this
          exact absurd this.symm h'.1.2
      subst hk
      have hv : v = v' := by
        have := hr k
        simpa only [Memory.read, if_pos] using this
      subst hv
      congr 1
      refine ih h.2 h'.2 fun a => ?_
      by_cases ha : a = k
      · subst ha
        rw [Memory.read_below h.2 (by omega), Memory.read_below h'.2 (by omega)]
      · have := hr a
        simpa only [Memory.read, if_neg (Ne.symm ha)] using this

/-- Equal memories are equal data. -/
theorem Memory.ext {m m' : Memory} (h : Memory.wf m = true) (h' : Memory.wf m' = true)
    (hr : ∀ a, Memory.read m a = Memory.read m' a) : m = m' := Memory.ext_from h h' hr

/-! ### Store operations: free pool and canonical form -/

@[simp] theorem blockBytesOf_length (st : Store) (b : Fin 256) : (blockBytesOf st b).length = 32 := by
  simp [blockBytesOf]

@[simp] theorem writeBlock_freePool (b : Fin 256) (bytes : List Byte) (st : Store) :
    (writeBlock b bytes st).freePool = st.freePool := rfl
@[simp] theorem writeBlock_health (b : Fin 256) (bytes : List Byte) (st : Store) :
    (writeBlock b bytes st).health = st.health := rfl
@[simp] theorem countCorrected_freePool (st : Store) : (countCorrected st).freePool = st.freePool := rfl
@[simp] theorem countCorrected_mem (st : Store) : (countCorrected st).mem = st.mem := rfl
@[simp] theorem countCorrected_flips (st : Store) : (countCorrected st).flips = st.flips := rfl
@[simp] theorem countUncorrectable_freePool (l : LastUncorrectable) (st : Store) :
    (countUncorrectable l st).freePool = st.freePool := rfl
@[simp] theorem countUncorrectable_mem (l : LastUncorrectable) (st : Store) :
    (countUncorrectable l st).mem = st.mem := rfl
@[simp] theorem countUncorrectable_flips (l : LastUncorrectable) (st : Store) :
    (countUncorrectable l st).flips = st.flips := rfl
@[simp] theorem freeBlocks_mem (bs : List (Fin 256)) (st : Store) : (freeBlocks bs st).mem = st.mem := rfl
@[simp] theorem freeBlocks_flips (bs : List (Fin 256)) (st : Store) : (freeBlocks bs st).flips = st.flips := rfl
@[simp] theorem freeBlocks_health (bs : List (Fin 256)) (st : Store) : (freeBlocks bs st).health = st.health := rfl

theorem writeBlock_wf {st : Store} (b : Fin 256) (bytes : List Byte) (h : Memory.wf st.mem = true) :
    Memory.wf (writeBlock b bytes st).mem = true := Memory.writeAll_wf _ _ h

theorem writeMessage_freePool (base off : Nat) (data : List Byte) (bs : List (Fin 256)) (st : Store) :
    (writeMessage base off data bs st).freePool = st.freePool := by
  induction bs generalizing base st with
  | nil => rfl
  | cons b bs ih =>
    unfold writeMessage
    simp only [ih]
    split
    · exact writeBlock_freePool _ _ _
    · rfl

theorem writeMessage_health (base off : Nat) (data : List Byte) (bs : List (Fin 256)) (st : Store) :
    (writeMessage base off data bs st).health = st.health := by
  induction bs generalizing base st with
  | nil => rfl
  | cons b bs ih =>
    unfold writeMessage
    simp only [ih]
    split
    · exact writeBlock_health _ _ _
    · rfl

theorem writeMessage_wf (base off : Nat) (data : List Byte) (bs : List (Fin 256)) {st : Store}
    (h : Memory.wf st.mem = true) : Memory.wf (writeMessage base off data bs st).mem = true := by
  induction bs generalizing base st with
  | nil => exact h
  | cons b bs ih =>
    unfold writeMessage
    simp only
    apply ih
    split
    · exact writeBlock_wf _ _ h
    · exact h

theorem foldl_writeBlock_freePool (bytes : List Byte) (bs : List (Fin 256)) (st : Store) :
    (bs.foldl (fun st b => writeBlock b bytes st) st).freePool = st.freePool := by
  induction bs generalizing st with
  | nil => rfl
  | cons b bs ih => simp only [List.foldl_cons, ih]; rfl

theorem foldl_writeBlock_health (bytes : List Byte) (bs : List (Fin 256)) (st : Store) :
    (bs.foldl (fun st b => writeBlock b bytes st) st).health = st.health := by
  induction bs generalizing st with
  | nil => rfl
  | cons b bs ih => simp only [List.foldl_cons, ih]; rfl

theorem foldl_writeBlock_wf (bytes : List Byte) (bs : List (Fin 256)) {st : Store} (h : Memory.wf st.mem = true) :
    Memory.wf (bs.foldl (fun st b => writeBlock b bytes st) st).mem = true := by
  induction bs generalizing st with
  | nil => exact h
  | cons b bs ih => exact ih (writeBlock_wf _ _ h)

@[simp] theorem allocate_blocks (k : Nat) (st : Store) : (allocate k st).1 = st.freePool.take k := rfl

@[simp] theorem allocate_freePool (k : Nat) (st : Store) : (allocate k st).2.freePool = st.freePool.drop k := by
  unfold allocate
  simp only [foldl_writeBlock_freePool]

@[simp] theorem allocate_health (k : Nat) (st : Store) : (allocate k st).2.health = st.health := by
  unfold allocate
  simp only [foldl_writeBlock_health]

theorem allocate_wf (k : Nat) {st : Store} (h : Memory.wf st.mem = true) : Memory.wf (allocate k st).2.mem = true := by
  unfold allocate
  exact foldl_writeBlock_wf _ _ h

/-- Allocating and writing changes the store, nothing else. -/
theorem allocateAndWrite_frame (k : Nat) (data : List Byte) (s : State) :
    allocateAndWrite k data s =
      (setStore (writeMessage 0 0 data (s.store.freePool.take k) (allocate k s.store).2) s, s.store.freePool.take k) :=
  rfl

/-- One block read for a delivery: free pool and canonical form. -/
theorem readBlock_freePool (c : Fin 8) (seq : Half) (b : Fin 256) (st : Store) :
    (readBlock c seq b st).1.freePool = st.freePool := by
  unfold readBlock
  split <;> rfl

theorem readBlock_wf (c : Fin 8) (seq : Half) (b : Fin 256) {st : Store} (h : Memory.wf st.mem = true) :
    Memory.wf (readBlock c seq b st).1.mem = true := by
  unfold readBlock
  split
  · exact h
  · exact writeBlock_wf _ _ h
  · exact h

theorem readBlocks_freePool (c : Fin 8) (seq : Half) (bs : List (Fin 256)) (st : Store) :
    (readBlocks c seq bs st).1.freePool = st.freePool := by
  induction bs generalizing st with
  | nil => rfl
  | cons b bs ih =>
    unfold readBlocks
    simp only [ih, readBlock_freePool]

theorem readBlocks_wf (c : Fin 8) (seq : Half) (bs : List (Fin 256)) {st : Store} (h : Memory.wf st.mem = true) :
    Memory.wf (readBlocks c seq bs st).1.mem = true := by
  induction bs generalizing st with
  | nil => exact h
  | cons b bs ih =>
    unfold readBlocks
    exact ih (readBlock_wf _ _ _ h)

theorem mergeRead_freePool (c : Fin 8) (b : Fin 256) (st : Store) : (mergeRead c b st).1.freePool = st.freePool := by
  unfold mergeRead
  split <;> rfl

theorem mergeRead_wf (c : Fin 8) (b : Fin 256) {st : Store} (h : Memory.wf st.mem = true) :
    Memory.wf (mergeRead c b st).1.mem = true := by
  unfold mergeRead
  split <;> exact h

theorem writeSegment_freePool (c : Fin 8) (bs : List (Fin 256)) (off : Nat) (data : List Byte) (st : Store) :
    (writeSegment c bs off data st).1.freePool = st.freePool := by
  unfold writeSegment
  split
  · exact writeMessage_freePool _ _ _ _ _
  · split
    · exact writeMessage_freePool _ _ _ _ _
    · simp only [writeMessage_freePool, writeBlock_freePool, mergeRead_freePool]

theorem writeSegment_wf (c : Fin 8) (bs : List (Fin 256)) (off : Nat) (data : List Byte) {st : Store}
    (h : Memory.wf st.mem = true) : Memory.wf (writeSegment c bs off data st).1.mem = true := by
  unfold writeSegment
  split
  · exact writeMessage_wf _ _ _ _ h
  · split
    · exact writeMessage_wf _ _ _ _ h
    · exact writeMessage_wf _ _ _ _ (writeBlock_wf _ _ (mergeRead_wf _ _ h))

theorem flipStored_freePool (b : Fin 256) (p : BitPlace) (st : Store) :
    (flipStored b p st).freePool = st.freePool := rfl

theorem flipStored_wf (b : Fin 256) (p : BitPlace) {st : Store} (h : Memory.wf st.mem = true) :
    Memory.wf (flipStored b p st).mem = true := by
  unfold flipStored
  cases p
  · exact Memory.write_wf _ _ h
  · exact h

theorem foldl_flipStored (b : Fin 256) (places : List BitPlace) (st : Store) :
    (places.foldl (fun st p => flipStored b p st) st).freePool = st.freePool ∧
      (Memory.wf st.mem = true → Memory.wf (places.foldl (fun st p => flipStored b p st) st).mem = true) := by
  induction places generalizing st with
  | nil => exact ⟨rfl, id⟩
  | cons p ps ih =>
    obtain ⟨h1, h2⟩ := ih (flipStored b p st)
    exact ⟨h1.trans (flipStored_freePool _ _ _), fun h => h2 (flipStored_wf _ _ h)⟩

end Sys2Proof.Machine
end

