-- ==== Sys2Proof/Laws/Keep.lean ====
section
/-!
SUPPORT. A property of the state that every elementary change keeps is kept by every command and by every step. `Kept P`
lists the elementary changes; `exec_kept` and `step_kept` are the conclusion. An invariant of the machine is then proved
by its `Kept`.
-/

namespace Sys2Proof.Machine

/-- The state that the owner's execution of a request leaves. -/
def Handled.state : Handled → State
  | .reply s _ _ => s
  | .finished s => s

/-- Every elementary change of the state keeps `P`. -/
structure Kept (P : State → Prop) : Prop where
  /-- Fields other than phase, units, channels, store and leases. -/
  other : ∀ s t : State, t.units = s.units → t.channels = s.channels → t.store = s.store → t.leases = s.leases →
    t.phase = s.phase → P s → P t
  /-- A unit's fields other than staging records and notices. -/
  unitSame : ∀ x u s, u.staging = (unitOf x s).staging → u.notices = (unitOf x s).notices → P s → P (setUnit x u s)
  /-- An offer that reaches the queue. -/
  offered : ∀ x n s, P s → P (setNotices x (offerFate n (unitOf x s).notices).queue s)
  /-- The oldest notices leave the queue. -/
  dropped : ∀ x u m s, u.staging = (unitOf x s).staging → u.notices = (unitOf x s).notices.drop m → P s →
    P (setUnit x u s)
  withdrawn : ∀ x n s, P s → P (withdraw x n s)
  /-- A channel's fields other than its queue. -/
  chanSame : ∀ c ch s, ch.queue = (chanOf c s).queue → P s → P (setChan c ch s)
  /-- LENT messages return to QUEUED. -/
  returned : ∀ c ch s, ch.queue = (chanOf c s).queue.map returnMessage → P s → P (setChan c ch s)
  damaged : ∀ c seq s, P s → P (setChan c (markDamaged seq (chanOf c s)) s)
  /-- A lend below the window. -/
  lent : ∀ c s, lentCount (chanOf c s) < Config.lendWindow → P s →
    P (setChan c { chanOf c s with queue := lendFirst (chanOf c s).queue } s)
  /-- The store's bytes, wrong bits and health record. -/
  storeSame : ∀ st s, st.freePool = s.store.freePool → (Memory.wf s.store.mem = true → Memory.wf st.mem = true) →
    P s → P (setStore st s)
  /-- A message with fresh blocks is appended. -/
  appended : ∀ c k data ch m s, k ≤ freeBlockCount s → s.phase = .running → m.blocks = (allocateAndWrite k data s).2 →
    m.state = .queued → ch.queue = (chanOf c s).queue ++ [m] → P s → P (setChan c ch (allocateAndWrite k data s).1)
  /-- A staging record with fresh blocks is created. -/
  staged : ∀ x k data u r s, k ≤ freeBlockCount s → s.phase = .running → r.blocks = (allocateAndWrite k data s).2 →
    stagingOn x r.channel s = none → u.staging = (unitOf x s).staging ++ [r] →
    u.notices = (unitOf x s).notices → P s → P (setUnit x u (allocateAndWrite k data s).1)
  replaced : ∀ x r r1 s, stagingOn x r.channel s = some r → r1.channel = r.channel → r1.blocks = r.blocks → P s →
    P (replaceStaging x r1 s)
  completed : ∀ x r0 r s, stagingOn x r.channel s = some r0 → r.blocks = r0.blocks → s.phase = .running → P s →
    P (completeStaging x r s)
  unstaged : ∀ x r s, stagingOn x r.channel s = some r → P s → P (dropStaging x r s)
  allUnstaged : ∀ x s, P s → P (departStaging x s)
  /-- Messages leave a queue and their blocks are freed. -/
  removed : ∀ c gone kept s,
    (∀ b, (blocksOf gone).count b + (blocksOf kept).count b = (blocksOf (chanOf c s).queue).count b) →
    (LentFirst (chanOf c s) → LentFirst { chanOf c s with queue := kept }) → P s → P (removeMessages c gone kept s)
  closed : ∀ c s, P s → P (becomeClosed c s)
  /-- A lease entry changes within the law of R88, and its fence does not fall. -/
  lease : ∀ e l s, (LeaseOk (leaseOf e s) → LeaseOk l) → (leaseOf e s).fence ≤ l.fence → P s → P (setLease e l s)
  ticked : ∀ s, P s → P (tick s)
  released : ∀ p s, P s → P (releaseReset p s)
  initialised : ∀ s, P s → P (completeInit s)

namespace Kept

variable {P : State → Prop}

theorem ofLink (k : Kept P) {x l s} (h : P s) : P (setLink x l s) := k.other s _ rfl rfl rfl rfl rfl h
theorem ofSevere (k : Kept P) {l s} (h : P s) : P (setSevere l s) := k.other s _ rfl rfl rfl rfl rfl h
theorem ofWaitCount (k : Kept P) {x n s} (h : P s) : P (setWaitCount x n s) := k.other s _ rfl rfl rfl rfl rfl h
theorem ofFreeTick (k : Kept P) {s : State} {n : Nat} (h : P s) : P { s with freeTick := n } :=
  k.other s _ rfl rfl rfl rfl rfl h

theorem ofTransmit (k : Kept P) {x f d s} (h : P s) : P (transmit x f d s) := by
  unfold transmit; exact k.ofLink h

theorem ofEnterCache (k : Kept P) {x e s} (h : P s) : P (enterCache x e s) := k.unitSame _ _ _ rfl rfl h

theorem ofOfferFault (k : Kept P) {x kd n s} (h : P s) : P (offerFault x kd n s) := by
  unfold offerFault
  split
  · exact k.offered _ _ _ h
  · exact h

theorem ofRecordFault (k : Kept P) {x kd i s} (h : P s) : P (recordFault x kd i s) := by
  unfold recordFault
  simp only
  split
  · split
    · unfold markSevere
      split
      · exact k.ofOfferFault (k.unitSame _ _ _ rfl rfl h)
      · exact k.ofSevere (k.ofOfferFault (k.unitSame _ _ _ rfl rfl h))
    · exact k.ofOfferFault (k.unitSame _ _ _ rfl rfl h)
  · exact k.unitSame _ _ _ rfl rfl h

theorem ofOffer (k : Kept P) {x n s} (h : P s) : P (offer x n s) := by
  unfold offer
  simp only
  split
  · split
    · exact k.ofRecordFault (k.offered _ _ _ h)
    · exact k.offered _ _ _ h
  · exact h

/-! ### Channels -/

theorem ofEvalCongestion (k : Kept P) {c s} (h : P s) : P (evalCongestion c s) := by
  unfold evalCongestion
  simp only
  split
  · exact h
  · split
    · exact h
    · unfold offerFlow
      split
      · exact k.chanSame _ _ _ rfl h
      · exact k.ofOffer (k.chanSame _ _ _ rfl h)

theorem ofOfferArrival (k : Kept P) {c s} (h : P s) : P (offerArrival c s) := by
  unfold offerArrival
  simp only
  split
  · split
    · exact h
    · exact k.ofOffer h
  · exact h

theorem ofAbandonStaging (k : Kept P) {x r s} (hr : stagingOn x r.channel s = some r) (h : P s) :
    P (abandonStaging x r s) := k.ofEvalCongestion (k.unstaged _ _ _ hr h)

theorem stagingOn_channel {x c s r} (h : stagingOn x c s = some r) : r.channel = c := by
  have := List.find?_some h
  simpa using this

theorem ofReleaseSender (k : Kept P) {x c s} (h : P s) : P (releaseSender x c s).1 := by
  unfold releaseSender
  simp only
  split
  · exact k.chanSame _ _ _ rfl h
  · rename_i r hr
    have hc := stagingOn_channel hr
    exact k.chanSame _ _ _ rfl (k.unstaged _ _ _ (by rw [hc]; exact hr) h)

theorem ofReleaseReceiver (k : Kept P) {c s} (h : P s) : P (releaseReceiver c s).1 :=
  k.returned _ _ _ rfl h

theorem ofAfterRelease (k : Kept P) {x c role ev s} (h : P s) : P (afterRelease x c role ev s).1 := by
  unfold afterRelease
  simp only
  split
  · split
    · exact k.ofOffer (k.ofEvalCongestion h)
    · exact k.ofOffer h
  · exact k.closed _ _ h

theorem ofCloseEnd (k : Kept P) {x c role s} (h : P s) : P (closeEnd x c role s).1 := by
  unfold closeEnd
  split
  · exact k.ofAfterRelease (k.ofReleaseSender h)
  · exact k.ofAfterRelease (k.ofReleaseReceiver h)

theorem ofCloseEndsOn (k : Kept P) {x test c s} (h : P s) : P (closeEndsOn x test c s) := by
  unfold closeEndsOn
  simp only
  split
  · split
    · exact k.ofCloseEnd (k.ofCloseEnd h)
    · exact k.ofCloseEnd h
  · split
    · exact k.ofCloseEnd h
    · exact h

theorem ofMakeDormantOn (k : Kept P) {x c s} (h : P s) : P (makeDormantOn x c s) := by
  unfold makeDormantOn
  simp only
  split <;> split <;> first | exact k.returned _ _ _ rfl h | exact k.chanSame _ _ _ rfl h

theorem ofResumeOn (k : Kept P) {x c s} (h : P s) : P (resumeOn x c s) := by
  unfold resumeOn
  simp only
  split <;> split <;> exact k.chanSame _ _ _ rfl h

theorem ofFold (_k : Kept P) {α : Type} {f : State → α → State} (hf : ∀ s a, P s → P (f s a)) (l : List α) {s}
    (h : P s) : P (l.foldl f s) := by
  induction l generalizing s with
  | nil => exact h
  | cons a l ih => exact ih (hf _ _ h)

theorem ofDepartEnds (k : Kept P) {x cause s} (h : P s) : P (departEnds x cause s) := by
  unfold departEnds
  split
  · exact k.ofFold (fun _ _ h => k.ofCloseEndsOn h) _ (k.ofFreeTick h)
  · exact k.ofFold (fun _ _ h => k.ofMakeDormantOn h) _ h

theorem ofTellReceiver (k : Kept P) {x c s} (h : P s) : P (tellReceiver x c s) := by
  unfold tellReceiver
  simp only
  split
  · exact k.ofOffer h
  · exact h

theorem ofTellSender (k : Kept P) {x c s} (h : P s) : P (tellSender x c s) := by
  unfold tellSender
  simp only
  split
  · exact k.ofOffer h
  · exact h

theorem ofJoinEnds (k : Kept P) {x mode s} (h : P s) : P (joinEnds x mode s) := by
  unfold joinEnds
  split
  · exact k.ofFold (fun _ _ h => k.ofTellSender h) _
      (k.ofFreeTick (k.ofFold (fun _ _ h => k.ofTellReceiver h) _ (k.ofFold (fun _ _ h => k.ofResumeOn h) _ h)))
  · exact k.ofFold (fun _ _ h => k.ofCloseEndsOn h) _ (k.ofFreeTick h)

/-! ### Leases -/

theorem ofExpireWaiter (k : Kept P) {e w s} (h : P s) : P (expireWaiter e w s) :=
  k.ofOffer (k.ofWaitCount h)

theorem fence_lt_succ {l : LeaseEntry} (h : exhausted l = false) : l.fence ≤ l.fence + 1 := by
  have h' : l.fence ≠ 0xFFFFFFFF := by simpa [exhausted] using h
  have : l.fence.toNat ≠ 4294967295 := fun e => h' (BitVec.eq_of_toNat_eq (by simpa using e))
  have := l.fence.isLt
  rw [BitVec.le_def, BitVec.toNat_add, Nat.mod_eq_of_lt]
  · exact Nat.le_add_right _ _
  · show l.fence.toNat + 1 < 2 ^ 32
    omega

/-- A grant to the head waiter keeps the law of R88. -/
theorem leaseOk_grant {l : LeaseEntry} {w : Waiter} {ws : List Waiter} (hw : l.waiters = w :: ws) (h : LeaseOk l) :
    LeaseOk (grantLease w.station w.client w.duration { l with waiters := ws }) := by
  obtain ⟨h1, h2, _, _⟩ := h
  rw [hw] at h1 h2
  rw [List.pairwise_cons] at h2
  refine ⟨?_, h2.2, ?_, ?_⟩
  · simp only [grantLease, List.length_cons] at *
    omega
  · simp only [grantLease, holdsLease, List.all_eq_true]
    intro v hv
    have := h2.1 v hv
    simp only [Bool.not_eq_true', Bool.and_eq_false_iff, beq_eq_false_iff_ne, ne_eq]
    by_cases hs : w.station = v.station
    · right
      exact fun hc => this ⟨hs, hc⟩
    · left; exact hs
  · simp [grantLease]

theorem ofHandOn (k : Kept P) {e s} (h : P s) : P (handOn e s) := by
  unfold handOn
  simp only
  split
  · rename_i hw
    refine k.lease _ _ _ ?_ (by simp) h
    rintro ⟨h1, h2, _, _⟩
    exact ⟨h1, h2, by simp [hw], fun _ => hw⟩
  · rename_i w ws hw
    split
    · refine k.ofFold (fun _ _ h => k.ofExpireWaiter h) _ (k.lease _ _ _ ?_ (by simp) h)
      rintro -
      exact ⟨by simp, by simp, by simp, by simp⟩
    · rename_i hx
      exact k.ofOffer (k.ofWaitCount (k.lease _ _ _ (leaseOk_grant hw) (fence_lt_succ (by simpa using hx)) h))

theorem leaseOk_recordEnding {ending l} : LeaseOk (recordEnding ending l) ↔ LeaseOk l := by
  unfold recordEnding
  split <;> rfl

theorem recordEnding_fence {ending l} : (recordEnding ending l).fence = l.fence := by
  unfold recordEnding
  split <;> rfl

theorem ofRecordEnding (k : Kept P) {e ending s} (h : P s) : P (setLease e (recordEnding ending (leaseOf e s)) s) :=
  k.lease _ _ _ leaseOk_recordEnding.mpr (by rw [recordEnding_fence]; exact BitVec.le_refl _) h

theorem ofEndHold (k : Kept P) {e ending s} (h : P s) : P (endHold e ending s) := k.ofHandOn (k.ofRecordEnding h)

/-- Waiters that leave a list keep the law of R88. -/
theorem leaseOk_filter {l : LeaseEntry} (p : Waiter → Bool) (h : LeaseOk l) :
    LeaseOk { l with waiters := l.waiters.filter p } := by
  obtain ⟨h1, h2, h3, h4⟩ := h
  refine ⟨le_trans (List.length_filter_le _ _) h1, h2.filter _, ?_, fun hh => by rw [h4 hh]; rfl⟩
  rw [List.all_eq_true] at h3 ⊢
  intro w hw
  exact h3 w (List.mem_of_mem_filter hw)

theorem ofRemoveWaits (k : Kept P) {x e s} (h : P s) : P (removeWaits x e s) :=
  k.lease _ _ _ (leaseOk_filter _) (by simp) h

theorem ofRevokeOn (k : Kept P) {x e s} (h : P s) : P (revokeOn x e s) := by
  unfold revokeOn
  split
  · exact k.ofEndHold h
  · exact h

theorem ofDepartLeases (k : Kept P) {x s} (h : P s) : P (departLeases x s) := by
  unfold departLeases
  exact k.ofFold (fun _ _ h => k.ofRevokeOn h) _ (k.ofWaitCount (k.ofFold (fun _ _ h => k.ofRemoveWaits h) _ h))

/-! ### Departure -/

theorem ofStopDraw (k : Kept P) {x s} (h : P s) : P (stopDraw x s) := by
  unfold stopDraw
  exact k.unitSame _ _ _ rfl rfl (k.ofLink h)

theorem ofDepartFirst (k : Kept P) {x s} (h : P s) : P (departFirst x s) := k.allUnstaged _ _ (k.ofStopDraw h)

theorem ofDepartUnit (k : Kept P) {x c s} (h : P s) : P (departUnit x c s) := by
  unfold departUnit
  refine k.ofOffer (k.ofSevere (k.dropped _ _ (unitOf x s).notices.length _ rfl ?_ h))
  simp [clearUnit]

theorem ofDepart (k : Kept P) {x c s} (h : P s) : P (depart x c s) :=
  k.ofDepartUnit (k.ofDepartLeases (k.ofDepartEnds (k.ofDepartFirst h)))

theorem ofDepartFault (k : Kept P) {x s} (h : P s) : P (departFault x s) := by
  unfold departFault
  split
  · exact k.ofDepart h
  · exact k.ofSevere h

theorem ofSettle (k : Kept P) {s} (h : P s) : P (settle s) := by
  have second : ∀ {t}, P t → P (settleSecond t) := by
    intro t ht
    unfold settleSecond
    split
    · exact ht
    · exact k.ofDepartFault ht
  unfold settle
  split
  · exact h
  · exact second (k.ofDepartFault h)
  · exact second (k.ofDepartFault (k.ofFreeTick h))

/-! ### Deliveries and draws -/

theorem ofDeliver (k : Kept P) {c m off n s} (h : P s) : P (deliver c m off n s).1 := by
  unfold deliver
  simp only
  have h1 : P (setStore (readBlocks c m.seq (blocksSpanned m.blocks off n) s.store).1 s) :=
    k.storeSame _ _ (readBlocks_freePool _ _ _ _) (readBlocks_wf _ _ _) h
  split
  · exact k.damaged _ _ _ h1
  · exact h1

theorem ofRecordDamage (k : Kept P) {x c seq bad s} (h : P s) : P (recordDamage x c seq bad s) := by
  unfold recordDamage
  split
  · exact k.ofRecordFault h
  · exact h

theorem ofWithdrawArrival (k : Kept P) {c s} (h : P s) : P (withdrawArrival c s) := by
  unfold withdrawArrival
  split
  · exact h
  · exact k.withdrawn _ _ _ h

theorem ofLend (k : Kept P) {c s} (hw : lentCount (chanOf c s) < Config.lendWindow) (h : P s) : P (lend c s) := by
  unfold lend
  simp only
  split
  · exact k.lent _ _ hw h
  · exact k.ofWithdrawArrival (k.lent _ _ hw h)

/-- A delivery leaves the number of LENT messages. -/
theorem lentCount_deliver {c m off n s} : lentCount (chanOf c (deliver c m off n s).1) = lentCount (chanOf c s) := by
  unfold deliver
  simp only
  split
  · rw [chanOf_setChan_self]
    simp only [lentCount, markDamaged, List.countP_map]
    congr 1
    funext m'
    simp only [Function.comp]
    split <;> rfl
  · rfl

theorem ofEndDraw (k : Kept P) {x d reason s} (h : P s) : P (endDraw x d reason s) := by
  unfold endDraw
  simp only
  split
  · exact k.ofTransmit (k.unitSame _ _ _ rfl rfl (k.ofEnterCache h))
  · exact k.ofTransmit (k.ofEnterCache (k.ofTransmit (k.unitSame _ _ _ rfl rfl (k.ofEnterCache h))))

theorem ofTakeItem (k : Kept P) {x d m s}
    (hw : d.mode = .lend → lentCount (chanOf d.channel s) < Config.lendWindow) (h : P s) : P (takeItem x d m s).1 := by
  unfold takeItem
  simp only
  apply k.ofRecordDamage
  split
  · rename_i hm
    exact k.ofLend (by rw [lentCount_deliver]; exact hw hm) (k.ofDeliver h)
  · exact k.ofDeliver h

theorem ofBuildItem (k : Kept P) {x d m s}
    (hw : d.mode = .lend → lentCount (chanOf d.channel s) < Config.lendWindow) (h : P s) : P (buildItem x d m s) := by
  have h1 : P (takeItem x d m s).1 := k.ofTakeItem hw h
  unfold buildItem
  simp only
  split
  · exact k.ofDepartFault h1
  · exact k.ofTransmit (k.unitSame _ _ _ rfl rfl h1)

theorem ofPick (k : Kept P) {x d s} (h : P s) : P (pick x d s) := by
  unfold pick
  split
  · exact k.ofEndDraw h
  · rename_i m hm
    refine k.ofBuildItem (fun hl => ?_) h
    unfold candidate at hm
    rw [hl] at hm
    simp only at hm
    split at hm
    · exact absurd hm (by simp)
    · split at hm
      · exact absurd hm (by simp)
      · omega

theorem ofAtBoundary (k : Kept P) {x d s} (h : P s) : P (atBoundary x d s) := by
  unfold atBoundary
  split
  · exact k.ofEndDraw h
  · split
    · exact k.ofEndDraw h
    · split
      · exact k.ofPick h
      · exact k.unitSame _ _ _ rfl rfl h

theorem ofHaltDraw (k : Kept P) {x d tag s} (h : P s) : P (haltDraw x d tag s) := by
  unfold haltDraw
  simp only
  split
  · exact k.unitSame _ _ _ rfl rfl h
  · exact k.ofEndDraw h

/-! ### Requests -/

theorem ofRestartKeepalive (k : Kept P) {x s} (h : P s) : P (restartKeepalive x s) := by
  unfold restartKeepalive
  simp only
  split
  · exact k.unitSame _ _ _ rfl rfl h
  · exact h

theorem ofGoodFrame (k : Kept P) {x f s} (h : P s) : P (goodFrame x f s) := by
  unfold goodFrame
  simp only
  split
  · exact k.ofHaltDraw (k.ofRestartKeepalive h)
  · unfold joinQueue
    simp only
    split
    · exact k.ofLink (k.ofRestartKeepalive h)
    · exact k.ofRecordFault (k.ofRestartKeepalive h)

theorem ofFinishReply (k : Kept P) {x f r s} (h : P s) : P (finishReply x f r s) := by
  unfold finishReply
  simp only
  split
  · exact k.ofTransmit (k.ofEnterCache h)
  · exact k.ofTransmit h

theorem ofRefuse (k : Kept P) {x f r kd s} (h : P s) : P (refuseRequest x f r kd s) :=
  k.ofFinishReply (k.ofRecordFault h)

theorem ofHandleKnown (k : Kept P) {α : Type} {x f} {check : List Byte → Except Status α} {owner : α → State → Handled}
    {s} (ho : ∀ a, P (owner a s).state) (h : P s) : P (handleKnown x f check owner s) := by
  unfold handleKnown
  split
  · exact k.ofTransmit (k.ofEnterCache h)
  · unfold dispatch
    split
    · exact k.ofRefuse h
    · split
      · exact k.ofRefuse h
      · rename_i a _
        have := ho a
        split
        · rename_i s1 st fb he
          rw [he] at this
          exact k.ofFinishReply this
        · rename_i s1 he
          rw [he] at this
          exact this

theorem ofHandleUnknown (k : Kept P) {x f s} (h : P s) : P (handleUnknown x f s) := by
  unfold handleUnknown
  split
  · exact k.ofTransmit (k.ofEnterCache h)
  · exact k.ofRefuse h

/-! The phase of the part is left by what a frame's arrival does. -/

theorem restartKeepalive_phase (x : Station) (s : State) : (restartKeepalive x s).phase = s.phase := by
  unfold restartKeepalive
  simp only
  split <;> rfl

theorem endDraw_phase (x : Station) (d : Draw) (r : DrawReason) (s : State) : (endDraw x d r s).phase = s.phase := by
  unfold endDraw
  simp only
  split <;> rfl

theorem goodFrame_phase (x : Station) (f : Frame) (s : State) : (goodFrame x f s).phase = s.phase := by
  unfold goodFrame
  simp only
  split
  · unfold haltDraw
    simp only
    split
    · exact restartKeepalive_phase x s
    · rw [endDraw_phase, restartKeepalive_phase]
  · unfold joinQueue
    simp only
    split
    · exact restartKeepalive_phase x s
    · rw [recordFault_phase, restartKeepalive_phase]

/-- A request command whose handler keeps `P` while the part runs keeps `P`. -/
theorem ofRunRequest (k : Kept P) {x f} {handler : Frame → State → State} {s}
    (hh : ∀ g t, t.phase = .running → mayTake x t = true → P t → P (handler g t)) (h : P s) :
    P (runRequest x f handler s) := by
  have take : ∀ t, t.phase = .running → P t → P (takeHead x f handler t) := by
    intro t hr ht
    unfold takeHead
    simp only
    split
    · exact ht
    · split
      · rename_i hc
        exact hh _ _ hr (by simpa [mayTake] using hc.2) (k.ofLink ht)
      · exact ht
  unfold runRequest
  split
  · rename_i hr
    have hr' : s.phase = .running := by simpa [isRunning] using hr
    apply k.ofSettle
    split
    · exact take _ hr' h
    · split
      · exact h
      · exact take _ (by rw [goodFrame_phase]; exact hr') (k.ofGoodFrame h)
  · exact h

theorem ofRunEvent (k : Kept P) {event : State → State} {s} (he : s.phase = .running → P s → P (event s))
    (h : P s) : P (runEvent event s) := by
  unfold runEvent
  split
  · rename_i hr
    exact k.ofSettle (he (by simpa [isRunning] using hr) h)
  · exact h

/-! ### The owners -/

theorem ofSettlePeerOfRejoin (k : Kept P) {x s} (h : P s) : P (settlePeerOfRejoin x s) := by
  unfold settlePeerOfRejoin
  simp only
  split
  · split
    · exact k.ofDepartFault (k.ofFreeTick h)
    · exact k.ofFreeTick h
  · exact h

theorem ofOwnerJoin (k : Kept P) {x j s} (h : P s) : P (ownerJoin x j s).state := by
  have h1 : P (departForRejoin x s) := by
    unfold departForRejoin
    split
    · exact k.ofSettlePeerOfRejoin (k.ofDepart h)
    · exact h
  show P (joinStation x j (departForRejoin x s))
  unfold joinStation
  exact k.ofOffer (k.ofJoinEnds (k.unitSame _ _ _ rfl rfl h1))


theorem ofOwnerLeave (k : Kept P) {x f s} (h : P s) : P (ownerLeave x f s).state := by
  show P (departUnit x .left (transmit x _ false (departLeases x (departEnds x .left (departFirst x s)))))
  exact k.ofDepartUnit (k.ofTransmit (k.ofDepartLeases (k.ofDepartEnds (k.ofDepartFirst h))))

theorem ofOwnerInquire (_k : Kept P) {x q s} (h : P s) : P (ownerInquire x q s).state := by
  cases q <;> exact h

theorem ofOwnerOpen (k : Kept P) {x o s} (h : P s) : P (ownerOpen x o s).state := by
  have hq : ∀ ch : Channel, (takeEnd x o.role o.arrival ch).queue = ch.queue := by
    intro ch; unfold takeEnd; split <;> rfl
  unfold ownerOpen
  simp only
  split
  · exact h
  · split
    · exact h
    · split
      · exact h
      · split
        · split
          · show P (openSecond x o s)
            unfold openSecond
            simp only
            have h2 : P (offer x.peer (.channelOpened o.channel o.role)
                (setChan o.channel (takeEnd x o.role o.arrival (chanOf o.channel s)) s)) :=
              k.ofOffer (k.chanSame _ _ _ (hq _) h)
            split
            · exact k.ofTellSender h2
            · exact k.ofTellReceiver h2
          · exact h
        · split
          · exact h
          · exact k.ofOffer (k.chanSame _ _ _ (hq _) h)

theorem ofOwnerClose (k : Kept P) {x c role s} (h : P s) : P (ownerClose x c role s).state := by
  unfold ownerClose
  split
  · exact k.ofCloseEnd h
  · exact h

/-- A message that is admitted finds its blocks (R37). -/
theorem admission_free {ch n s} (h : admission ch n s = none) : n ≤ freeBlockCount s := by
  unfold admission at h
  split at h
  · exact absurd h (by simp)
  · split at h
    · exact absurd h (by simp)
    · split at h
      · exact absurd h (by simp)
      · split at h
        · exact absurd h (by simp)
        · omega

theorem ofOwnerPost (k : Kept P) {x c data s} (hr : s.phase = .running) (h : P s) :
    P (ownerPost x c data s).state := by
  unfold ownerPost
  simp only
  split
  · split
    · exact h
    · rename_i ha
      show P (postMessage x c data s)
      unfold postMessage
      simp only
      refine k.ofOfferArrival (k.ofEvalCongestion ?_)
      exact k.appended c (blocksNeeded data.length) data _ _ s (admission_free ha) hr rfl rfl rfl h
  · exact h

theorem ofOwnerSegmentFirst (k : Kept P) {x c total data s} (hr : s.phase = .running) (h : P s) :
    P (ownerSegmentFirst x c total data s).state := by
  unfold ownerSegmentFirst
  split
  · exact h
  · rename_i hs
    split
    · exact h
    · split
      · exact h
      · split
        · exact h
        · rename_i ha
          show P (startStaging x c total data s)
          unfold startStaging
          simp only
          refine k.ofEvalCongestion (k.chanSame _ _ _ rfl ?_)
          refine k.staged x (blocksNeeded total) data _ _ s (admission_free ha) hr rfl ?_ rfl rfl h
          simpa using hs

theorem ofAddSegment (k : Kept P) {x r data s} (hr : stagingOn x r.channel s = some r) (h : P s) :
    P (addSegment x r data s).1 := by
  unfold addSegment
  simp only
  exact k.replaced x r _ _ hr rfl rfl
    (k.storeSame _ _ (writeSegment_freePool _ _ _ _ _) (writeSegment_wf _ _ _ _) h)

/-- After a replacement the record found on its channel is the new one. -/
theorem stagingOn_replace {x : Station} {r r1 : Staging} {s : State} (hr : stagingOn x r.channel s = some r)
    (hc : r1.channel = r.channel) : stagingOn x r.channel (replaceStaging x r1 s) = some r1 := by
  unfold stagingOn at hr ⊢
  unfold replaceStaging
  simp only [unitOf_setUnit_self]
  generalize (unitOf x s).staging = l at hr ⊢
  induction l with
  | nil => simp at hr
  | cons t ts ih =>
    rw [List.map_cons]
    by_cases ht : t.channel = r.channel
    · rw [List.find?_cons_of_pos] <;> simp [ht, hc]
    · rw [List.find?_cons_of_neg (by simpa using ht)] at hr
      rw [hc, if_neg ht, List.find?_cons_of_neg (by simpa using ht)]
      simpa [hc] using ih hr

theorem addSegment_channel (x : Station) (r : Staging) (data : List Byte) (s : State) :
    (addSegment x r data s).2.channel = r.channel := by
  unfold addSegment
  simp only

theorem addSegment_blocks (x : Station) (r : Staging) (data : List Byte) (s : State) :
    (addSegment x r data s).2.blocks = r.blocks := by
  unfold addSegment
  simp only

/-- After a segment the record found on the channel is the one with the segment added. -/
theorem stagingOn_addSegment {x r data s} (hr : stagingOn x r.channel s = some r) :
    stagingOn x (addSegment x r data s).2.channel (addSegment x r data s).1 = some (addSegment x r data s).2 := by
  rw [addSegment_channel]
  unfold addSegment
  simp only
  exact stagingOn_replace (r := r) hr rfl

theorem ofOwnerSegmentMiddle (k : Kept P) {x c data s} (h : P s) : P (ownerSegmentMiddle x c data s).state := by
  unfold ownerSegmentMiddle
  split
  · exact h
  · rename_i r hr
    have hc := stagingOn_channel hr
    rw [← hc] at hr
    split
    · exact k.ofAbandonStaging hr h
    · have h1 : P (addSegment x r data s).1 := k.ofAddSegment hr h
      have h2 := stagingOn_addSegment (data := data) hr
      simp only
      generalize addSegment x r data s = p at h1 h2
      exact k.replaced x p.2 _ _ h2 rfl rfl h1

theorem ofOwnerSegmentLast (k : Kept P) {x c data s} (hrun : s.phase = .running) (h : P s) :
    P (ownerSegmentLast x c data s).state := by
  unfold ownerSegmentLast
  split
  · exact h
  · rename_i r hr
    have hc := stagingOn_channel hr
    rw [← hc] at hr
    split
    · exact k.ofAbandonStaging hr h
    · split
      · exact k.ofAbandonStaging hr h
      · have h1 : P (addSegment x r data s).1 := k.ofAddSegment hr h
        have h2 := stagingOn_addSegment (data := data) hr
        have h3 : (addSegment x r data s).1.phase = .running := by rw [← hrun]; rfl
        simp only
        generalize addSegment x r data s = p at h1 h2 h3
        exact k.completed x p.2 _ _ h2 rfl h3 h1

theorem ofOwnerSegment (k : Kept P) {x g s} (hr : s.phase = .running) (h : P s) : P (ownerSegment x g s).state := by
  unfold ownerSegment
  split
  · split
    · exact k.ofOwnerSegmentFirst hr h
    · exact k.ofOwnerSegmentMiddle h
    · exact k.ofOwnerSegmentLast hr h
  · exact h

theorem ofOwnerAbandon (k : Kept P) {x c s} (h : P s) : P (ownerAbandon x c s).state := by
  unfold ownerAbandon
  split
  · split
    · exact h
    · rename_i r hr
      have hc := stagingOn_channel hr
      rw [← hc] at hr
      exact k.ofAbandonStaging hr h
  · exact h

theorem ofExpireStaging (k : Kept P) {x c s} (h : P s) : P (expireStaging x c s) := by
  unfold expireStaging
  split
  · exact h
  · rename_i r hr
    have hc := stagingOn_channel hr
    rw [← hc] at hr
    split
    · exact k.ofRecordFault (k.ofOffer (k.ofAbandonStaging hr h))
    · exact h

theorem ofOwnerFetch (k : Kept P) {x c mode s} (h : P s) : P (ownerFetch x c mode s).state := by
  unfold ownerFetch
  simp only
  split
  · split
    · exact h
    · split
      · exact h
      · rename_i hw
        unfold fetchMessage
        simp only
        apply k.ofRecordDamage
        split
        · refine k.ofLend ?_ (k.ofDeliver h)
          rw [lentCount_deliver]
          by_contra hn
          exact hw ⟨rfl, by omega⟩
        · exact k.ofDeliver h
  · exact h

theorem ofOwnerRead (k : Kept P) {x r s} (h : P s) : P (ownerRead x r s).state := by
  unfold ownerRead
  simp only
  split
  · split
    · exact h
    · split
      · exact h
      · exact k.ofRecordDamage (k.ofDeliver h)
  · exact h

theorem isLent_false_of_queued {m : Message} (h : isQueued m = true) : isLent m = false := by
  unfold isQueued isLent at *
  cases hm : m.state <;> simp_all

/-- A queue whose messages are all QUEUED. -/
theorem dropWhile_of_all_queued {q : List Message} (h : q.all isQueued = true) : q.dropWhile isLent = q := by
  cases q with
  | nil => rfl
  | cons m ms =>
    simp only [List.all_cons, Bool.and_eq_true] at h
    rw [List.dropWhile_cons_of_neg]
    simp [isLent_false_of_queued h.1]

/-- Dropping the oldest messages keeps the law of R8. -/
theorem lentFirst_drop {ch : Channel} (n : Nat) (h : LentFirst ch) : LentFirst { ch with queue := ch.queue.drop n } := by
  obtain ⟨h1, h2⟩ := h
  refine ⟨?_, le_trans (List.Sublist.countP_le (List.drop_sublist n ch.queue)) h2⟩
  simp only
  generalize ch.queue = q at h1
  induction n generalizing q with
  | zero => simpa using h1
  | succ n ih =>
    cases q with
    | nil => simp
    | cons m ms =>
      rw [List.drop_succ_cons]
      by_cases hm : isLent m = true
      · rw [List.dropWhile_cons_of_pos hm] at h1
        exact ih ms h1
      · rw [List.dropWhile_cons_of_neg hm] at h1
        simp only [List.all_cons, Bool.and_eq_true] at h1
        have : (ms.drop n).all isQueued = true := by
          rw [List.all_eq_true] at *
          intro y hy
          exact h1.2 y (List.mem_of_mem_drop hy)
        rw [dropWhile_of_all_queued this]
        exact this

/-- Removing QUEUED messages keeps the law of R8. -/
theorem lentFirst_purge {ch : Channel} (h : LentFirst ch) :
    LentFirst { ch with queue := ch.queue.filter fun m => !(isQueued m) } := by
  obtain ⟨h1, h2⟩ := h
  refine ⟨?_, le_trans (List.Sublist.countP_le List.filter_sublist) h2⟩
  have hl : ∀ m : Message, isQueued m = false → isLent m = true := by
    intro m hm
    unfold isQueued at hm
    unfold isLent
    cases hs : m.state <;> simp_all
  have : (ch.queue.filter fun m => !(isQueued m)).dropWhile isLent = [] := by
    rw [List.dropWhile_eq_nil_iff]
    intro m hm
    exact hl m (by simpa using (List.mem_filter.mp hm).2)
  simp only [this]
  rfl

theorem blocksOf_append (p q : List Message) : blocksOf (p ++ q) = blocksOf p ++ blocksOf q := by
  simp [blocksOf]

theorem count_blocksOf_filter (b : Fin 256) (p : Message → Bool) (q : List Message) :
    (blocksOf (q.filter p)).count b + (blocksOf (q.filter fun m => !(p m))).count b = (blocksOf q).count b := by
  induction q with
  | nil => rfl
  | cons m ms ih =>
    have hcons : ∀ l : List Message, (blocksOf (m :: l)).count b = m.blocks.count b + (blocksOf l).count b := by
      intro l; simp [blocksOf, List.count_append]
    by_cases hp : p m = true
    · rw [List.filter_cons_of_pos hp, List.filter_cons_of_neg (by simpa using hp), hcons, hcons]
      omega
    · rw [List.filter_cons_of_neg hp, List.filter_cons_of_pos (by simpa using hp), hcons, hcons]
      omega

theorem ofOwnerRetire (k : Kept P) {x c seq s} (h : P s) : P (ownerRetire x c seq s).state := by
  unfold ownerRetire
  simp only
  split
  · split
    · exact h
    · refine k.ofEvalCongestion (k.removed _ _ _ _ (fun b => ?_) (lentFirst_drop _) h)
      rw [← List.count_append, ← blocksOf_append, List.take_append_drop]
  · exact h

theorem ofOwnerReturn (k : Kept P) {x c s} (h : P s) : P (ownerReturn x c s).state := by
  unfold ownerReturn
  simp only
  split
  · exact k.returned _ _ _ rfl h
  · exact h

theorem ofOwnerPurge (k : Kept P) {x c s} (h : P s) : P (ownerPurge x c s).state := by
  unfold ownerPurge
  simp only
  split
  · show P (purgeChannel c s)
    unfold purgeChannel
    simp only
    have h1 := k.removed c ((chanOf c s).queue.filter isQueued)
      ((chanOf c s).queue.filter fun m => !(isQueued m)) s (fun b => count_blocksOf_filter _ _ _) lentFirst_purge h
    apply k.ofWithdrawArrival
    split
    · exact h1
    · exact k.ofEvalCongestion h1
  · exact h

theorem ofOwnerDraw (k : Kept P) {x f d s} (h : P s) : P (ownerDraw x f d s).state := by
  unfold ownerDraw
  split
  · exact k.ofPick (k.unitSame _ _ _ rfl rfl h)
  · exact h

theorem ofOwnerCollect (k : Kept P) {x m s} (h : P s) : P (ownerCollect x m s).state :=
  k.dropped _ _ m _ rfl rfl h

theorem ofSetSignals (k : Kept P) {x g s} (h : P s) : P (setSignals x g s) := k.unitSame _ _ _ rfl rfl h

theorem ofOwnerRaise (k : Kept P) {x fl s} (h : P s) : P (ownerRaise x fl s).state := by
  unfold ownerRaise
  simp only
  split
  · show P (offerSignals x.peer _)
    unfold offerSignals
    split
    · exact k.ofOffer (k.ofSetSignals h)
    · exact k.ofSetSignals h
  · exact h

theorem ofWithdrawSignals (k : Kept P) {x s} (h : P s) : P (withdrawSignals x s) := by
  unfold withdrawSignals
  split
  · exact h
  · exact k.withdrawn _ _ _ h

theorem ofOwnerAccept (k : Kept P) {x fl s} (h : P s) : P (ownerAccept x fl s).state :=
  k.ofWithdrawSignals (k.ofSetSignals h)

theorem ofOwnerMask (k : Kept P) {x m s} (h : P s) : P (ownerMask x m s).state := by
  show P (applyMask x m s)
  unfold applyMask
  simp only
  split
  · exact k.ofOffer (k.ofSetSignals h)
  · exact k.ofWithdrawSignals (k.ofSetSignals h)

theorem ofOwnerAcquire (k : Kept P) {x a s} (h : P s) : P (ownerAcquire x a s).state := by
  unfold ownerAcquire
  simp only
  split
  · rename_i hh
    split
    · exact h
    · rename_i hx
      refine k.lease _ _ _ ?_ (fence_lt_succ (by simpa using hx)) h
      rintro ⟨h1, h2, _, h4⟩
      have hw := h4 hh
      refine ⟨h1, h2, ?_, ?_⟩
      · simp [grantLease, hw]
      · simp [grantLease]
  · rename_i hold hh
    unfold acquireHeld
    split
    · exact h
    · rename_i hn
      split
      · exact h
      · rename_i hf
        split
        · exact h
        · split
          · exact h
          · split
            · exact h
            · rename_i hw4
              split
              · exact h
              · refine k.ofWaitCount (k.lease _ _ _ ?_ (by simp) h)
                rintro ⟨h1, h2, h3, _⟩
                have hnone : ∀ w ∈ (leaseOf a.entry s).waiters, isWaiter x a.client w = false := by
                  intro w hw
                  simpa using List.find?_eq_none.mp hf w hw
                refine ⟨?_, ?_, ?_, ?_⟩
                · simp only [List.length_append, List.length_cons, List.length_nil]
                  omega
                · rw [List.pairwise_append]
                  refine ⟨h2, by simp, ?_⟩
                  intro v hv w hw
                  simp only [List.mem_singleton] at hw
                  subst hw
                  have := hnone v hv
                  simp only [isWaiter, Bool.and_eq_false_iff, beq_eq_false_iff_ne] at this
                  rintro ⟨e1, e2⟩
                  rcases this with t | t
                  · exact t e1
                  · exact t e2
                · simp only [List.all_append, Bool.and_eq_true]
                  refine ⟨h3, ?_⟩
                  simp only [List.all_cons, List.all_nil, Bool.and_true, Bool.not_eq_true']
                  have : holdsLease x a.client (leaseOf a.entry s) = false := by simpa using hn
                  exact this
                · intro hc
                  rw [hh] at hc
                  exact absurd hc (by simp)

theorem ofOwnerRenew (k : Kept P) {x r s} (h : P s) : P (ownerRenew x r s).state := by
  unfold ownerRenew
  simp only
  split
  · exact h
  · exact h
  · refine k.lease _ _ _ ?_ (by simp [renewHold]) h
    rintro ⟨h1, h2, h3, h4⟩
    refine ⟨h1, h2, ?_, ?_⟩
    · rw [List.all_eq_true] at h3 ⊢
      intro w hw
      have := h3 w hw
      simp only [holdsLease, renewHold] at this ⊢
      cases hh : (leaseOf r.entry s).hold <;> simp_all
    · intro hn
      apply h4
      simpa [renewHold] using hn

theorem ofOwnerRelease (k : Kept P) {x r s} (h : P s) : P (ownerRelease x r s).state := by
  unfold ownerRelease
  simp only
  split
  · exact h
  · exact h
  · exact k.ofEndHold h

theorem ofRemoveWaiter (k : Kept P) {e x c s} (h : P s) : P (removeWaiter e x c s) :=
  k.ofWaitCount (k.lease _ _ _ (leaseOk_filter _) (by simp) h)

theorem ofOwnerCancel (k : Kept P) {x e c s} (h : P s) : P (ownerCancel x e c s).state := by
  unfold ownerCancel
  simp only
  split
  · exact k.ofRemoveWaiter h
  · exact h

theorem ofLapseHold (k : Kept P) {e s} (h : P s) : P (lapseHold e s) := by
  unfold lapseHold
  simp only
  split
  · exact h
  · split
    · exact k.ofHandOn (k.ofOffer (k.ofRecordEnding h))
    · exact h

theorem ofExpireWait (k : Kept P) {e x c s} (h : P s) : P (expireWait e x c s) := by
  unfold expireWait
  split
  · exact k.ofOffer (k.ofRemoveWaiter h)
  · exact h

theorem ofOwnerClearFaults (k : Kept P) {x s} (h : P s) : P (ownerClearFaults x s).state := k.unitSame _ _ _ rfl rfl h

theorem ofOwnerFaultPolicy (k : Kept P) {x p s} (h : P s) : P (ownerFaultPolicy x p s).state :=
  k.unitSame _ _ _ rfl rfl h

/-! ### Links, timers, the part -/

theorem ofEndTransmission (k : Kept P) {x s} (h : P s) : P (endTransmission x s) := by
  unfold endTransmission
  split
  · exact h
  · simp only
    split
    · exact k.ofAtBoundary (k.ofLink h)
    · exact k.ofLink h

theorem ofExpireSpacing (k : Kept P) {x s} (h : P s) : P (expireSpacing x s) := by
  unfold expireSpacing
  split
  · exact h
  · split
    · exact h
    · split
      · exact k.ofPick h
      · exact h

theorem ofSetRx (k : Kept P) {x rx s} (h : P s) : P (setRx x rx s) := k.ofLink h

theorem ofDropFrame (k : Kept P) {x hd s} (h : P s) : P (dropFrame x hd s) := k.ofRecordFault (k.ofSetRx h)

theorem ofCompleteFrame (k : Kept P) {x len body crc s} (h : P s) : P (completeFrame x len body crc s) := by
  unfold completeFrame
  simp only
  split
  · split
    · exact k.ofGoodFrame (k.ofSetRx h)
    · exact k.ofRecordFault (k.ofSetRx h)
  · exact k.ofDropFrame h

theorem ofTakeCharacter (k : Kept P) {x b s} (h : P s) : P (takeCharacter x b s) := by
  unfold takeCharacter
  simp only
  split
  · exact h
  · split
    · split
      · exact k.ofSetRx (k.ofSetRx h)
      · exact k.ofSetRx h
    · unfold takeLength
      split
      · exact k.ofSetRx (k.ofSetRx h)
      · exact k.ofDropFrame (k.ofSetRx h)
    · unfold takeBody
      simp only
      split
      · exact k.ofSetRx (k.ofSetRx h)
      · exact k.ofSetRx (k.ofSetRx h)
    · unfold takeCheck
      split
      · exact k.ofSetRx (k.ofSetRx h)
      · exact k.ofCompleteFrame (k.ofSetRx h)

theorem ofAbortFrame (k : Kept P) {x s} (h : P s) : P (abortFrame x s) := by
  unfold abortFrame
  simp only
  split
  · exact h
  · split
    · exact h
    · exact k.ofDropFrame h

theorem ofFrameArrives (k : Kept P) {x body crc s} (h : P s) : P (frameArrives x body crc s) := by
  unfold frameArrives
  split
  · exact h
  · simp only
    split
    · exact k.ofCompleteFrame (k.ofSetRx h)
    · exact k.ofDropFrame (k.ofSetRx h)

theorem ofDetectBreak (k : Kept P) {x s} (h : P s) : P (detectBreak x s) := by
  unfold detectBreak
  simp only
  split
  · exact h
  · split
    · exact k.ofDepart (k.ofLink h)
    · exact k.ofLink h

theorem ofItemBoundary (k : Kept P) {x s} (h : P s) : P (itemBoundary x s) := by
  unfold itemBoundary
  split
  · exact k.ofEndTransmission h
  · exact h

theorem ofLapseKeepalive (k : Kept P) {x s} (h : P s) : P (lapseKeepalive x s) := by
  unfold lapseKeepalive
  split
  · exact k.ofDepart h
  · exact h

theorem ofBitErrors (k : Kept P) {b places s} (h : P s) : P (bitErrors b places s) := by
  unfold bitErrors
  have := foldl_flipStored b places s.store
  split
  · exact h
  · exact k.storeSame _ _ this.1 this.2 h
  · exact k.storeSame _ _ this.1 this.2 h

/-! ### The handlers -/

theorem ofHandleJoin (k : Kept P) {x f s} (h : P s) : P (handleJoin x f s) :=
  k.ofHandleKnown (fun _ => k.ofOwnerJoin h) h

theorem ofHandleLeave (k : Kept P) {x f s} (h : P s) : P (handleLeave x f s) :=
  k.ofHandleKnown (fun _ => k.ofOwnerLeave h) h

theorem ofHandleKeepalive (k : Kept P) {x f s} (h : P s) : P (handleKeepalive x f s) :=
  k.ofHandleKnown (fun _ => h) h

theorem ofHandleIdentify (k : Kept P) {x f s} (h : P s) : P (handleIdentify x f s) :=
  k.ofHandleKnown (fun _ => h) h

theorem ofHandleInquire (k : Kept P) {x f s} (h : P s) : P (handleInquire x f s) :=
  k.ofHandleKnown (fun _ => k.ofOwnerInquire h) h

theorem ofHandleCollect (k : Kept P) {x f s} (h : P s) : P (handleCollect x f s) :=
  k.ofHandleKnown (fun _ => k.ofOwnerCollect h) h

theorem ofHandleRaise (k : Kept P) {x f s} (h : P s) : P (handleRaise x f s) :=
  k.ofHandleKnown (fun _ => k.ofOwnerRaise h) h

theorem ofHandleAccept (k : Kept P) {x f s} (h : P s) : P (handleAccept x f s) :=
  k.ofHandleKnown (fun _ => k.ofOwnerAccept h) h

theorem ofHandleMask (k : Kept P) {x f s} (h : P s) : P (handleMask x f s) :=
  k.ofHandleKnown (fun _ => k.ofOwnerMask h) h

theorem ofHandleOpen (k : Kept P) {x f s} (h : P s) : P (handleOpen x f s) :=
  k.ofHandleKnown (fun _ => k.ofOwnerOpen h) h

theorem ofHandleClose (k : Kept P) {x f s} (h : P s) : P (handleClose x f s) :=
  k.ofHandleKnown (fun _ => k.ofOwnerClose h) h

theorem ofHandlePost (k : Kept P) {x f s} (hr : s.phase = .running) (h : P s) : P (handlePost x f s) :=
  k.ofHandleKnown (fun _ => k.ofOwnerPost hr h) h

theorem ofHandleSegment (k : Kept P) {x f s} (hr : s.phase = .running) (h : P s) : P (handleSegment x f s) :=
  k.ofHandleKnown (fun _ => k.ofOwnerSegment hr h) h

theorem ofHandleAbandon (k : Kept P) {x f s} (h : P s) : P (handleAbandon x f s) :=
  k.ofHandleKnown (fun _ => k.ofOwnerAbandon h) h

theorem ofHandleFetch (k : Kept P) {x f s} (h : P s) : P (handleFetch x f s) :=
  k.ofHandleKnown (fun _ => k.ofOwnerFetch h) h

theorem ofHandleRead (k : Kept P) {x f s} (h : P s) : P (handleRead x f s) :=
  k.ofHandleKnown (fun _ => k.ofOwnerRead h) h

theorem ofHandleRetire (k : Kept P) {x f s} (h : P s) : P (handleRetire x f s) :=
  k.ofHandleKnown (fun _ => k.ofOwnerRetire h) h

theorem ofHandleReturn (k : Kept P) {x f s} (h : P s) : P (handleReturn x f s) :=
  k.ofHandleKnown (fun _ => k.ofOwnerReturn h) h

theorem ofHandlePurge (k : Kept P) {x f s} (h : P s) : P (handlePurge x f s) :=
  k.ofHandleKnown (fun _ => k.ofOwnerPurge h) h

theorem ofHandleDraw (k : Kept P) {x f s} (h : P s) : P (handleDraw x f s) :=
  k.ofHandleKnown (fun _ => k.ofOwnerDraw h) h

theorem ofHandleHalt (k : Kept P) {x f s} (h : P s) : P (handleHalt x f s) :=
  k.ofHandleKnown (fun _ => h) h

theorem ofHandleAcquire (k : Kept P) {x f s} (h : P s) : P (handleAcquire x f s) :=
  k.ofHandleKnown (fun _ => k.ofOwnerAcquire h) h

theorem ofHandleRenew (k : Kept P) {x f s} (h : P s) : P (handleRenew x f s) :=
  k.ofHandleKnown (fun _ => k.ofOwnerRenew h) h

theorem ofHandleRelease (k : Kept P) {x f s} (h : P s) : P (handleRelease x f s) :=
  k.ofHandleKnown (fun _ => k.ofOwnerRelease h) h

theorem ofHandleCancel (k : Kept P) {x f s} (h : P s) : P (handleCancel x f s) :=
  k.ofHandleKnown (fun _ => k.ofOwnerCancel h) h

theorem ofHandleFaults (k : Kept P) {x f s} (h : P s) : P (handleFaults x f s) :=
  k.ofHandleKnown (fun _ => h) h

theorem ofHandleClearFaults (k : Kept P) {x f s} (h : P s) : P (handleClearFaults x f s) :=
  k.ofHandleKnown (fun _ => k.ofOwnerClearFaults h) h

theorem ofHandleFaultPolicy (k : Kept P) {x f s} (h : P s) : P (handleFaultPolicy x f s) :=
  k.ofHandleKnown (fun _ => k.ofOwnerFaultPolicy h) h

theorem ofIte (_k : Kept P) {c : Prop} [Decidable c] {a b : State} (ha : P a) (hb : P b) : P (if c then a else b) := by
  split
  · exact ha
  · exact hb

theorem ofHandleFrame (k : Kept P) {x f s} (hr : s.phase = .running) (h : P s) : P (handleFrame x f s) := by
  unfold handleFrame
  refine k.ofIte (k.ofHandleJoin h) ?_
  refine k.ofIte (k.ofHandleLeave h) ?_
  refine k.ofIte (k.ofHandleKeepalive h) ?_
  refine k.ofIte (k.ofHandleIdentify h) ?_
  refine k.ofIte (k.ofHandleInquire h) ?_
  refine k.ofIte (k.ofHandleCollect h) ?_
  refine k.ofIte (k.ofHandleRaise h) ?_
  refine k.ofIte (k.ofHandleAccept h) ?_
  refine k.ofIte (k.ofHandleMask h) ?_
  refine k.ofIte (k.ofHandleOpen h) ?_
  refine k.ofIte (k.ofHandleClose h) ?_
  refine k.ofIte (k.ofHandlePost hr h) ?_
  refine k.ofIte (k.ofHandleSegment hr h) ?_
  refine k.ofIte (k.ofHandleAbandon h) ?_
  refine k.ofIte (k.ofHandleFetch h) ?_
  refine k.ofIte (k.ofHandleRead h) ?_
  refine k.ofIte (k.ofHandleRetire h) ?_
  refine k.ofIte (k.ofHandleReturn h) ?_
  refine k.ofIte (k.ofHandlePurge h) ?_
  refine k.ofIte (k.ofHandleDraw h) ?_
  refine k.ofIte (k.ofHandleHalt h) ?_
  refine k.ofIte (k.ofHandleAcquire h) ?_
  refine k.ofIte (k.ofHandleRenew h) ?_
  refine k.ofIte (k.ofHandleRelease h) ?_
  refine k.ofIte (k.ofHandleCancel h) ?_
  refine k.ofIte (k.ofHandleFaults h) ?_
  refine k.ofIte (k.ofHandleClearFaults h) ?_
  refine k.ofIte (k.ofHandleFaultPolicy h) ?_
  exact k.ofHandleUnknown h

/-- A command other than RESET_ASSERT keeps `P`. -/
theorem exec_kept (k : Kept P) {i : Instr} {s t : State} (hi : ∀ p, i ≠ .resetAssert p) (h : P s)
    (he : exec i s = .next t) : P t := by
  cases i with
  | join x tag payload =>
    injection he with he; subst he
    exact k.ofRunRequest (fun _ _ _ _ h => k.ofHandleJoin h) h
  | leave x tag payload =>
    injection he with he; subst he
    exact k.ofRunRequest (fun _ _ _ _ h => k.ofHandleLeave h) h
  | keepalive x tag payload =>
    injection he with he; subst he
    exact k.ofRunRequest (fun _ _ _ _ h => k.ofHandleKeepalive h) h
  | identify x tag payload =>
    injection he with he; subst he
    exact k.ofRunRequest (fun _ _ _ _ h => k.ofHandleIdentify h) h
  | inquireChannel x tag payload =>
    injection he with he; subst he
    exact k.ofRunRequest (fun _ _ _ _ h => k.ofHandleInquire h) h
  | inquireStore x tag payload =>
    injection he with he; subst he
    exact k.ofRunRequest (fun _ _ _ _ h => k.ofHandleInquire h) h
  | inquireLease x tag payload =>
    injection he with he; subst he
    exact k.ofRunRequest (fun _ _ _ _ h => k.ofHandleInquire h) h
  | inquireStation x tag payload =>
    injection he with he; subst he
    exact k.ofRunRequest (fun _ _ _ _ h => k.ofHandleInquire h) h
  | collect x tag payload =>
    injection he with he; subst he
    exact k.ofRunRequest (fun _ _ _ _ h => k.ofHandleCollect h) h
  | raise x tag payload =>
    injection he with he; subst he
    exact k.ofRunRequest (fun _ _ _ _ h => k.ofHandleRaise h) h
  | accept x tag payload =>
    injection he with he; subst he
    exact k.ofRunRequest (fun _ _ _ _ h => k.ofHandleAccept h) h
  | mask x tag payload =>
    injection he with he; subst he
    exact k.ofRunRequest (fun _ _ _ _ h => k.ofHandleMask h) h
  | open_ x tag payload =>
    injection he with he; subst he
    exact k.ofRunRequest (fun _ _ _ _ h => k.ofHandleOpen h) h
  | close x tag payload =>
    injection he with he; subst he
    exact k.ofRunRequest (fun _ _ _ _ h => k.ofHandleClose h) h
  | post x tag payload =>
    injection he with he; subst he
    exact k.ofRunRequest (fun _ _ hr _ h => k.ofHandlePost hr h) h
  | segmentFirst x tag payload =>
    injection he with he; subst he
    exact k.ofRunRequest (fun _ _ hr _ h => k.ofHandleSegment hr h) h
  | segmentMiddle x tag payload =>
    injection he with he; subst he
    exact k.ofRunRequest (fun _ _ hr _ h => k.ofHandleSegment hr h) h
  | segmentLast x tag payload =>
    injection he with he; subst he
    exact k.ofRunRequest (fun _ _ hr _ h => k.ofHandleSegment hr h) h
  | abandon x tag payload =>
    injection he with he; subst he
    exact k.ofRunRequest (fun _ _ _ _ h => k.ofHandleAbandon h) h
  | fetchLend x tag payload =>
    injection he with he; subst he
    exact k.ofRunRequest (fun _ _ _ _ h => k.ofHandleFetch h) h
  | fetchPeek x tag payload =>
    injection he with he; subst he
    exact k.ofRunRequest (fun _ _ _ _ h => k.ofHandleFetch h) h
  | read x tag payload =>
    injection he with he; subst he
    exact k.ofRunRequest (fun _ _ _ _ h => k.ofHandleRead h) h
  | retire x tag payload =>
    injection he with he; subst he
    exact k.ofRunRequest (fun _ _ _ _ h => k.ofHandleRetire h) h
  | return_ x tag payload =>
    injection he with he; subst he
    exact k.ofRunRequest (fun _ _ _ _ h => k.ofHandleReturn h) h
  | purge x tag payload =>
    injection he with he; subst he
    exact k.ofRunRequest (fun _ _ _ _ h => k.ofHandlePurge h) h
  | draw x tag payload =>
    injection he with he; subst he
    exact k.ofRunRequest (fun _ _ _ _ h => k.ofHandleDraw h) h
  | halt x tag payload =>
    injection he with he; subst he
    exact k.ofRunRequest (fun _ _ _ _ h => k.ofHandleHalt h) h
  | acquire x tag payload =>
    injection he with he; subst he
    exact k.ofRunRequest (fun _ _ _ _ h => k.ofHandleAcquire h) h
  | renew x tag payload =>
    injection he with he; subst he
    exact k.ofRunRequest (fun _ _ _ _ h => k.ofHandleRenew h) h
  | release x tag payload =>
    injection he with he; subst he
    exact k.ofRunRequest (fun _ _ _ _ h => k.ofHandleRelease h) h
  | cancel x tag payload =>
    injection he with he; subst he
    exact k.ofRunRequest (fun _ _ _ _ h => k.ofHandleCancel h) h
  | faults x tag payload =>
    injection he with he; subst he
    exact k.ofRunRequest (fun _ _ _ _ h => k.ofHandleFaults h) h
  | clearFaults x tag payload =>
    injection he with he; subst he
    exact k.ofRunRequest (fun _ _ _ _ h => k.ofHandleClearFaults h) h
  | faultPolicy x tag payload =>
    injection he with he; subst he
    exact k.ofRunRequest (fun _ _ _ _ h => k.ofHandleFaultPolicy h) h
  | unknownKindRequest x kind tag payload =>
    injection he with he; subst he
    exact k.ofRunRequest (fun _ _ hr _ h => k.ofHandleFrame hr h) h
  | receiveCharacter x b =>
    injection he with he; subst he
    exact k.ofRunEvent (fun _ h => k.ofTakeCharacter h) h
  | characterError x =>
    injection he with he; subst he
    exact k.ofRunEvent (fun _ h => k.ofAbortFrame h) h
  | frameComplete x body crc =>
    injection he with he; subst he
    exact k.ofRunEvent (fun _ h => k.ofFrameArrives h) h
  | gapLimitExpiry x =>
    injection he with he; subst he
    exact k.ofRunEvent (fun _ h => k.ofAbortFrame h) h
  | lineBreak x =>
    injection he with he; subst he
    exact k.ofRunEvent (fun _ h => k.ofDetectBreak h) h
  | itemBoundary x =>
    injection he with he; subst he
    exact k.ofRunEvent (fun _ h => k.ofItemBoundary h) h
  | transmissionEnd x =>
    injection he with he; subst he
    exact k.ofRunEvent (fun _ h => k.ofEndTransmission h) h
  | spacingExpiry x =>
    injection he with he; subst he
    exact k.ofRunEvent (fun _ h => k.ofExpireSpacing h) h
  | segmentTimeout x c =>
    injection he with he; subst he
    exact k.ofRunEvent (fun _ h => k.ofExpireStaging h) h
  | keepaliveLapse x =>
    injection he with he; subst he
    exact k.ofRunEvent (fun _ h => k.ofLapseKeepalive h) h
  | holdLapse e =>
    injection he with he; subst he
    exact k.ofRunEvent (fun _ h => k.ofLapseHold h) h
  | waitExpiry e x client =>
    injection he with he; subst he
    exact k.ofRunEvent (fun _ h => k.ofExpireWait h) h
  | breakEnd x =>
    injection he with he; subst he
    exact k.ofRunEvent (fun _ h => k.ofSetRx h) h
  | resetAssert p => exact absurd rfl (hi p)
  | resetRelease p =>
    injection he with he; subst he
    exact k.released _ _ h
  | storeInitComplete =>
    injection he with he; subst he
    exact k.initialised _ h
  | bitError b places =>
    injection he with he; subst he
    exact k.ofBitErrors h

theorem ite_ne {α : Type} {c : Prop} [Decidable c] {a b d : α} (ha : a ≠ d) (hb : b ≠ d) :
    (if c then a else b) ≠ d := by
  split
  · exact ha
  · exact hb

theorem requestCommand_ne_reset (x : Station) (kd tag : Byte) (payload : List Byte) (p : StrapPins) :
    requestCommand x kd tag payload ≠ .resetAssert p := by
  unfold requestCommand inquireCommand segmentCommand fetchCommand
  repeat' apply ite_ne
  all_goals exact fun e => Instr.noConfusion e

/-- None of the events due inside the part is RESET_ASSERT. -/
theorem dueEvents_ne_reset {s : State} {i : Instr} (h : i ∈ dueEvents s) : ∀ p, i ≠ .resetAssert p := by
  have hreq := requestCommand_ne_reset
  rintro p rfl
  unfold dueEvents at h
  split at h
  · simp at h
  · unfold dueInit at h
    split at h <;> simp at h
  · simp only [List.mem_append, List.mem_flatMap] at h
    rcases h with (⟨x, _, hx⟩ | ⟨e, _, he⟩) | ⟨e, _, he⟩
    · simp only [dueAt, List.mem_append] at hx
      rcases hx with ((((h | h) | h) | h) | h) | h
      · unfold dueTake at h
        split at h
        · simp at h
        · split at h
          · simp only [List.mem_singleton] at h
            exact hreq _ _ _ _ _ h.symm
          · simp at h
      · unfold dueTransmission at h
        split at h
        · split at h <;> simp at h
        · simp at h
      · unfold dueGap at h
        simp only at h
        split at h <;> simp at h
      · unfold dueSpacing at h
        split at h
        · simp at h
        · split at h <;> simp at h
      · simp [dueSegments] at h
      · unfold dueKeepalive at h
        split at h <;> simp at h
    · unfold dueHold at he
      split at he
      · simp at he
      · split at he <;> simp at he
    · simp [dueWaits] at he

/-- A step whose front command is not RESET_ASSERT keeps `P`. -/
theorem step_kept (k : Kept P) {s t : State} (hi : ∀ p rest, s.pending ≠ .resetAssert p :: rest) (h : P s)
    (he : step s = .next t) : P t := by
  unfold step at he
  split at he
  · rename_i c rest hp
    refine k.exec_kept (s := { s with pending := rest }) (fun p hc => hi p rest ?_)
      (k.other s _ rfl rfl rfl rfl rfl h) he
    rw [hp, hc]
  · unfold idle at he
    split at he
    · injection he with he
      subst he
      exact k.ticked _ h
    · rename_i c hd
      exact k.exec_kept (dueEvents_ne_reset (by rw [hd]; simp)) h he
    · rename_i c d rest hd
      refine k.exec_kept (dueEvents_ne_reset (s := s) ?_) (k.ofFreeTick h) he
      rw [hd]
      unfold chooseEvent
      simp only
      rw [List.getD_eq_getElem?_getD]
      have hlt : Config.eventChoice s.freeTick % (c :: d :: rest).length < (c :: d :: rest).length :=
        Nat.mod_lt _ (by simp)
      rw [List.getElem?_eq_getElem hlt]
      exact List.getElem_mem hlt

end Kept

end Sys2Proof.Machine
end

