-- ==== Sys2Proof/Laws/Taking.lean ====
section
/-!
SUPPORT. The command that a frame spells (Sys2Proof.Machine.requestCommand) and the handler that exec runs for it.
-/

namespace Sys2Proof.Machine

/-- A request's handler matters only on the request's frame. -/
theorem runRequest_congr {x : Station} {f : Frame} {g h : Frame → State → State} (e : ∀ t, g f t = h f t) (s : State) :
    runRequest x f g s = runRequest x f h s := by
  have ht : ∀ t, takeHead x f g t = takeHead x f h t := by
    intro t; unfold takeHead; simp only [e]
  unfold runRequest
  simp only [ht]

/-- R148, R159: the command that a frame spells runs the frame's handler, whatever its kind. -/
theorem exec_requestCommand (x : Station) (kind tag : Byte) (payload : List Byte) (s : State) :
    exec (requestCommand x kind tag payload) s =
      .next (runRequest x (requestFrame kind tag payload) (handleFrame x) s) := by
  by_cases hk : knownKind kind = true
  · have hm : kind ∈ requestKinds := by simpa [knownKind] using hk
    simp only [requestKinds, List.mem_cons, List.not_mem_nil, or_false] at hm
    rcases hm with h | h | h | h | h | h | h | h | h | h | h | h | h | h | h | h | h | h | h | h | h | h | h | h | h | h |
      h | h <;> subst h
    all_goals simp (decide := true) only [requestCommand, if_true, if_false]
    all_goals try (exact congrArg Host.Outcome.next (runRequest_congr (fun t => by
        simp (decide := true) only [handleFrame, requestFrame, if_true, if_false]) s))
    · unfold inquireCommand
      split <;> [skip; split <;> [skip; split]]
      all_goals exact congrArg Host.Outcome.next (runRequest_congr (fun t => by
        simp (decide := true) only [handleFrame, requestFrame, if_true, if_false]) s)
    · unfold segmentCommand
      split <;> [skip; split]
      all_goals exact congrArg Host.Outcome.next (runRequest_congr (fun t => by
        simp (decide := true) only [handleFrame, requestFrame, if_true, if_false]) s)
    · unfold fetchCommand
      split
      all_goals exact congrArg Host.Outcome.next (runRequest_congr (fun t => by
        simp (decide := true) only [handleFrame, requestFrame, if_true, if_false]) s)
  · have hn : ∀ k ∈ requestKinds, kind ≠ k := by
      intro k hmem e; subst e; exact hk (by simpa [knownKind] using hmem)
    simp only [requestKinds, List.mem_cons, List.not_mem_nil, or_false, forall_eq_or_imp, forall_eq] at hn
    simp only [requestCommand, hn, if_false]
    rfl

end Sys2Proof.Machine
end

