-- ==== Sys2Proof/WellFormed.lean ====
section
/-!
DEFINITION. When a command is one that the part can meet: a frame's lengths (11.1), the row a request belongs to by its
selector (R159, R160), and bit errors that name each bit once. The meanings are total; these checks say which commands
spell something.
-/

namespace Sys2Proof

open Machine

/-- 11.1: a payload has 0 to 64 bytes. -/
def payloadFits (payload : List Byte) : Bool := decide (payload.length ≤ 64)

/-- The subject byte of an INQUIRE payload is this code (R158). -/
def subjectIs (code : Byte) (payload : List Byte) : Bool := payload.head? == some code

/-- The second payload byte, the control of a SEGMENT and the mode of a FETCH, is this code (R158). -/
def selectorIs (code : Byte) (payload : List Byte) : Bool := payload[1]? == some code

/-- A command spells something the part can meet. -/
def Instr.wellFormed : Instr → Bool
  | .join _ _ payload => payloadFits payload
  | .leave _ _ payload => payloadFits payload
  | .keepalive _ _ payload => payloadFits payload
  | .identify _ _ payload => payloadFits payload
  | .inquireChannel _ _ payload =>
    payloadFits payload && !(subjectIs 0x02 payload) && !(subjectIs 0x03 payload) && !(subjectIs 0x04 payload)
  | .inquireStore _ _ payload => payloadFits payload && subjectIs 0x03 payload
  | .inquireLease _ _ payload => payloadFits payload && subjectIs 0x02 payload
  | .inquireStation _ _ payload => payloadFits payload && subjectIs 0x04 payload
  | .collect _ _ payload => payloadFits payload
  | .raise _ _ payload => payloadFits payload
  | .accept _ _ payload => payloadFits payload
  | .mask _ _ payload => payloadFits payload
  | .open_ _ _ payload => payloadFits payload
  | .close _ _ payload => payloadFits payload
  | .post _ _ payload => payloadFits payload
  | .segmentFirst _ _ payload => payloadFits payload && !(selectorIs 0x02 payload) && !(selectorIs 0x03 payload)
  | .segmentMiddle _ _ payload => payloadFits payload && selectorIs 0x02 payload
  | .segmentLast _ _ payload => payloadFits payload && selectorIs 0x03 payload
  | .abandon _ _ payload => payloadFits payload
  | .fetchLend _ _ payload => payloadFits payload && !(selectorIs 0x02 payload)
  | .fetchPeek _ _ payload => payloadFits payload && selectorIs 0x02 payload
  | .read _ _ payload => payloadFits payload
  | .retire _ _ payload => payloadFits payload
  | .return_ _ _ payload => payloadFits payload
  | .purge _ _ payload => payloadFits payload
  | .draw _ _ payload => payloadFits payload
  | .halt _ _ payload => payloadFits payload
  | .acquire _ _ payload => payloadFits payload
  | .renew _ _ payload => payloadFits payload
  | .release _ _ payload => payloadFits payload
  | .cancel _ _ payload => payloadFits payload
  | .faults _ _ payload => payloadFits payload
  | .clearFaults _ _ payload => payloadFits payload
  | .faultPolicy _ _ payload => payloadFits payload
  | .unknownKindRequest _ kind _ payload => payloadFits payload && !(knownKind kind)
  | .receiveCharacter _ _ => true
  | .characterError _ => true
  | .frameComplete _ body _ => decide (2 ≤ body.length) && decide (body.length ≤ 66)
  | .gapLimitExpiry _ => true
  | .lineBreak _ => true
  | .itemBoundary _ => true
  | .transmissionEnd _ => true
  | .spacingExpiry _ => true
  | .segmentTimeout _ _ => true
  | .keepaliveLapse _ => true
  | .holdLapse _ => true
  | .waitExpiry _ _ _ => true
  | .resetAssert _ => true
  | .resetRelease _ => true
  | .storeInitComplete => true
  | .bitError _ places => !(places.isEmpty) && decide places.Nodup
  | .breakEnd _ => true

end Sys2Proof
end

