-- ==== Sys2Proof/Tests/Slice0.lean ====
section
/-!
SUPPORT. Tests on fixed values: the checks of WellFormed, single steps whose expected values are the manual's own
(its worked sequences and tables, named at each test), and for each statement of Certificates/Slice0 with hypotheses a
theorem `witness_<Name>` that shows concrete values which meet them, clause by clause, at the bounds of their ranges.
-/

namespace Sys2Proof.Tests

open Sys2Proof Sys2Proof.Machine

set_option Elab.async false

/-! ### Small states -/

/-- The state a step answers. -/
def result (i : Instr) (s : State) : State :=
  match exec i s with
  | .next t => t
  | _ => s

/-- Kind and payload of the frame handed over last to the transmitter of link `x`. -/
def lastFrame (x : Station) (s : State) : Option (Byte × List Byte) :=
  (linkOf x s).tx.getLast?.map fun t => (t.frame.kind, t.frame.payload)

/-- What is handed over last on link `x` when `i` runs. -/
def reply (x : Station) (i : Instr) (s : State) : Option (Byte × List Byte) := lastFrame x (result i s)

/-- Station `x` PRESENT in an epoch with a keepalive period of 500 ms. -/
def withPresent (x : Station) (epoch : Half) (s : State) : State :=
  setUnit x { unitOf x s with
    record := { (unitOf x s).record with
      presence := .present, epoch := epoch, period := 500, keepaliveTimer := some 400, joinMode := some .resume } } s

/-- Both stations PRESENT in epoch 1, nothing else. -/
def both : State := withPresent .b 1 (withPresent .a 1 State.reset)

def marks : Params := { depth := 4, quota := 16, high := 3, low := 1 }

def message (seq : Half) (state : MsgState) (length : Nat) (blocks : List (Fin 256)) : Message :=
  { seq := seq, length := length, blocks := blocks, state := state, redelivered := false, damaged := false, epoch := 1 }

/-- Channel 0 with station A at the sender end and station B at the receiver end and this queue. -/
def channel (queue : List Message) (reserved charged : Nat) : Channel :=
  { sender := { holder := some .a, dormant := false }, receiver := { holder := some .b, dormant := false },
    arrivalOption := true, params := some marks, nextSeq := 12, queue := queue, reserved := reserved
    charged := charged, congested := false }

/-- `k` blocks are no longer in the free pool. -/
def withBlocksTaken (k : Nat) (s : State) : State :=
  setStore { s.store with freePool := s.store.freePool.drop k } s

/-- Channel 0 of `both` open and empty. -/
def openEmpty : State := setChan 0 (channel [] 0 0) both

/-- Channel 0 with message 10 LENT and message 11 QUEUED, in blocks 0 and 1. -/
def openTwo : State :=
  withBlocksTaken 2 (setChan 0 (channel [message 10 .lent 20 [0], message 11 .queued 30 [1]] 0 2) both)

/-- Channel 0 with eight messages LENT and one QUEUED, each in one block. -/
def openNine : State :=
  withBlocksTaken 9 (setChan 0
    { channel ((List.range 9).map fun i =>
        message (BitVec.ofNat 16 i) (if i < 8 then .lent else .queued) 1 [Fin.ofNat 256 i]) 0 9 with
      params := some { marks with depth := 32, high := 32 } } both)

/-- Station A stages a message of 70 bytes on channel 0, 60 of them received, in blocks 0 to 2. -/
def stagedFor (timer : Nat) : State :=
  let s := withBlocksTaken 3 (setChan 0 (channel [] 1 3) both)
  setUnit .a { unitOf .a s with
    staging :=
      [{ channel := 0, total := 70, received := 60, blocks := [0, 1, 2], damaged := false, timer := timer }] } s

def staged : State := stagedFor 250

/-- Station B's draw on channel 0 of `openTwo`. -/
def someDraw (phase : DrawPhase) (remaining spacing : Nat) (mode : DeliveryMode) (halt : Option Byte) : Draw :=
  { channel := 0, tag := 0x51, requestCrc := 0, mode := mode, remaining := remaining, spacing := spacing
    cursor := (match mode with | .lend => none | .peek => some 10), itemsSent := 1, haltTag := halt, phase := phase }

def drawing (d : Draw) (tx : List TxEntry) (s : State) : State :=
  setLink .b { linkOf .b s with tx := tx, txClocks := 18433 } (setUnit .b { unitOf .b s with draw := some d } s)

/-- An item frame in transmission. -/
def itemEntry : TxEntry := { frame := { kind := 0xC0, tag := 0x51, payload := [0x00] }, drawItem := true }

/-- A reply in transmission. -/
def replyEntry : TxEntry := { frame := { kind := 0x83, tag := 0x50, payload := [0x00] }, drawItem := false }

/-- Entry 3 held by station A, client 1, under fence 7, with these waiters. -/
def heldFor (remaining : Nat) (fence : Word) (waiters : List Waiter) : State :=
  setLease 3
    { hold := some { station := .a, client := 1, remaining := remaining, granted := 300 }, fence := fence
      waiters := waiters
      last := some { station := .a, client := 0, fence := 6, ending := .released } }
    (setWaitCount .b waiters.length both)

def held : Word → List Waiter → State := heldFor 300

def waiter (client : Fin 8) (wait : Nat) : Waiter :=
  { station := .b, client := client, duration := 500, wait := wait }

/-- Every fault kind of station `x` reported and SEVERE. -/
def withSevere (x : Station) (s : State) : State :=
  setUnit x { unitOf x s with faults := applyPolicy (unitOf x s).faults (List.replicate 9 (true, .severe)) } s

/-- The receiver of link A in this state. -/
def receiving (r : RxState) : State :=
  setLink .a { linkOf .a both with rx := { (linkOf .a both).rx with state := r } } both

/-- `q` as station B's notice queue. -/
def noticed (q : List Notice) : State := setUnit .b { unitOf .b both with notices := q } both

/-- 23 entries that do not coalesce. -/
def fullNotices : List Notice := (List.range 23).map fun i => .leaseLapsed 8 0 (BitVec.ofNat 32 i)

/-- Station B's signal set with flag 0 at 15 and this mask. -/
def signalled (mask : Half) : State :=
  setUnit .b { unitOf .b both with
    signals := { counts := (Vector.replicate 16 0).set 0 15, mask := mask, saturated := false } } both

/-! ### Well-formed commands -/

def longPayload : List Byte := List.replicate 65 0x00

/-- 11.1: a payload of 64 bytes fits every request, one of 65 fits none. -/
theorem test_wellFormed_refuses_a_long_payload :
    [Instr.join .a 0 longPayload, .leave .a 0 longPayload, .keepalive .a 0 longPayload, .identify .a 0 longPayload,
      .inquireChannel .a 0 longPayload, .inquireStore .a 0 (0x03 :: longPayload),
      .inquireLease .a 0 (0x02 :: longPayload),
      .inquireStation .a 0 (0x04 :: longPayload), .collect .a 0 longPayload, .raise .a 0 longPayload,
      .accept .a 0 longPayload, .mask .a 0 longPayload, .open_ .a 0 longPayload, .close .a 0 longPayload,
      .post .a 0 longPayload, .segmentFirst .a 0 longPayload, .segmentMiddle .a 0 (0x00 :: 0x02 :: longPayload),
      .segmentLast .a 0 (0x00 :: 0x03 :: longPayload), .abandon .a 0 longPayload, .fetchLend .a 0 longPayload,
      .fetchPeek .a 0 (0x00 :: 0x02 :: longPayload), .read .a 0 longPayload, .retire .a 0 longPayload,
      .return_ .a 0 longPayload, .purge .a 0 longPayload, .draw .a 0 longPayload, .halt .a 0 longPayload,
      .acquire .a 0 longPayload, .renew .a 0 longPayload, .release .a 0 longPayload, .cancel .a 0 longPayload,
      .faults .a 0 longPayload, .clearFaults .a 0 longPayload, .faultPolicy .a 0 longPayload,
      .unknownKindRequest .a 0xFF 0 longPayload].all (fun i => !i.wellFormed) = true ∧
    (Instr.post .a 0 (List.replicate 64 0x00)).wellFormed = true := by decide

/-- R158, R159: a selector of another row. -/
theorem test_wellFormed_refuses_another_rows_selector :
    [Instr.inquireChannel .a 0 [0x02, 0], .inquireChannel .a 0 [0x03], .inquireChannel .a 0 [0x04],
      .inquireStore .a 0 [0x04], .inquireLease .a 0 [0x01, 0], .inquireStation .a 0 [0x03],
      .segmentFirst .a 0 [0, 0x02, 0], .segmentFirst .a 0 [0, 0x03, 0], .segmentMiddle .a 0 [0, 0x03, 0],
      .segmentLast .a 0 [0, 0x01, 0, 0], .fetchLend .a 0 [0, 0x02], .fetchPeek .a 0 [0, 0x01]].all
      (fun i => !i.wellFormed) = true := by decide

theorem test_wellFormed_refuses_a_known_kind_as_unknown :
    (Instr.unknownKindRequest .a 0x20 0 []).wellFormed = false ∧
      (Instr.unknownKindRequest .a 0x05 0 []).wellFormed = true := by decide

/-- R139: a body has 2 to 66 bytes. -/
theorem test_wellFormed_refuses_a_body_out_of_range :
    (Instr.frameComplete .a [0x03] 0).wellFormed = false ∧
      (Instr.frameComplete .a (List.replicate 67 0x00) 0).wellFormed = false ∧
      (Instr.frameComplete .a (List.replicate 66 0x00) 0).wellFormed = true := by decide

theorem test_wellFormed_refuses_empty_or_repeated_bit_errors :
    (Instr.bitError 0 []).wellFormed = false ∧
      (Instr.bitError 0 [.data 3 1, .data 3 1]).wellFormed = false ∧
      (Instr.bitError 0 [.data 3 1, .check 0]).wellFormed = true := by decide

/-! ### Single steps with the manual's values -/

/-- The table gives no row any bits. -/
theorem test_no_word_spells_a_command : decodeTableWord 8 0x20 = none ∧ State.withFetchWord both 8 0x20 = both := by
  decide +kernel

/-- R141's polynomial and initial value: the CRC of the digits 1 to 9. -/
theorem test_crc_of_nine_digits :
    crc16 [0x31, 0x32, 0x33, 0x34, 0x35, 0x36, 0x37, 0x38, 0x39] = 0x29B1 := by decide +kernel

/-- 11.7 and R137: a bit takes 160 clock periods at 115,200 bit/s and 20 at 921,600. -/
theorem test_bit_clocks :
    [bitClocks ⟨false, false⟩, bitClocks ⟨false, true⟩, bitClocks ⟨true, false⟩, bitClocks ⟨true, true⟩] =
      [160, 80, 40, 20] := by decide

/-- 1.7, event 1. -/
theorem test_open_1_7_event_1 :
    reply .a (.open_ .a 1 [2, 1, 1, 0, 16, 0, 64, 12, 4]) both = some (0x98, [0x00, 0x01, 16, 0, 64, 12, 4, 0, 0]) ∧
      (unitOf .b (result (.open_ .a 1 [2, 1, 1, 0, 16, 0, 64, 12, 4]) both)).notices = [.channelOpened 2 .send] := by
  decide +kernel

/-- 2.6, event 1, with a POST of 62 bytes in place of 70: two blocks, filler 00H. -/
theorem test_post_takes_the_lowest_blocks :
    let t := result (.post .a 1 ([0, 0] ++ List.replicate 62 0x55)) openEmpty
    (chanOf 0 t).queue.map (·.blocks) = [[0, 1]] ∧ t.store.freePool.length = 254 ∧
      Memory.read t.store.mem 61 = 0x55 ∧ Memory.read t.store.mem 62 = 0x00 := by decide +kernel

/-- 3.5, event 1: SEGMENT FIRST with total 150 and 60 bytes. -/
theorem test_segment_first_3_5_event_1 :
    let t := result (.segmentFirst .a 1 ([0, 1, 0, 150] ++ List.replicate 60 0x11)) openEmpty
    lastFrame .a t = some (0xA1, [0x00, 0, 60, 0, 150]) ∧ t.store.freePool.length = 251 ∧
      occupancy (chanOf 0 t) = 1 ∧ (chanOf 0 t).charged = 5 := by decide +kernel

/-- 3.5: the LAST segment completes the staged message, which takes the next number. -/
theorem test_segment_last_appends :
    reply .a (.segmentLast .a 1 ([0, 3] ++ List.replicate 10 0x22)) staged = some (0xA1, [0x00, 0, 12, 1]) ∧
      reply .a (.segmentLast .a 1 ([0, 3] ++ List.replicate 9 0x22)) staged =
        some (0xA1, [Status.code .short, 0, 69, 0, 70]) := by decide +kernel

/-- 3.5, event 6: the segment timer runs out. -/
theorem test_segment_timeout :
    let t := result (.segmentTimeout .a 0) (stagedFor 0)
    (unitOf .a t).staging = [] ∧ t.store.freePool.length = 256 ∧
      (unitOf .a t).notices = [.stagingExpired 0 60 70, .fault .stagingExpired 1] := by decide +kernel

/-- 4.11, event 1: FETCH in LEND mode carries the oldest QUEUED message; event 6: READ of a QUEUED one. -/
theorem test_fetch_and_read :
    (reply .b (.fetchLend .b 1 [0, 1]) openTwo).map (fun r => r.2.take 7) = some [0x00, 0, 11, 0, 30, 0x00, 0] ∧
      reply .b (.read .b 1 [0, 0, 11, 0, 0]) openTwo = some (0xA9, [Status.code .notLent]) := by decide +kernel

/-- 4.11: a partial retire removes the LENT prefix up to the number named. -/
theorem test_retire_and_return :
    reply .b (.retire .b 1 [0, 0, 5]) openNine = some (0xAA, [0x00, 6, 3]) ∧
      reply .b (.return_ .b 1 [0]) openNine = some (0xAB, [0x00, 8]) := by decide +kernel

/-- 5.8, time 2000: the first item of a draw. -/
theorem test_draw_first_item :
    let t := result (.draw .b 0x51 [0, 5, 1, 10]) openTwo
    (lastFrame .b t).map (fun r => (r.1, r.2.take 7)) = some (0xC0, [0x00, 4, 0, 11, 0, 30, 0x00]) ∧
      ((unitOf .b t).draw.map fun d => (d.remaining, d.itemsSent)) = some (4, 1) := by decide +kernel

/-- 5.8, time 2026: HALT in phase SPACING. End frame first, then the HALT reply. -/
theorem test_halt_in_spacing :
    let t := result (.halt .b 0x54 []) (drawing (someDraw (.spacing 7) 2 10 .lend none) [] openTwo)
    (linkOf .b t).tx.map (fun e => (e.frame.kind, e.frame.tag, e.frame.payload)) =
      [(0xC1, 0x51, [0x00, 0x04, 1]), (0xAE, 0x54, [0x00])] ∧ (unitOf .b t).draw = none := by decide +kernel

/-- 6.9, events 1 and 2: a grant and BUSY. -/
theorem test_acquire_6_9 :
    reply .a (.acquire .a 1 [3, 1, 0, 200, 0, 0])
        (setLease 3 { hold := none, fence := 6, waiters := [], last := none } both) =
      some (0xB0, [0x00, 0, 0, 0, 7, 0, 200]) ∧
    reply .b (.acquire .b 1 [3, 2, 0x01, 0xF4, 0, 0]) (held 7 []) =
      some (0xB0, [Status.code .busy, Station.code .a, 1, 0x01, 0x2C]) := by decide +kernel

/-- 6.9, event 6: the hold lapses and the head waiter is granted. -/
theorem test_hold_lapse_6_9 :
    let t := result (.holdLapse 3) (heldFor 0 7 [waiter 2 660])
    (leaseOf 3 t).hold = some { station := .b, client := 2, remaining := 500, granted := 500 } ∧
      (leaseOf 3 t).fence = 8 ∧ (unitOf .a t).notices = [.leaseLapsed 3 1 7] ∧
      (unitOf .b t).notices = [.leaseGranted 3 2 8 500] ∧ t.waitCounts.b = 0 := by decide +kernel

/-- R102, rows 1 and 2: a lapse taken behind a RENEW, or behind a RELEASE that granted a waiter, does not happen. -/
theorem test_lapse_behind_renew_or_release :
    (∀ i ∈ [Instr.renew .a 1 [3, 1, 0, 0, 0, 7, 0, 200], .release .a 1 [3, 1, 0, 0, 0, 7]],
      let t := result i (heldFor 0 7 [waiter 2 660])
      result (.holdLapse 3) t = t) := by decide +kernel

/-- 7.5, event 5: with 23 regular entries the offer is dropped, and the FAULT offer after it. -/
theorem test_overflow_7_5_event_5 :
    let t := offer .b (.leaseLapsed 5 1 12) (noticed fullNotices)
    (unitOf .b t).notices = fullNotices ++ [.overflow 2] ∧
      (unitOf .b t).faults.kinds.noticeLoss.count = 1 := by decide +kernel

/-- 7.5, event 3: RAISE of a masked flag offers nothing; the count rises. -/
theorem test_raise_masked :
    let t := result (.raise .a 1 [0x00, 0x10]) both
    lastFrame .a t = some (0x93, [0x00, 0, 1, 0, 0]) ∧ signalCount (unitOf .b t).signals 4 = 1 ∧
      (unitOf .b t).notices = [] := by decide +kernel

/-- 8.9, time 10050: a break returns the LENT messages and makes the end dormant. -/
theorem test_break_8_9 :
    let t := result (.lineBreak .b) openTwo
    (chanOf 0 t).receiver = { holder := some .b, dormant := true } ∧
      (chanOf 0 t).queue.map (fun m => (m.state, m.redelivered)) = [(.queued, true), (.queued, false)] ∧
      (unitOf .a t).notices = [.peerDeparted .lineBreak 1] := by decide +kernel

/-- 8.9, time 10400: KEEPALIVE of an ABSENT station. -/
theorem test_keepalive_absent_8_9 :
    reply .b (.keepalive .b 1 []) (result (.lineBreak .b) (withPresent .b 3 both)) = none ∧
      reply .b (.keepalive .b 1 []) (result (.breakEnd .b) (result (.lineBreak .b) (withPresent .b 3 both))) =
        some (0x83, [Status.code .notJoined, 0, 3, Cause.code .lineBreak]) := by decide +kernel

/-- 9.8, event 1: COLLECT takes the pending entries and numbers them. -/
theorem test_collect_numbers :
    reply .b (.collect .b 0x40 [6]) (noticed [.arrival 1, .signalsPending]) =
      some (0x92, [0x00, 2, 0, 0, 0, Notice.kindCode (.arrival 1), 1, 0, 0, 0, 0, 0, 0,
        0, 1, Notice.kindCode .signalsPending, 0, 0, 0, 0, 0, 0, 0]) := by decide +kernel

/-- R149: IDENTIFY. -/
theorem test_identify :
    reply .a (.identify .a 1 []) State.reset =
      some (0x84, [0x00, 0x0B, 0x7C, 0x24, 0x10, 0x03, 0, 0, 8, 1, 0, 16]) := by decide +kernel

/-- R29 and R30 through a FETCH: one wrong bit is corrected, two mark the message damaged. -/
theorem test_fetch_with_bit_errors :
    let one := result (.fetchLend .b 1 [0, 1]) (result (.bitError 1 [.data 0 0]) openTwo)
    let two := result (.fetchLend .b 1 [0, 1]) (result (.bitError 1 [.data 0 0, .check 1]) openTwo)
    one.store.health.corrected = 1 ∧ Memory.read one.store.mem 32 = 0x00 ∧
      two.store.health.uncorrectable = 1 ∧ (unitOf .b two).faults.kinds.damagedDelivery.count = 1 := by decide +kernel

/-- The states above meet the laws that every step keeps. -/
theorem test_small_states_meet_the_laws :
    (MemoryCanonical openNine ∧ LentFirstLaw openNine ∧ ChannelLaw staged ∧ NoticeLaw (noticed fullNotices) ∧
      LeaseLaw (held 7 [waiter 2 1, waiter 3 1]) ∧ WaitCountLaw (held 7 [waiter 2 1, waiter 3 1]) ∧
      SequenceLaw openNine) ∧ StationLaw staged :=
  ⟨by decide +kernel, by decide +kernel, by decide +kernel⟩

/-! ### Witnesses: the part and the links -/

def inPhase (p : Phase) : State := resetState p ⟨⟨false, false⟩, ⟨false, false⟩⟩ [] 0

theorem witness_LinksWaitForTheStore :
    (inPhase .inReset).phase = .inReset ∧ (inPhase .initialising).phase = .initialising ∧
      (inPhase .inReset).phase ≠ .running ∧ (inPhase .initialising).phase ≠ .running := by decide

theorem witness_BitErrorsChangeTheirBlock :
    both.phase = .running ∧ wrongBits both.store 0 = [] ∧ wrongBits both.store 255 = [] ∧
      MemoryCanonical both ∧ (1 : Fin 256) ≠ 0 ∧
      (0 < blockBase 1 ∨ blockBase 1 + 32 ≤ 0) ∧ (64 < blockBase 1 ∨ blockBase 1 + 32 ≤ 64) ∧
      BitPlace.data 31 7 ≠ .check 0 := by decide +kernel

/-- No draw, a draw in SENDING and one in SPACING, none with an event due. -/
theorem witness_MillisecondLowersEveryTimer :
    both.pending = [] ∧ both.phase = .running ∧ dueEvents both = [] ∧ (unitOf .b both).draw = none ∧
    (∀ d ∈ [someDraw .sending 2 10 .lend none, someDraw (.spacing 2) 2 10 .lend none],
      dueEvents (drawing d [itemEntry] openTwo) = [] ∧ (drawing d [itemEntry] openTwo).pending = [] ∧
        (unitOf .b (drawing d [itemEntry] openTwo)).draw = some d) ∧
    dueEvents (held 7 [waiter 2 660]) = [] := by decide +kernel

/-- One event due, two due, device reset, and the store initialisation. -/
theorem witness_MillisecondLowersEveryTimer_with_events_due :
    (dueEvents (heldFor 0 7 []) = [.holdLapse 3] ∧ (heldFor 0 7 []).pending = []) ∧
    (dueEvents (heldFor 0 7 [waiter 2 0]) = [.holdLapse 3, .waitExpiry 3 .b 2] ∧
      (heldFor 0 7 [waiter 2 0]).pending = [] ∧ (heldFor 0 7 [waiter 2 0]).phase = .running) ∧
    ((inPhase .inReset).pending = [] ∧ (inPhase .inReset).phase = .inReset) ∧
    (inPhase .initialising).pending = [] ∧ (inPhase .initialising).phase = .initialising :=
  ⟨⟨rfl, rfl⟩, ⟨rfl, rfl, rfl⟩, ⟨rfl, rfl⟩, rfl, rfl⟩

/-- Each receiver state, with length bytes 1, 2, 66 and 67 and bodies of 2 and 66 bytes. -/
theorem witness_ReceiverFollowsItsStates :
    let full := List.replicate 66 0x11
    (∀ r ∈ [RxState.hunt, .length, .body 2 [], .body 2 [0x03], .body 66 (full.drop 1), .check 2 [0x03, 0x01] none,
        .check 2 [0x03, 0x01] (some 0x12), .check 66 full (some 0x12)],
      Running (receiving r) ∧ AdvisoryAt .a (receiving r) ∧ (linkOf .a (receiving r)).rx.inBreak = false ∧
        (linkOf .a (receiving r)).rx.state = r) ∧
    (2 ≤ (2 : Byte).toNat ∧ (66 : Byte).toNat ≤ 66 ∧ (1 : Byte).toNat < 2 ∧ 66 < (67 : Byte).toNat) ∧
    (([] : List Byte).length + 1 < (2 : Byte).toNat ∧ [(0x03 : Byte)].length + 1 = (2 : Byte).toNat ∧
      (full.drop 1).length + 1 = (66 : Byte).toNat ∧ full.length = (66 : Byte).toNat) := by decide +kernel

def waiting (n : Nat) : State :=
  setLink .a { linkOf .a both with inQueue := List.replicate n (requestFrame 0x03 0x01 []) } both

/-- An input queue with 3 frames and with 4, a payload of 0 and of 64 bytes, a right and a wrong CRC. -/
theorem witness_CompleteFrameIsCheckedAndQueued :
    (∀ n ∈ [0, 3, 4], Running (waiting n) ∧ AdvisoryAt .a (waiting n) ∧ (linkOf .a (waiting n)).rx.inBreak = false ∧
      (unitOf .a (waiting n)).draw = none ∧ (linkOf .a (waiting n)).inQueue.length = n ∧
      isPresent .a (waiting n) = true ∧ 0 < (unitOf .a (waiting n)).record.period) ∧
    isPresent .a State.reset = false ∧ Running State.reset ∧
    crc16 [0x02, 0x03, 0x01] ≠ 0 ∧ (List.replicate 64 (0x00 : Byte)).length ≤ 64 := by decide +kernel

/-- Station A with these frames waiting. -/
def waitingFor (frames : List Frame) (s : State) : State := setLink .a { linkOf .a s with inQueue := frames } s

/-- The oldest frame may be taken, of a PRESENT and of an ABSENT station; it waits for a draw's end, for a second frame
in the transmitter's list, or behind an older one; a frame arrives at an empty queue, behind 3 frames and behind 4. -/
theorem witness_CompleteFrameIsCheckedAndQueued_taken :
    let f := requestFrame 0x03 0x01 []
    let g := requestFrame 0x19 0x02 [0x00, 0x01]
    let d := someDraw .sending 1 10 .lend none
    (∀ s ∈ [both, State.reset], let s1 := waitingFor [f, g] s
      Running s1 ∧ (linkOf .a s1).inQueue = f :: [g] ∧ (unitOf .a s1).draw = none ∧ (linkOf .a s1).tx.length ≤ 1 ∧
        cacheMatch .a f s1 = none ∧ (linkOf .a s1).inQueue.head? ≠ some g ∧ g ∈ (linkOf .a s1).inQueue) ∧
    isPresent .a (waitingFor [f, g] State.reset) = false ∧ knownKind 0x03 = true ∧
    (∀ s ∈ [setUnit .a { unitOf .a both with draw := some d } both,
        setLink .a { linkOf .a both with tx := [replyEntry, replyEntry] } both],
      let s1 := waitingFor [f] s
      Running s1 ∧ f ∈ (linkOf .a s1).inQueue ∧ g ∉ (linkOf .a s1).inQueue ∧ (linkOf .a s1).rx.inBreak = false ∧
        ¬((unitOf .a s1).draw = none ∧ (linkOf .a s1).tx.length ≤ 1)) ∧
    g.kind ≠ 0x2E ∧
    (∀ n ∈ [0, 3, 4], Running (waiting n) ∧ AdvisoryAt .a (waiting n) ∧ (linkOf .a (waiting n)).rx.inBreak = false ∧
      g ∉ (linkOf .a (waiting n)).inQueue ∧ (unitOf .a (waiting n)).draw = none ∧
      (linkOf .a (waiting n)).tx.length ≤ 1 ∧ (linkOf .a (waiting n)).inQueue.length = n) := by decide +kernel

/-- During station B's draw: a HALT when one is recorded, one with a payload, and one that repeats a cached request are
not acted on at arrival, and the first to arrive otherwise is; a queue with room and a full one. -/
theorem witness_CompleteFrameIsCheckedAndQueued_halt :
    let halt := requestFrame 0x2E 0x54 []
    let long := requestFrame 0x2E 0x54 [0x00]
    let d := someDraw .sending 1 10 .lend none
    let s := drawing d [itemEntry] openTwo
    let recorded := drawing { d with haltTag := some 0x53 } [itemEntry] openTwo
    let cached := enterCache .b
      { tag := 0x54, kind := 0x2E, crc := halt.crc, reply := { kind := 0xAE, tag := 0x54, payload := [0x00] } } s
    HaltActs .b halt s ∧ ¬HaltActs .b halt recorded ∧ ¬HaltActs .b long s ∧ ¬HaltActs .b halt cached ∧
      halt.crc = crc16 [0x02, 0x2E, 0x54] ∧
    (∀ t ∈ [s, recorded, cached], Running t ∧ AdvisoryAt .b t ∧ (linkOf .b t).rx.inBreak = false ∧
      (linkOf .b t).inQueue.length < 4 ∧ halt ∉ (linkOf .b t).inQueue ∧
      ¬((unitOf .b t).draw = none ∧ (linkOf .b t).tx.length ≤ 1)) ∧
    (let full := setLink .b { linkOf .b recorded with inQueue := List.replicate 4 (requestFrame 0x03 0x01 []) } recorded
     ¬HaltActs .b halt full ∧ 4 ≤ (linkOf .b full).inQueue.length ∧ halt ∉ (linkOf .b full).inQueue) := by
  decide +kernel

theorem witness_SentFrameIsReceivedGood :
    (∀ s ∈ [both, State.reset, waiting 3], Running s ∧ (linkOf .a s).rx.state = .hunt ∧
      (linkOf .a s).rx.inBreak = false ∧ (unitOf .a s).draw = none ∧ (linkOf .a s).inQueue.length < 4) ∧
    ([] : List Byte).length ≤ 64 ∧ (List.replicate 64 (0xC3 : Byte)).length ≤ 64 := by decide +kernel

/-- Station A PRESENT with this keepalive time left. -/
def lapsingIn (t : Nat) : State :=
  setUnit .a { unitOf .a both with record := { (unitOf .a both).record with keepaliveTimer := some t } } both

theorem witness_BreakAndLapseMakeTheStationDepart :
    Running both ∧ Advisory both ∧ (linkOf .a both).rx.inBreak = false ∧ isPresent .a both = true ∧
    Running (lapsingIn 0) ∧ Advisory (lapsingIn 0) ∧ isPresent .a (lapsingIn 0) = true ∧
      (unitOf .a (lapsingIn 0)).record.keepaliveTimer = some 0 ∧
    Running (lapsingIn 1) ∧ Advisory (lapsingIn 1) ∧ (unitOf .a (lapsingIn 1)).record.keepaliveTimer ≠ some 0 ∧
    Running State.reset ∧ Advisory State.reset ∧ isPresent .a State.reset = false ∧
      (unitOf .a State.reset).record.keepaliveTimer = none ∧
    (let s := result (.lineBreak .a) both
     Running s ∧ Advisory s ∧ (linkOf .a s).rx.inBreak = true) := by decide +kernel

/-- Station A holds a sender end alone, station B a receiver end with a LENT message; entry 3 is A's, with no waiter,
with one, and with one under an exhausted fence; station B's queue has room for the LEASE_GRANTED and PEER_DEPARTED. -/
theorem witness_DepartureLeavesNothing :
    Cause.lineBreak ≠ .left ∧ holdsEnd .a (chanOf 0 openTwo).sender = true ∧
      holdsEnd .a (chanOf 0 openTwo).receiver = false ∧ holdsEnd .b (chanOf 0 openTwo).receiver = true ∧
      holdsEnd .b (chanOf 0 openTwo).sender = false ∧ stagingOn .a 1 openTwo = none ∧
      heldBy .b (leaseOf 3 (held 7 [])) = false ∧ heldBy .a (leaseOf 3 (held 7 [])) = true ∧
      (leaseOf 3 (held 7 [])).waiters.all (fun w => w.station != .b) = true ∧
      (∀ s ∈ [held 7 [waiter 2 1], held 0xFFFFFFFF [waiter 2 1]],
        (leaseOf 3 s).hold = some { station := .a, client := 1, remaining := 300, granted := 300 } ∧
        ((leaseOf 3 s).waiters.filter fun w => w.station == Station.a.peer) = waiter 2 1 :: [] ∧
        isPresent Station.a.peer s = true ∧ (unitOf Station.a.peer s).notices = [] ∧ (unitOf .a s).staging = []) ∧
      ((leaseOf 3 (held 7 [])).waiters.filter fun w => w.station == Station.a.peer) = [] ∧
      (leaseOf 3 (held 7 [waiter 2 1])).fence ≠ 0xFFFFFFFF ∧
      (unitOf .a staged).staging.all (fun r => holdsEnd .a (chanOf r.channel staged).sender) = true := by
  decide +kernel

theorem witness_SevereFaultDepartsAfterTheReply :
    let s := withSevere .a both
    let r := KindRecords.get (unitOf .a s).faults.kinds .malformed
    Ready .a (requestFrame 0x03 1 [0x00]) s ∧ isPresent .a s = true ∧ knownKind 0x03 = true ∧
      payloadRefusal 0x03 [0x00] = some .badLength ∧ r.reported = true ∧ r.severity = .severe ∧ AdvisoryAt .b s := by
  decide +kernel

/-- Station `x` of `s` with an input queue of this length, every kind of its faults SEVERE. -/
def severeWith (n : Nat) (x : Station) (s : State) : State :=
  withSevere x (setLink x { linkOf x s with inQueue := List.replicate n (requestFrame 0x03 0x01 []) } s)

/-- Messages 10, LENT, and 11, QUEUED, each with a block that holds two wrong bits. -/
def twoDamaged : State :=
  result (.bitError 1 [.data 0 0, .data 0 1]) (result (.bitError 0 [.data 0 0, .data 0 1]) openTwo)

/-- Each kind: a queue of 4 frames, the receiver in LENGTH, BODY and CHECK, a staging record and a waiter whose timers
are at zero under a full notice queue, a peer whose keepalive timer is, and messages with two wrong bits for a FETCH, a
READ, a DRAW and an item after a spacing. -/
theorem witness_SevereFaultsMakeTheStationDepart :
    let full := noticed fullNotices
    let waits := severeWith 0 .b (setLease 3 (leaseOf 3 (held 7 [waiter 2 0])) full)
    let lapse := withSevere .b (setUnit .a (unitOf .a (lapsingIn 0)) full)
    let spacing := withSevere .b (drawing (someDraw (.spacing 0) 1 10 .peek none) [] twoDamaged)
    let damaged := withSevere .b twoDamaged
    (∀ s ∈ [severeWith 4 .a both, withSevere .a (receiving .length), withSevere .a (receiving (.body 2 [0x03])),
        withSevere .a (receiving (.check 2 [0x03, 0x01] none)), withSevere .a (stagedFor 0)],
      Running s ∧ isPresent .a s = true ∧ AdvisoryAt .b s ∧ (linkOf .a s).rx.inBreak = false ∧
        ∀ k ∈ allFaultKinds, (KindRecords.get (unitOf .a s).faults.kinds k).reported = true ∧
          (KindRecords.get (unitOf .a s).faults.kinds k).severity = .severe) ∧
    (∀ s ∈ [waits, lapse, spacing, damaged],
      Running s ∧ isPresent .b s = true ∧ AdvisoryAt .a s ∧ (linkOf .b s).rx.inBreak = false ∧
        ∀ k ∈ allFaultKinds, (KindRecords.get (unitOf .b s).faults.kinds k).reported = true ∧
          (KindRecords.get (unitOf .b s).faults.kinds k).severity = .severe) ∧
    crc16 [0x02, 0x03, 0x01] ≠ 0 ∧ 4 ≤ (linkOf .a (severeWith 4 .a both)).inQueue.length ∧
      (unitOf .a (severeWith 4 .a both)).draw = none ∧
    Ready .a (requestFrame 0x05 1 []) (withSevere .a both) ∧ knownKind 0x05 = false ∧
    ((stagingOn .a 0 (withSevere .a (stagedFor 0))).map fun v => v.timer) = some 0 ∧
    NoticesOk (unitOf .b waits).notices ∧ 23 ≤ (unitOf .b waits).notices.length ∧
      (leaseOf 3 waits).waiters = [] ++ waiter 2 0 :: [] ∧
    NoticesOk (unitOf .b lapse).notices ∧ 23 ≤ (unitOf .b lapse).notices.length ∧
      isPresent Station.b.peer lapse = true ∧ (unitOf Station.b.peer lapse).record.keepaliveTimer = some 0 := by
  decide +kernel

theorem witness_SevereFaultsMakeTheStationDepart_by_damage :
    let spacing := withSevere .b (drawing (someDraw (.spacing 0) 1 10 .peek none) [] twoDamaged)
    let damaged := withSevere .b twoDamaged
    holdsActive .b (chanOf 0 damaged).receiver = true ∧
      (chanOf 0 damaged).queue.find? isQueued = some (message 11 .queued 30 [1]) ∧ lentCount (chanOf 0 damaged) < 8 ∧
      (deliver 0 (message 11 .queued 30 [1]) 0 30 damaged).2.2 = true ∧
      Ready .b (requestFrame 0x28 1 [0x00, 0x01]) damaged ∧ Ready .b (requestFrame 0x28 1 [0x00, 0x02]) damaged ∧
      Ready .b (requestFrame 0x2D 1 [0x00, 1, 1, 0]) damaged ∧ Ready .b (requestFrame 0x2D 1 [0x00, 8, 2, 15]) damaged ∧
    Ready .b (requestFrame 0x29 1 [0x00, 0, 10, 0, 19]) damaged ∧
      (chanOf 0 damaged).queue.find? (fun m => isLent m && m.seq == 10) = some (message 10 .lent 20 [0]) ∧
      (deliver 0 (message 10 .lent 20 [0]) 19 1 damaged).2.2 = true ∧
    (unitOf .b spacing).draw = some (someDraw (.spacing 0) 1 10 .peek none) ∧
      (((chanOf 0 spacing).queue.dropWhile fun m => m.seq != 10).drop 1).find? isQueued =
        some (message 11 .queued 30 [1]) ∧
      (deliver 0 (message 11 .queued 30 [1]) 0 30 spacing).2.2 = true := by decide +kernel

/-- Station B's MASK uncovers flag 0 under a full notice queue; station A's ABANDON ends a congestion under one. -/
theorem witness_SevereFaultsMakeTheStationDepart_by_notice_loss :
    let masked := withSevere .b (setUnit .b { unitOf .b (signalled 0xFFFF) with notices := fullNotices } both)
    let congested := withSevere .a (setUnit .a { unitOf .a staged with notices := fullNotices }
      (setChan 0 { chanOf 0 staged with congested := true } staged))
    let v : Staging :=
      { channel := 0, total := 70, received := 60, blocks := [0, 1, 2], damaged := false, timer := 250 }
    (Running masked ∧ isPresent .b masked = true ∧ AdvisoryAt .a masked ∧
      (KindRecords.get (unitOf .b masked).faults.kinds .noticeLoss).reported = true ∧
      (KindRecords.get (unitOf .b masked).faults.kinds .noticeLoss).severity = .severe ∧
      NoticesOk (unitOf .b masked).notices ∧ 23 ≤ (unitOf .b masked).notices.length ∧
      Ready .b (requestFrame 0x15 1 (halfBytes 0xFFFE)) masked ∧ .signalsPending ∉ (unitOf .b masked).notices ∧
      (unitOf .b masked).signals.mask.getLsbD 0 = true ∧ (0xFFFE : Half).getLsbD 0 = false ∧
      (unitOf .b masked).signals.counts[(0 : Fin 16)] ≠ 0) ∧
    (Running congested ∧ isPresent .a congested = true ∧ AdvisoryAt .b congested ∧
      (KindRecords.get (unitOf .a congested).faults.kinds .noticeLoss).reported = true ∧
      (KindRecords.get (unitOf .a congested).faults.kinds .noticeLoss).severity = .severe ∧
      NoticesOk (unitOf .a congested).notices ∧ (unitOf .a congested).notices = fullNotices ∧
      Ready .a (requestFrame 0x22 1 [byteOf (0 : Fin 8).val]) congested ∧
      holdsActive .a (chanOf 0 congested).sender = true ∧ stagingOn .a 0 congested = some v ∧
      (chanOf 0 congested).params = some marks ∧ (chanOf 0 congested).congested = true ∧
      (chanOf 0 congested).queue.length ≤ marks.low) ∧
    23 ≤ fullNotices.length := by decide +kernel

theorem witness_SevereFaultsMakeTheStationDepart_no_flow (w : Bool) (o : Nat) : .flow 0 w o ∉ fullNotices := by
  simp [fullNotices]

/-- A damaged item is picked at an item boundary with spacing 0, alone in the transmitter's list and before a reply. -/
theorem witness_SevereFaultsMakeTheStationDepart_at_an_item_boundary :
    ∀ rest ∈ [[], [replyEntry]],
      let d := someDraw .sending 1 0 .peek none
      let s := withSevere .b (drawing d (itemEntry :: rest) twoDamaged)
      Running s ∧ isPresent .b s = true ∧ AdvisoryAt .a s ∧
        (KindRecords.get (unitOf .b s).faults.kinds .damagedDelivery).reported = true ∧
        (KindRecords.get (unitOf .b s).faults.kinds .damagedDelivery).severity = .severe ∧
        (linkOf .b s).tx = itemEntry :: rest ∧ itemEntry.drawItem = true ∧ (unitOf .b s).draw = some d ∧
        d.remaining ≠ 0 ∧ d.haltTag = none ∧ d.spacing = 0 ∧ holdsActive .b (chanOf d.channel s).receiver = true ∧
        (((chanOf 0 s).queue.dropWhile fun m => m.seq != 10).drop 1).find? isQueued =
          some (message 11 .queued 30 [1]) ∧ d.mode = .peek ∧
        (deliver 0 (message 11 .queued 30 [1]) 0 30 (setLink .b { linkOf .b s with tx := rest } s)).2.2 = true := by
  decide +kernel

/-! ### Witnesses: request handling -/

theorem witness_RepeatIsAnsweredFromTheCache :
    let s := setLink .a { linkOf .a both with tx := [] } (result (.keepalive .a 1 []) both)
    TakenAtOnce .a s ∧ (cacheMatch .a (requestFrame 0x03 1 []) s).isSome = true := by decide +kernel

/-- Kinds 02H and 3AH of an ABSENT station, and kinds 05H and FFH, which are unknown, in either state. -/
theorem witness_AbsentAndUnknownKindAreRefused :
    Ready .a (requestFrame 0x02 1 []) State.reset ∧ Ready .a (requestFrame 0x3A 1 []) State.reset ∧
    knownKind 0x02 = true ∧ knownKind 0x3A = true ∧ isPresent .a State.reset = false ∧
    Ready .a (requestFrame 0x05 1 []) both ∧ Ready .a (requestFrame 0xFF 1 []) State.reset ∧
    knownKind 0x05 = false ∧ knownKind 0xFF = false ∧ knownKind 0x00 = false ∧
    AdvisoryAt .a both ∧ AdvisoryAt .a State.reset ∧ isPresent .a both = true := by decide +kernel

theorem witness_MalformedRequestIsRefused :
    (∀ s ∈ [both, State.reset], Ready .a (requestFrame 0x04 1 [0x00]) s ∧ AdvisoryAt .a s) ∧
      Ready .a (requestFrame 0x12 1 [0x07]) both ∧ isPresent .a both = true ∧ isPresent .a State.reset = false ∧
      kindForAbsent 0x04 = true ∧ knownKind 0x04 = true ∧ knownKind 0x12 = true ∧
      payloadRefusal 0x04 [0x00] = some .badLength ∧ payloadRefusal 0x12 [0x07] = some .badField := by decide +kernel

/-- Lengths allowed and not; DRAW counts 0, 1, 8 and 9, spacings 15 and 16, keepalive periods 49, 50 and 60,000. -/
theorem witness_LengthsFollowTheTable :
    knownKind 0x01 = true ∧ knownKind 0x3A = true ∧ payloadRefusal 0x20 [0x00] = some .badLength ∧
      lengthAllowed 0x20 [0x00] = false ∧ lengthAllowed 0x20 (List.replicate 64 0x00) = true ∧
    (∀ p ∈ [[(7 : Byte), 1, 1, 0], [7, 8, 2, 15]], lengthAllowed 0x2D p = true ∧ fieldsInRange 0x2D p = true) ∧
    (∀ p ∈ [[(8 : Byte), 1, 1, 0], [7, 0, 1, 0], [7, 9, 1, 0], [7, 1, 3, 0], [7, 1, 1, 16]],
      lengthAllowed 0x2D p = true ∧ fieldsInRange 0x2D p = false) ∧
    fieldsInRange 0x01 [0, 49, 1, 0, 0, 0, 0] = false ∧ fieldsInRange 0x01 [0, 50, 1, 0, 0, 0, 0] = true ∧
      fieldsInRange 0x01 [0xEA, 0x60, 2, 0, 0, 0, 0] = true ∧
      fieldsInRange 0x01 [0xEA, 0x61, 2, 0, 0, 0, 0] = false := by
  decide +kernel

/-! ### Witnesses: presence and inquiries -/

def joinPayload (period : Half) (mode : JoinMode) : List Byte :=
  halfBytes period ++ [joinModeByte (some mode)] ++ wordBytes 0x5A310002

/-- Periods 0, 50 and 60,000; both modes; ABSENT, with dormant ends, and PRESENT. -/
theorem witness_JoinMakesTheStationPresent :
    let s := result (.breakEnd .b) (result (.lineBreak .b) openTwo)
    (∀ m ∈ [JoinMode.resume, .fresh], Ready .b (requestFrame 0x01 1 (joinPayload 0 m)) s ∧
      Ready .b (requestFrame 0x01 1 (joinPayload 50 m)) s ∧
      Ready .b (requestFrame 0x01 1 (joinPayload 60000 m)) openTwo) ∧
      50 ≤ (50 : Half).toNat ∧ (60000 : Half).toNat ≤ 60000 ∧
      Advisory s ∧ Advisory openTwo ∧ isPresent .b s = false ∧ isPresent .b openTwo = true ∧
      holdsEnd .b (chanOf 0 s).sender = false ∧ (chanOf 0 s).receiver = { holder := some .b, dormant := true } ∧
      holdsEnd .b (chanOf 1 s).receiver = false ∧
      (unitOf .b s).notices = [] ∧ (chanOf 0 s).arrivalOption = true ∧ (chanOf 0 s).queue.any isQueued = true ∧
      isPresent Station.b.peer s = true ∧ (unitOf .b s).staging = [] ∧ (unitOf Station.b.peer s).notices.length ≤ 15 ∧
      endHeld (endOf Role.receive.other (chanOf 0 s)) = true := by decide +kernel

/-- Channel 0 with its sender end alone, with a QUEUED message, and with its receiver end alone. -/
def oneEnd (role : Role) : State :=
  match role with
  | .send => setChan 0 { channel [message 10 .queued 1 [0]] 0 1 with receiver := resetEnd } both
  | .receive => setChan 0 { channel [message 10 .queued 1 [0]] 0 1 with sender := resetEnd, congested := true } both

/-- FRESH closes an end whose other end is held, and one whose other end is free. -/
theorem witness_JoinMakesTheStationPresent_fresh :
    ∀ s0 ∈ [openTwo, oneEnd .receive], let s := result (.breakEnd .b) (result (.lineBreak .b) s0)
      Ready .b (requestFrame 0x01 1 (joinPayload 0 .fresh)) s ∧ Advisory s ∧ isPresent .b s = false ∧ ChannelLaw s ∧
        endOf .receive (chanOf 0 s) = { holder := some .b, dormant := true } ∧
        endHeld (endOf Role.receive.other (chanOf 0 s)) = endHeld (chanOf 0 s0).sender := by decide +kernel

/-- Channel 0 with its sender end alone and message 10 in block 0. -/
def lone : State := withBlocksTaken 1 (oneEnd .send)

/-- A state whose queues or staging records have the lowest `k` blocks, in order, has each block in one place. -/
theorem each_block_once (k : Nat) (s : State)
    (h : accountedBlocks s = (List.finRange 256).drop k ++ (List.finRange 256).take k) (b : Fin 256) :
    (accountedBlocks s).count b = 1 := by
  rw [h, (List.perm_append_comm.trans (.of_eq (List.take_append_drop k _))).count_eq]
  exact List.count_eq_one_of_mem (List.nodup_finRange 256) (List.mem_finRange b)

theorem openTwo_blocks : BlockLaw openTwo := ⟨each_block_once 2 _ (by decide +kernel), by decide +kernel⟩

theorem staged_blocks : BlockLaw staged := ⟨each_block_once 3 _ (by decide +kernel), by decide +kernel⟩

theorem lone_blocks : BlockLaw lone := ⟨each_block_once 1 _ (by decide +kernel), by decide +kernel⟩

/-- The sender end with a staging record and without one, the receiver end with a LENT message, and an end alone; a
peer with no notice waiting. -/
theorem witness_LeaveClosesAndDeparts :
    (∀ s ∈ [staged, openTwo, lone],
      Ready .a (requestFrame 0x02 1 []) s ∧ Advisory s ∧ isPresent .a s = true ∧ isPresent Station.a.peer s = true ∧
        (unitOf Station.a.peer s).notices = [] ∧ ChannelLaw s ∧ (chanOf 0 s).sender.holder = some .a) ∧
    (BlockLaw staged ∧ BlockLaw openTwo ∧ BlockLaw lone) ∧
    (∀ s ∈ [staged, openTwo],
      (chanOf 0 s).receiver.holder = some Station.a.peer ∧ (chanOf 0 s).params = some marks) ∧
    (stagingOn .a 0 staged).isSome = true ∧ stagingOn .a 0 openTwo = none ∧
    Ready .b (requestFrame 0x02 1 []) openTwo ∧ isPresent .b openTwo = true ∧
      (chanOf 0 openTwo).receiver.holder = some .b ∧ (chanOf 0 openTwo).sender.holder = some Station.b.peer ∧
    (chanOf 0 lone).receiver.holder = none :=
  ⟨by decide +kernel, ⟨staged_blocks, openTwo_blocks, lone_blocks⟩, by decide +kernel⟩

/-- A lease with a waiter of the peer, with none, and exhausted. -/
theorem witness_LeaveClosesAndDeparts_with_leases :
    (∀ s ∈ [held 7 [waiter 2 1], held 7 [], held 0xFFFFFFFF [waiter 2 1]],
      Ready .a (requestFrame 0x02 1 []) s ∧ Advisory s ∧ isPresent .a s = true ∧
        (leaseOf 3 s).hold = some { station := .a, client := 1, remaining := 300, granted := 300 }) ∧
    (∀ s ∈ [held 7 [waiter 2 1], held 0xFFFFFFFF [waiter 2 1]],
      ((leaseOf 3 s).waiters.filter fun w => w.station == Station.a.peer) = waiter 2 1 :: []) ∧
    ((leaseOf 3 (held 7 [])).waiters.filter fun w => w.station == Station.a.peer) = [] ∧
    (leaseOf 3 (held 7 [waiter 2 1])).fence ≠ 0xFFFFFFFF ∧ heldBy .a (leaseOf 4 (held 7 [])) = false := by
  decide +kernel

theorem witness_KeepaliveAndIdentifyReport :
    ∀ k ∈ [(0x03 : Byte), 0x04], Ready .a (requestFrame k 1 []) both ∧ isPresent .a both = true ∧
      Ready .a (requestFrame k 1 []) State.reset ∧ isPresent .a State.reset = false := by decide +kernel

theorem witness_InquiriesReportAndChangeNothing :
    isPresent .a both = true ∧ Ready .a (requestFrame 0x08 1 [0x01, byteOf (7 : Fin 8).val]) both ∧
      Ready .a (requestFrame 0x08 1 [0x02, byteOf (15 : Fin 16).val]) both ∧
      Ready .a (requestFrame 0x08 1 [0x03]) both ∧ Ready .a (requestFrame 0x08 1 [0x04]) both := by decide +kernel

/-! ### Witnesses: channels -/

/-- Channel 0 with `n` QUEUED messages and this congested flag. -/
def filled (n : Nat) (congested : Bool) : State :=
  setChan 0 { channel ((List.range n).map fun i => message (BitVec.ofNat 16 i) .queued 1 [0]) 0 n with
    congested := congested } both

/-- O at the high mark 3 and below it, at the low mark 1 and above it. -/
theorem witness_EndsAreToldOfQueueChanges :
    (chanOf 0 (filled 3 false)).params = some marks ∧ (chanOf 0 (filled 3 false)).congested = false ∧
      marks.high ≤ (chanOf 0 (filled 3 false)).queue.length + (chanOf 0 (filled 3 false)).reserved ∧
      (chanOf 0 (filled 2 false)).queue.length + (chanOf 0 (filled 2 false)).reserved < marks.high ∧
      (chanOf 0 (filled 1 true)).congested = true ∧
      (chanOf 0 (filled 1 true)).queue.length + (chanOf 0 (filled 1 true)).reserved ≤ marks.low ∧
      marks.low < (chanOf 0 (filled 2 true)).queue.length + (chanOf 0 (filled 2 true)).reserved ∧
      (chanOf 0 openTwo).receiver = { holder := some .b, dormant := false } ∧
      (chanOf 0 openTwo).arrivalOption = true ∧ (chanOf 0 both).receiver.holder = none := by decide +kernel

/-- The greatest and the least parameters of R5. -/
theorem witness_OpenTakesAClosedChannel :
    (∀ p ∈ [(⟨32, 256, 32, 31⟩ : Params), ⟨1, 1, 1, 0⟩],
      1 ≤ p.depth ∧ p.depth ≤ 32 ∧ 1 ≤ p.quota ∧ p.quota ≤ 256 ∧ 1 ≤ p.high ∧ p.high ≤ p.depth ∧ p.low < p.high ∧
      Ready .a (requestFrame 0x18 1 ([0x07, 0x01, 0x01, 0x00, byteOf p.depth] ++ natBytes2 p.quota ++
        [byteOf p.high, byteOf p.low])) both) ∧
    Ready .a (requestFrame 0x18 1 [0x07, 0x01, 0x02, 0x00]) both ∧ Advisory both ∧ isPresent .a both = true ∧
      (chanOf 7 both).sender.holder = none ∧ (chanOf 7 both).receiver.holder = none := by decide +kernel

theorem witness_OpenTakesTheSecondEnd :
    (let s := oneEnd .send
     isPresent .b s = true ∧ Advisory s ∧ (endOf .receive (chanOf 0 s)).holder = none ∧
       (endOf Role.receive.other (chanOf 0 s)).holder = some Station.b.peer ∧ (chanOf 0 s).params = some marks ∧
       Ready .b (requestFrame 0x18 1 [0x00, 0x02, 0x02, 0x01]) s ∧
       Ready .b (requestFrame 0x18 1 [0x00, 0x02, 0x01, 0x01, 4, 0, 16, 3, 1]) s ∧
       Ready .b (requestFrame 0x18 1 [0x00, 0x02, 0x01, 0x01, 4, 0, 17, 3, 1]) s) ∧
    (let s := oneEnd .receive
     isPresent .a s = true ∧ Advisory s ∧ (endOf .send (chanOf 0 s)).holder = none ∧
       (endOf Role.send.other (chanOf 0 s)).holder = some Station.a.peer ∧ (chanOf 0 s).params = some marks ∧
       Ready .a (requestFrame 0x18 1 [0x00, 0x01, 0x02, 0x00]) s) ∧
    paramsValid marks = true ∧ paramsValid { marks with quota := 17 } = true ∧
      some marks ≠ some { marks with quota := 17 } := by decide +kernel

/-- Station A at its own end, at the other end, and at the end that station B holds. -/
theorem witness_OpenIsRefusedForAHeldEnd :
    isPresent .a openTwo = true ∧ isPresent .a (oneEnd .receive) = true ∧
      Ready .a (requestFrame 0x18 1 [0x00, 0x01, 0x02, 0x00]) openTwo ∧
      Ready .a (requestFrame 0x18 1 [0x00, 0x02, 0x02, 0x00]) openTwo ∧
      Ready .a (requestFrame 0x18 1 [0x00, 0x02, 0x02, 0x00]) (oneEnd .receive) ∧
      (endOf Role.receive.other (chanOf 0 openTwo)).holder = some .a ∧
      (endOf Role.send.other (chanOf 0 openTwo)).holder ≠ some .a ∧
      (endOf .send (chanOf 0 openTwo)).holder = some .a ∧
      (endOf Role.receive.other (chanOf 0 (oneEnd .receive))).holder ≠ some .a ∧
      (endOf .receive (chanOf 0 (oneEnd .receive))).holder = some Station.a.peer ∧ paramsValid marks = true := by
  decide +kernel

/-- The other end held, and not; at the sender end with a staging record, at the receiver end with a LENT message. -/
theorem witness_CloseReleasesTheEnd :
    Ready .a (requestFrame 0x19 1 [0x00, 0x01]) staged ∧ Advisory staged ∧ isPresent .a staged = true ∧
      (endOf .send (chanOf 0 staged)).holder = some .a ∧
      endHeld (endOf Role.send.other (chanOf 0 staged)) = true ∧ stagingOn .a 0 staged ≠ none ∧
      (chanOf 0 staged).params = some marks ∧ stagingOn .a 0 openTwo = none ∧
    Ready .b (requestFrame 0x19 1 [0x00, 0x02]) openTwo ∧ Advisory openTwo ∧ isPresent .b openTwo = true ∧
      (endOf .receive (chanOf 0 openTwo)).holder = some .b ∧ (endOf .send (chanOf 0 openTwo)).holder ≠ some .b ∧
      endHeld (endOf Role.receive.other (chanOf 0 openTwo)) = true ∧
    Ready .a (requestFrame 0x19 1 [0x00, 0x01]) (oneEnd .send) ∧ Advisory (oneEnd .send) ∧
      isPresent .a (oneEnd .send) = true ∧ (endOf .send (chanOf 0 (oneEnd .send))).holder = some .a ∧
      endHeld (endOf Role.send.other (chanOf 0 (oneEnd .send))) = false := by decide +kernel

/-- One valid payload of each kind on a queue, from the station at the other end. -/
theorem witness_QueueRequestsNeedTheirEnd :
    (∀ r ∈ [((0x20 : Byte), [(0 : Byte), 0]), (0x21, [0, 1, 0, 0]), (0x21, [0, 3, 9]), (0x22, [0])],
      Ready .b (requestFrame r.1 1 r.2) openTwo ∧ payloadRefusal r.1 r.2 = none) ∧
    (∀ r ∈ [((0x28 : Byte), [(0 : Byte), 1]), (0x29, [0, 0, 10, 0, 0]), (0x2A, [0, 0, 10]), (0x2B, [0]), (0x2C, [0]),
        (0x2D, [0, 8, 2, 15])],
      Ready .a (requestFrame r.1 1 r.2) openTwo ∧ payloadRefusal r.1 r.2 = none) ∧
    isPresent .a openTwo = true ∧ isPresent .b openTwo = true ∧ byteOf (0 : Fin 8).val = 0 ∧
      holdsActive .b (chanOf 0 openTwo).sender = false ∧ holdsActive .a (chanOf 0 openTwo).receiver = false := by
  decide +kernel

/-! ### Witnesses: store and posting -/

theorem witness_MessageBytesAreReadBack :
    (∀ n ∈ [0, 512], n ≤ 512 ∧ max 1 ((n + 31) / 32) ≤ State.reset.store.freePool.length) ∧
      (List.replicate 512 (0x11 : Byte)).length ≤ 512 ∧ State.reset.store.freePool.Pairwise (· < ·) ∧
      MemoryCanonical State.reset := by
  decide +kernel

/-- Two blocks; offsets 0, 31, 32 and 63; the block entered correct, with one wrong bit and with two. -/
theorem witness_MessageBytesAreReadBack_merge :
    (∀ off ∈ [0, 31, 32, 63], off + [(0x11 : Byte)].length ≤ 32 * [(0 : Fin 256), 1].length) ∧
      [(0 : Fin 256), 1].Nodup ∧ wrongBits twoDamaged.store 0 = [.data 0 0, .data 0 1] ∧
      wrongBits openTwo.store 0 = [] ∧
      wrongBits (result (.bitError 1 [.check 9]) openTwo).store 1 = [.check 9] ∧
      ∀ s ∈ [twoDamaged, openTwo, result (.bitError 1 [.check 9]) openTwo], Memory.wf s.store.mem = true := by
  decide +kernel

/-- A correct block, one with one wrong bit and one with two; a delivery of a message's last bytes. -/
theorem witness_DeliveryReadsTheBlocks :
    wrongBits openTwo.store 1 = [] ∧
      wrongBits (result (.bitError 1 [.data 31 7]) openTwo).store 1 = [.data 31 7] ∧
      wrongBits (result (.bitError 1 [.data 0 0, .check 0]) openTwo).store 1 = [.data 0 0, .check 0] ∧
      (message 11 .queued 30 [1]).blocks.length = max 1 ((30 + 31) / 32) ∧ 1 + 29 ≤ (message 11 .queued 30 [1]).length ∧
      (∀ b ∈ (message 11 .queued 30 [1]).blocks, wrongBits openTwo.store b = []) ∧
      (∀ b ∈ (message 11 .queued 30 [1]).blocks, (wrongBits twoDamaged.store b).length ≤ 2) ∧
      (message 11 .queued 30 [1]).blocks.Nodup ∧ MemoryCanonical twoDamaged ∧
      MemoryCanonical (result (.bitError 1 [.data 31 7]) openTwo) := by decide +kernel

/-- A POST of 0 bytes and of 62; the last place of the queue, the last blocks of the quota and of the pool. -/
theorem witness_PostAppendsAMessage :
    let s := setStore { openTwo.store with freePool := [254, 255] }
      (setChan 0 { chanOf 0 openTwo with
        params := some { marks with depth := 3, quota := 4 }, nextSeq := 10 + 32767 } openTwo)
    Ready .a (requestFrame 0x20 1 [0x00, 0x00]) openTwo ∧ Advisory openTwo ∧
      Ready .a (requestFrame 0x20 1 ([0x00, 0x00] ++ List.replicate 62 0x11)) s ∧ Advisory s ∧ isPresent .a s = true ∧
      holdsActive .a (chanOf 0 s).sender = true ∧ (List.replicate 62 (0x11 : Byte)).length ≤ 62 ∧
      (chanOf 0 s).params = some { marks with depth := 3, quota := 4 } ∧ occupancy (chanOf 0 s) < 3 ∧
      (∀ m ∈ (chanOf 0 s).queue.head?, ((chanOf 0 s).nextSeq - m.seq).toNat < 32768) ∧
      (chanOf 0 s).charged + max 1 ((62 + 31) / 32) ≤ 4 ∧ max 1 ((62 + 31) / 32) ≤ s.store.freePool.length := by
  decide +kernel

/-- FULL by depth and by distance, QUOTA and NO_BLOCKS, for a POST of 1 byte and for a SEGMENT FIRST of total 512. -/
theorem witness_AdmissionIsRefusedInOrder :
    let full := setChan 0 { chanOf 0 openTwo with params := some { marks with depth := 2 } } openTwo
    let far := setChan 0 { chanOf 0 openTwo with nextSeq := 10 + 32768 } openTwo
    let quota := setChan 0 { chanOf 0 openTwo with params := some { marks with quota := 2 } } openTwo
    let dry := setStore { openTwo.store with freePool := [] } openTwo
    (∀ s ∈ [full, far, quota, dry], isPresent .a s = true ∧ holdsActive .a (chanOf 0 s).sender = true ∧
      Ready .a (requestFrame 0x20 1 [0x00, 0x00, 0x11]) s ∧ Ready .a (requestFrame 0x21 1 [0x00, 0x01, 0x02, 0x00]) s ∧
      stagingOn .a 0 s = none ∧ (unitOf .a s).staging.length < 2) ∧
    (2 ≤ occupancy (chanOf 0 full)) ∧
    (∃ m ∈ (chanOf 0 far).queue.head?, 32768 ≤ ((chanOf 0 far).nextSeq - m.seq).toNat) ∧
    ¬(4 ≤ occupancy (chanOf 0 quota) ∨
      ∃ m ∈ (chanOf 0 quota).queue.head?, 32768 ≤ ((chanOf 0 quota).nextSeq - m.seq).toNat) ∧
    2 < (chanOf 0 quota).charged + max 1 ((1 + 31) / 32) ∧
    (chanOf 0 dry).charged + max 1 ((1 + 31) / 32) ≤ 16 ∧ dry.store.freePool.length < max 1 ((1 + 31) / 32) ∧
    (chanOf 0 dry).params = some marks ∧ (512 : Half).toNat ≤ 512 ∧ halfBytes 512 = [0x02, 0x00] := by decide +kernel

/-- Station A with two staging records, on channels 1 and 2. -/
def stagedTwice : State :=
  setUnit .a { unitOf .a openEmpty with
    staging := [1, 2].map fun c =>
      { channel := c, total := 1, received := 0, blocks := [], damaged := false, timer := 250 } } openEmpty

theorem witness_SegmentFirstStagesAMessage :
    (∀ s ∈ [openEmpty, staged, stagedTwice], Ready .a (requestFrame 0x21 1 [0x00, 0x01, 0x00, 0x01, 0x11, 0x11]) s ∧
      isPresent .a s = true ∧ holdsActive .a (chanOf 0 s).sender = true) ∧
    stagingOn .a 0 staged ≠ none ∧ stagingOn .a 0 stagedTwice = none ∧ 2 ≤ (unitOf .a stagedTwice).staging.length ∧
    stagingOn .a 0 openEmpty = none ∧ (unitOf .a openEmpty).staging.length < 2 ∧ (1 : Half).toNat < 2 ∧
    Ready .a (requestFrame 0x21 1 ([0x00, 0x01, 0x02, 0x00] ++ List.replicate 60 0x11)) openEmpty ∧
    Advisory openEmpty ∧ (chanOf 0 openEmpty).params = some marks ∧ occupancy (chanOf 0 openEmpty) < marks.depth ∧
    (∀ m ∈ (chanOf 0 openEmpty).queue.head?, ((chanOf 0 openEmpty).nextSeq - m.seq).toNat < 32768) ∧
    (chanOf 0 openEmpty).charged + max 1 ((512 + 31) / 32) ≤ marks.quota ∧
    max 1 ((512 + 31) / 32) ≤ openEmpty.store.freePool.length := by decide +kernel

/-- 60 of 70 bytes are there: 10 more complete, 9 are too few, 11 too many. -/
theorem witness_SegmentMiddleAndLast :
    (∀ s ∈ [staged, openEmpty], isPresent .a s = true ∧ Advisory s ∧ holdsActive .a (chanOf 0 s).sender = true ∧
      Ready .a (requestFrame 0x21 1 ([0x00, 0x02] ++ List.replicate 10 0x11)) s ∧
      Ready .a (requestFrame 0x21 1 ([0x00, 0x02] ++ List.replicate 62 0x11)) s ∧
      Ready .a (requestFrame 0x21 1 ([0x00, 0x03] ++ List.replicate 9 0x11)) s ∧
      Ready .a (requestFrame 0x21 1 ([0x00, 0x03] ++ List.replicate 10 0x11)) s ∧
      Ready .a (requestFrame 0x21 1 ([0x00, 0x03] ++ List.replicate 11 0x11)) s) ∧
    stagingOn .a 0 openEmpty = none ∧
    stagingOn .a 0 staged =
      some { channel := 0, total := 70, received := 60, blocks := [0, 1, 2], damaged := false, timer := 250 } := by
  decide +kernel

theorem witness_StagingRecordIsAbandoned :
    (∀ s ∈ [stagedFor 0, staged, openEmpty],
      Ready .a (requestFrame 0x22 1 [byteOf (0 : Fin 8).val]) s ∧ isPresent .a s = true ∧
      holdsActive .a (chanOf 0 s).sender = true ∧ Advisory s ∧ Running s) ∧
    (∀ timer ∈ [0, 250], stagingOn .a 0 (stagedFor timer) =
      some { channel := 0, total := 70, received := 60, blocks := [0, 1, 2], damaged := false, timer := timer }) ∧
    stagingOn .a 0 openEmpty = none := by decide +kernel

/-! ### Witnesses: delivery and draws -/

/-- No QUEUED message, a full window, one message QUEUED and fewer than 8 LENT; both modes. -/
theorem witness_FetchDeliversTheOldestQueued :
    (∀ s ∈ [openEmpty, openTwo, openNine], isPresent .b s = true ∧ holdsActive .b (chanOf 0 s).receiver = true ∧
      Advisory s ∧ Ready .b (requestFrame 0x28 1 [0x00, 0x01]) s ∧ Ready .b (requestFrame 0x28 1 [0x00, 0x02]) s) ∧
    (chanOf 0 openEmpty).queue.find? isQueued = none ∧
    (chanOf 0 openNine).queue.find? isQueued ≠ none ∧ 8 ≤ lentCount (chanOf 0 openNine) ∧
    (chanOf 0 openNine).queue.find? isLent = some (message 0 .lent 1 [0]) ∧
    (chanOf 0 openTwo).queue.find? isQueued = some (message 11 .queued 30 [1]) ∧ lentCount (chanOf 0 openTwo) < 8 := by
  decide +kernel

/-- Offsets 20, the end of message 10, and 21, beyond it; message 11 is not LENT. -/
theorem witness_ReadHandsOutLentBytes :
    (∀ p ∈ [[(0x00 : Byte), 0, 10, 0, 20], [0x00, 0, 10, 0, 21], [0x00, 0, 11, 0, 0], [0x00, 0, 10, 2, 0]],
      Ready .b (requestFrame 0x29 1 p) openTwo) ∧
    isPresent .b openTwo = true ∧ holdsActive .b (chanOf 0 openTwo).receiver = true ∧ AdvisoryAt .b openTwo ∧
    (chanOf 0 openTwo).queue.any (fun m => isLent m && m.seq == 11) = false ∧
    (chanOf 0 openTwo).queue.find? (fun m => isLent m && m.seq == 10) = some (message 10 .lent 20 [0]) ∧
    (512 : Half).toNat ≤ 512 := by decide +kernel

theorem witness_RetireRemovesTheLentPrefix :
    Ready .b (requestFrame 0x2A 1 [0x00, 0, 11]) openTwo ∧ Ready .b (requestFrame 0x2A 1 [0x00, 0, 10]) openTwo ∧
      isPresent .b openTwo = true ∧ holdsActive .b (chanOf 0 openTwo).receiver = true ∧ Advisory openTwo ∧
      (chanOf 0 openTwo).queue.any (fun m => isLent m && m.seq == 11) = false ∧
      (chanOf 0 openTwo).queue = [] ++ message 10 .lent 20 [0] :: [message 11 .queued 30 [1]] ∧
      (isLent (message 10 .lent 20 [0]) && (message 10 .lent 20 [0]).seq == 10) = true := by decide +kernel

/-- With QUEUED messages to purge, and with none. -/
theorem witness_ReturnAndPurge :
    ∀ s ∈ [openTwo, openEmpty], Ready .b (requestFrame 0x2B 1 [byteOf (0 : Fin 8).val]) s ∧
      Ready .b (requestFrame 0x2C 1 [byteOf (0 : Fin 8).val]) s ∧ isPresent .b s = true ∧ Advisory s ∧
      holdsActive .b (chanOf 0 s).receiver = true := by decide +kernel

/-- Counts 1 and 8, spacings 0 and 15; an empty queue, a full window and a candidate. -/
theorem witness_DrawBeginsWithItsFirstItem :
    (∀ s ∈ [openEmpty, openTwo, openNine], isPresent .b s = true ∧ AdvisoryAt .b s ∧
      holdsActive .b (chanOf 0 s).receiver = true ∧
      Ready .b (requestFrame 0x2D 1 [0x00, 1, 1, 0]) s ∧ Ready .b (requestFrame 0x2D 1 [0x00, 8, 2, 15]) s) ∧
    (chanOf 0 openEmpty).queue.find? isQueued = none ∧
    (chanOf 0 openNine).queue.find? isQueued ≠ none ∧ 8 ≤ lentCount (chanOf 0 openNine) ∧
    (chanOf 0 openTwo).queue.find? isQueued = some (message 11 .queued 30 [1]) ∧ lentCount (chanOf 0 openTwo) < 8 := by
  decide +kernel

/-- Remaining count 0 and not, with a HALT recorded and not, spacing 0 and not; a frame that is no item. -/
theorem witness_ItemBoundaryDecidesTheDraw :
    (∀ d ∈ [someDraw .sending 0 10 .lend none, someDraw .sending 0 10 .lend (some 0x54),
        someDraw .sending 1 10 .lend (some 0x54), someDraw .sending 1 10 .lend none, someDraw .sending 1 0 .lend none],
      Running (drawing d [itemEntry] openTwo) ∧ (linkOf .b (drawing d [itemEntry] openTwo)).tx = itemEntry :: [] ∧
        (unitOf .b (drawing d [itemEntry] openTwo)).draw = some d) ∧
    itemEntry.drawItem = true ∧ replyEntry.drawItem = false ∧
    (linkOf .b (drawing (someDraw .sending 1 0 .lend none) [replyEntry, itemEntry] openTwo)).tx =
      replyEntry :: [itemEntry] := by decide +kernel

/-- Each bit rate, an idle transmitter and a busy one. -/
theorem witness_ItemBoundaryDecidesTheDraw_begins :
    (∀ r1 ∈ [false, true], ∀ r0 ∈ [false, true],
      let s := { both with straps := { a := { rate1 := r1, rate0 := r0 }, b := { rate1 := false, rate0 := false } } }
      (s.straps.get .a).rate1 = r1 ∧ (s.straps.get .a).rate0 = r0 ∧ (linkOf .a s).tx = []) ∧
    (linkOf .b (drawing (someDraw .sending 1 0 .lend none) [replyEntry] openTwo)).tx ≠ [] := by decide +kernel

/-- SENDING, and SPACING with 1 ms left; in SPACING at zero with a candidate in both modes, with none after the
cursor, with a full window. -/
theorem witness_SpacingExpiryPicksTheNextItem :
    (∀ d ∈ [someDraw .sending 1 10 .lend none, someDraw (.spacing 1) 1 10 .lend none,
        someDraw (.spacing 0) 1 10 .lend none, someDraw (.spacing 0) 1 10 .peek none,
        { someDraw (.spacing 0) 1 10 .peek none with cursor := some 11 }],
      Running (drawing d [] openTwo) ∧ (unitOf .b (drawing d [] openTwo)).draw = some d ∧
        AdvisoryAt .b (drawing d [] openTwo) ∧ d.haltTag = none) ∧
    (chanOf 0 openTwo).queue.find? isQueued = some (message 11 .queued 30 [1]) ∧ lentCount (chanOf 0 openTwo) < 8 ∧
    (((chanOf 0 openTwo).queue.dropWhile fun m => m.seq != 10).drop 1).find? isQueued =
      some (message 11 .queued 30 [1]) ∧
    (((chanOf 0 openTwo).queue.dropWhile fun m => m.seq != 11).drop 1).find? isQueued = none ∧
    Running (drawing (someDraw (.spacing 0) 1 10 .lend none) [] openNine) ∧
    (chanOf 0 openNine).queue.find? isQueued ≠ none ∧ 8 ≤ lentCount (chanOf 0 openNine) := by decide +kernel

theorem witness_HaltStopsTheDraw :
    Ready .b (requestFrame 0x2E 1 []) openTwo ∧ isPresent .b openTwo = true ∧
    (∀ d ∈ [someDraw .sending 1 10 .lend none, someDraw (.spacing 7) 1 10 .lend none],
      let s := drawing d [] openTwo
      Running s ∧ (linkOf .b s).rx.inBreak = false ∧ requestFrame 0x2E 1 [] ∉ (linkOf .b s).inQueue ∧
        cacheMatch .b (requestFrame 0x2E 1 []) s = none ∧ (unitOf .b s).draw = some d ∧ d.haltTag = none) := by
  decide +kernel

/-! ### Witnesses: leases -/

def acquirePayload (client : Byte) (duration wait : Half) : List Byte :=
  [3, client] ++ halfBytes duration ++ halfBytes wait

/-- Duration 10 and wait 30,000; a FREE entry, and one with 3 waiters where the station's wait count is 7. -/
theorem witness_AcquireGrantsOrQueues :
    let s := setWaitCount .b 7 (held 0xFFFFFFFE [waiter 2 1, waiter 3 1, waiter 4 1])
    Ready .a (requestFrame 0x30 1 (acquirePayload 7 10 30000)) both ∧ isPresent .a both = true ∧
      (10 ≤ (10 : Half).toNat ∧ (30000 : Half).toNat ≤ 30000 ∧ 0 < (1 : Half).toNat) ∧ (leaseOf 3 both).hold = none ∧
      (leaseOf 3 both).fence ≠ 0xFFFFFFFF ∧
    Ready .b (requestFrame 0x30 1 (acquirePayload 7 65535 1)) s ∧ isPresent .b s = true ∧ (leaseOf 3 s).hold ≠ none ∧
      holdsLease .b 7 (leaseOf 3 s) = false ∧ (leaseOf 3 s).waiters.any (isWaiter .b 7) = false ∧
      (leaseOf 3 s).fence ≠ 0xFFFFFFFF ∧ (leaseOf 3 s).waiters.length < 4 ∧ s.waitCounts.get .b < 8 := by
  decide +kernel

/-- The refusals in order: FREE and exhausted, the holder, a waiter, no wait, HELD and exhausted, a full list, a full
count. -/
theorem witness_AcquireIsRefusedInOrder :
    let spent := setLease 3 { hold := none, fence := 0xFFFFFFFF, waiters := [], last := none } both
    let four := held 7 [waiter 2 1, waiter 3 1, waiter 4 1, waiter 5 1]
    let limit := setWaitCount .b 8 (held 7 [])
    (∀ s ∈ [spent, held 7 [], held 0xFFFFFFFF [], four, limit], isPresent .a s = true ∧ isPresent .b s = true ∧
      Ready .a (requestFrame 0x30 1 (acquirePayload 1 10 0)) s ∧
      Ready .b (requestFrame 0x30 1 (acquirePayload 7 10 0)) s ∧
      Ready .b (requestFrame 0x30 1 (acquirePayload 7 10 1)) s ∧
      Ready .b (requestFrame 0x30 1 (acquirePayload 5 10 1)) s) ∧
    (leaseOf 3 spent).hold = none ∧ (leaseOf 3 spent).fence = 0xFFFFFFFF ∧
    (leaseOf 3 four).hold = some { station := .a, client := 1, remaining := 300, granted := 300 } ∧
    (leaseOf 3 four).waiters = [waiter 2 1, waiter 3 1, waiter 4 1] ++ waiter 5 1 :: [] ∧
    [waiter 2 1, waiter 3 1, waiter 4 1].any (isWaiter .b 5) = false ∧ isWaiter .b 5 (waiter 5 1) = true ∧
    (leaseOf 3 four).waiters.any (isWaiter .b 7) = false ∧ 4 ≤ (leaseOf 3 four).waiters.length ∧
    (leaseOf 3 limit).waiters.length < 4 ∧ 8 ≤ limit.waitCounts.get .b ∧ (leaseOf 3 limit).fence ≠ 0xFFFFFFFF := by
  decide +kernel

/-- The holder with its fence, with no waiter, with one, and exhausted. Fence 8 is above the entry's; fence 7 of another
claimant and fence 6 are STALE. -/
theorem witness_RenewAndReleaseNeedTheFence :
    (∀ s ∈ [held 7 [], held 7 [waiter 2 1], held 0xFFFFFFFF [waiter 2 1]],
      let l := leaseOf 3 s
      Ready .a (requestFrame 0x31 1 ([3, 1] ++ wordBytes l.fence ++ halfBytes 10)) s ∧
        Ready .a (requestFrame 0x32 1 ([3, 1] ++ wordBytes l.fence)) s ∧ isPresent .a s = true ∧ Advisory s ∧
        l.hold = some { station := .a, client := 1, remaining := 300, granted := 300 }) ∧
    (let s := held 7 []
     Ready .a (requestFrame 0x31 1 ([3, 1] ++ wordBytes 8 ++ halfBytes 10)) s ∧
     Ready .a (requestFrame 0x32 1 ([3, 1] ++ wordBytes 6)) s ∧
     Ready .a (requestFrame 0x32 1 ([3, 2] ++ wordBytes 7)) s ∧
     isPresent .a s = true ∧ (leaseOf 3 s).fence.toNat < (8 : Word).toNat ∧
     (7 : Word).toNat ≤ (leaseOf 3 s).fence.toNat ∧ holdsLease .a 2 (leaseOf 3 s) = false ∧
     6 ≠ (leaseOf 3 s).fence) := by decide +kernel

/-- No waiter, one, and one under an exhausted fence; holds and waits at zero and not. -/
theorem witness_HoldsEndAndAreHandedOn :
    (leaseOf 3 (held 7 [])).waiters = [] ∧ (leaseOf 3 (held 7 [waiter 2 1])).waiters = waiter 2 1 :: [] ∧
      (leaseOf 3 (held 7 [waiter 2 1])).fence ≠ 0xFFFFFFFF ∧
      (leaseOf 3 (held 0xFFFFFFFF [waiter 2 1])).fence = 0xFFFFFFFF ∧
    (let s := heldFor 0 7 [waiter 2 0, waiter 3 1]
     Running s ∧ Advisory s ∧
       (leaseOf 3 s).hold = some { station := .a, client := 1, remaining := 0, granted := 300 } ∧
       (leaseOf 4 s).hold = none ∧ (leaseOf 3 s).waiters = [] ++ waiter 2 0 :: [waiter 3 1] ∧
       ([] ++ [waiter 3 1]).any (isWaiter .b 2) = false ∧ (waiter 2 0).wait = 0 ∧ (waiter 3 1).wait ≠ 0 ∧
       (leaseOf 3 s).waiters.any (isWaiter .b 7) = false) ∧
    Running (held 7 []) ∧ Advisory (held 7 []) := by decide +kernel

theorem witness_CancelRemovesTheWaiter :
    let s := held 7 [waiter 2 1, waiter 3 1]
    Ready .b (requestFrame 0x33 1 [byteOf (3 : Fin 16).val, byteOf (3 : Fin 8).val]) s ∧
      Ready .b (requestFrame 0x33 1 [byteOf (3 : Fin 16).val, byteOf (7 : Fin 8).val]) s ∧ isPresent .b s = true ∧
      (leaseOf 3 s).waiters = [waiter 2 1] ++ waiter 3 1 :: [] ∧ ([waiter 2 1] ++ []).any (isWaiter .b 3) = false ∧
      (leaseOf 3 s).waiters.any (isWaiter .b 7) = false := by decide +kernel

/-! ### Witnesses: notices, signals and faults -/

/-- A queue with a partner of each kind, one with 22 entries, one with 23, and one with OVERFLOW at 254 and at 255. -/
theorem witness_OfferTakesItsFirstStep :
    (∀ q ∈ [[.arrival 0, .flow 1 true 6, .signalsPending], fullNotices.take 22, fullNotices,
        fullNotices ++ [.overflow 254], fullNotices ++ [.overflow 255]],
      NoticesOk (unitOf .b (noticed q)).notices ∧ isPresent .b (noticed q) = true) ∧
    isPresent .b State.reset = false ∧ NoticesOk (unitOf .b State.reset).notices ∧
    (fullNotices.take 22).length < 23 ∧ 23 ≤ fullNotices.length := by decide +kernel

/-- Maxima 1 and 6, with fewer entries pending and with more. -/
theorem witness_CollectTakesTheOldestNotices :
    ∀ q ∈ [[], [.arrival 0], fullNotices], ∀ m ∈ [1, 6],
      Ready .b (requestFrame 0x12 1 [byteOf m]) (noticed q) ∧ isPresent .b (noticed q) = true ∧ 1 ≤ m ∧ m ≤ 6 := by
  decide +kernel

/-- The peer ABSENT; flag 0 of the peer at 15, unmasked and masked. -/
theorem witness_RaiseCountsInThePeersSet :
    (∀ s ∈ [withPresent .a 1 State.reset, signalled 0xFFFE, signalled 0xFFFF],
      Ready .a (requestFrame 0x13 1 (halfBytes 1)) s ∧ Advisory s ∧ isPresent .a s = true) ∧
    isPresent Station.a.peer (withPresent .a 1 State.reset) = false ∧
    isPresent Station.a.peer (signalled 0xFFFE) = true := by decide +kernel

/-- Flag 0 is non-zero; a mask that uncovers it newly, one that leaves it uncovered, one that covers it. -/
theorem witness_AcceptAndMaskActOnTheOwnSet :
    (∀ s ∈ [signalled 0xFFFF, signalled 0xFFFE],
      Ready .b (requestFrame 0x14 1 (halfBytes 0xFFFF)) s ∧ Ready .b (requestFrame 0x15 1 (halfBytes 0xFFFF)) s ∧
        Ready .b (requestFrame 0x15 1 (halfBytes 0xFFFE)) s ∧ isPresent .b s = true ∧ Advisory s) ∧
    (0xFFFF : Half).getLsbD 0 = true ∧ (0xFFFE : Half).getLsbD 0 = false ∧
      (unitOf .b (signalled 0xFFFF)).signals.counts[(0 : Fin 16)] ≠ 0 := by decide +kernel

/-- No notice, 22 and 23 regular entries, a FAULT pending, OVERFLOW at 255; an ABSENT station; a SEVERE kind. -/
theorem witness_FaultIsRecordedStepByStep :
    (∀ q ∈ [[], fullNotices.take 22, fullNotices, [.fault .crc 1], fullNotices ++ [.overflow 255]],
      NoticesOk (unitOf .b (noticed q)).notices ∧ isPresent .b (noticed q) = true) ∧
    isPresent .b State.reset = false ∧ NoticesOk (unitOf .b State.reset).notices ∧
    (KindRecords.get (unitOf .b (withSevere .b both)).faults.kinds .crc).severity = .severe := by decide +kernel

theorem witness_FaultRequestsActOnTheRecord :
    (∀ s ∈ [both, State.reset], Ready .a (requestFrame 0x38 1 []) s) ∧ isPresent .a both = true ∧
      isPresent .a State.reset = false ∧ Ready .a (requestFrame 0x39 1 []) both ∧
      Ready .a (requestFrame 0x3A 1 (allFaultKinds.flatMap fun _ => [0x00, 0x02])) both := by decide +kernel

/-! ### Witnesses: what every step keeps -/

/-- A state that meets every law and that a step leaves with a next state: a waiting break that moves LENT messages,
leases and notices. -/
def lawful : State := { openTwo with pending := [.lineBreak .b] }

theorem witness_StepsKeepTheLaws :
    (MemoryCanonical lawful ∧ Settled lawful ∧ LentFirstLaw lawful ∧ SequenceLaw lawful ∧ ChannelLaw lawful ∧
      NoticeLaw lawful ∧ LeaseLaw lawful ∧ WaitCountLaw lawful) ∧ BlockLaw lawful ∧
    StationLaw lawful ∧ ∃ t, step lawful = .next t :=
  ⟨by decide +kernel, openTwo_blocks, ⟨by decide +kernel, by decide +kernel⟩, by exact ⟨_, rfl⟩⟩

/-- The lapse of a hold raises the fence from 7 to 8. -/
def lapsing : State := { heldFor 0 7 [waiter 2 1] with pending := [.holdLapse 3] }

theorem witness_FencesNeverFall :
    (∃ t, step lapsing = .next t ∧ (leaseOf 3 t).fence = 8) ∧ (leaseOf 3 lapsing).fence = 7 ∧
      ∀ straps rest, lapsing.pending ≠ Instr.resetAssert straps :: rest := by
  refine ⟨⟨_, rfl, by decide +kernel⟩, by decide +kernel, ?_⟩
  intro straps rest h
  cases h

end Sys2Proof.Tests
end

section
/-!
PROOFS. The state after device reset: the laws hold in it (R1, R23, R35, R87, R90, R107, R134, R146), and RESET_N low
reaches it.
-/

namespace Sys2Proof.Machine

section Reset

variable (phase : Phase) (straps : Pair Straps) (pending : List Instr) (n : Nat)

@[simp] theorem chanOf_resetState (c : Fin 8) : chanOf c (resetState phase straps pending n) = resetChannel := by
  simp [chanOf, resetState]

@[simp] theorem leaseOf_resetState (e : Fin 16) : leaseOf e (resetState phase straps pending n) = resetLease := by
  simp [leaseOf, resetState]

@[simp] theorem unitOf_resetState (x : Station) : unitOf x (resetState phase straps pending n) = resetUnit := by
  cases x <;> rfl

@[simp] theorem linkOf_resetState (x : Station) : linkOf x (resetState phase straps pending n) = resetLink := by
  cases x <;> rfl

theorem resetState_freePool : (resetState phase straps pending n).store.freePool = List.finRange 256 := by
  simp only [resetState, resetStore]

@[simp] theorem isPresent_resetState (x : Station) : isPresent x (resetState phase straps pending n) = false := by
  cases x <;> rfl

@[simp] theorem waitCounts_resetState (x : Station) : (resetState phase straps pending n).waitCounts.get x = 0 := by
  cases x <;> rfl

theorem resetState_lentFirst : LentFirstLaw (resetState phase straps pending n) := by
  intro c
  rw [chanOf_resetState]
  decide

theorem resetState_sequence : SequenceLaw (resetState phase straps pending n) := by
  intro c h hm
  rw [chanOf_resetState] at hm
  cases hm

theorem stagingRecords_resetState (c : Fin 8) : stagingRecords c (resetState phase straps pending n) = [] := by
  simp [stagingRecords, resetUnit]

theorem resetState_channel : ChannelLaw (resetState phase straps pending n) := by
  intro c
  unfold ChannelOk
  rw [chanOf_resetState, stagingRecords_resetState]
  simp [resetChannel, resetEnd, blocksOf, resetUnit]

theorem resetState_notices : NoticeLaw (resetState phase straps pending n) := by
  constructor <;> rw [unitOf_resetState] <;> decide

theorem resetState_hasNothing (x : Station) : HasNothing x (resetState phase straps pending n) := by
  refine ⟨isPresent_resetState .., ?_⟩
  simp [resetUnit, resetLease, heldBy, resetChannel, resetEnd, holdsActive, holdsEnd]

theorem resetState_station : StationLaw (resetState phase straps pending n) := by
  have h : ∀ x, StationOk x (resetState phase straps pending n) := by
    intro x
    unfold StationOk
    rw [unitOf_resetState, linkOf_resetState, isPresent_resetState]
    refine ⟨by decide, by decide, by decide, by decide, by decide, fun _ => ⟨resetState_hasNothing .., rfl⟩, ?_, ?_⟩
    · intro c hp; cases hp
    · intro d hd; cases hd
  exact ⟨h .a, h .b⟩

theorem resetState_lease : LeaseLaw (resetState phase straps pending n) := by
  intro e
  rw [leaseOf_resetState]
  decide

theorem resetState_waitCount : WaitCountLaw (resetState phase straps pending n) := by
  constructor <;> simp [WaitCountOk, resetLease, allEntries]

/-- Where no message and no staging record exists, the accounted blocks are the free pool. -/
theorem accountedBlocks_of_empty {s : State} (hq : ∀ c, (chanOf c s).queue = [])
    (hs : ∀ x, (unitOf x s).staging = []) : accountedBlocks s = s.store.freePool := by
  simp [accountedBlocks, hs, hq, blocksOf]

/-- R35: every block is free and nothing else holds one. -/
theorem resetState_blocks : BlockLaw (resetState phase straps pending n) := by
  have hq : ∀ c, (chanOf c (resetState phase straps pending n)).queue = [] := fun c => by
    rw [chanOf_resetState]; rfl
  have hs : ∀ x, (unitOf x (resetState phase straps pending n)).staging = [] := fun x => by
    rw [unitOf_resetState]; rfl
  have hacc : accountedBlocks (resetState phase straps pending n) = List.finRange 256 := by
    rw [accountedBlocks_of_empty hq hs, resetState_freePool]
  refine ⟨fun b => ?_, by rw [resetState_freePool]; exact List.pairwise_lt_finRange 256,
    by rw [hs]; exact .nil, by rw [hs]; exact .nil,
    fun _ => ⟨hq, hs .a, hs .b⟩⟩
  rw [hacc]
  exact List.count_eq_one_of_mem (List.nodup_finRange 256) (List.mem_finRange b)

end Reset

/-- Settles O2. -/
theorem resetStateMeetsTheLaws : Obligations.ResetStateMeetsTheLaws :=
  ⟨rfl, rfl, resetState_lentFirst _ _ _ _, resetState_sequence _ _ _ _, resetState_channel _ _ _ _,
    resetState_notices _ _ _ _, resetState_station _ _ _ _, resetState_lease _ _ _ _, resetState_waitCount _ _ _ _,
    resetState_blocks _ _ _ _⟩

theorem signalCount_resetSignals (f : Nat) : signalCount resetSignals f = 0 := by
  unfold signalCount resetSignals
  simp only [Vector.toList_replicate, List.getD_eq_getElem?_getD, List.getElem?_replicate]
  split <;> rfl

/-- Settles O3: the command's state is resetState. -/
theorem resetAssertGivesResetValues : Obligations.ResetAssertGivesResetValues := by
  intro straps s
  refine ⟨_, rfl, rfl, rfl, rfl, rfl, rfl, rfl, chanOf_resetState _ _ _ _, resetState_freePool _ _ _ _, rfl,
    fun _ => rfl, rfl,
    leaseOf_resetState _ _ _ _, waitCounts_resetState _ _ _ _, linkOf_resetState _ _ _ _, fun x => ?_, fun x => ?_,
    fun x => ?_, fun x => ?_⟩ <;> rw [unitOf_resetState]
  · rfl
  · exact ⟨rfl, rfl, rfl, rfl, rfl, by rw [attentionAsserted, isPresent_resetState]; rfl⟩
  · exact ⟨rfl, rfl, signalCount_resetSignals⟩
  · exact ⟨rfl, fun k => by cases k <;> rfl⟩

end Sys2Proof.Machine
end

section
/-!
PROOFS. The bytes of a request read back as its fields (R158, R160), and the requests on channels that change no more
than one end or nothing: inquiries, OPEN, and the queue requests of a station without its end.
-/

namespace Sys2Proof.Machine

/-! ### Fields read back from their bytes -/

theorem halfOf_extract (w : Half) : halfOf (w.extractLsb' 8 8) (w.extractLsb' 0 8) = w := by
  ext i hi
  rw [halfOf, BitVec.getElem_append]
  split
  · simp [BitVec.getLsbD_eq_getElem, hi]
  · have : 8 + (i - 8) = i := by omega
    simp [this, BitVec.getLsbD_eq_getElem, hi]

theorem byteOf_toNat {n : Nat} (h : n < 256) : (byteOf n).toNat = n := by
  simp [byteOf, Nat.mod_eq_of_lt h]

theorem channelField_byteOf (c : Fin 8) : channelField (byteOf c.val) = some c := by
  unfold channelField
  have hc : (byteOf c.val).toNat = c.val := byteOf_toNat (by omega)
  rw [dif_pos (by omega)]
  exact congrArg some (Fin.ext hc)

theorem entryField_byteOf (e : Fin 16) : entryField (byteOf e.val) = some e := by
  unfold entryField
  have he : (byteOf e.val).toNat = e.val := byteOf_toNat (by omega)
  rw [dif_pos (by omega)]
  exact congrArg some (Fin.ext he)

theorem roleField_code (r : Role) : roleField (Role.code r) = some r := by cases r <;> rfl

theorem flagField_flagByte (b : Bool) : flagField (flagByte b) = some b := by cases b <;> rfl

theorem paramsField_bytes {p : Params} (h : paramsValid p = true) :
    paramsField (byteOf p.depth) ((BitVec.ofNat 16 p.quota).extractLsb' 8 8) ((BitVec.ofNat 16 p.quota).extractLsb' 0 8)
      (byteOf p.high) (byteOf p.low) = some p := by
  have hv := h
  simp only [paramsValid, decide_eq_true_eq] at hv
  unfold paramsField
  rw [halfOf_extract, byteOf_toNat (by omega), byteOf_toNat (by omega), byteOf_toNat (by omega), BitVec.toNat_ofNat,
    Nat.mod_eq_of_lt (by omega)]
  exact if_pos h

/-! ### Payloads of OPEN and CLOSE -/

/-- R160: the payload of an OPEN in the "accept" form. -/
abbrev acceptBytes (c : Fin 8) (role : Role) (arrival : Bool) : List Byte :=
  [byteOf c.val, Role.code role, 0x02, flagByte arrival]

/-- R160: the payload of an OPEN in the "given" form. -/
abbrev givenBytes (c : Fin 8) (role : Role) (arrival : Bool) (p : Params) : List Byte :=
  [byteOf c.val, Role.code role, 0x01, flagByte arrival, byteOf p.depth] ++ natBytes2 p.quota ++
    [byteOf p.high, byteOf p.low]

theorem openCheck_accept (c : Fin 8) (role : Role) (arrival : Bool) :
    openCheck (acceptBytes c role arrival) =
      .ok { channel := c, role := role, given := none, arrival := arrival } := by
  simp [openCheck, channelField_byteOf, roleField_code, flagField_flagByte, fields]

theorem openCheck_given (c : Fin 8) (role : Role) (arrival : Bool) {p : Params} (h : paramsValid p = true) :
    openCheck (givenBytes c role arrival p) =
      .ok { channel := c, role := role, given := some p, arrival := arrival } := by
  simp [openCheck, natBytes2, halfBytes, channelField_byteOf, roleField_code, flagField_flagByte,
    paramsField_bytes h, fields]

theorem closeCheck_bytes (c : Fin 8) (role : Role) : closeCheck [byteOf c.val, Role.code role] = .ok (c, role) := by
  simp [closeCheck, channelField_byteOf, roleField_code, fields]

/-! ### A request that its owner answers -/

/-- An owner that answers without a change leaves the restarted timer alone. -/
theorem runRequest_unchanged {α : Type} {x : Station} {f : Frame} {handler : Frame → State → State}
    {check : List Byte → Except Status α} {owner : α → State → Handled} {s : State} {a : α} {status : Status}
    {fieldBytes : List Byte} (hr : Ready x f s) (hp : isPresent x s = true)
    (hh : ∀ t, handler f t = handleKnown x f check owner t) (hc : check f.payload = .ok a)
    (ho : owner a (restartKeepalive x s) = .reply (restartKeepalive x s) status fieldBytes) :
    runRequest x f handler s = answered x f status fieldBytes (restartKeepalive x s) :=
  runRequest_answered hr hp hh hc ho (by rw [restartKeepalive_severe]; exact hr.1.2.2.2.2.2)
    (by rw [isPresent_restartKeepalive]; exact hp)

theorem Ready.severe {x : Station} {f : Frame} {s : State} (h : Ready x f s) : s.severe = [] := by
  obtain ⟨⟨_, _, _, _, _, hs⟩, _⟩ := h
  exact hs

theorem Advisory.restartKeepalive {x : Station} {s : State} (h : Advisory s) : Advisory (restartKeepalive x s) :=
  Advisory.of_at fun y => AdvisoryAt.of_eq (by rw [restartKeepalive_faults]) (h.at y)

/-- A changed channel leaves the fault records. -/
theorem Advisory.setChan {c : Fin 8} {ch : Channel} {s : State} (h : Advisory s) : Advisory (setChan c ch s) :=
  Advisory.of_units rfl h

/-! ### Inquiries -/

theorem endsHeld_restartKeepalive (x y : Station) (s : State) : endsHeld x (restartKeepalive y s) = endsHeld x s := by
  simp [endsHeld]

theorem waiterSlot_eq : waiterSlot = fun w : Waiter =>
    [Station.code w.station, byteOf w.client.val] ++ natBytes2 w.duration ++ natBytes2 w.wait := rfl

/-- Settles O21: each inquiry is answered by its owner without a change. -/
theorem inquiriesReportAndChangeNothing : Obligations.InquiriesReportAndChangeNothing := by
  intro x tag c e s hp
  refine ⟨fun hr => ?_, fun hr => ?_, fun hr => ?_, fun hr => ?_⟩ <;> refine congrArg Host.Outcome.next ?_
  · refine runRequest_unchanged (check := inquireCheck) (owner := ownerInquire x) (a := .channel c) hr hp
      (fun _ => rfl) ?_ ?_
    · simp [inquireCheck, requestFrame, channelField_byteOf, fields]
    · simp [ownerInquire, channelInquiry, occupancy]
  · refine runRequest_unchanged (check := inquireCheck) (owner := ownerInquire x) (a := .lease e) hr hp
      (fun _ => rfl) ?_ ?_
    · simp [inquireCheck, requestFrame, entryField_byteOf, fields]
    · simp only [ownerInquire, leaseInquiry, holderBytes, remainingBytes, leaseStateByte, exhausted,
        leaseOf_restartKeepalive, restartKeepalive_waitCounts, waiterSlot_eq]
      generalize leaseOf e s = l
      obtain ⟨hold, fence, waiters, last⟩ := l
      cases hold <;> cases last <;> simp [natBytes2, halfBytes, List.replicate]
  · refine runRequest_unchanged (check := inquireCheck) (owner := ownerInquire x) (a := .store) hr hp
      (fun _ => rfl) rfl ?_
    simp only [ownerInquire, storeInquiry, freeBlockCount, restartKeepalive_store]
    cases s.store.health.last <;> rfl
  · refine runRequest_unchanged (check := inquireCheck) (owner := ownerInquire x) (a := .station) hr hp
      (fun _ => rfl) rfl ?_
    simp only [ownerInquire, stationInquiry, stationRecordBytes, endsHeld_restartKeepalive, restartKeepalive_notices,
      restartKeepalive_staging, List.cons_append, List.nil_append, List.append_assoc]

/-! ### Congestion and ARRIVAL -/

/-- R20: a FLOW offer goes to the holder of a sender end that is held and active. -/
theorem offerFlow_eq (c : Fin 8) (v : Bool) (s : State) :
    offerFlow c v s =
      if (chanOf c s).sender.dormant = true then s
      else match (chanOf c s).sender.holder with
        | none => s
        | some y => offer y (.flow c v (occupancy (chanOf c s))) s := by
  unfold offerFlow activeHolder
  cases (chanOf c s).sender.dormant <;> rfl

/-- R19: no flip leaves the state. -/
theorem evalCongestion_of_noFlip {c : Fin 8} {p : Params} {s : State} (hp : (chanOf c s).params = some p)
    (h : congestionFlip p (occupancy (chanOf c s)) (chanOf c s).congested = none) : evalCongestion c s = s := by
  simp [evalCongestion, hp, h]

/-- R19, R20: a flip sets the flag and offers FLOW. -/
theorem evalCongestion_of_flip {c : Fin 8} {p : Params} {v : Bool} {s : State} (hp : (chanOf c s).params = some p)
    (h : congestionFlip p (occupancy (chanOf c s)) (chanOf c s).congested = some v) :
    evalCongestion c s = offerFlow c v (setChan c { chanOf c s with congested := v } s) := by
  simp [evalCongestion, hp, h]

/-- Settles O22, by the four outcomes of the congestion test and the three of an append. -/
theorem endsAreToldOfQueueChanges : Obligations.EndsAreToldOfQueueChanges := by
  refine ⟨?_, ?_⟩
  · intro c p s hp
    have flip : ∀ v, congestionFlip p (occupancy (chanOf c s)) (chanOf c s).congested = some v →
        evalCongestion c s = _ := fun v h => (evalCongestion_of_flip hp h).trans (offerFlow_eq c v _)
    simp only [chanOf_setChan_self] at flip
    refine ⟨fun hc ho => ?_, fun hc ho => ?_, fun hc ho => ?_, fun hc ho => ?_⟩
    · exact flip true (by simp [congestionFlip, hc, occupancy, ho])
    · exact evalCongestion_of_noFlip hp (by
        simp [congestionFlip, hc, occupancy, Nat.not_le.mpr ho])
    · exact flip false (by simp [congestionFlip, hc, occupancy, ho])
    · exact evalCongestion_of_noFlip hp (by
        simp [congestionFlip, hc, occupancy, Nat.not_le.mpr ho])
  · intro c s
    refine ⟨fun y hy ha => ?_, fun h => ?_⟩
    · simp [offerArrival, activeHolder, hy, ha]
    · unfold offerArrival activeHolder
      rcases h with h | h | h <;> simp [h]

/-! ### OPEN -/

/-- An OPEN that its owner refuses: answered, with nothing changed. -/
theorem exec_open_refused {x : Station} {tag : Byte} {payload : List Byte} {s : State} {o : OpenFields}
    {status : Status} {fieldBytes : List Byte} (hr : Ready x (requestFrame 0x18 tag payload) s)
    (hp : isPresent x s = true) (hc : openCheck payload = .ok o)
    (ho : ownerOpen x o (restartKeepalive x s) = .reply (restartKeepalive x s) status fieldBytes) :
    exec (.open_ x tag payload) s =
      .next (answered x (requestFrame 0x18 tag payload) status fieldBytes (restartKeepalive x s)) :=
  congrArg Host.Outcome.next
    (runRequest_unchanged (check := openCheck) (owner := ownerOpen x) hr hp (fun _ => rfl) hc ho)

/-- An OPEN that its owner carries out. -/
theorem exec_open_done {x : Station} {tag : Byte} {payload : List Byte} {s t : State} {o : OpenFields}
    {fieldBytes : List Byte} (hr : Ready x (requestFrame 0x18 tag payload) s) (hp : isPresent x s = true)
    (hc : openCheck payload = .ok o) (ho : ownerOpen x o (restartKeepalive x s) = .reply t .ok fieldBytes)
    (ht : t.severe = []) (hpt : isPresent x t = true) :
    exec (.open_ x tag payload) s = .next (answered x (requestFrame 0x18 tag payload) .ok fieldBytes t) :=
  congrArg Host.Outcome.next
    (runRequest_answered (check := openCheck) (owner := ownerOpen x) hr hp (fun _ => rfl) hc ho ht hpt)

theorem holdsEnd_iff {x : Station} {e : End} : holdsEnd x e = true ↔ e.holder = some x := by simp [holdsEnd]

theorem holdsEnd_eq_false {x : Station} {e : End} : holdsEnd x e = false ↔ e.holder ≠ some x := by simp [holdsEnd]

theorem holdsEnd_of_free {x : Station} {e : End} (h : e.holder = none) : holdsEnd x e = false := by simp [holdsEnd, h]

theorem holdsEnd_of_peer {x : Station} {e : End} (h : e.holder = some x.peer) : holdsEnd x e = false := by
  simp [holdsEnd, h]

theorem endHeld_of_holder {x : Station} {e : End} (h : e.holder = some x) : endHeld e = true := by simp [endHeld, h]

theorem endHeld_of_free {e : End} (h : e.holder = none) : endHeld e = false := by simp [endHeld, h]

/-- R10 check 3. -/
theorem ownerOpen_sameStation {x : Station} {o : OpenFields} {s : State}
    (h : (endOf o.role.other (chanOf o.channel s)).holder = some x) : ownerOpen x o s = .reply s .sameStation [] := by
  simp [ownerOpen, holdsEnd_iff.mpr h]

/-- R10 check 4. -/
theorem ownerOpen_alreadyOpen {x : Station} {o : OpenFields} {s : State}
    (h1 : (endOf o.role.other (chanOf o.channel s)).holder ≠ some x)
    (h2 : (endOf o.role (chanOf o.channel s)).holder = some x) :
    ownerOpen x o s = .reply s .alreadyOpen (openFieldsOf (chanOf o.channel s)) := by
  simp [ownerOpen, holdsEnd_eq_false.mpr h1, holdsEnd_iff.mpr h2]

/-- R10 check 5. -/
theorem ownerOpen_roleTaken {x : Station} {o : OpenFields} {s : State}
    (h1 : (endOf o.role.other (chanOf o.channel s)).holder ≠ some x)
    (h2 : (endOf o.role (chanOf o.channel s)).holder = some x.peer) :
    ownerOpen x o s = .reply s .roleTaken [] := by
  simp [ownerOpen, holdsEnd_eq_false.mpr h1, holdsEnd_of_peer h2, endHeld_of_holder h2]

/-- R11: the channel is CLOSED. -/
theorem ownerOpen_closed {x : Station} {o : OpenFields} {s : State}
    (h1 : (endOf o.role.other (chanOf o.channel s)).holder = none)
    (h2 : (endOf o.role (chanOf o.channel s)).holder = none) :
    ownerOpen x o s =
      match o.given with
      | none => .reply s .badField []
      | some p => .reply (openClosed x o p s) .ok (openFieldsOf (chanOf o.channel (openClosed x o p s))) := by
  simp only [ownerOpen, holdsEnd_of_free h1, holdsEnd_of_free h2, endHeld_of_free h1, endHeld_of_free h2]
  rfl

/-- R12: the other end is held by the peer. -/
theorem ownerOpen_second {x : Station} {o : OpenFields} {s : State}
    (h1 : (endOf o.role.other (chanOf o.channel s)).holder = some x.peer)
    (h2 : (endOf o.role (chanOf o.channel s)).holder = none) :
    ownerOpen x o s =
      if paramsMatch o.given (chanOf o.channel s) then
        .reply (openSecond x o s) .ok (openFieldsOf (chanOf o.channel (openSecond x o s)))
      else .reply s .mismatch (openFieldsOf (chanOf o.channel s)) := by
  simp only [ownerOpen, holdsEnd_of_peer h1, holdsEnd_of_free h2, endHeld_of_holder h1, endHeld_of_free h2]
  rfl

/-- Settles O25: checks 3 to 5 of R10, for both parameter forms. -/
theorem openIsRefusedForAHeldEnd : Obligations.OpenIsRefusedForAHeldEnd := by
  intro x tag c role arrival p payload s hpay f ch q hr hp
  obtain ⟨given, hc⟩ : ∃ given, openCheck payload =
      .ok { channel := c, role := role, given := given, arrival := arrival } := by
    rcases hpay with rfl | ⟨hv, rfl⟩
    · exact ⟨_, openCheck_accept c role arrival⟩
    · exact ⟨_, openCheck_given c role arrival hv⟩
  refine ⟨fun h1 => ?_, fun h1 h2 => ?_, fun h1 h2 => ?_⟩ <;> refine exec_open_refused hr hp hc ?_
  · exact ownerOpen_sameStation (by simpa using h1)
  · refine (ownerOpen_alreadyOpen (by simpa using h1) (by simpa using h2)).trans ?_
    simp [openFieldsOf, q, ch]
  · exact ownerOpen_roleTaken (by simpa using h1) (by simpa using h2)

/-- Settles O23. -/
theorem openTakesAClosedChannel : Obligations.OpenTakesAClosedChannel := by
  intro x tag c role arrival p s given accept ch hp hs hrcv
  have hfree : ∀ r, (endOf r (chanOf c (restartKeepalive x s))).holder = none := fun r => by
    cases r <;> simpa [endOf]
  refine ⟨fun hr ha h1 h2 h3 h4 h5 h6 h7 => ?_, fun hr => ?_⟩
  · have hv : paramsValid p = true := by simp [paramsValid, *]
    refine exec_open_done hr hp (openCheck_given c role arrival hv) ?_ ?_ ?_
    · rw [ownerOpen_closed (hfree _) (hfree _)]
      cases role <;>
        simp [openClosed, takeEnd, openFieldsOf, channelState, endHeld, occupancy, ch, hs, hrcv,
          ChannelState.code]
    · rw [offer_severe (ha.restartKeepalive.setChan.at _)]
      simp [hr.severe]
    · simp [hp]
  · refine exec_open_refused hr hp (openCheck_accept c role arrival) ?_
    rw [ownerOpen_closed (hfree _) (hfree _)]

/-- R12, R13: what the opener of a second end leaves, by its role. -/
theorem openSecond_eq (x : Station) (c : Fin 8) (role : Role) (given : Option Params) (arrival : Bool) (s : State) :
    openSecond x { channel := c, role := role, given := given, arrival := arrival } s =
      match role with
      | .send => tellSender x c (offer x.peer (.channelOpened c .send)
        (setChan c (takeEnd x .send arrival (chanOf c s)) s))
      | .receive =>
        tellReceiver x c
          (offer x.peer (.channelOpened c .receive) (setChan c (takeEnd x .receive arrival (chanOf c s)) s)) := by
  cases role <;> rfl

theorem openSecond_severe {x : Station} {o : OpenFields} {s : State} (h : Advisory s) :
    (openSecond x o s).severe = s.severe := by
  have h1 : Advisory (setChan o.channel (takeEnd x o.role o.arrival (chanOf o.channel s)) s) := h.setChan
  unfold openSecond
  simp only
  split
  · rw [tellSender_severe h1.offer, offer_severe (h1.at _)]; rfl
  · rw [tellReceiver_severe h1.offer, offer_severe (h1.at _)]; rfl

theorem isPresent_openSecond (y x : Station) (o : OpenFields) (s : State) :
    isPresent y (openSecond x o s) = isPresent y s := by
  unfold openSecond
  simp only
  split <;> simp

/-- R13: a taken end has no other effect on the channel than the holder and, for a receiver, its option. -/
theorem chanOf_openSecond (x : Station) (o : OpenFields) (s : State) :
    chanOf o.channel (openSecond x o s) = takeEnd x o.role o.arrival (chanOf o.channel s) := by
  unfold openSecond
  simp only
  split <;> simp

/-- Settles O24. -/
theorem openTakesTheSecondEnd : Obligations.OpenTakesTheSecondEnd := by
  intro x tag c role arrival p s given accept ch hp hv ha hfree hheld opened told done q tail
  have h1 : (endOf role.other (chanOf c (restartKeepalive x s))).holder = some x.peer := by simpa using hheld
  have h2 : (endOf role (chanOf c (restartKeepalive x s))).holder = none := by simpa using hfree
  -- the state and the fields of an OPEN that matches, whatever its form
  have hdone : ∀ form : Option Params,
      openSecond x { channel := c, role := role, given := form, arrival := arrival } (restartKeepalive x s) = done := by
    intro form
    rw [openSecond_eq]
    cases role <;> simp [done, told, opened, takeEnd, tellSender, tellReceiver, holdsEnd, ch, occupancy]
  have hfields : ∀ form : Option Params,
      openFieldsOf (chanOf c (openSecond x { channel := c, role := role, given := form, arrival := arrival }
        (restartKeepalive x s))) = 0x03 :: tail := by
    intro form
    rw [chanOf_openSecond x { channel := c, role := role, given := form, arrival := arrival }]
    cases role <;>
      simp_all [openFieldsOf, takeEnd, channelState, endHeld, endOf, Role.other, ChannelState.code, tail, q, ch,
        occupancy]
  -- a matching form is carried out
  have hopen : ∀ payload form, Ready x (requestFrame 0x18 tag payload) s →
      openCheck payload = .ok { channel := c, role := role, given := form, arrival := arrival } →
      paramsMatch form ch = true →
      exec (.open_ x tag payload) s =
        .next (answered x (requestFrame 0x18 tag payload) .ok (0x03 :: tail) done) := by
    intro payload form hr hc hm
    have howner : ownerOpen x { channel := c, role := role, given := form, arrival := arrival }
        (restartKeepalive x s) = .reply done .ok (0x03 :: tail) := by
      rw [ownerOpen_second h1 h2, if_pos (by simpa using hm), hdone, ← hfields form, hdone]
    refine exec_open_done hr hp hc howner ?_ ?_
    · rw [← hdone form, openSecond_severe ha.restartKeepalive, restartKeepalive_severe, hr.severe]
    · rw [← hdone form, isPresent_openSecond, isPresent_restartKeepalive, hp]
  refine ⟨fun hr => hopen _ _ hr (openCheck_accept c role arrival) rfl,
    fun hr hm => hopen _ _ hr (openCheck_given c role arrival hv) (by simp [paramsMatch, ch, hm]), fun hr hm => ?_⟩
  refine exec_open_refused hr hp (openCheck_given c role arrival hv) ?_
  rw [ownerOpen_second h1 h2, if_neg (by simpa [paramsMatch] using hm)]
  cases role <;>
    simp_all [openFieldsOf, channelState, endHeld, endOf, Role.other, ChannelState.code, tail, q, ch, occupancy]

/-! ### Requests on a queue without its end (R4) -/

/-- Fields that are all in range. -/
theorem fields_eq_ok {α : Type} {o : Option α} {a : α} : fields o = .ok a ↔ o = some a := by
  cases o <;> simp [fields]

/-- The first byte of a payload names the channel of the request that it spells. -/
theorem postCheck_channel {c : Fin 8} {rest : List Byte} {a : Fin 8 × List Byte}
    (h : postCheck (byteOf c.val :: rest) = .ok a) : a.1 = c := by
  unfold postCheck at h
  split at h
  · rename_i hcons
    obtain ⟨rfl, rfl⟩ := List.cons.inj hcons
    split at h
    · rw [fields_eq_ok, channelField_byteOf, Option.bind_eq_bind, Option.bind_some] at h
      split at h
      · rw [← Option.some.inj h]
      · cases h
    · cases h
  · cases h

theorem segmentCheck_channel {c : Fin 8} {rest : List Byte} {g : SegmentFields}
    (h : segmentCheck (byteOf c.val :: rest) = .ok g) : SegmentFields.channel g = c := by
  unfold segmentCheck at h
  split at h
  · rename_i hcons
    obtain ⟨rfl, rfl⟩ := List.cons.inj hcons
    simp only [channelField_byteOf, Option.bind_eq_bind, Option.bind_some] at h
    split at h
    · split at h
      · split at h
        · rw [fields_eq_ok] at h
          split at h
          · rw [← Option.some.inj h]; rfl
          · cases h
        · cases h
      · cases h
    · split at h
      · split at h
        · rw [fields_eq_ok] at h
          rw [← Option.some.inj h]
          split <;> rfl
        · cases h
      · split at h <;> cases h
  · cases h

theorem channelCheck_channel {c d : Fin 8} {rest : List Byte} (h : channelCheck (byteOf c.val :: rest) = .ok d) :
    d = c := by
  rcases rest with _ | ⟨o, data⟩
  · simpa [channelCheck, fields, channelField_byteOf, eq_comm] using h
  · simp [channelCheck] at h

theorem fetchCheck_channel {c : Fin 8} {rest : List Byte} {a : Fin 8 × DeliveryMode}
    (h : fetchCheck (byteOf c.val :: rest) = .ok a) : a.1 = c := by
  rcases rest with _ | ⟨m, _ | ⟨_, _⟩⟩
  · simp [fetchCheck] at h
  · cases hm : modeField m <;> simp [fetchCheck, fields, channelField_byteOf, hm] at h
    rw [← h]
  · simp [fetchCheck] at h

theorem readCheck_channel {c : Fin 8} {rest : List Byte} {a : ReadFields}
    (h : readCheck (byteOf c.val :: rest) = .ok a) : a.channel = c := by
  unfold readCheck at h
  split at h
  · rename_i c' s1 s0 o1 o0 hcons
    obtain ⟨rfl, _⟩ := List.cons.inj hcons
    by_cases ho : (halfOf o1 o0).toNat ≤ Config.maxMessage <;> simp [fields, channelField_byteOf, ho] at h
    rw [← h]
  · cases h

theorem retireCheck_channel {c : Fin 8} {rest : List Byte} {a : Fin 8 × Half}
    (h : retireCheck (byteOf c.val :: rest) = .ok a) : a.1 = c := by
  unfold retireCheck at h
  split at h
  · rename_i c' s1 s0 hcons
    obtain ⟨rfl, _⟩ := List.cons.inj hcons
    simp [fields, channelField_byteOf] at h
    rw [← h]
  · cases h

theorem drawCheck_channel {c : Fin 8} {rest : List Byte} {a : DrawFields}
    (h : drawCheck (byteOf c.val :: rest) = .ok a) : a.channel = c := by
  unfold drawCheck at h
  split at h
  · rename_i c' n m sp hcons
    obtain ⟨rfl, _⟩ := List.cons.inj hcons
    cases hm : modeField m
    · simp [fields, channelField_byteOf, hm] at h
    · by_cases hn : 1 ≤ n.toNat ∧ n.toNat ≤ 8 ∧ sp.toNat ≤ 15 <;> simp [fields, channelField_byteOf, hm, hn] at h
      rw [← h]
  · cases h

/-- A check that refuses nothing answers fields. -/
theorem exists_ok_of_no_refusal {α : Type} {r : Except Status α}
    (h : (match r with | .error e => some e | .ok _ => none : Option Status) = none) : ∃ a, r = .ok a := by
  cases r with
  | error e => cases h
  | ok a => exact ⟨a, rfl⟩

/-- R4: a queue request whose owner answers NOT_OPEN for its channel. -/
theorem exec_notOpen {α : Type} {x : Station} {kind tag : Byte} {payload : List Byte} {s : State}
    {check : List Byte → Except Status α} {owner : α → State → Handled}
    (hr : Ready x (requestFrame kind tag payload) s) (hp : isPresent x s = true)
    (hh : ∀ t, handleFrame x (requestFrame kind tag payload) t =
      handleKnown x (requestFrame kind tag payload) check owner t)
    (hc : (match check payload with | .error e => some e | .ok _ => none : Option Status) = none)
    (ho : ∀ a, check payload = .ok a →
      owner a (restartKeepalive x s) = .reply (restartKeepalive x s) .notOpen []) :
    exec (requestCommand x kind tag payload) s =
      .next (answered x (requestFrame kind tag payload) .notOpen [] (restartKeepalive x s)) := by
  obtain ⟨a, ha⟩ := exists_ok_of_no_refusal hc
  rw [exec_requestCommand]
  exact congrArg Host.Outcome.next (runRequest_unchanged hr hp hh ha (ho a ha))

/-- Settles O27, kind by kind: each check names channel c, and each owner tests its end first. -/
theorem queueRequestsNeedTheirEnd : Obligations.QueueRequestsNeedTheirEnd := by
  intro x kind tag c rest s payload f hr hp hpay hk
  rcases hk with ⟨rfl | rfl | rfl, he⟩ | ⟨rfl | rfl | rfl | rfl | rfl | rfl, he⟩
  · refine exec_notOpen (check := postCheck) (owner := fun a t => ownerPost x a.1 a.2 t) hr hp (fun _ => rfl) hpay ?_
    intro a ha
    simp [ownerPost, postCheck_channel ha, he]
  · refine exec_notOpen (check := segmentCheck) (owner := ownerSegment x) hr hp (fun _ => rfl) hpay ?_
    intro a ha
    simp [ownerSegment, segmentCheck_channel ha, he]
  · refine exec_notOpen (check := channelCheck) (owner := ownerAbandon x) hr hp (fun _ => rfl) hpay ?_
    intro a ha
    simp [ownerAbandon, channelCheck_channel ha, he]
  · refine exec_notOpen (check := fetchCheck) (owner := fun a t => ownerFetch x a.1 a.2 t) hr hp (fun _ => rfl) hpay ?_
    intro a ha
    simp [ownerFetch, fetchCheck_channel ha, he]
  · refine exec_notOpen (check := readCheck) (owner := ownerRead x) hr hp (fun _ => rfl) hpay ?_
    intro a ha
    simp [ownerRead, readCheck_channel ha, he]
  · refine exec_notOpen (check := retireCheck) (owner := fun a t => ownerRetire x a.1 a.2 t) hr hp
      (fun _ => rfl) hpay ?_
    intro a ha
    simp [ownerRetire, retireCheck_channel ha, he]
  · refine exec_notOpen (check := channelCheck) (owner := ownerReturn x) hr hp (fun _ => rfl) hpay ?_
    intro a ha
    simp [ownerReturn, channelCheck_channel ha, he]
  · refine exec_notOpen (check := channelCheck) (owner := ownerPurge x) hr hp (fun _ => rfl) hpay ?_
    intro a ha
    simp [ownerPurge, channelCheck_channel ha, he]
  · refine exec_notOpen (check := drawCheck) (owner := ownerDraw x f) hr hp (fun _ => rfl) hpay ?_
    intro a ha
    simp [ownerDraw, drawCheck_channel ha, he]

end Sys2Proof.Machine
end

section
/-!
PROOFS. Closing an end (R14, R15): the state after the release, said field by field, and CLOSE.
-/

namespace Sys2Proof.Machine

/-! ### The free pool -/

theorem mem_insertBlock {a b : Fin 256} {l : List (Fin 256)} : a ∈ insertBlock b l ↔ a = b ∨ a ∈ l := by
  induction l with
  | nil => simp [insertBlock]
  | cons c cs ih =>
    unfold insertBlock
    split
    · simp
    · split
      · subst b; simp
      · simp only [List.mem_cons, ih]; tauto

/-- R26: what is freed is in the free pool, and what was in it stays. -/
theorem mem_freeBlocks {a : Fin 256} {bs : List (Fin 256)} {st : Store} :
    a ∈ (freeBlocks bs st).freePool ↔ a ∈ bs ∨ a ∈ st.freePool := by
  unfold freeBlocks
  induction bs with
  | nil => simp
  | cons b bs ih => simp only [List.foldr_cons, mem_insertBlock, List.mem_cons] at *; rw [ih]; tauto

/-! ### A staging record is dropped -/

/-- What dropping its staging record leaves of a channel. -/
def withoutStaging (r : Option Staging) (ch : Channel) : Channel :=
  match r with
  | none => ch
  | some r => { ch with reserved := 0, charged := ch.charged - r.blocks.length }

@[simp] theorem withoutStaging_none (ch : Channel) : withoutStaging none ch = ch := rfl

@[simp] theorem withoutStaging_some (r : Staging) (ch : Channel) :
    withoutStaging (some r) ch = { ch with reserved := 0, charged := ch.charged - r.blocks.length } := rfl

/-- Dropping a record changes the free pool, the channel's accounts and the station's records, nothing else. -/
theorem dropStaging_frame (x : Station) (r : Staging) (s : State) :
    dropStaging x r s =
      setUnit x { unitOf x s with staging := (unitOf x s).staging.filter fun t => t.channel != r.channel }
        (setChan r.channel (withoutStaging (some r) (chanOf r.channel s)) (setStore (freeBlocks r.blocks s.store) s)) :=
  rfl

/-- With no record on a channel, taking the channel's records out changes nothing. -/
theorem filter_staging_of_none {x : Station} {c : Fin 8} {s : State} (h : stagingOn x c s = none) :
    ((unitOf x s).staging.filter fun t => t.channel != c) = (unitOf x s).staging := by
  rw [List.filter_eq_self]
  intro r hr
  simpa using List.find?_eq_none.mp h r hr

theorem stagingOn_eq_none {x : Station} {c : Fin 8} {s : State} :
    stagingOn x c s = none ↔ ∀ r ∈ (unitOf x s).staging, r.channel ≠ c := by
  simp [stagingOn]

theorem stagingOn_mem {x : Station} {c : Fin 8} {s : State} {r : Staging} (h : stagingOn x c s = some r) :
    r ∈ (unitOf x s).staging := List.mem_of_find?_eq_some h

/-! ### The release of an end -/

/-- R14, first part: the state after the end has been released. -/
def releaseEnd (x : Station) (c : Fin 8) (role : Role) (s : State) : State :=
  match role with
  | .send => (releaseSender x c s).1
  | .receive => (releaseReceiver c s).1

/-- R14, first part: the channel after the end has been released; `r` is the staging record of a sender. -/
def releasedChannel (r : Option Staging) (role : Role) (ch : Channel) : Channel :=
  match role with
  | .send => { withoutStaging r ch with sender := resetEnd }
  | .receive => { returnLent ch with receiver := resetEnd, arrivalOption := false }

/-- R14, first part: the store after the end has been released. -/
def releasedStore (r : Option Staging) (role : Role) (st : Store) : Store :=
  match role, r with
  | .send, some r => freeBlocks r.blocks st
  | _, _ => st

/-- R14, first part: the staging records left. -/
def keptStaging (c : Fin 8) (role : Role) (l : List Staging) : List Staging :=
  match role with
  | .send => l.filter fun t => t.channel != c
  | .receive => l

/-- The release changes the channel, the store's free pool and the staging records of the station, nothing else. -/
theorem releaseEnd_frame (x : Station) (c : Fin 8) (role : Role) (s : State) :
    releaseEnd x c role s =
      setChan c (releasedChannel (stagingOn x c s) role (chanOf c s))
        (setUnit x { unitOf x s with staging := keptStaging c role (unitOf x s).staging }
          (setStore (releasedStore (stagingOn x c s) role s.store) s)) := by
  cases role with
  | receive =>
    have h : setUnit x { unitOf x s with staging := keptStaging c .receive (unitOf x s).staging }
        (setStore (releasedStore (stagingOn x c s) .receive s.store) s) = s := setUnit_unitOf x s
    rw [h]; rfl
  | send =>
    unfold releaseEnd releaseSender releasedStore keptStaging
    cases hr : stagingOn x c s with
    | none =>
      simp only [filter_staging_of_none hr]
      have h : setUnit x { unitOf x s with staging := (unitOf x s).staging } (setStore s.store s) = s :=
        setUnit_unitOf x s
      rw [h]; rfl
    | some r =>
      have hc : r.channel = c := Kept.stagingOn_channel hr
      subst hc
      simp only [dropStaging_frame, chanOf_setUnit, chanOf_setChan_self]
      simp [setChan, setUnit, setStore, releasedChannel, unitOf, chanOf]

@[simp] theorem chanOf_releaseEnd_self (x : Station) (c : Fin 8) (role : Role) (s : State) :
    chanOf c (releaseEnd x c role s) = releasedChannel (stagingOn x c s) role (chanOf c s) := by
  rw [releaseEnd_frame, chanOf_setChan_self]

theorem chanOf_releaseEnd_ne (x : Station) {c d : Fin 8} (role : Role) (s : State) (h : d ≠ c) :
    chanOf d (releaseEnd x c role s) = chanOf d s := by
  rw [releaseEnd_frame, chanOf_setChan_ne _ _ h]; rfl

@[simp] theorem unitOf_releaseEnd_self (x : Station) (c : Fin 8) (role : Role) (s : State) :
    unitOf x (releaseEnd x c role s) =
      { unitOf x s with staging := keptStaging c role (unitOf x s).staging } := by
  rw [releaseEnd_frame]; simp

@[simp] theorem unitOf_releaseEnd_peer (x : Station) (c : Fin 8) (role : Role) (s : State) :
    unitOf x.peer (releaseEnd x c role s) = unitOf x.peer s := by
  rw [releaseEnd_frame]; simp

@[simp] theorem releaseEnd_store (x : Station) (c : Fin 8) (role : Role) (s : State) :
    (releaseEnd x c role s).store = releasedStore (stagingOn x c s) role s.store := by
  rw [releaseEnd_frame]; rfl

@[simp] theorem releaseEnd_severe (x : Station) (c : Fin 8) (role : Role) (s : State) :
    (releaseEnd x c role s).severe = s.severe := by rw [releaseEnd_frame]; rfl

@[simp] theorem isPresent_releaseEnd (y x : Station) (c : Fin 8) (role : Role) (s : State) :
    isPresent y (releaseEnd x c role s) = isPresent y s := by
  rw [releaseEnd_frame, isPresent_setChan, isPresent_setUnit _ _ _ _ (by rfl)]; rfl

theorem Advisory.releaseEnd {x : Station} {c : Fin 8} {role : Role} {s : State} (h : Advisory s) :
    Advisory (releaseEnd x c role s) := by
  rw [releaseEnd_frame]
  exact Advisory.setChan (Advisory.of_setUnit rfl (Advisory.of_units rfl h))

/-- The end released is held by no station, the other end is as before. -/
theorem endOf_releasedChannel_self (r : Option Staging) (role : Role) (ch : Channel) :
    endOf role (releasedChannel r role ch) = resetEnd := by cases role <;> rfl

@[simp] theorem endOf_releasedChannel_other (r : Option Staging) (role : Role) (ch : Channel) :
    endOf role.other (releasedChannel r role ch) = endOf role.other ch := by
  cases role
  · cases r <;> rfl
  · rfl

@[simp] theorem returnLent_length (ch : Channel) : (returnLent ch).queue.length = ch.queue.length := by
  simp [returnLent]

theorem blocks_returnMessage (m : Message) : (returnMessage m).blocks = m.blocks := by
  unfold returnMessage
  split <;> rfl

@[simp] theorem blocksOf_map_returnMessage (q : List Message) : blocksOf (q.map returnMessage) = blocksOf q := by
  simp [blocksOf, List.flatMap_map, blocks_returnMessage]

@[simp] theorem releasedChannel_length (r : Option Staging) (role : Role) (ch : Channel) :
    (releasedChannel r role ch).queue.length = ch.queue.length := by
  cases role
  · cases r <;> rfl
  · exact returnLent_length ch

@[simp] theorem releasedChannel_blocks (r : Option Staging) (role : Role) (ch : Channel) :
    blocksOf (releasedChannel r role ch).queue = blocksOf ch.queue := by
  cases role
  · cases r <;> rfl
  · exact blocksOf_map_returnMessage _

/-! ### The congestion evaluation after a release -/

/-- R19: the congested flag after an evaluation. -/
def congestionAfter (ch : Channel) : Bool :=
  match ch.params with
  | none => ch.congested
  | some p => if ch.congested = true then decide (p.low < occupancy ch) else decide (p.high ≤ occupancy ch)

/-- R14: with the sender end not held the evaluation sets the flag and makes no offer. -/
theorem evalCongestion_sender_free {c : Fin 8} {s : State} (h : (chanOf c s).sender = resetEnd) :
    evalCongestion c s = setChan c { chanOf c s with congested := congestionAfter (chanOf c s) } s := by
  have hself : ∀ v, congestionAfter (chanOf c s) = v → (chanOf c s).congested = v →
      s = setChan c { chanOf c s with congested := congestionAfter (chanOf c s) } s := by
    intro v h1 h2
    rw [h1, ← h2]; exact (setChan_chanOf c s).symm
  cases hp : (chanOf c s).params with
  | none =>
    have : evalCongestion c s = s := by simp [evalCongestion, hp]
    rw [this]
    exact hself _ (by simp [congestionAfter, hp]) rfl
  | some p =>
    have flip : ∀ v, congestionFlip p (occupancy (chanOf c s)) (chanOf c s).congested = some v →
        evalCongestion c s = setChan c { chanOf c s with congested := v } s := fun v hv => by
      rw [evalCongestion_of_flip hp hv]
      simp [offerFlow, h, activeHolder, resetEnd]
    cases hc : (chanOf c s).congested
    · by_cases ho : p.high ≤ occupancy (chanOf c s)
      · rw [flip true (by simp [congestionFlip, hc, ho])]
        simp [congestionAfter, hp, hc, ho]
      · rw [evalCongestion_of_noFlip hp (by simp [congestionFlip, hc, ho])]
        exact hself false (by simp [congestionAfter, hp, hc, ho]) hc
    · by_cases ho : p.low < occupancy (chanOf c s)
      · rw [evalCongestion_of_noFlip hp (by simp [congestionFlip, hc, ho])]
        exact hself true (by simp [congestionAfter, hp, hc, ho]) hc
      · rw [flip false (by simp [congestionFlip, hc, Nat.not_lt.mp ho])]
        simp [congestionAfter, hp, hc, ho]

/-! ### The end of a close -/

/-- R14: whether the close abandons a staging record. -/
def closeStaged (x : Station) (c : Fin 8) (role : Role) (s : State) : Bool :=
  match role with
  | .send => (stagingOn x c s).isSome
  | .receive => false

/-- R14: how many LENT messages the close returns. -/
def closeReturned (role : Role) (ch : Channel) : Nat :=
  match role with
  | .send => 0
  | .receive => lentCount ch

/-- R14: the state before the CHANNEL_CLOSED offer, when the other end is held. -/
def closedBefore (x : Station) (c : Fin 8) (role : Role) (s : State) : State :=
  if closeStaged x c role s = true then evalCongestion c (releaseEnd x c role s) else releaseEnd x c role s

/-- R14: a close while the other end is held. -/
theorem closeEnd_of_held {x : Station} {c : Fin 8} {role : Role} {s : State}
    (h : endHeld (endOf role.other (chanOf c s)) = true) :
    closeEnd x c role s =
      (offer x.peer (.channelClosed c role) (closedBefore x c role s),
        { staged := closeStaged x c role s, returned := closeReturned role (chanOf c s), discarded := 0 }) := by
  have h' : endHeld (endOf role.other (chanOf c (releaseEnd x c role s))) = true := by
    rw [chanOf_releaseEnd_self, endOf_releasedChannel_other, h]
  cases role with
  | send =>
    unfold closeEnd afterRelease closedBefore closeStaged closeReturned
    change endHeld (endOf Role.send.other (chanOf c (releaseSender x c s).1)) = true at h'
    simp only [h']
    rfl
  | receive =>
    unfold closeEnd afterRelease closedBefore closeStaged closeReturned
    change endHeld (endOf Role.receive.other (chanOf c (releaseReceiver c s).1)) = true at h'
    simp only [h']
    rfl

/-- R15: the close of the last end. -/
theorem closeEnd_of_last {x : Station} {c : Fin 8} {role : Role} {s : State}
    (h : endHeld (endOf role.other (chanOf c s)) = false) :
    closeEnd x c role s =
      (becomeClosed c (releaseEnd x c role s),
        { staged := closeStaged x c role s, returned := closeReturned role (chanOf c s),
          discarded := (chanOf c s).queue.length }) := by
  have h' : endHeld (endOf role.other (chanOf c (releaseEnd x c role s))) = false := by
    rw [chanOf_releaseEnd_self, endOf_releasedChannel_other, h]
  have hl : (chanOf c (releaseEnd x c role s)).queue.length = (chanOf c s).queue.length := by simp
  cases role with
  | send =>
    unfold closeEnd afterRelease closeStaged closeReturned
    change endHeld (endOf Role.send.other (chanOf c (releaseSender x c s).1)) = false at h'
    change (chanOf c (releaseSender x c s).1).queue.length = _ at hl
    simp only [h', hl]
    rfl
  | receive =>
    unfold closeEnd afterRelease closeStaged closeReturned
    change endHeld (endOf Role.receive.other (chanOf c (releaseReceiver c s).1)) = false at h'
    change (chanOf c (releaseReceiver c s).1).queue.length = _ at hl
    simp only [h', hl]
    rfl

/-- R14, R19: the channel after a close, while the other end is held. -/
def closedChannel (r : Option Staging) (role : Role) (ch : Channel) : Channel :=
  match role, r with
  | .send, some _ => { releasedChannel r .send ch with congested := congestionAfter (releasedChannel r .send ch) }
  | _, _ => releasedChannel r role ch

/-- Before its CHANNEL_CLOSED offer a close has released the end and set the congested flag. -/
theorem closedBefore_frame (x : Station) (c : Fin 8) (role : Role) (s : State) :
    closedBefore x c role s =
      setChan c (closedChannel (stagingOn x c s) role (chanOf c s)) (releaseEnd x c role s) := by
  have hsame : releaseEnd x c role s =
      setChan c (releasedChannel (stagingOn x c s) role (chanOf c s)) (releaseEnd x c role s) := by
    rw [← chanOf_releaseEnd_self, setChan_chanOf]
  cases role with
  | receive => exact hsame
  | send =>
    cases hr : stagingOn x c s with
    | none =>
      rw [hr] at hsame
      simpa [closedBefore, closeStaged, hr, closedChannel] using hsame
    | some r =>
      have hfree : (chanOf c (releaseEnd x c .send s)).sender = resetEnd := by
        rw [chanOf_releaseEnd_self]; rfl
      have hstaged : closeStaged x c .send s = true := by simp [closeStaged, hr]
      rw [closedBefore, if_pos hstaged, evalCongestion_sender_free hfree, chanOf_releaseEnd_self, hr]
      rfl

@[simp] theorem chanOf_closedBefore_self (x : Station) (c : Fin 8) (role : Role) (s : State) :
    chanOf c (closedBefore x c role s) = closedChannel (stagingOn x c s) role (chanOf c s) := by
  rw [closedBefore_frame, chanOf_setChan_self]

theorem chanOf_closedBefore_ne (x : Station) {c d : Fin 8} (role : Role) (s : State) (h : d ≠ c) :
    chanOf d (closedBefore x c role s) = chanOf d s := by
  rw [closedBefore_frame, chanOf_setChan_ne _ _ h, chanOf_releaseEnd_ne _ _ _ h]

theorem Advisory.closedBefore {x : Station} {c : Fin 8} {role : Role} {s : State} (h : Advisory s) :
    Advisory (closedBefore x c role s) := by
  rw [closedBefore_frame]
  exact h.releaseEnd.setChan

theorem endOf_closedChannel_self (r : Option Staging) (role : Role) (ch : Channel) :
    endOf role (closedChannel r role ch) = resetEnd := by
  cases role
  · cases r <;> rfl
  · rfl

theorem endOf_closedChannel_other (r : Option Staging) (role : Role) (ch : Channel) :
    endOf role.other (closedChannel r role ch) = endOf role.other ch := by
  cases role
  · cases r <;> rfl
  · rfl

/-- R2: the state of a channel whose end of this role alone is not held. -/
def stateWithout : Role → ChannelState
  | .send => .receiverOnly
  | .receive => .senderOnly

theorem channelState_one {role : Role} {ch : Channel} (h1 : endHeld (endOf role ch) = false)
    (h2 : endHeld (endOf role.other ch) = true) : channelState ch = stateWithout role := by
  cases role <;> simp only [endOf, Role.other] at h1 h2 <;> simp [channelState, h1, h2, stateWithout]

/-! ### The channel record that R14 and R15 describe -/

theorem returnMessage_eq (m : Message) :
    returnMessage m = match m.state with
      | .lent => { m with state := .queued, redelivered := true }
      | .queued => m := by
  obtain ⟨_, _, _, st, _, _, _⟩ := m
  cases st <;> rfl

theorem returnMessage_fun : returnMessage = fun m : Message =>
    match m.state with
      | .lent => { m with state := .queued, redelivered := true }
      | .queued => m := funext returnMessage_eq

/-- R14 at the sender end, with a staging record. -/
theorem closedChannel_send_some (r : Staging) (ch : Channel) :
    closedChannel (some r) .send ch =
      { ch with
        sender := resetEnd, reserved := 0, charged := ch.charged - r.blocks.length
        congested :=
          match ch.params with
          | none => ch.congested
          | some p =>
            if ch.congested = true then decide (p.low < ch.queue.length) else decide (p.high ≤ ch.queue.length) } := by
  obtain ⟨_, _, _, params, _, _, _, _, _⟩ := ch
  cases params <;> simp [closedChannel, releasedChannel, congestionAfter, occupancy]

/-! ### CLOSE -/

/-- What becomes closed when the last end goes. -/
theorem becomeClosed_frame (c : Fin 8) (s : State) :
    becomeClosed c s = setChan c resetChannel (setStore (freeBlocks (blocksOf (chanOf c s).queue) s.store) s) := rfl

/-- A CLOSE whose owner carries it out. -/
theorem exec_close_done {x : Station} {tag : Byte} {c : Fin 8} {role : Role} {s t : State} {fieldBytes : List Byte}
    (hr : Ready x (requestFrame 0x19 tag [byteOf c.val, Role.code role]) s) (hp : isPresent x s = true)
    (ho : ownerClose x c role (restartKeepalive x s) = .reply t .ok fieldBytes) (ht : t.severe = [])
    (hpt : isPresent x t = true) :
    exec (.close x tag [byteOf c.val, Role.code role]) s =
      .next (answered x (requestFrame 0x19 tag [byteOf c.val, Role.code role]) .ok fieldBytes t) :=
  congrArg Host.Outcome.next
    (runRequest_answered (check := closeCheck) (owner := fun a t => ownerClose x a.1 a.2 t) (a := (c, role)) hr hp
      (fun _ => rfl) (closeCheck_bytes c role) ho ht hpt)

/-- R14: the fields of a close's reply. -/
theorem ownerClose_of_held {x : Station} {c : Fin 8} {role : Role} {s : State}
    (h : (endOf role (chanOf c s)).holder = some x) :
    ownerClose x c role s =
      .reply (closeEnd x c role s).1 .ok
        [ChannelState.code (channelState (chanOf c (closeEnd x c role s).1)), flagByte (closeEnd x c role s).2.staged,
          byteOf (closeEnd x c role s).2.returned, byteOf (closeEnd x c role s).2.discarded] := by
  rw [ownerClose, if_pos (holdsEnd_iff.mpr h)]

@[simp] theorem stagingOn_restartKeepalive (y x : Station) (c : Fin 8) (s : State) :
    stagingOn y c (restartKeepalive x s) = stagingOn y c s := by simp [stagingOn]

theorem closeStaged_restartKeepalive (x : Station) (c : Fin 8) (role : Role) (s : State) :
    closeStaged x c role (restartKeepalive x s) = closeStaged x c role s := by
  cases role <;> simp [closeStaged]

/-- Settles O26: the two cases of R14's last part. -/
theorem closeReleasesTheEnd : Obligations.CloseReleasesTheEnd := by
  intro x tag c role s payload f ch released own withBlocks hr ha hp
  have hown : ∀ t, unitOf x t = unitOf x (releaseEnd x c role (restartKeepalive x s)) → unitOf x t = own := by
    intro t ht
    rw [ht, unitOf_releaseEnd_self]
    cases role <;> simp [own, keptStaging]
  refine ⟨fun h => ?_, fun h hother => ?_, fun h hother => ?_⟩
  · refine congrArg Host.Outcome.next
      (runRequest_unchanged (check := closeCheck) (owner := fun a t => ownerClose x a.1 a.2 t) (a := (c, role)) hr hp
        (fun _ => rfl) (closeCheck_bytes c role) ?_)
    have : holdsEnd x (endOf role (chanOf c s)) = false := holdsEnd_eq_false.mpr h
    simp [ownerClose, this]
  · have hclose := closeEnd_of_held (x := x) (s := restartKeepalive x s) (c := c) (role := role) (by simpa using hother)
    refine ⟨closedBefore x c role (restartKeepalive x s), closeStaged x c role s, closeReturned role ch, ?_, ?_, ?_, ?_,
      ?_, ?_, ?_⟩
    · refine exec_close_done hr hp ?_ ?_ ?_
      · rw [ownerClose_of_held (by simpa using h), hclose]
        have hcode := channelState_one (role := role) (ch := chanOf c (closedBefore x c role (restartKeepalive x s)))
          (by rw [chanOf_closedBefore_self, endOf_closedChannel_self]; rfl)
          (by rw [chanOf_closedBefore_self, endOf_closedChannel_other]; simpa using hother)
        simp only [chanOf_offer, hcode, closeStaged_restartKeepalive, chanOf_restartKeepalive]
        cases role <;> rfl
      · rw [offer_severe (ha.restartKeepalive.closedBefore.at _), closedBefore_frame, setChan_severe,
          releaseEnd_severe, restartKeepalive_severe, hr.severe]
      · rw [isPresent_offer, closedBefore_frame, isPresent_setChan, isPresent_releaseEnd, isPresent_restartKeepalive,
          hp]
    · exact hown _ (by rw [closedBefore_frame]; rfl)
    · rw [closedBefore_frame, unitOf_setChan, unitOf_releaseEnd_peer, unitOf_restartKeepalive_peer]
    · intro d hd
      rw [chanOf_closedBefore_ne _ _ _ hd, chanOf_restartKeepalive]
    · rw [closedBefore_frame, releaseEnd_frame, restartKeepalive_frame]; rfl
    · rintro rfl
      refine ⟨rfl, ?_, fun hn => ⟨?_, ?_⟩, fun r hsome => ⟨?_, ?_⟩⟩
      · simp [closeStaged, Option.isSome_iff_ne_none]
      · rw [closedBefore_frame, setChan_store, releaseEnd_store, stagingOn_restartKeepalive, hn]
        simp [releasedStore]
      · rw [chanOf_closedBefore_self, stagingOn_restartKeepalive, hn]
        simp [closedChannel, releasedChannel, released, resetEnd, ch]
      · rw [closedBefore_frame, setChan_store, releaseEnd_store, stagingOn_restartKeepalive, hsome]
        simp [releasedStore, freeBlocks, withBlocks]
      · rw [chanOf_closedBefore_self, stagingOn_restartKeepalive, hsome, chanOf_restartKeepalive,
          closedChannel_send_some]
        rfl
    · rintro rfl
      refine ⟨rfl, rfl, ?_, ?_⟩
      · rw [closedBefore_frame, setChan_store, releaseEnd_store]
        simp [releasedStore]
      · rw [chanOf_closedBefore_self, chanOf_restartKeepalive]
        simp only [closedChannel, releasedChannel, returnLent, returnMessage_fun]
        rfl
  · have hclose := closeEnd_of_last (x := x) (s := restartKeepalive x s) (c := c) (role := role) (by simpa using hother)
    have hstore : (becomeClosed c (releaseEnd x c role (restartKeepalive x s))).store =
        freeBlocks (blocksOf ch.queue) (releasedStore (stagingOn x c s) role s.store) := by
      rw [becomeClosed_frame, setChan_store, setStore_store, chanOf_releaseEnd_self, releasedChannel_blocks,
        releaseEnd_store]
      simp [ch]
    refine ⟨becomeClosed c (releaseEnd x c role (restartKeepalive x s)), closeStaged x c role s, closeReturned role ch,
      ?_, ?_, ?_, ?_, ?_, ?_, ?_, ?_, ?_⟩
    · refine exec_close_done hr hp ?_ ?_ ?_
      · rw [ownerClose_of_held (by simpa using h), hclose]
        simp only [becomeClosed_frame, chanOf_setChan_self, closeStaged_restartKeepalive, chanOf_restartKeepalive]
        rfl
      · rw [becomeClosed_frame, setChan_severe, setStore_severe, releaseEnd_severe, restartKeepalive_severe, hr.severe]
      · rw [becomeClosed_frame, isPresent_setChan, isPresent_setStore, isPresent_releaseEnd, isPresent_restartKeepalive,
          hp]
    · rw [becomeClosed_frame, chanOf_setChan_self]; rfl
    · intro m hm b hb
      rw [hstore, mem_freeBlocks]
      exact .inl (List.mem_flatMap.mpr ⟨m, hm, hb⟩)
    · rintro rfl
      refine ⟨rfl, by simp [closeStaged, Option.isSome_iff_ne_none], fun hn => ?_, fun r hsome => ⟨?_, fun b hb => ?_⟩⟩
      · rw [hstore, hn]; rfl
      · rw [hstore, hsome]; rfl
      · rw [hstore, hsome, mem_freeBlocks]
        exact .inr (mem_freeBlocks.mpr (.inl hb))
    · rintro rfl
      exact ⟨rfl, rfl, hstore⟩
    · exact hown _ rfl
    · rw [becomeClosed_frame, unitOf_setChan, unitOf_setStore, unitOf_releaseEnd_peer, unitOf_restartKeepalive_peer]
    · intro d hd
      rw [becomeClosed_frame, chanOf_setChan_ne _ _ hd, chanOf_setStore, chanOf_releaseEnd_ne _ _ _ hd,
        chanOf_restartKeepalive]
    · rw [becomeClosed_frame, releaseEnd_frame, restartKeepalive_frame]; rfl

end Sys2Proof.Machine
end

section
/-!
PROOFS. Notices: what an offer, a fault and a withdrawal do to a queue's law (R107 to R111), and that every step keeps
the law of both queues.
-/

namespace Sys2Proof.Machine

/-! ### The law of one queue -/

theorem dropLast_sublist_dropLast {α : Type} {l q : List α} (h : l.Sublist q) : l.dropLast.Sublist q.dropLast := by
  induction h with
  | slnil => exact .slnil
  | @cons l q a h ih =>
    cases q with
    | nil => rw [List.sublist_nil.mp h]; exact List.nil_sublist _
    | cons b q => exact ih.cons a
  | @cons_cons l q a h ih =>
    cases l with
    | nil => exact List.nil_sublist _
    | cons b l =>
      cases q with
      | nil => cases h
      | cons c q => exact ih.cons_cons a

/-- R107, R109: notices that leave a queue keep its law. -/
theorem NoticesOk.sublist {l q : List Notice} (hs : l.Sublist q) (h : NoticesOk q) : NoticesOk l := by
  obtain ⟨h1, h2, h3⟩ := h
  refine ⟨le_trans hs.countP_le h1, ?_, h3.sublist hs⟩
  rw [List.all_eq_true] at *
  exact fun n hn => h2 n ((dropLast_sublist_dropLast hs).subset hn)

theorem coalesces_comm (m n : Notice) : Notice.coalesces m n = Notice.coalesces n m := by
  cases m <;> cases n <;> first | rfl | exact Bool.beq_comm

/-- Two notices of one kind, and of one channel where the kind has one: what decides whether an entry coalesces. -/
def SameClass (m n : Notice) : Prop :=
  Notice.isOverflow m = Notice.isOverflow n ∧ ∀ k, Notice.coalesces m k = Notice.coalesces n k

/-- R109, R110: entries that are replaced by entries of their class keep the law. -/
theorem NoticesOk.map {q : List Notice} {f : Notice → Notice} (hf : ∀ m, SameClass (f m) m) (h : NoticesOk q) :
    NoticesOk (q.map f) := by
  obtain ⟨h1, h2, h3⟩ := h
  have hcoal : ∀ m n, Notice.coalesces (f m) (f n) = Notice.coalesces m n := fun m n => by
    rw [(hf m).2, coalesces_comm, (hf n).2, coalesces_comm]
  refine ⟨?_, ?_, ?_⟩
  · rw [List.countP_map]
    simpa [Function.comp_def, (hf _).1] using h1
  · rw [← List.map_dropLast, List.all_map]
    simpa [Function.comp_def, (hf _).1] using h2
  · rw [List.pairwise_map]
    simpa only [hcoal] using h3

/-- R109: the entry with which an offer coalesces keeps its class. -/
theorem sameClass_merged (n m : Notice) : SameClass (if Notice.coalesces n m then Notice.merged n m else m) m := by
  split
  · rename_i hc
    cases n with
    | flow c v o =>
      cases m <;> simp [Notice.coalesces] at hc
      subst hc
      exact ⟨rfl, fun k => by cases k <;> rfl⟩
    | _ => exact ⟨rfl, fun _ => rfl⟩
  · exact ⟨rfl, fun _ => rfl⟩

/-- R110: a counted drop leaves the class of each entry. -/
theorem NoticesOk.countDrop {q : List Notice} (h : NoticesOk q) : NoticesOk (countDrop q) := by
  unfold Sys2Proof.Machine.countDrop
  split
  · exact h.map fun m => by cases m <;> exact ⟨rfl, fun k => by cases k <;> rfl⟩
  · rename_i hno
    obtain ⟨h1, _, h3⟩ := h
    refine ⟨by simpa [List.countP_append, Notice.isOverflow] using h1, ?_, ?_⟩
    · rw [List.dropLast_concat, List.all_eq_true]
      simpa using hno
    · rw [List.pairwise_append]
      refine ⟨h3, List.pairwise_singleton _ _, fun m _ n hn => ?_⟩
      rw [List.mem_singleton.mp hn]
      exact ⟨by cases m <;> rfl, by cases m <;> rfl⟩

/-- R108, R109, R110: what an offer makes of a queue keeps its law. -/
theorem NoticesOk.offerFate {q : List Notice} (n : Notice) (h : NoticesOk q) :
    NoticesOk (offerFate n q).queue := by
  unfold Sys2Proof.Machine.offerFate
  split
  · exact h.map (sameClass_merged n)
  · rename_i hc
    split
    · exact h.countDrop
    · rename_i hroom
      simp only [Bool.or_eq_true, decide_eq_true_eq, not_or, Nat.not_le] at hroom
      obtain ⟨hno, hlen⟩ := hroom
      obtain ⟨_, _, h3⟩ := h
      refine ⟨?_, ?_, ?_⟩
      · have := List.countP_le_length (p := fun n => !(Notice.isOverflow n)) (l := q ++ [n])
        simp only [OfferFate.queue, List.length_append, List.length_singleton] at this ⊢
        omega
      · rw [OfferFate.queue, List.dropLast_concat, List.all_eq_true]
        simpa using hno
      · rw [OfferFate.queue, List.pairwise_append]
        refine ⟨h3, List.pairwise_singleton _ _, fun m hm k hk => ?_⟩
        rw [List.mem_singleton.mp hk]
        have : Notice.coalesces n m = false := by simpa using (List.any_eq_false.mp (by simpa using hc)) m hm
        exact ⟨by rw [coalesces_comm, this], this⟩

/-! ### The law of both queues -/

theorem noticeLaw_iff {s : State} : NoticeLaw s ↔ ∀ x, NoticesOk (unitOf x s).notices :=
  ⟨fun h x => by cases x <;> [exact h.1; exact h.2], fun h => ⟨h .a, h .b⟩⟩

theorem NoticeLaw.of_units {s t : State} (e : t.units = s.units) (h : NoticeLaw s) : NoticeLaw t := by
  unfold NoticeLaw unitOf
  rw [e]
  exact h

theorem NoticeLaw.setUnit {x : Station} {u : StationUnit} {s : State}
    (hu : NoticesOk (unitOf x s).notices → NoticesOk u.notices) (h : NoticeLaw s) : NoticeLaw (setUnit x u s) := by
  rw [noticeLaw_iff] at *
  intro y
  rw [unitOf_setUnit]
  split
  · exact hu (h x)
  · exact h y

theorem NoticeLaw.offerFault {x : Station} {k : FaultKind} {n : Nat} {s : State} (h : NoticeLaw s) :
    NoticeLaw (offerFault x k n s) := by
  unfold Sys2Proof.Machine.offerFault
  split
  · exact h.setUnit fun hq => hq.offerFate _
  · exact h

theorem NoticeLaw.recordFault {x : Station} {k : FaultKind} {i : CaptureInfo} {s : State} (h : NoticeLaw s) :
    NoticeLaw (recordFault x k i s) := by
  unfold Sys2Proof.Machine.recordFault
  simp only
  split
  · split
    · unfold markSevere
      split
      · exact NoticeLaw.offerFault (h.setUnit id)
      · exact NoticeLaw.of_units rfl (NoticeLaw.offerFault (h.setUnit id))
    · exact NoticeLaw.offerFault (h.setUnit id)
  · exact h.setUnit id

theorem NoticeLaw.offer {x : Station} {n : Notice} {s : State} (h : NoticeLaw s) : NoticeLaw (offer x n s) := by
  unfold Sys2Proof.Machine.offer
  simp only
  have h1 : NoticeLaw (setNotices x (OfferFate.queue (offerFate n (unitOf x s).notices)) s) :=
    h.setUnit fun hq => hq.offerFate n
  split
  · split
    · exact h1.recordFault
    · exact h1
  · exact h

theorem NoticeLaw.evalCongestion {c : Fin 8} {s : State} (h : NoticeLaw s) : NoticeLaw (evalCongestion c s) := by
  rcases evalCongestion_cases c s with k | ⟨v, k | ⟨y, k⟩⟩ <;> rw [k]
  · exact h
  · exact h
  · exact NoticeLaw.offer (NoticeLaw.of_units rfl h)

theorem foldl_keeps {α : Type} {P : State → Prop} {f : State → α → State} (l : List α)
    (hstep : ∀ a ∈ l, ∀ t, P t → P (f t a)) {s : State} (h : P s) : P (l.foldl f s) := by
  induction l generalizing s with
  | nil => exact h
  | cons a l ih => exact ih (fun b hb => hstep b (.tail _ hb)) (hstep a (.head _) _ h)

/-- R133 step 3: a property that the abandonment of each record keeps is kept by all of them, in whatever order. -/
theorem departStaging_induction {P : State → Prop} (x : Station) (s : State)
    (hstep : ∀ r ∈ (unitOf x s).staging, ∀ t, P t → P (abandonStaging x r t))
    (htick : P s → P { s with freeTick := s.freeTick + 1 }) (h : P s) : P (departStaging x s) := by
  unfold departStaging
  split
  · exact h
  · rename_i r hr
    exact hstep r (by simp [hr]) _ h
  · refine foldl_keeps _ (fun r hr => hstep r ?_) (htick h)
    split at hr
    · exact List.mem_reverse.mp hr
    · exact hr

theorem NoticeLaw.abandonStaging {x : Station} {r : Staging} {s : State} (h : NoticeLaw s) :
    NoticeLaw (abandonStaging x r s) := by
  refine NoticeLaw.evalCongestion ?_
  rw [dropStaging_frame]
  exact NoticeLaw.setUnit id (NoticeLaw.of_units rfl h)

/-- Every elementary change keeps the law of the notice queues. -/
theorem noticeLaw_kept : Kept NoticeLaw where
  other s t hu _ _ _ _ h := h.of_units hu
  unitSame x u s _ hn h := h.setUnit fun hq => by rw [hn]; exact hq
  offered x n s h := h.setUnit fun hq => hq.offerFate n
  dropped x u m s _ hn h := h.setUnit fun hq => by rw [hn]; exact hq.sublist (List.drop_sublist _ _)
  withdrawn x n s h := h.setUnit fun hq => hq.sublist List.filter_sublist
  chanSame _ _ _ _ h := h
  returned _ _ _ _ h := h
  damaged _ _ _ h := h
  lent _ _ _ h := h
  storeSame _ _ _ _ h := h
  appended _ _ _ _ _ _ _ _ _ _ _ h := h
  staged x k data u r s _ _ _ _ _ hn h := NoticeLaw.setUnit (fun hq => by rw [hn]; exact hq) (h.of_units rfl)
  replaced x r r1 s _ _ _ h := h.setUnit id
  completed x r0 r s _ _ _ h := by
    unfold completeStaging
    simp only
    rcases offerArrival_cases r.channel (setUnit x _ (setChan r.channel _ s)) with k | ⟨y, k⟩ <;> rw [k]
    · exact NoticeLaw.setUnit id (h.of_units rfl)
    · exact NoticeLaw.offer (NoticeLaw.setUnit id (h.of_units rfl))
  unstaged x r s _ h := by
    rw [dropStaging_frame]
    exact NoticeLaw.setUnit id (h.of_units rfl)
  allUnstaged x s h := departStaging_induction x s (fun _ _ _ ht => ht.abandonStaging) (fun hs => hs) h
  removed _ _ _ _ _ _ h := h
  closed _ _ h := h
  lease _ _ _ _ _ h := h
  ticked s h := by
    unfold tick
    split
    · exact h
    · exact h
    · exact ⟨h.1, h.2⟩
  released p s h := by unfold releaseReset; split <;> exact h
  initialised s h := by unfold completeInit; split <;> exact h

/-- A step whose front command is RESET_ASSERT leaves the state after device reset. -/
theorem step_reset {s t : State} {straps : StrapPins} {rest : List Instr}
    (hp : s.pending = Instr.resetAssert straps :: rest) (h : step s = .next t) :
    t = resetState .inReset (sampleStraps straps) rest s.freeTick := by
  unfold step at h
  rw [hp] at h
  exact (Host.Outcome.next.inj h).symm

/-- A law of the state after reset that every elementary change keeps is kept by every step. -/
theorem step_keeps {P : State → Prop} (hreset : ∀ phase straps pending n, P (resetState phase straps pending n))
    (hkept : Kept P) (s t : State) (h : P s) (he : step s = .next t) : P t := by
  by_cases hp : ∃ straps rest, s.pending = Instr.resetAssert straps :: rest
  · obtain ⟨straps, rest, hp⟩ := hp
    rw [step_reset hp he]
    exact hreset _ _ _ _
  · exact hkept.step_kept (fun p rest hc => hp ⟨p, rest, hc⟩) h he

theorem step_keeps_noticeLaw (s t : State) (h : NoticeLaw s) (he : step s = .next t) : NoticeLaw t :=
  step_keeps resetState_notices noticeLaw_kept s t h he

/-! ### The order of LENT messages -/

/-- R8: a queue whose LENT messages are the oldest. -/
theorem lentFirst_iff_append {q : List Message} :
    (q.dropWhile isLent).all isQueued = true ↔ ∃ l u, q = l ++ u ∧ l.all isLent = true ∧ u.all isQueued = true := by
  constructor
  · intro h
    exact ⟨_, _, (List.takeWhile_append_dropWhile (p := isLent)).symm, List.all_takeWhile, h⟩
  · rintro ⟨l, u, rfl, hl, hu⟩
    rw [List.dropWhile_append_of_pos (by simpa using hl), Kept.dropWhile_of_all_queued hu]
    exact hu

theorem lentFirst_of_all_queued {ch : Channel} (h : ch.queue.all isQueued = true) : LentFirst ch := by
  have hz : ch.queue.countP isLent = 0 := by
    rw [List.countP_eq_zero]
    intro m hm
    rw [Kept.isLent_false_of_queued (List.all_eq_true.mp h m hm)]
    exact Bool.false_ne_true
  refine ⟨by rw [Kept.dropWhile_of_all_queued h]; exact h, ?_⟩
  rw [lentCount, hz]
  exact Nat.zero_le _

theorem isQueued_returnMessage (m : Message) : isQueued (returnMessage m) = true := by
  obtain ⟨_, _, _, st, _, _, _⟩ := m
  cases st <;> rfl

/-- The law depends on the messages' states alone. -/
theorem LentFirst.of_states {ch dh : Channel} (hq : dh.queue.map (·.state) = ch.queue.map (·.state))
    (h : LentFirst ch) : LentFirst dh := by
  have hlent : isLent = (fun st : MsgState => st == .lent) ∘ (·.state) := rfl
  have hqueued : isQueued = (fun st : MsgState => st == .queued) ∘ (·.state) := rfl
  have key : ∀ ch : Channel, LentFirst ch ↔
      ((ch.queue.map (·.state)).dropWhile fun st => st == .lent).all (fun st => st == .queued) = true ∧
        (ch.queue.map (·.state)).countP (fun st => st == .lent) ≤ Config.lendWindow := by
    intro ch
    rw [List.dropWhile_map, List.all_map, List.countP_map, ← hlent, ← hqueued]
    rfl
  rw [key] at h ⊢
  rwa [hq]

theorem LentFirst.append {ch : Channel} {m : Message} (hm : m.state = .queued) (h : LentFirst ch) :
    LentFirst { ch with queue := ch.queue ++ [m] } := by
  obtain ⟨h1, h2⟩ := h
  have hq : isQueued m = true := by simp [isQueued, hm]
  refine ⟨?_, ?_⟩
  · rw [lentFirst_iff_append] at *
    obtain ⟨l, u, hlu, hl, hu⟩ := h1
    exact ⟨l, u ++ [m], by simp [hlu], hl, by simp [hu, hq]⟩
  · simpa [lentCount, List.countP_append, Kept.isLent_false_of_queued hq] using h2

theorem lendFirst_append {l u : List Message} (hl : l.all isLent = true) : lendFirst (l ++ u) = l ++ lendFirst u := by
  induction l with
  | nil => rfl
  | cons m l ih =>
    simp only [List.all_cons, Bool.and_eq_true] at hl
    have : isQueued m = false := by
      by_contra hc
      rw [Kept.isLent_false_of_queued (by simpa using hc)] at hl
      exact Bool.false_ne_true hl.1
    simp [lendFirst, this, ih hl.2]

theorem LentFirst.lend {ch : Channel} (hw : lentCount ch < Config.lendWindow) (h : LentFirst ch) :
    LentFirst { ch with queue := lendFirst ch.queue } := by
  obtain ⟨h1, _⟩ := h
  rw [lentFirst_iff_append] at h1
  obtain ⟨l, u, hlu, hl, hu⟩ := h1
  cases u with
  | nil =>
    have : lendFirst ch.queue = ch.queue := by rw [hlu, lendFirst_append hl]; rfl
    rw [this]
    exact ⟨lentFirst_iff_append.mpr ⟨l, [], hlu, hl, hu⟩, le_of_lt hw⟩
  | cons m u =>
    simp only [List.all_cons, Bool.and_eq_true] at hu
    have hq : lendFirst ch.queue = (l ++ [{ m with state := .lent }]) ++ u := by
      rw [hlu, lendFirst_append hl]; simp [lendFirst, hu.1]
    refine ⟨lentFirst_iff_append.mpr ⟨_, u, hq, by simp [hl, isLent], hu.2⟩, ?_⟩
    have hm := Kept.isLent_false_of_queued hu.1
    simp only [lentCount, hlu, List.countP_append, List.countP_cons, hm] at hw
    simp only [lentCount, hq, List.countP_append, List.countP_cons, List.countP_nil]
    simp only [isLent] at *
    simp at *
    omega

theorem LentFirstLaw.setChan {c : Fin 8} {ch : Channel} {s : State}
    (hc : LentFirst (chanOf c s) → LentFirst ch) (h : LentFirstLaw s) : LentFirstLaw (setChan c ch s) := by
  intro d
  rw [chanOf_setChan]
  split
  · exact hc (h c)
  · exact h d

theorem LentFirstLaw.of_queues {s t : State} (e : ∀ c, (chanOf c t).queue = (chanOf c s).queue) (h : LentFirstLaw s) :
    LentFirstLaw t := fun c => (h c).of_states (by rw [e])

/-- Abandoning staging records changes no queue. -/
theorem queue_departStaging (x : Station) (c : Fin 8) (s : State) :
    (chanOf c (departStaging x s)).queue = (chanOf c s).queue := by
  refine departStaging_induction (P := fun t => (chanOf c t).queue = (chanOf c s).queue) x s (fun r _ t ht => ?_)
    (fun h => h) rfl
  rw [abandonStaging, evalCongestion_queue, dropStaging_frame, chanOf_setUnit, chanOf_setChan]
  split
  · subst c; exact ht
  · exact ht

theorem lentFirstLaw_kept : Kept LentFirstLaw where
  other s t _ hc _ _ _ h := h.of_queues fun c => by rw [chanOf, hc]; rfl
  unitSame _ _ _ _ _ h := h
  offered _ _ _ h := h
  dropped _ _ _ _ _ _ h := h
  withdrawn _ _ _ h := h
  chanSame c ch s hq h := h.setChan fun hl => hl.of_states (by rw [hq])
  returned c ch s hq h := h.setChan fun _ => lentFirst_of_all_queued (by
    rw [hq, List.all_map, List.all_eq_true]
    exact fun m _ => isQueued_returnMessage m)
  damaged c seq s h := h.setChan fun hl => hl.of_states (by
    simp only [markDamaged, List.map_map]
    exact List.map_congr_left fun m _ => by simp only [Function.comp]; split <;> rfl)
  lent c s hw h := h.setChan fun hl => hl.lend hw
  storeSame _ _ _ _ h := h
  appended c k data ch m s _ _ _ hm hq h :=
    LentFirstLaw.setChan (fun hl => (LentFirst.append hm hl).of_states (by rw [hq]; rfl)) h
  staged _ _ _ _ _ _ _ _ _ _ _ _ h := h
  replaced _ _ _ _ _ _ _ h := h
  completed x r0 r s _ _ _ h := by
    have h1 : LentFirstLaw (setChan r.channel
        { appendMessage
            { seq := (chanOf r.channel s).nextSeq, length := r.total, blocks := r.blocks, state := .queued,
              redelivered := false, damaged := r.damaged, epoch := (unitOf x s).record.epoch }
            (chanOf r.channel s) with reserved := 0 } s) :=
      h.setChan fun hl => (LentFirst.append (by rfl) hl).of_states rfl
    exact h1.of_queues fun c => by rw [completeStaging, chanOf_offerArrival, chanOf_setUnit]
  unstaged x r s _ h := by
    rw [dropStaging_frame]
    exact LentFirstLaw.setChan (fun hl => hl.of_states rfl) h
  allUnstaged x s h := h.of_queues fun c => queue_departStaging x c s
  removed c gone kept s _ hl h := LentFirstLaw.setChan (fun hc => (hl hc).of_states rfl) h
  closed c s h := LentFirstLaw.setChan (fun _ => lentFirst_of_all_queued rfl) h
  lease _ _ _ _ _ h := h
  ticked s h := by unfold tick; split <;> exact h
  released p s h := by unfold releaseReset; split <;> exact h
  initialised s h := by unfold completeInit; split <;> exact h

theorem step_keeps_lentFirst (s t : State) (h : LentFirstLaw s) (he : step s = .next t) : LentFirstLaw t :=
  step_keeps resetState_lentFirst lentFirstLaw_kept s t h he

end Sys2Proof.Machine
end

section
/-!
PROOFS. What the releases of a departure and of a JOIN leave (R18, R133): everything but channels, leases, the free
pool, the departing station's staging records, and the notices and faults of PRESENT stations.
-/

namespace Sys2Proof.Machine

/-- `t` is `s` after operations on the ends and leases of station `x`: what they leave. -/
structure Sheltered (x : Station) (s t : State) : Prop where
  pending : t.pending = s.pending
  phase : t.phase = s.phase
  timeBase : t.timeBase = s.timeBase
  straps : t.straps = s.straps
  links : t.links = s.links
  mem : t.store.mem = s.store.mem
  health : t.store.health = s.store.health
  record : ∀ y, (unitOf y t).record = (unitOf y s).record
  cache : ∀ y, (unitOf y t).cache = (unitOf y s).cache
  draw : ∀ y, (unitOf y t).draw = (unitOf y s).draw
  signals : ∀ y, (unitOf y t).signals = (unitOf y s).signals
  nextNotice : ∀ y, (unitOf y t).nextNotice = (unitOf y s).nextNotice
  peerStaging : (unitOf x.peer t).staging = (unitOf x.peer s).staging
  absentNotices : ∀ y, isPresent y s = false → (unitOf y t).notices = (unitOf y s).notices
  advisory : Advisory s → Advisory t ∧ t.severe = s.severe

namespace Sheltered

variable {x : Station} {s t u : State}

theorem refl (x : Station) (s : State) : Sheltered x s s :=
  ⟨rfl, rfl, rfl, rfl, rfl, rfl, rfl, fun _ => rfl, fun _ => rfl, fun _ => rfl, fun _ => rfl, fun _ => rfl, rfl,
    fun _ _ => rfl, fun h => ⟨h, rfl⟩⟩

theorem present (h : Sheltered x s t) (y : Station) : isPresent y t = isPresent y s := by
  rw [isPresent, isPresent, h.record]

theorem linkOf (h : Sheltered x s t) (y : Station) : linkOf y t = linkOf y s := by
  rw [Machine.linkOf, h.links]; rfl

theorem trans (h : Sheltered x s t) (k : Sheltered x t u) : Sheltered x s u where
  pending := k.pending.trans h.pending
  phase := k.phase.trans h.phase
  timeBase := k.timeBase.trans h.timeBase
  straps := k.straps.trans h.straps
  links := k.links.trans h.links
  mem := k.mem.trans h.mem
  health := k.health.trans h.health
  record y := (k.record y).trans (h.record y)
  cache y := (k.cache y).trans (h.cache y)
  draw y := (k.draw y).trans (h.draw y)
  signals y := (k.signals y).trans (h.signals y)
  nextNotice y := (k.nextNotice y).trans (h.nextNotice y)
  peerStaging := k.peerStaging.trans h.peerStaging
  absentNotices y hy := (k.absentNotices y (by rw [h.present, hy])).trans (h.absentNotices y hy)
  advisory ha := ⟨(k.advisory (h.advisory ha).1).1, (k.advisory (h.advisory ha).1).2.trans (h.advisory ha).2⟩

theorem foldl {α : Type} {f : State → α → State} (hf : ∀ t a, Sheltered x t (f t a)) (l : List α) (s : State) :
    Sheltered x s (l.foldl f s) := by
  induction l generalizing s with
  | nil => exact refl x s
  | cons a l ih => exact (hf s a).trans (ih _)

/-- A change of channels, leases, wait counts or the free-value counter. -/
theorem of_units (hu : t.units = s.units) (hst : t.store.mem = s.store.mem ∧ t.store.health = s.store.health)
    (hsev : t.severe = s.severe)
    (hrest : t.pending = s.pending ∧ t.phase = s.phase ∧ t.timeBase = s.timeBase ∧ t.straps = s.straps ∧
      t.links = s.links) : Sheltered x s t := by
  have hunit : ∀ y, unitOf y t = unitOf y s := fun y => by rw [unitOf, hu]; rfl
  obtain ⟨h1, h2, h3, h4, h5⟩ := hrest
  exact ⟨h1, h2, h3, h4, h5, hst.1, hst.2, fun y => by rw [hunit], fun y => by rw [hunit], fun y => by rw [hunit],
    fun y => by rw [hunit], fun y => by rw [hunit], by rw [hunit], fun y _ => by rw [hunit],
    fun ha => ⟨Advisory.of_units hu ha, hsev⟩⟩

theorem setChan (x : Station) (c : Fin 8) (ch : Channel) (s : State) : Sheltered x s (setChan c ch s) :=
  of_units rfl ⟨rfl, rfl⟩ rfl ⟨rfl, rfl, rfl, rfl, rfl⟩

theorem setLease (x : Station) (e : Fin 16) (l : LeaseEntry) (s : State) : Sheltered x s (setLease e l s) :=
  of_units rfl ⟨rfl, rfl⟩ rfl ⟨rfl, rfl, rfl, rfl, rfl⟩

theorem setWaitCount (x y : Station) (n : Nat) (s : State) : Sheltered x s (setWaitCount y n s) :=
  of_units rfl ⟨rfl, rfl⟩ rfl ⟨rfl, rfl, rfl, rfl, rfl⟩

theorem freeTick (x : Station) (n : Nat) (s : State) : Sheltered x s { s with freeTick := n } :=
  of_units rfl ⟨rfl, rfl⟩ rfl ⟨rfl, rfl, rfl, rfl, rfl⟩

theorem freeBlocks (x : Station) (bs : List (Fin 256)) (s : State) :
    Sheltered x s (setStore (freeBlocks bs s.store) s) :=
  of_units rfl ⟨rfl, rfl⟩ rfl ⟨rfl, rfl, rfl, rfl, rfl⟩

/-- R108: an offer reaches the queue of a PRESENT station alone. -/
theorem offer (x y : Station) (n : Notice) (s : State) : Sheltered x s (offer y n s) := by
  constructor
  all_goals try simp only [offer_pending, offer_phase, offer_timeBase, offer_straps, offer_links, offer_store,
    offer_record, offer_cache, offer_draw, offer_signals, offer_nextNotice, offer_staging, implies_true]
  · intro z hz
    by_cases hy : z = y
    · subst hy; simp [Machine.offer, hz]
    · rw [offer_frame, unitOf_setSevere, unitOf_setUnit, if_neg hy]
  · exact fun ha => ⟨ha.offer, offer_severe (ha.at y)⟩

/-- The station's own staging records may go. -/
theorem setStaging (x : Station) (l : List Staging) (s : State) :
    Sheltered x s (setUnit x { unitOf x s with staging := l } s) := by
  refine ⟨rfl, rfl, rfl, rfl, rfl, rfl, rfl, ?_, ?_, ?_, ?_, ?_, by simp, ?_,
    fun ha => ⟨Advisory.of_setUnit rfl ha, rfl⟩⟩
  all_goals
    intro y
    rw [unitOf_setUnit]
    split
    · subst y; simp
    · simp

theorem evalCongestion (x : Station) (c : Fin 8) (s : State) : Sheltered x s (evalCongestion c s) := by
  rcases evalCongestion_cases c s with k | ⟨v, k | ⟨y, k⟩⟩ <;> rw [k]
  · exact refl x s
  · exact setChan x c _ s
  · exact (setChan x c _ s).trans (offer x y _ _)

theorem dropStaging (x : Station) (r : Staging) (s : State) : Sheltered x s (dropStaging x r s) :=
  ((freeBlocks x r.blocks s).trans (setChan x r.channel _ _)).trans (setStaging x _ _)

theorem abandonStaging (x : Station) (r : Staging) (s : State) : Sheltered x s (abandonStaging x r s) :=
  (dropStaging x r s).trans (evalCongestion x r.channel _)

theorem departStaging (x : Station) (s : State) : Sheltered x s (departStaging x s) :=
  departStaging_induction x s (fun r _ t h => h.trans (abandonStaging x r t)) (fun _ => freeTick x _ s) (refl x s)

theorem releaseEnd (x : Station) (c : Fin 8) (role : Role) (s : State) : Sheltered x s (releaseEnd x c role s) := by
  cases role with
  | receive => exact setChan x c _ s
  | send =>
    unfold Machine.releaseEnd releaseSender
    cases stagingOn x c s with
    | none => exact setChan x c _ s
    | some r => exact (dropStaging x r s).trans (setChan x c _ _)

theorem becomeClosed (x : Station) (c : Fin 8) (s : State) : Sheltered x s (becomeClosed c s) :=
  (freeBlocks x _ s).trans (setChan x c _ _)

theorem closedBefore (x : Station) (c : Fin 8) (role : Role) (s : State) : Sheltered x s (closedBefore x c role s) := by
  rw [closedBefore_frame]
  exact (releaseEnd x c role s).trans (setChan x c _ _)

theorem closeEnd (x : Station) (c : Fin 8) (role : Role) (s : State) : Sheltered x s (closeEnd x c role s).1 := by
  by_cases h : endHeld (endOf role.other (chanOf c s)) = true
  · rw [closeEnd_of_held h]
    exact (closedBefore x c role s).trans (offer x x.peer _ _)
  · rw [closeEnd_of_last (by simpa using h)]
    exact (releaseEnd x c role s).trans (becomeClosed x c _)

theorem closeEndsOn (x : Station) (test : End → Bool) (c : Fin 8) (s : State) :
    Sheltered x s (closeEndsOn x test c s) := by
  have step : ∀ (b : Bool) role t, Sheltered x s t →
      Sheltered x s (if b then (Machine.closeEnd x c role t).1 else t) := by
    intro b role t h
    split
    · exact h.trans (closeEnd x c role t)
    · exact h
  exact step _ .receive _ (step _ .send s (refl x s))

theorem makeDormantOn (x : Station) (c : Fin 8) (s : State) : Sheltered x s (makeDormantOn x c s) :=
  setChan x c _ s

theorem resumeOn (x : Station) (c : Fin 8) (s : State) : Sheltered x s (resumeOn x c s) := setChan x c _ s

theorem departEnds (x : Station) (cause : Cause) (s : State) : Sheltered x s (departEnds x cause s) := by
  unfold Machine.departEnds
  split
  · exact (freeTick x _ s).trans (foldl (fun t c => closeEndsOn x _ c t) _ _)
  · exact foldl (fun t c => makeDormantOn x c t) _ _

theorem tellReceiver (x y : Station) (c : Fin 8) (s : State) : Sheltered x s (tellReceiver y c s) := by
  rcases tellReceiver_cases y c s with k | ⟨z, k⟩ <;> rw [k]
  · exact refl x s
  · exact offer x z _ s

theorem tellSender (x y : Station) (c : Fin 8) (s : State) : Sheltered x s (tellSender y c s) := by
  rcases tellSender_cases y c s with k | ⟨z, k⟩ <;> rw [k]
  · exact refl x s
  · exact offer x z _ s

theorem joinEnds (x : Station) (mode : JoinMode) (s : State) : Sheltered x s (joinEnds x mode s) := by
  cases mode with
  | fresh => exact (freeTick x _ s).trans (foldl (fun t c => closeEndsOn x _ c t) _ _)
  | resume =>
    exact (foldl (fun t c => resumeOn x c t) _ s).trans ((foldl (fun t c => tellReceiver x x c t) _ _).trans
      ((freeTick x _ _).trans (foldl (fun t c => tellSender x x c t) _ _)))

theorem expireWaiter (x : Station) (e : Fin 16) (w : Waiter) (s : State) : Sheltered x s (expireWaiter e w s) :=
  (setWaitCount x _ _ s).trans (offer x _ _ _)

theorem handOn (x : Station) (e : Fin 16) (s : State) : Sheltered x s (handOn e s) := by
  unfold Machine.handOn
  simp only
  split
  · exact setLease x e _ s
  · split
    · exact (setLease x e _ s).trans (foldl (fun t w => expireWaiter x e w t) _ _)
    · exact ((setLease x e _ s).trans (setWaitCount x _ _ _)).trans (offer x _ _ _)

theorem revokeOn (x y : Station) (e : Fin 16) (s : State) : Sheltered x s (revokeOn y e s) := by
  unfold Machine.revokeOn
  split
  · exact (setLease x e _ s).trans (handOn x e _)
  · exact refl x s

theorem departLeases (x : Station) (s : State) : Sheltered x s (departLeases x s) :=
  ((foldl (fun t e => setLease x e _ t) _ s).trans (setWaitCount x x 0 _)).trans
    (foldl (fun t e => revokeOn x x e t) _ _)

end Sheltered

/-! ### The draw that stops -/

/-- R85: the stop changes the draw and the marks of the transmitter's entries, nothing else. -/
theorem stopDraw_frame (x : Station) (s : State) :
    stopDraw x s =
      setUnit x { unitOf x s with draw := none }
        (setLink x { linkOf x s with tx := (linkOf x s).tx.map fun t => { t with drawItem := false } } s) := rfl

theorem unitOf_stopDraw (x : Station) (s : State) : unitOf x (stopDraw x s) = { unitOf x s with draw := none } := by
  rw [stopDraw_frame, unitOf_setUnit_self]

theorem unitOf_stopDraw_peer (x : Station) (s : State) : unitOf x.peer (stopDraw x s) = unitOf x.peer s := by
  rw [stopDraw_frame, unitOf_setUnit_peer, unitOf_setLink]

@[simp] theorem chanOf_stopDraw (x : Station) (c : Fin 8) (s : State) : chanOf c (stopDraw x s) = chanOf c s := rfl

@[simp] theorem leaseOf_stopDraw (x : Station) (e : Fin 16) (s : State) : leaseOf e (stopDraw x s) = leaseOf e s := rfl

@[simp] theorem stopDraw_waitCounts (x : Station) (s : State) : (stopDraw x s).waitCounts = s.waitCounts := rfl

theorem isPresent_stopDraw (y x : Station) (s : State) : isPresent y (stopDraw x s) = isPresent y s := by
  rw [stopDraw_frame, isPresent_setUnit _ _ _ _ (by rfl)]; rfl

/-- The owners' steps of a departure, after the draw has stopped (R133 steps 3 to 5). -/
theorem departOwners_sheltered (x : Station) (cause : Cause) (s : State) :
    Sheltered x (stopDraw x s) (departOwners x cause s) :=
  ((Sheltered.departStaging x _).trans (Sheltered.departEnds x cause _)).trans (Sheltered.departLeases x _)

end Sys2Proof.Machine
end

section
/-!
PROOFS. What a departure makes of the staging records, the leases and the ends of the station (R17, R99, R103, R133).
-/

namespace Sys2Proof.Machine

/-! ### Operations that take channels or entries one by one -/

/-- Where each operation acts on its own place alone, a place is as its own operation left it. `I` is what all the
operations keep, `v i` what is seen of place `i`. -/
theorem foldl_at {ι β : Type} {f : State → ι → State} (I : State → Prop) (v : ι → State → β)
    (hI : ∀ t i, I t → I (f t i)) (hne : ∀ t i j, I t → j ≠ i → v j (f t i) = v j t) {l : List ι} (hl : l.Nodup)
    {i : ι} (hi : i ∈ l) {s : State} (hs : I s) :
    ∃ t, I t ∧ v i t = v i s ∧ v i (l.foldl f s) = v i (f t i) := by
  have off : ∀ (l : List ι) t, I t → i ∉ l → v i (l.foldl f t) = v i t := by
    intro l
    induction l with
    | nil => exact fun _ _ _ => rfl
    | cons j l ih =>
      intro t ht hn
      rw [List.mem_cons, not_or] at hn
      exact (ih _ (hI t j ht) hn.2).trans (hne t j i ht hn.1)
  induction l generalizing s with
  | nil => cases hi
  | cons j l ih =>
    rw [List.nodup_cons] at hl
    rcases List.mem_cons.mp hi with rfl | hi
    · exact ⟨s, hs, rfl, off l _ (hI s i hs) hl.1⟩
    · obtain ⟨t, ht, h1, h2⟩ := ih hl.2 hi (hI s j hs)
      exact ⟨t, ht, h1.trans (hne s j i hs fun e => hl.1 (e ▸ hi)), h2⟩

/-- Where each operation acts on its own place alone and yields the list `g i`, all of them yield the lists in their
order. -/
theorem foldl_yields {ι β α : Type} {f : State → ι → State} {R : State → State → List α → Prop}
    (hnil : ∀ s, R s s []) (happ : ∀ {s t u a b}, R s t a → R t u b → R s u (a ++ b)) (v : ι → State → β)
    (b : ι → β) {g : ι → List α} (hR : ∀ t i, v i t = b i → R t (f t i) (g i))
    (hne : ∀ t i j, j ≠ i → v j (f t i) = v j t) {l : List ι} (hl : l.Nodup) {s : State}
    (hs : ∀ i ∈ l, v i s = b i) : R s (l.foldl f s) (l.flatMap g) := by
  induction l generalizing s with
  | nil => exact hnil s
  | cons i l ih =>
    rw [List.nodup_cons] at hl
    refine happ (hR s i (hs i (.head _))) (ih hl.2 fun j hj => ?_)
    rw [hne s i j fun e => hl.1 (e ▸ hj)]
    exact hs j (.tail _ hj)

theorem allChannels_nodup : allChannels.Nodup := by decide

theorem mem_allChannels (c : Fin 8) : c ∈ allChannels := by revert c; decide

theorem allEntries_eq : allEntries = List.finRange 16 := by decide

theorem allEntries_nodup : allEntries.Nodup := by decide

theorem mem_allEntries (e : Fin 16) : e ∈ allEntries := by revert e; decide

/-! ### The staging records -/

/-- The channel's ends, parameters, queue, arrival option and next_seq are as before. -/
def SameButAccounts (ch dh : Channel) : Prop :=
  dh = { ch with reserved := dh.reserved, charged := dh.charged, congested := dh.congested }

theorem SameButAccounts.trans {ch dh eh : Channel} (h : SameButAccounts ch dh) (k : SameButAccounts dh eh) :
    SameButAccounts ch eh := by
  unfold SameButAccounts at *
  rw [k, h]

theorem sameButAccounts_abandonStaging (x : Station) (r : Staging) (c : Fin 8) (s : State) :
    SameButAccounts (chanOf c s) (chanOf c (abandonStaging x r s)) := by
  obtain ⟨v, hv⟩ := chanOf_evalCongestion r.channel c (dropStaging x r s)
  rw [abandonStaging, hv, dropStaging_frame, chanOf_setUnit, chanOf_setChan]
  split
  · subst c; rfl
  · rfl

theorem sameButAccounts_departStaging (x : Station) (c : Fin 8) (s : State) :
    SameButAccounts (chanOf c s) (chanOf c (departStaging x s)) :=
  departStaging_induction (P := fun t => SameButAccounts (chanOf c s) (chanOf c t)) x s
    (fun r _ _ h => h.trans (sameButAccounts_abandonStaging x r c _)) (fun h => h) rfl

/-- A channel without a staging record of the station is untouched by the abandonments. -/
theorem chanOf_departStaging_of_none {x : Station} {c : Fin 8} {s : State} (h : stagingOn x c s = none) :
    chanOf c (departStaging x s) = chanOf c s := by
  refine departStaging_induction (P := fun t => chanOf c t = chanOf c s) x s (fun r hr t ht => ?_) (fun h => h) rfl
  have hc : c ≠ r.channel := fun e => stagingOn_eq_none.mp h r hr e.symm
  have hdrop : chanOf c (dropStaging x r t) = chanOf c t := by
    rw [dropStaging_frame, chanOf_setUnit, chanOf_setChan_ne _ _ hc, chanOf_setStore]
  rw [abandonStaging, ← ht, ← hdrop]
  rcases evalCongestion_cases r.channel (dropStaging x r t) with k | ⟨v, k | ⟨y, k⟩⟩ <;> rw [k]
  · rw [chanOf_setChan_ne _ _ hc]
  · rw [chanOf_offer, chanOf_setChan_ne _ _ hc]

theorem staging_abandonStaging (x : Station) (r : Staging) (s : State) :
    (unitOf x (abandonStaging x r s)).staging = (unitOf x s).staging.filter fun t => t.channel != r.channel := by
  rw [abandonStaging, evalCongestion_staging, dropStaging_frame, unitOf_setUnit_self]

/-- The records abandoned one after the other leave those of other channels. -/
theorem staging_foldl_abandon (x : Station) (l : List Staging) (s : State) :
    (unitOf x (l.foldl (fun t r => abandonStaging x r t) s)).staging =
      (unitOf x s).staging.filter fun t => l.all fun r => t.channel != r.channel := by
  induction l generalizing s with
  | nil => simp
  | cons r l ih =>
    rw [List.foldl_cons, ih, staging_abandonStaging, List.filter_filter]
    congr 1
    funext t
    simp [Bool.and_comm]

/-- R133 step 3: no staging record is left. -/
theorem staging_departStaging (x : Station) (s : State) : (unitOf x (departStaging x s)).staging = [] := by
  have all : ∀ l : List Staging, (∀ r ∈ (unitOf x s).staging, r ∈ l) →
      ∀ t : State, (unitOf x t).staging = (unitOf x s).staging →
      (unitOf x (l.foldl (fun t r => abandonStaging x r t) t)).staging = [] := by
    intro l hl t ht
    rw [staging_foldl_abandon, ht, List.filter_eq_nil_iff]
    intro r hr hc
    simpa using List.all_eq_true.mp hc r (hl r hr)
  unfold departStaging
  split
  · assumption
  · rename_i r hr
    exact all [r] (by simp [hr]) s rfl
  · refine all _ (fun r hr => ?_) _ rfl
    split
    · exact List.mem_reverse.mpr hr
    · exact hr

/-! ### The leases -/

/-- R99: an entry after the hand-on. -/
def handedOn (l : LeaseEntry) : LeaseEntry :=
  match l.waiters with
  | [] => { l with hold := none }
  | w :: ws =>
    if exhausted l then { l with hold := none, waiters := [] }
    else grantLease w.station w.client w.duration { l with waiters := ws }

/-- R99: the waiters that leave the list at a hand-on. -/
def leavingWaiters (l : LeaseEntry) : List Waiter := if exhausted l then l.waiters else l.waiters.take 1

/-- R99: what a waiter that leaves the list at a hand-on is told. -/
def handOnNotice (e : Fin 16) (l : LeaseEntry) (w : Waiter) : Notice :=
  if exhausted l then .leaseWaitExpired e w.client else .leaseGranted e w.client (l.fence + 1) w.duration

theorem leaseOf_foldl_expire (e f : Fin 16) (ws : List Waiter) (s : State) :
    leaseOf f (ws.foldl (fun t v => expireWaiter e v t) s) = leaseOf f s :=
  foldl_keeps (P := fun t => leaseOf f t = leaseOf f s) ws
    (fun w _ t ht => by rw [expireWaiter, leaseOf_offer]; exact ht) rfl

theorem leaseOf_handOn_self (e : Fin 16) (s : State) : leaseOf e (handOn e s) = handedOn (leaseOf e s) := by
  unfold handOn handedOn
  cases hw : (leaseOf e s).waiters with
  | nil => simp [hw]
  | cons w ws =>
    simp only [hw]
    split
    · rw [leaseOf_foldl_expire, leaseOf_setLease_self]
    · rw [leaseOf_offer]; exact leaseOf_setLease_self _ _ _

theorem leaseOf_handOn_ne {e f : Fin 16} (s : State) (h : f ≠ e) : leaseOf f (handOn e s) = leaseOf f s := by
  unfold handOn
  simp only
  split
  · exact leaseOf_setLease_ne _ _ h
  · split
    · rw [leaseOf_foldl_expire]; exact leaseOf_setLease_ne _ _ h
    · rw [leaseOf_offer]; exact leaseOf_setLease_ne _ _ h

/-- R103: an entry without the station's waiters. -/
def withoutWaits (x : Station) (l : LeaseEntry) : LeaseEntry :=
  { l with waiters := l.waiters.filter fun w => w.station != x }

/-- R103: an entry after a departure. -/
def departedLease (x : Station) (l : LeaseEntry) : LeaseEntry :=
  if heldBy x l then handedOn (recordEnding .revoked (withoutWaits x l)) else withoutWaits x l

theorem leaseOf_revokeOn_self (x : Station) (e : Fin 16) (s : State) :
    leaseOf e (revokeOn x e s) =
      if heldBy x (leaseOf e s) then handedOn (recordEnding .revoked (leaseOf e s)) else leaseOf e s := by
  unfold revokeOn
  split
  · rw [endHold, leaseOf_handOn_self, leaseOf_setLease_self]
  · rfl

theorem leaseOf_revokeOn_ne (x : Station) {e f : Fin 16} (s : State) (h : f ≠ e) :
    leaseOf f (revokeOn x e s) = leaseOf f s := by
  unfold revokeOn
  split
  · rw [endHold, leaseOf_handOn_ne _ h, leaseOf_setLease_ne _ _ h]
  · rfl

/-- R103 step 1: the state after the waits have been removed. -/
def waitsRemoved (x : Station) (s : State) : State :=
  setWaitCount x 0 (allEntries.foldl (fun t e => removeWaits x e t) s)

theorem departLeases_eq (x : Station) (s : State) :
    departLeases x s = allEntries.foldl (fun t e => revokeOn x e t) (waitsRemoved x s) := rfl

theorem leaseOf_waitsRemoved (x : Station) (e : Fin 16) (s : State) :
    leaseOf e (waitsRemoved x s) = withoutWaits x (leaseOf e s) := by
  obtain ⟨t, -, h1, h2⟩ := foldl_at (f := fun t e => removeWaits x e t) (fun _ => True) leaseOf (fun _ _ _ => trivial)
    (fun t i j _ h => leaseOf_setLease_ne _ _ h) allEntries_nodup (mem_allEntries e) (s := s) trivial
  rw [waitsRemoved, leaseOf_setWaitCount, h2, removeWaits, leaseOf_setLease_self, h1]
  rfl

/-- R103: every entry after a departure. -/
theorem leaseOf_departLeases (x : Station) (e : Fin 16) (s : State) :
    leaseOf e (departLeases x s) = departedLease x (leaseOf e s) := by
  obtain ⟨t, -, h1, h2⟩ := foldl_at (f := fun t e => revokeOn x e t) (fun _ => True) leaseOf (fun _ _ _ => trivial)
    (fun t i j _ h => leaseOf_revokeOn_ne x t h) allEntries_nodup (mem_allEntries e) (s := waitsRemoved x s) trivial
  rw [departLeases_eq, h2, leaseOf_revokeOn_self, h1, leaseOf_waitsRemoved]
  rfl

/-- A station that neither holds an entry nor waits for it. -/
def Uninvolved (x : Station) (l : LeaseEntry) : Prop :=
  heldBy x l = false ∧ l.waiters.all (fun w => w.station != x) = true

theorem withoutWaits_of_uninvolved {x : Station} {l : LeaseEntry} (h : Uninvolved x l) : withoutWaits x l = l := by
  unfold withoutWaits
  rw [List.filter_eq_self.mpr (List.all_eq_true.mp h.2)]

theorem departedLease_of_uninvolved {x : Station} {l : LeaseEntry} (h : Uninvolved x l) : departedLease x l = l := by
  rw [departedLease, h.1, withoutWaits_of_uninvolved h]; rfl

/-- A hand-on gives the entry to a waiter. -/
theorem handedOn_uninvolved {x : Station} {l : LeaseEntry} (h : l.waiters.all (fun w => w.station != x) = true) :
    Uninvolved x (handedOn l) := by
  unfold handedOn
  split
  · rename_i hw
    exact ⟨rfl, by simp [hw]⟩
  · rename_i w ws hw
    split
    · exact ⟨rfl, rfl⟩
    · rw [hw, List.all_cons, Bool.and_eq_true] at h
      exact ⟨by simpa [heldBy, grantLease] using h.1, h.2⟩

@[simp] theorem recordEnding_waiters (ending : Ending) (l : LeaseEntry) :
    (recordEnding ending l).waiters = l.waiters := by
  unfold recordEnding
  split <;> rfl

@[simp] theorem recordEnding_hold (ending : Ending) (l : LeaseEntry) : (recordEnding ending l).hold = l.hold := by
  unfold recordEnding
  split <;> rfl

theorem uninvolved_departedLease_self (x : Station) (l : LeaseEntry) : Uninvolved x (departedLease x l) := by
  have hw : (withoutWaits x l).waiters.all (fun w => w.station != x) = true := by
    simp [withoutWaits]
  unfold departedLease
  split
  · exact handedOn_uninvolved (by simpa using hw)
  · rename_i hh
    exact ⟨by simpa [heldBy, withoutWaits] using hh, hw⟩

/-- A departure gives no lease to a station that does not wait for it. -/
theorem Uninvolved.departedLease {x y : Station} {l : LeaseEntry} (h : Uninvolved y l) :
    Uninvolved y (departedLease x l) := by
  obtain ⟨h1, h2⟩ := h
  have hw : (withoutWaits x l).waiters.all (fun w => w.station != y) = true := by
    rw [List.all_eq_true] at *
    exact fun w hw => h2 w (List.mem_of_mem_filter hw)
  unfold Machine.departedLease
  split
  · exact handedOn_uninvolved (by simpa using hw)
  · exact ⟨h1, hw⟩

end Sys2Proof.Machine
end

section
/-!
PROOFS. Departure: what it makes of the ends of the station, what it leaves of channels and leases, and whom it tells
what (R14, R17, R99, R103, R133).
-/

namespace Sys2Proof.Machine

/-! ### Work on ends leaves the leases, and work on leases the channels -/

/-- The leases and the wait counts are as before. -/
def LeasesSame (s t : State) : Prop := t.leases = s.leases ∧ t.waitCounts = s.waitCounts

theorem LeasesSame.trans {s t u : State} (h : LeasesSame s t) (k : LeasesSame t u) : LeasesSame s u :=
  ⟨k.1.trans h.1, k.2.trans h.2⟩

theorem LeasesSame.leaseOf {s t : State} (h : LeasesSame s t) (e : Fin 16) : leaseOf e t = leaseOf e s := by
  rw [Machine.leaseOf, h.1]; rfl

theorem leasesSame_dropStaging (x : Station) (r : Staging) (s : State) : LeasesSame s (dropStaging x r s) := by
  rw [dropStaging_frame]
  exact ⟨rfl, rfl⟩

theorem leasesSame_departStaging (x : Station) (s : State) : LeasesSame s (departStaging x s) := by
  refine departStaging_induction (P := LeasesSame s) x s (fun r _ t h => h.trans ?_) (fun h => h) ⟨rfl, rfl⟩
  exact (leasesSame_dropStaging x r t).trans ⟨evalCongestion_leases _ _, evalCongestion_waitCounts _ _⟩

theorem leasesSame_closeEnd (x : Station) (c : Fin 8) (role : Role) (s : State) :
    LeasesSame s (closeEnd x c role s).1 := by
  by_cases h : endHeld (endOf role.other (chanOf c s)) = true
  · rw [closeEnd_of_held h, closedBefore_frame, releaseEnd_frame]
    exact ⟨offer_leases _ _ _, offer_waitCounts _ _ _⟩
  · rw [closeEnd_of_last (by simpa using h), becomeClosed_frame, releaseEnd_frame]
    exact ⟨rfl, rfl⟩

theorem leasesSame_closeEndsOn (x : Station) (test : End → Bool) (c : Fin 8) (s : State) :
    LeasesSame s (closeEndsOn x test c s) := by
  have step : ∀ (b : Bool) role t, LeasesSame s t → LeasesSame s (if b then (closeEnd x c role t).1 else t) := by
    intro b role t h
    split
    · exact h.trans (leasesSame_closeEnd x c role t)
    · exact h
  exact step _ .receive _ (step _ .send s ⟨rfl, rfl⟩)

theorem leasesSame_departEnds (x : Station) (cause : Cause) (s : State) : LeasesSame s (departEnds x cause s) := by
  unfold departEnds
  split
  · exact foldl_keeps (P := LeasesSame s) _ (fun c _ t h => h.trans (leasesSame_closeEndsOn x _ c t)) ⟨rfl, rfl⟩
  · refine foldl_keeps (P := LeasesSame s) (f := fun t c => makeDormantOn x c t) _ (fun c _ t h => ?_) ⟨rfl, rfl⟩
    exact h.trans ⟨rfl, rfl⟩

/-- The channels, the store and the staging records are as before. -/
def ChannelsSame (s t : State) : Prop :=
  t.channels = s.channels ∧ t.store = s.store ∧ ∀ y, (unitOf y t).staging = (unitOf y s).staging

theorem ChannelsSame.trans {s t u : State} (h : ChannelsSame s t) (k : ChannelsSame t u) : ChannelsSame s u :=
  ⟨k.1.trans h.1, k.2.1.trans h.2.1, fun y => (k.2.2 y).trans (h.2.2 y)⟩

theorem ChannelsSame.chanOf {s t : State} (h : ChannelsSame s t) (c : Fin 8) : chanOf c t = chanOf c s := by
  rw [Machine.chanOf, h.1]; rfl

theorem channelsSame_offer (y : Station) (n : Notice) (s : State) : ChannelsSame s (offer y n s) :=
  ⟨offer_channels _ _ _, offer_store _ _ _, fun _ => offer_staging _ _ _ _⟩

theorem channelsSame_handOn (e : Fin 16) (s : State) : ChannelsSame s (handOn e s) := by
  unfold handOn
  simp only
  split
  · exact ⟨rfl, rfl, fun _ => rfl⟩
  · split
    · refine foldl_keeps (P := ChannelsSame s) _ (fun w _ t h => h.trans ?_) ⟨rfl, rfl, fun _ => rfl⟩
      exact ChannelsSame.trans (t := lowerWaitCount w.station t) ⟨rfl, rfl, fun _ => rfl⟩ (channelsSame_offer _ _ _)
    · exact ChannelsSame.trans ⟨rfl, rfl, fun _ => rfl⟩ (channelsSame_offer _ _ _)

theorem channelsSame_revokeOn (x : Station) (e : Fin 16) (s : State) : ChannelsSame s (revokeOn x e s) := by
  unfold revokeOn
  split
  · exact ChannelsSame.trans ⟨rfl, rfl, fun _ => rfl⟩ (channelsSame_handOn e _)
  · exact ⟨rfl, rfl, fun _ => rfl⟩

theorem channelsSame_waitsRemoved (x : Station) (s : State) : ChannelsSame s (waitsRemoved x s) := by
  have removed : ChannelsSame s (allEntries.foldl (fun t e => removeWaits x e t) s) := by
    refine foldl_keeps (P := ChannelsSame s) (f := fun t e => removeWaits x e t) _ (fun e _ t h => ?_)
      ⟨rfl, rfl, fun _ => rfl⟩
    exact h.trans ⟨rfl, rfl, fun _ => rfl⟩
  exact removed.trans ⟨rfl, rfl, fun _ => rfl⟩

theorem channelsSame_departLeases (x : Station) (s : State) : ChannelsSame s (departLeases x s) := by
  rw [departLeases_eq]
  exact foldl_keeps (P := ChannelsSame s) _ (fun e _ t h => h.trans (channelsSame_revokeOn x e t))
    (channelsSame_waitsRemoved x s)

/-! ### One end closed -/

/-- R14, R15: the channel after the close of an end; `r` is the staging record of a sender. -/
def shutChannel (r : Option Staging) (role : Role) (ch : Channel) : Channel :=
  if endHeld (endOf role.other ch) then closedChannel r role ch else resetChannel

theorem chanOf_closeEnd_self (x : Station) (c : Fin 8) (role : Role) (s : State) :
    chanOf c (closeEnd x c role s).1 = shutChannel (stagingOn x c s) role (chanOf c s) := by
  unfold shutChannel
  split
  · rename_i h
    rw [closeEnd_of_held h, chanOf_offer, chanOf_closedBefore_self]
  · rename_i h
    rw [closeEnd_of_last (by simpa using h), becomeClosed_frame, chanOf_setChan_self]

theorem chanOf_closeEnd_ne (x : Station) {c d : Fin 8} (role : Role) (s : State) (hd : d ≠ c) :
    chanOf d (closeEnd x c role s).1 = chanOf d s := by
  by_cases h : endHeld (endOf role.other (chanOf c s)) = true
  · rw [closeEnd_of_held h, chanOf_offer, chanOf_closedBefore_ne _ _ _ hd]
  · rw [closeEnd_of_last (by simpa using h), becomeClosed_frame, chanOf_setChan_ne _ _ hd, chanOf_setStore,
      chanOf_releaseEnd_ne _ _ _ hd]

theorem staging_closeEnd (x : Station) (c : Fin 8) (role : Role) (s : State) :
    (unitOf x (closeEnd x c role s).1).staging = keptStaging c role (unitOf x s).staging := by
  by_cases h : endHeld (endOf role.other (chanOf c s)) = true
  · rw [closeEnd_of_held h, offer_staging, closedBefore_frame, unitOf_setChan, unitOf_releaseEnd_self]
  · rw [closeEnd_of_last (by simpa using h), becomeClosed_frame, unitOf_setChan, unitOf_setStore,
      unitOf_releaseEnd_self]

theorem stagingOn_closeEnd_ne (x : Station) {c d : Fin 8} (role : Role) (s : State) (hd : d ≠ c) :
    stagingOn x d (closeEnd x c role s).1 = stagingOn x d s := by
  cases role with
  | receive => rw [stagingOn, staging_closeEnd]; rfl
  | send =>
    rw [stagingOn, staging_closeEnd, keptStaging, List.find?_filter, stagingOn]
    congr 1
    funext r
    by_cases hr : r.channel = d
    · simp [hr, hd]
    · simp [hr]

/-! ### The ends that a station closes on one channel -/

/-- R14, R17, R18: whether the station's end is closed. -/
def picked (x : Station) (test : End → Bool) (role : Role) (ch : Channel) : Bool :=
  holdsEnd x (endOf role ch) && test (endOf role ch)

/-- R14, R15: the channel after the close of the picked end. -/
def shutEnd (x : Station) (test : End → Bool) (r : Option Staging) (role : Role) (ch : Channel) : Channel :=
  if picked x test role ch then shutChannel r role ch else ch

/-- R17, R18: the channel after the close of the picked ends, the sender end first. -/
def shutEnds (x : Station) (test : End → Bool) (r : Option Staging) (ch : Channel) : Channel :=
  shutEnd x test none .receive (shutEnd x test r .send ch)

/-- R17, R18: the close of the sender end, if it is picked. -/
def shutSender (x : Station) (test : End → Bool) (c : Fin 8) (s : State) : State :=
  if picked x test .send (chanOf c s) then (closeEnd x c .send s).1 else s

theorem closeEndsOn_eq (x : Station) (test : End → Bool) (c : Fin 8) (s : State) :
    closeEndsOn x test c s =
      if picked x test .receive (chanOf c (shutSender x test c s)) then
        (closeEnd x c .receive (shutSender x test c s)).1
      else shutSender x test c s := rfl

theorem chanOf_shutSender (x : Station) (test : End → Bool) (c : Fin 8) (s : State) :
    chanOf c (shutSender x test c s) = shutEnd x test (stagingOn x c s) .send (chanOf c s) := by
  unfold shutSender shutEnd
  split
  · exact chanOf_closeEnd_self x c .send s
  · rfl

/-- The staging record plays no part at a receiver end. -/
theorem shutChannel_receive (r : Option Staging) (ch : Channel) :
    shutChannel r .receive ch = shutChannel none .receive ch := rfl

theorem chanOf_closeEndsOn_self (x : Station) (test : End → Bool) (c : Fin 8) (s : State) :
    chanOf c (closeEndsOn x test c s) = shutEnds x test (stagingOn x c s) (chanOf c s) := by
  rw [closeEndsOn_eq, shutEnds, ← chanOf_shutSender, shutEnd]
  split
  · rw [chanOf_closeEnd_self, shutChannel_receive]
  · rfl

/-- What a close does on one channel leaves what is seen of another. -/
theorem closeEndsOn_off {x : Station} {test : End → Bool} {c d : Fin 8} (s : State) (hd : d ≠ c) :
    chanOf d (closeEndsOn x test c s) = chanOf d s ∧ stagingOn x d (closeEndsOn x test c s) = stagingOn x d s := by
  have step : ∀ (b : Bool) role t, chanOf d t = chanOf d s ∧ stagingOn x d t = stagingOn x d s →
      chanOf d (if b then (closeEnd x c role t).1 else t) = chanOf d s ∧
        stagingOn x d (if b then (closeEnd x c role t).1 else t) = stagingOn x d s := by
    intro b role t h
    split
    · exact ⟨(chanOf_closeEnd_ne x role t hd).trans h.1, (stagingOn_closeEnd_ne x role t hd).trans h.2⟩
    · exact h
  exact step _ .receive _ (step _ .send s ⟨rfl, rfl⟩)

/-- R17, R18: every channel after the close of the picked ends of all. -/
theorem chanOf_closeAll (x : Station) (test : End → Bool) (c : Fin 8) {l : List (Fin 8)} (hl : l.Nodup) (hc : c ∈ l)
    (s : State) :
    chanOf c (l.foldl (fun t c => closeEndsOn x test c t) s) = shutEnds x test (stagingOn x c s) (chanOf c s) := by
  obtain ⟨t, -, h1, h2⟩ := foldl_at (f := fun t c => closeEndsOn x test c t) (fun _ => True)
    (fun c t => (chanOf c t, stagingOn x c t)) (fun _ _ _ => trivial)
    (fun t i j _ h => Prod.ext (closeEndsOn_off t h).1 (closeEndsOn_off t h).2) hl hc (s := s) trivial
  rw [Prod.mk.injEq] at h1 h2
  rw [h2.1, chanOf_closeEndsOn_self, h1.1, h1.2]

theorem staging_closeEndsOn_sublist (x : Station) (test : End → Bool) (c : Fin 8) (s : State) :
    (unitOf x (closeEndsOn x test c s)).staging.Sublist (unitOf x s).staging := by
  have kept : ∀ role (l : List Staging), (keptStaging c role l).Sublist l := fun role l => by
    cases role
    · exact List.filter_sublist
    · exact List.Sublist.refl l
  have step : ∀ (b : Bool) role t, (unitOf x t).staging.Sublist (unitOf x s).staging →
      (unitOf x (if b then (closeEnd x c role t).1 else t)).staging.Sublist (unitOf x s).staging := by
    intro b role t h
    split
    · rw [staging_closeEnd]; exact (kept role _).trans h
    · exact h
  exact step _ .receive _ (step _ .send s (List.Sublist.refl _))

/-! ### The ends of a departing station -/

/-- R17: a channel after the station's ends have become dormant. -/
def dormantChannel (x : Station) (ch : Channel) : Channel :=
  let ch1 := if holdsEnd x ch.sender then { ch with sender := { ch.sender with dormant := true } } else ch
  if holdsEnd x ch1.receiver then returnLent { ch1 with receiver := { ch1.receiver with dormant := true } } else ch1

theorem makeDormantOn_eq (x : Station) (c : Fin 8) (s : State) :
    makeDormantOn x c s = setChan c (dormantChannel x (chanOf c s)) s := rfl

theorem chanOf_departEnds_left (x : Station) (c : Fin 8) (s : State) :
    chanOf c (departEnds x .left s) = shutEnds x (fun _ => true) (stagingOn x c s) (chanOf c s) :=
  chanOf_closeAll x _ c (channelOrder_nodup _) (mem_channelOrder _ c) _

theorem departEnds_of_ne {x : Station} {cause : Cause} (s : State) (h : cause ≠ .left) :
    departEnds x cause s = allChannels.foldl (fun t c => makeDormantOn x c t) s := by
  cases cause with
  | left => exact absurd rfl h
  | _ => rfl

theorem chanOf_departEnds {x : Station} {cause : Cause} (c : Fin 8) (s : State) (h : cause ≠ .left) :
    chanOf c (departEnds x cause s) = dormantChannel x (chanOf c s) := by
  obtain ⟨t, -, h1, h2⟩ := foldl_at (f := fun t c => makeDormantOn x c t) (fun _ => True) chanOf (fun _ _ _ => trivial)
    (fun t i j _ h => chanOf_setChan_ne _ _ h) allChannels_nodup (mem_allChannels c) (s := s) trivial
  rw [departEnds_of_ne _ h, h2, makeDormantOn_eq, chanOf_setChan_self, h1]

theorem units_departEnds {x : Station} {cause : Cause} (s : State) (h : cause ≠ .left) :
    (departEnds x cause s).units = s.units := by
  rw [departEnds_of_ne _ h]
  exact foldl_keeps (P := fun t => t.units = s.units) (f := fun t c => makeDormantOn x c t) _ (fun _ _ _ ht => ht) rfl

theorem staging_departEnds {x : Station} {cause : Cause} {s : State} (h : (unitOf x s).staging = []) :
    (unitOf x (departEnds x cause s)).staging = [] := by
  by_cases hc : cause = .left
  · subst hc
    refine foldl_keeps (P := fun t => (unitOf x t).staging = []) _ (fun c _ t ht => ?_) h
    exact List.sublist_nil.mp (ht ▸ staging_closeEndsOn_sublist x _ c t)
  · rw [unitOf, units_departEnds s hc]; exact h

/-! ### What the departing station keeps of a channel: nothing active, nothing lent -/

/-- R134: what a departed station does not have of a channel. -/
def NothingOf (x : Station) (ch : Channel) : Prop :=
  holdsActive x ch.sender = false ∧ holdsActive x ch.receiver = false ∧
    (holdsEnd x ch.receiver = true → ch.queue.any isLent = false)

theorem isLent_returnMessage (m : Message) : isLent (returnMessage m) = false :=
  Kept.isLent_false_of_queued (isQueued_returnMessage m)

theorem nothingOf_dormantChannel (x : Station) (ch : Channel) : NothingOf x (dormantChannel x ch) := by
  unfold dormantChannel NothingOf
  cases hs : holdsEnd x ch.sender <;> cases hr : holdsEnd x ch.receiver <;>
    simp [hs, hr, holdsActive, returnLent, isLent_returnMessage]

theorem holdsEnd_resetEnd (x : Station) : holdsEnd x resetEnd = false := rfl

/-- R14, R15: a closed end is no longer held. -/
theorem endOf_shutChannel_self (r : Option Staging) (role : Role) (ch : Channel) :
    endOf role (shutChannel r role ch) = resetEnd := by
  unfold shutChannel
  split
  · exact endOf_closedChannel_self r role ch
  · cases role <;> rfl

/-- R14, R15: the other end stays, for it is held, or the channel is reset. -/
theorem endOf_shutChannel_other (r : Option Staging) (role : Role) (ch : Channel) :
    endOf role.other (shutChannel r role ch) = endOf role.other ch ∨
      endOf role.other (shutChannel r role ch) = resetEnd := by
  unfold shutChannel
  split
  · exact .inl (endOf_closedChannel_other r role ch)
  · exact .inr (by cases role <;> rfl)

/-- R14: after the closes of a LEAVE the station holds no end. -/
theorem holdsEnd_shutEnds (x : Station) (r : Option Staging) (ch : Channel) (role : Role) :
    holdsEnd x (endOf role (shutEnds x (fun _ => true) r ch)) = false := by
  have self : ∀ r role ch, holdsEnd x (endOf role (shutEnd x (fun _ => true) r role ch)) = false := by
    intro r role ch
    unfold shutEnd picked
    cases h : holdsEnd x (endOf role ch)
    · simpa using h
    · simp [endOf_shutChannel_self, holdsEnd_resetEnd]
  have other : ∀ r role ch, holdsEnd x (endOf role.other ch) = false →
      holdsEnd x (endOf role.other (shutEnd x (fun _ => true) r role ch)) = false := by
    intro r role ch h
    unfold shutEnd
    split
    · rcases endOf_shutChannel_other r role ch with k | k <;> rw [k]
      · exact h
      · rfl
    · exact h
  cases role with
  | send => exact other none .receive _ (self r .send ch)
  | receive => exact self none .receive _

theorem nothingOf_shutEnds (x : Station) (r : Option Staging) (ch : Channel) :
    NothingOf x (shutEnds x (fun _ => true) r ch) := by
  have hs := holdsEnd_shutEnds x r ch .send
  have hr := holdsEnd_shutEnds x r ch .receive
  unfold NothingOf holdsActive
  unfold endOf at hs hr
  simp only at hs hr
  simp [hs, hr]

/-- R17: what a departure makes of a channel of which the staging record is gone. -/
theorem nothingOf_departEnds (x : Station) (cause : Cause) (c : Fin 8) (s : State) :
    NothingOf x (chanOf c (departEnds x cause s)) := by
  by_cases h : cause = .left
  · subst h
    rw [chanOf_departEnds_left]
    exact nothingOf_shutEnds x _ _
  · rw [chanOf_departEnds c s h]
    exact nothingOf_dormantChannel x _

theorem dormantChannel_of_absent {x : Station} {ch : Channel} (h1 : holdsEnd x ch.sender = false)
    (h2 : holdsEnd x ch.receiver = false) : dormantChannel x ch = ch := by
  simp [dormantChannel, h1, h2]

theorem shutEnds_of_absent {x : Station} (test : End → Bool) (r : Option Staging) {ch : Channel}
    (h1 : holdsEnd x ch.sender = false) (h2 : holdsEnd x ch.receiver = false) : shutEnds x test r ch = ch := by
  simp [shutEnds, shutEnd, picked, endOf, h1, h2]

/-- A channel of which the station holds no end is untouched by the release of its ends. -/
theorem chanOf_departEnds_of_absent {x : Station} (cause : Cause) {c : Fin 8} {s : State}
    (h1 : holdsEnd x (chanOf c s).sender = false) (h2 : holdsEnd x (chanOf c s).receiver = false) :
    chanOf c (departEnds x cause s) = chanOf c s := by
  by_cases h : cause = .left
  · subst h
    rw [chanOf_departEnds_left, shutEnds_of_absent _ _ h1 h2]
  · rw [chanOf_departEnds c s h, dormantChannel_of_absent h1 h2]

/-! ### The state before PEER_DEPARTED -/

/-- R133 steps 6 to 9: the state before the PEER_DEPARTED offer, from the state after the owners' steps. -/
def clearedState (x : Station) (cause : Cause) (s : State) : State :=
  setSevere (s.severe.filter fun y => y != x) (setUnit x (clearUnit cause (unitOf x s)) s)

/-- R133: the state before the PEER_DEPARTED offer. -/
def departed (x : Station) (cause : Cause) (s : State) : State := clearedState x cause (departOwners x cause s)

theorem unitOf_clearedState (x : Station) (cause : Cause) (s : State) :
    unitOf x (clearedState x cause s) = clearUnit cause (unitOf x s) := by
  rw [clearedState, unitOf_setSevere, unitOf_setUnit_self]

theorem departUnit_eq (x : Station) (cause : Cause) (s : State) :
    departUnit x cause s = offer x.peer (.peerDeparted cause (unitOf x s).record.epoch) (clearedState x cause s) := by
  have h : (unitOf x (clearedState x cause s)).record.epoch = (unitOf x s).record.epoch := by
    rw [unitOf_clearedState]; rfl
  rw [← h]
  rfl

theorem depart_eq_offer (x : Station) (cause : Cause) (s : State) :
    depart x cause s = offer x.peer (.peerDeparted cause (unitOf x s).record.epoch) (departed x cause s) := by
  have h : (unitOf x (departOwners x cause s)).record = (unitOf x s).record := by
    rw [(departOwners_sheltered x cause s).record, unitOf_stopDraw]
  rw [← h, depart, departUnit_eq, departed]

theorem chanOf_departed (x : Station) (cause : Cause) (c : Fin 8) (s : State) :
    chanOf c (departed x cause s) = chanOf c (departEnds x cause (departFirst x s)) := by
  rw [departed, clearedState, chanOf_setSevere, chanOf_setUnit, departOwners, (channelsSame_departLeases x _).chanOf]

theorem leaseOf_departed (x : Station) (cause : Cause) (e : Fin 16) (s : State) :
    leaseOf e (departed x cause s) = departedLease x (leaseOf e s) := by
  rw [departed, clearedState, leaseOf_setSevere, leaseOf_setUnit, departOwners, leaseOf_departLeases, departFirst,
    (leasesSame_departEnds x cause _).leaseOf, (leasesSame_departStaging x _).leaseOf, leaseOf_stopDraw]

theorem unitOf_departed (x : Station) (cause : Cause) (s : State) :
    unitOf x (departed x cause s) = clearUnit cause (unitOf x (departOwners x cause s)) := by
  rw [departed, unitOf_clearedState]

theorem unitOf_departed_peer (x : Station) (cause : Cause) (s : State) :
    unitOf x.peer (departed x cause s) = unitOf x.peer (departOwners x cause s) := by
  rw [departed, clearedState, unitOf_setSevere, unitOf_setUnit_peer]

theorem linkOf_departed (x y : Station) (cause : Cause) (s : State) :
    linkOf y (departed x cause s) = linkOf y (stopDraw x s) := by
  rw [departed, clearedState, linkOf_setSevere, linkOf_setUnit, (departOwners_sheltered x cause s).linkOf]

/-- R103 step 2: the revocations leave the station's wait count 0. -/
theorem waitCount_revokeOn {x : Station} (y : Station) (e : Fin 16) {s : State} (h : s.waitCounts.get x = 0) :
    (revokeOn y e s).waitCounts.get x = 0 := by
  have lower : ∀ z t, Pair.get t.waitCounts x = 0 → (lowerWaitCount z t).waitCounts.get x = 0 := by
    intro z t ht
    rw [lowerWaitCount, waitCounts_setWaitCount]
    split
    · subst x; rw [ht]
    · exact ht
  unfold revokeOn endHold handOn
  simp only
  split
  · split
    · exact h
    · split
      · refine foldl_keeps (P := fun t => t.waitCounts.get x = 0) _ (fun w _ t ht => ?_) h
        rw [expireWaiter, offer_waitCounts]
        exact lower _ t ht
      · rw [offer_waitCounts]
        exact lower _ _ h
  · exact h

theorem waitCount_departLeases (x : Station) (s : State) : (departLeases x s).waitCounts.get x = 0 := by
  rw [departLeases_eq]
  exact foldl_keeps (P := fun t => t.waitCounts.get x = 0) _ (fun e _ t h => waitCount_revokeOn x e h)
    (Pair.get_set_self _ _ _)

theorem staging_departOwners (x : Station) (cause : Cause) (s : State) :
    (unitOf x (departOwners x cause s)).staging = [] := by
  rw [departOwners, (channelsSame_departLeases x _).2.2]
  exact staging_departEnds (staging_departStaging x _)

theorem waitCount_departed (x : Station) (cause : Cause) (s : State) :
    (departed x cause s).waitCounts.get x = 0 := by
  rw [departed, clearedState, setSevere_waitCounts, setUnit_waitCounts, departOwners, waitCount_departLeases]

theorem hasNothing_departed (x : Station) (cause : Cause) (s : State) : HasNothing x (departed x cause s) := by
  refine ⟨?_, ?_, ?_, ?_, ?_, waitCount_departed x cause s, fun e => ?_, fun c => ?_⟩
  · rw [isPresent, unitOf_departed]; rfl
  · rw [unitOf_departed]; exact staging_departOwners x cause s
  · rw [unitOf_departed]
    exact ((departOwners_sheltered x cause s).draw x).trans (by rw [unitOf_stopDraw])
  · rw [unitOf_departed]; rfl
  · rw [unitOf_departed]; rfl
  · rw [leaseOf_departed]; exact uninvolved_departedLease_self x _
  · rw [chanOf_departed]; exact nothingOf_departEnds x cause c _

/-- What a station has is untouched by an offer to its peer. -/
theorem hasNothing_offer {x : Station} (n : Notice) {s : State} (h : HasNothing x s) :
    HasNothing x (offer x.peer n s) := by
  obtain ⟨h1, h2, h3, h4, h5, h6, h7, h8⟩ := h
  refine ⟨by rw [isPresent_offer, h1], ?_, ?_, ?_, ?_, by rw [offer_waitCounts, h6], fun e => ?_, fun c => ?_⟩
  · rw [unitOf_offer_of_peer, h2]
  · rw [unitOf_offer_of_peer, h3]
  · rw [unitOf_offer_of_peer, h4]
  · rw [unitOf_offer_of_peer, h5]
  · rw [leaseOf_offer]; exact h7 e
  · rw [chanOf_offer]; exact h8 c

theorem hasNothing_depart (x : Station) (cause : Cause) (s : State) : HasNothing x (depart x cause s) := by
  rw [depart_eq_offer]
  exact hasNothing_offer _ (hasNothing_departed x cause s)

theorem chanOf_depart (x : Station) (cause : Cause) (c : Fin 8) (s : State) :
    chanOf c (depart x cause s) = chanOf c (departEnds x cause (departFirst x s)) := by
  rw [depart_eq_offer, chanOf_offer, chanOf_departed]

theorem leaseOf_depart (x : Station) (cause : Cause) (e : Fin 16) (s : State) :
    leaseOf e (depart x cause s) = departedLease x (leaseOf e s) := by
  rw [depart_eq_offer, leaseOf_offer, leaseOf_departed]

end Sys2Proof.Machine
end

section
/-!
PROOFS. Departure: whom it tells what (R99, R103, R133), and the settled statement.
-/

namespace Sys2Proof.Machine

/-! ### Notices that join a queue with room -/

/-- A regular notice that coalesces with none (R107, R109). -/
def Plain (n : Notice) : Prop := Notice.isOverflow n = false ∧ ∀ m, Notice.coalesces n m = false

/-- Station `y` is offered the notices `ns` and no other: with room in its queue they are its last entries. -/
def Told (y : Station) (s t : State) (ns : List Notice) : Prop :=
  (∀ n ∈ ns, Plain n) ∧ (isPresent y s = true → isPresent y t = true ∧
    ((unitOf y s).notices.length + ns.length ≤ 23 → (unitOf y s).notices.any Notice.isOverflow = false →
      (unitOf y t).notices = (unitOf y s).notices ++ ns))

theorem Told.of_notices {y : Station} {s t : State} (hp : isPresent y t = isPresent y s)
    (hn : (unitOf y t).notices = (unitOf y s).notices) : Told y s t [] :=
  ⟨fun n hn => absurd hn (List.not_mem_nil), fun h => ⟨hp.trans h, fun _ _ => by rw [hn, List.append_nil]⟩⟩

theorem Told.of_unit {y : Station} {s t : State} (h : unitOf y t = unitOf y s) : Told y s t [] :=
  .of_notices (by rw [isPresent, h, isPresent]) (by rw [h])

theorem Told.trans {y : Station} {s t u : State} {a b : List Notice} (h : Told y s t a) (k : Told y t u b) :
    Told y s u (a ++ b) := by
  obtain ⟨ha, h⟩ := h
  obtain ⟨hb, k⟩ := k
  refine ⟨fun n hn => (List.mem_append.mp hn).elim (ha n) (hb n), fun hp => ?_⟩
  obtain ⟨hp', h⟩ := h hp
  obtain ⟨hp'', k⟩ := k hp'
  refine ⟨hp'', fun hlen hno => ?_⟩
  rw [List.length_append] at hlen
  have h := h (by omega) hno
  have hno' : (unitOf y t).notices.any Notice.isOverflow = false := by
    rw [h, List.any_append, hno, Bool.false_or, List.any_eq_false]
    exact fun n hn => by rw [(ha n hn).1]; exact Bool.false_ne_true
  rw [k (by rw [h, List.length_append]; omega) hno', h, List.append_assoc]

theorem told_offer {y : Station} {n : Notice} (s : State) (hn : Plain n) : Told y s (offer y n s) [n] := by
  refine ⟨fun m hm => List.mem_singleton.mp hm ▸ hn, fun hp => ⟨by rw [isPresent_offer, hp], fun hlen hno => ?_⟩⟩
  have hc : (unitOf y s).notices.any (Notice.coalesces n) = false := by
    rw [List.any_eq_false]
    exact fun m _ => by rw [hn.2 m]; exact Bool.false_ne_true
  have hroom : ¬ Config.regularPlaces ≤ (unitOf y s).notices.length := by
    simp only [List.length_singleton] at hlen
    have : Config.regularPlaces = 23 := rfl
    omega
  have fate : offerFate n (unitOf y s).notices = .appended ((unitOf y s).notices ++ [n]) := by
    simp [offerFate, hc, hno, hroom]
  simp [offer, hp, fate, OfferFate.queue, OfferFate.isDropped, setNotices]

/-- What is told with room in the queue. -/
theorem Told.notices {y : Station} {s t : State} {ns : List Notice} (h : Told y s t ns) (hp : isPresent y s = true)
    (hlen : (unitOf y s).notices.length + ns.length ≤ 23) (hno : ∀ v, .overflow v ∉ (unitOf y s).notices) :
    (unitOf y t).notices = (unitOf y s).notices ++ ns := by
  refine (h.2 hp).2 hlen (List.any_eq_false.mpr fun n hn => ?_)
  cases n with
  | overflow v => exact absurd hn (hno v)
  | _ => exact Bool.false_ne_true

/-! ### The notices of the leases -/

/-- The station is offered the notices, and its wait count falls by their number. -/
def ToldOff (y : Station) (s t : State) (ns : List Notice) : Prop :=
  Told y s t ns ∧ t.waitCounts.get y = s.waitCounts.get y - ns.length

theorem ToldOff.trans {y : Station} {s t u : State} {a b : List Notice} (h : ToldOff y s t a) (k : ToldOff y t u b) :
    ToldOff y s u (a ++ b) :=
  ⟨h.1.trans k.1, by rw [k.2, h.2, List.length_append]; omega⟩

theorem toldOff_nil {y : Station} {s t : State} (h : unitOf y t = unitOf y s) (hw : t.waitCounts = s.waitCounts) :
    ToldOff y s t [] := ⟨.of_unit h, by rw [hw]; rfl⟩

/-- What follows a change that neither the unit nor the wait count sees. -/
theorem ToldOff.after {y : Station} {s t u : State} {a : List Notice} (k : ToldOff y t u a)
    (h : unitOf y t = unitOf y s) (hw : t.waitCounts = s.waitCounts) : ToldOff y s u a :=
  (toldOff_nil h hw).trans k

/-- R90, R99: a waiter leaves a list and is told so. -/
theorem toldOff_leave {y : Station} {n : Notice} (s : State) (hn : Plain n) :
    ToldOff y s (offer y n (lowerWaitCount y s)) [n] :=
  ⟨Told.trans (t := lowerWaitCount y s) (Told.of_unit rfl) (told_offer _ hn), by
    rw [offer_waitCounts, lowerWaitCount, waitCounts_setWaitCount_self, List.length_singleton]⟩

theorem toldOff_expire {y : Station} (e : Fin 16) {ws : List Waiter} (hw : ∀ w ∈ ws, w.station = y) (s : State) :
    ToldOff y s (ws.foldl (fun t w => expireWaiter e w t) s) (ws.map fun w => .leaseWaitExpired e w.client) := by
  induction ws generalizing s with
  | nil => exact toldOff_nil rfl rfl
  | cons w ws ih =>
    refine ToldOff.trans (a := [.leaseWaitExpired e w.client]) ?_ (ih (fun v hv => hw v (.tail _ hv)) _)
    obtain rfl := hw w (.head _)
    exact toldOff_leave s ⟨rfl, fun _ => rfl⟩

/-- R99: a hand-on tells the waiters that leave the list. -/
theorem toldOff_handOn {y : Station} {e : Fin 16} {s : State} (hw : ∀ w ∈ (leaseOf e s).waiters, w.station = y) :
    ToldOff y s (handOn e s) ((leavingWaiters (leaseOf e s)).map (handOnNotice e (leaseOf e s))) := by
  unfold handOn leavingWaiters handOnNotice
  cases hl : (leaseOf e s).waiters with
  | nil =>
    simp only [hl, List.take_nil, ite_self, List.map_nil]
    exact toldOff_nil rfl rfl
  | cons w ws =>
    rw [hl] at hw
    simp only [hl]
    split
    · exact (toldOff_expire e hw _).after rfl rfl
    · have hy : w.station = y := hw w (.head _)
      rw [hy]
      exact (toldOff_leave _ ⟨rfl, fun _ => rfl⟩).after rfl rfl

/-- R103: the waiters that leave an entry's list at a departure, the station's own aside. -/
def revokedWaiters (x : Station) (l : LeaseEntry) : List Waiter :=
  if heldBy x l then leavingWaiters (withoutWaits x l) else []

/-- R103: what they are told. -/
def revokeNotices (x : Station) (e : Fin 16) (l : LeaseEntry) : List Notice :=
  (revokedWaiters x l).map (handOnNotice e l)

@[simp] theorem recordEnding_fence (ending : Ending) (l : LeaseEntry) : (recordEnding ending l).fence = l.fence := by
  unfold recordEnding
  split <;> rfl

theorem leavingWaiters_recordEnding (ending : Ending) (l : LeaseEntry) :
    leavingWaiters (recordEnding ending l) = leavingWaiters l := by
  simp [leavingWaiters, exhausted]

theorem handOnNotice_of_fence {e : Fin 16} {l k : LeaseEntry} (h : k.fence = l.fence) :
    handOnNotice e k = handOnNotice e l := by
  funext w
  simp [handOnNotice, exhausted, h]

theorem withoutWaits_station {x : Station} {l : LeaseEntry} : ∀ w ∈ (withoutWaits x l).waiters, w.station = x.peer := by
  intro w hw
  have hne : w.station ≠ x := by simpa using (List.mem_filter.mp hw).2
  exact Station.eq_peer_of_ne hne

theorem toldOff_revokeOn {x : Station} {e : Fin 16} {l : LeaseEntry} {s : State} (h : leaseOf e s = withoutWaits x l) :
    ToldOff x.peer s (revokeOn x e s) (revokeNotices x e l) := by
  have hheld : heldBy x (leaseOf e s) = heldBy x l := by rw [h]; rfl
  unfold revokeOn revokeNotices revokedWaiters
  rw [hheld]
  split
  · have hset : leaseOf e (setLease e (recordEnding .revoked (leaseOf e s)) s) =
        recordEnding .revoked (withoutWaits x l) := by
      rw [leaseOf_setLease_self, h]
    have hw : ∀ w ∈ (recordEnding .revoked (withoutWaits x l)).waiters, w.station = x.peer := by
      rw [recordEnding_waiters]; exact withoutWaits_station
    rw [← hset] at hw
    have told := toldOff_handOn hw
    rw [hset, leavingWaiters_recordEnding, handOnNotice_of_fence (recordEnding_fence _ _)] at told
    rw [endHold]
    exact told.after rfl rfl
  · exact toldOff_nil rfl rfl

theorem unitOf_waitsRemoved (x y : Station) (s : State) : unitOf y (waitsRemoved x s) = unitOf y s :=
  foldl_keeps (P := fun t => unitOf y (setWaitCount x 0 t) = unitOf y s) (f := fun t e => removeWaits x e t) allEntries
    (fun _ _ _ h => h) rfl

theorem waitCount_waitsRemoved (x : Station) (s : State) :
    (waitsRemoved x s).waitCounts.get x.peer = s.waitCounts.get x.peer := by
  rw [waitsRemoved, waitCounts_setWaitCount, if_neg x.peer_ne]
  exact foldl_keeps (P := fun t => t.waitCounts.get x.peer = s.waitCounts.get x.peer)
    (f := fun t e => removeWaits x e t) allEntries (fun _ _ _ h => h) rfl

/-- R103, R133: the peer of a departing station is offered the lease notices in ascending order of entry. -/
theorem toldOff_departLeases (x : Station) (s : State) :
    ToldOff x.peer s (departLeases x s) (allEntries.flatMap fun e => revokeNotices x e (leaseOf e s)) := by
  have waits : ToldOff x.peer s (waitsRemoved x s) [] :=
    ⟨.of_unit (unitOf_waitsRemoved x _ s), waitCount_waitsRemoved x s⟩
  rw [departLeases_eq]
  rw [← List.nil_append (allEntries.flatMap _)]
  refine waits.trans ?_
  exact foldl_yields (f := fun t e => revokeOn x e t) (R := ToldOff x.peer) (fun _ => toldOff_nil rfl rfl)
    (fun h k => h.trans k) leaseOf
    (fun e => withoutWaits x (leaseOf e s)) (fun t e h => toldOff_revokeOn h)
    (fun t e f h => leaseOf_revokeOn_ne x t h) allEntries_nodup (fun e _ => leaseOf_waitsRemoved x e s)

/-! ### The notices of a departure -/

/-- R20: where the departing station holds the sender end, no FLOW offer reaches its peer. -/
theorem unitOf_evalCongestion_peer {x : Station} {c : Fin 8} {s : State}
    (h : holdsEnd x (chanOf c s).sender = true) : unitOf x.peer (evalCongestion c s) = unitOf x.peer s := by
  unfold evalCongestion offerFlow
  simp only
  split
  · rfl
  · split
    · rfl
    · rename_i v _
      have hh : activeHolder (chanOf c (setChan c { chanOf c s with congested := v } s)).sender =
          if (chanOf c s).sender.dormant then none else some x := by
        rw [chanOf_setChan_self, activeHolder, holdsEnd_iff.mp h]
      rw [hh]
      cases (chanOf c s).sender.dormant
      · exact unitOf_offer_peer _ _ _
      · rfl

/-- R133 step 3: the abandonments reach no unit but the station's own where it holds the sender ends. -/
theorem unitOf_departStaging_peer {x : Station} {s : State}
    (h : ∀ r ∈ (unitOf x s).staging, holdsEnd x (chanOf r.channel s).sender = true) :
    unitOf x.peer (departStaging x s) = unitOf x.peer s := by
  refine (departStaging_induction (P := fun t => unitOf x.peer t = unitOf x.peer s ∧
    ∀ c, (chanOf c t).sender = (chanOf c s).sender) x s (fun r hr t ht => ?_) (fun h => h) ⟨rfl, fun _ => rfl⟩).1
  obtain ⟨hu, hc⟩ := ht
  have hdrop : ∀ c, (chanOf c (dropStaging x r t)).sender = (chanOf c t).sender := by
    intro c
    rw [dropStaging_frame, chanOf_setUnit, chanOf_setChan]
    split
    · subst c; rfl
    · rfl
  refine ⟨?_, fun c => by rw [abandonStaging, evalCongestion_sender, hdrop, hc]⟩
  rw [abandonStaging, unitOf_evalCongestion_peer (by rw [hdrop, hc]; exact h r hr), dropStaging_frame,
    unitOf_setUnit_peer, ← hu]
  rfl

theorem plain_peerDeparted (cause : Cause) (n : Half) : Plain (.peerDeparted cause n) := ⟨rfl, fun _ => rfl⟩

/-- R133: what the peer is told after the release of the ends. -/
theorem told_depart (x : Station) (cause : Cause) {s t : State} {ends : List Notice}
    (hends : Told x.peer s t ends) (hw : t.waitCounts = s.waitCounts) (hl : ∀ e, leaseOf e t = leaseOf e s)
    (he : depart x cause s = offer x.peer (.peerDeparted cause (unitOf x s).record.epoch)
      (clearedState x cause (departLeases x t))) :
    Told x.peer s (depart x cause s)
      (ends ++ allEntries.flatMap (fun e => revokeNotices x e (leaseOf e s)) ++
        [.peerDeparted cause (unitOf x s).record.epoch]) ∧
    (depart x cause s).waitCounts.get x.peer =
      s.waitCounts.get x.peer - (allEntries.flatMap fun e => revokedWaiters x (leaseOf e s)).length := by
  obtain ⟨h1, h2⟩ := toldOff_departLeases x t
  simp only [hl, hw] at h1 h2
  have hclear : Told x.peer (departLeases x t) (clearedState x cause (departLeases x t)) [] :=
    .of_unit (by rw [clearedState, unitOf_setSevere, unitOf_setUnit_peer])
  rw [he]
  constructor
  · have := ((hends.trans h1).trans hclear).trans (told_offer _ (plain_peerDeparted cause (unitOf x s).record.epoch))
    rwa [List.append_nil] at this
  · rw [offer_waitCounts, clearedState, setSevere_waitCounts, setUnit_waitCounts, h2]
    simp [revokeNotices, List.length_flatMap]

end Sys2Proof.Machine
end

section
/-!
PROOFS. Departure: the statement settled (R17, R65, R99, R103, R133, R134).
-/

namespace Sys2Proof.Machine

/-! ### Leases after a departure, as R103 says it -/

/-- R103: the waiters of the other station. -/
theorem waiters_withoutWaits (x : Station) (l : LeaseEntry) :
    (withoutWaits x l).waiters = l.waiters.filter fun w => w.station == x.peer := by
  have h : (fun w : Waiter => w.station != x) = fun w => w.station == x.peer := by
    funext w
    cases w.station <;> cases x <;> rfl
  rw [withoutWaits, h]

theorem heldBy_of_hold {x : Station} {l : LeaseEntry} {h : Hold} (hl : l.hold = some h) (hx : h.station = x) :
    heldBy x l = true := by
  simp [heldBy, hl, hx]

/-- R103: an entry that the station did not hold loses its waiters alone. -/
theorem departedLease_of_not_held {x : Station} {l : LeaseEntry} (h : heldBy x l = false) :
    departedLease x l = { l with waiters := l.waiters.filter fun w => w.station == x.peer } := by
  rw [departedLease, h, ← waiters_withoutWaits]
  rfl

/-- R103: an entry that the station held, before it is handed on. -/
theorem departedLease_of_held {x : Station} {l : LeaseEntry} {h : Hold} (hl : l.hold = some h) (hx : h.station = x) :
    departedLease x l = handedOn
      { l with
        waiters := l.waiters.filter fun w => w.station == x.peer
        last := some { station := x, client := h.client, fence := l.fence, ending := .revoked } } := by
  rw [departedLease, heldBy_of_hold hl hx, if_pos rfl, ← waiters_withoutWaits, recordEnding]
  simp [withoutWaits, hl, hx]

theorem handedOn_of_free {l : LeaseEntry} (h : l.waiters = [] ∨ l.fence = 0xFFFFFFFF) :
    handedOn l = { l with hold := none, waiters := [] } := by
  unfold handedOn
  cases hw : l.waiters with
  | nil => rfl
  | cons w ws =>
    have he : exhausted l = true := by
      rcases h with h | h
      · rw [hw] at h; cases h
      · rw [exhausted, h]; rfl
    simp [he]

theorem handedOn_of_waiter {l : LeaseEntry} {w : Waiter} {ws : List Waiter} (h : l.waiters = w :: ws)
    (hf : l.fence ≠ 0xFFFFFFFF) :
    handedOn l = grantLease w.station w.client w.duration { l with waiters := ws } := by
  have he : exhausted l = false := by rw [exhausted, beq_eq_false_iff_ne]; exact hf
  simp [handedOn, h, he]

/-- R99, R103: every entry after a departure. -/
theorem departedLease_cases (x : Station) (l : LeaseEntry) :
    let others := l.waiters.filter fun w => w.station == x.peer
    (heldBy x l = false → departedLease x l = { l with waiters := others }) ∧
    (∀ h, l.hold = some h → h.station = x →
      let revoked : LeaseEntry :=
        { l with
          hold := none, waiters := []
          last := some { station := x, client := h.client, fence := l.fence, ending := .revoked } }
      (others = [] ∨ l.fence = 0xFFFFFFFF → departedLease x l = revoked) ∧
      (∀ w ws, others = w :: ws → l.fence ≠ 0xFFFFFFFF →
        departedLease x l = { revoked with
              hold := some { station := x.peer, client := w.client, remaining := w.duration, granted := w.duration }
              fence := l.fence + 1, waiters := ws })) := by
  refine ⟨departedLease_of_not_held, fun h hl hx => ⟨fun hfree => ?_, fun w ws hw hf => ?_⟩⟩
  · rw [departedLease_of_held hl hx, handedOn_of_free hfree]
  · have hs : w.station = x.peer := by
      have : w ∈ l.waiters.filter fun w => w.station == x.peer := hw ▸ List.mem_cons_self
      simpa using (List.mem_filter.mp this).2
    rw [departedLease_of_held hl hx]
    refine (handedOn_of_waiter (w := w) (ws := ws) ?_ ?_).trans ?_
    · exact hw
    · exact hf
    · rw [hs]; rfl

/-- R103: the waiters that leave the lists and what they are told, as the statements write it. -/
theorem revokedWaiters_eq (x : Station) (l : LeaseEntry) :
    revokedWaiters x l =
      if heldBy x l = true then
        (if l.fence = 0xFFFFFFFF then l.waiters.filter fun w => w.station == x.peer
         else (l.waiters.filter fun w => w.station == x.peer).take 1)
      else [] := by
  have hf : exhausted (withoutWaits x l) = true ↔ l.fence = 0xFFFFFFFF := beq_iff_eq
  simp only [revokedWaiters, leavingWaiters, hf, waiters_withoutWaits]

theorem handOnNotice_eq (e : Fin 16) (l : LeaseEntry) :
    handOnNotice e l = fun w =>
      if l.fence = 0xFFFFFFFF then .leaseWaitExpired e w.client
      else .leaseGranted e w.client (l.fence + 1) w.duration := by
  have hf : exhausted l = true ↔ l.fence = 0xFFFFFFFF := beq_iff_eq
  funext w
  simp only [handOnNotice, hf]

/-! ### What a departure leaves of the station and of its peer -/

theorem unitOf_depart (x : Station) (cause : Cause) (s : State) :
    unitOf x (depart x cause s) = clearUnit cause (unitOf x (departOwners x cause s)) := by
  rw [depart_eq_offer, unitOf_offer_of_peer, unitOf_departed]

/-- R133: the record after a departure. -/
theorem record_depart (x : Station) (cause : Cause) (s : State) :
    (unitOf x (depart x cause s)).record =
      { (unitOf x s).record with presence := .absent, keepaliveTimer := none, lastCause := some cause } := by
  rw [unitOf_depart]
  unfold clearUnit
  simp only
  rw [(departOwners_sheltered x cause s).record, unitOf_stopDraw]

/-- What the departing station leaves of its peer, but for notices and faults. -/
theorem unitOf_depart_peer (x : Station) (cause : Cause) (s : State) :
    (unitOf x.peer (depart x cause s)).record = (unitOf x.peer s).record ∧
      (unitOf x.peer (depart x cause s)).signals = (unitOf x.peer s).signals ∧
      (unitOf x.peer (depart x cause s)).staging = (unitOf x.peer s).staging ∧
      (unitOf x.peer (depart x cause s)).cache = (unitOf x.peer s).cache ∧
      (unitOf x.peer (depart x cause s)).draw = (unitOf x.peer s).draw := by
  have h := departOwners_sheltered x cause s
  rw [depart_eq_offer, offer_record, offer_signals, offer_staging, offer_cache, offer_draw, unitOf_departed_peer,
    h.record, h.signals, h.cache, h.draw, h.peerStaging, unitOf_stopDraw_peer]
  exact ⟨rfl, rfl, rfl, rfl, rfl⟩

theorem linkOf_depart (x y : Station) (cause : Cause) (s : State) :
    linkOf y (depart x cause s) = linkOf y (stopDraw x s) := by
  rw [depart_eq_offer, linkOf_offer, linkOf_departed]

theorem linkOf_stopDraw (x : Station) (s : State) :
    linkOf x (stopDraw x s) =
      { linkOf x s with tx := (linkOf x s).tx.map fun t => { t with drawItem := false } } := by
  rw [stopDraw_frame, linkOf_setUnit, linkOf_setLink_self]

theorem linkOf_stopDraw_peer (x : Station) (s : State) : linkOf x.peer (stopDraw x s) = linkOf x.peer s := by
  rw [stopDraw_frame, linkOf_setUnit, linkOf_setLink_peer]

/-- The rest of the state: what no departure changes. -/
theorem depart_rest (x : Station) (cause : Cause) (s : State) :
    (depart x cause s).store.mem = s.store.mem ∧ (depart x cause s).store.health = s.store.health ∧
      (depart x cause s).timeBase = s.timeBase ∧ (depart x cause s).straps = s.straps ∧
      (depart x cause s).pending = s.pending := by
  have h := departOwners_sheltered x cause s
  rw [depart_eq_offer, offer_store, offer_timeBase, offer_straps, offer_pending, departed, clearedState,
    setSevere_store, setUnit_store, setSevere_timeBase, setUnit_timeBase, setSevere_straps, setUnit_straps,
    setSevere_pending, setUnit_pending, h.mem, h.health, h.timeBase, h.straps, h.pending]
  exact ⟨rfl, rfl, rfl, rfl, rfl⟩

/-- A channel of which the station has neither an end nor a staging record. -/
theorem chanOf_depart_of_absent {x : Station} (cause : Cause) {c : Fin 8} {s : State}
    (h1 : holdsEnd x (chanOf c s).sender = false) (h2 : holdsEnd x (chanOf c s).receiver = false)
    (h3 : stagingOn x c s = none) : chanOf c (depart x cause s) = chanOf c s := by
  have hst : stagingOn x c (stopDraw x s) = none := by rw [stagingOn, unitOf_stopDraw]; exact h3
  have hfirst : chanOf c (departFirst x s) = chanOf c s := by
    rw [departFirst, chanOf_departStaging_of_none hst, chanOf_stopDraw]
  rw [chanOf_depart, chanOf_departEnds_of_absent cause (by rw [hfirst, h1]) (by rw [hfirst, h2]), hfirst]

/-! ### The ends of a departure with a cause other than LEFT -/

theorem chanOf_depart_dormant {x : Station} {cause : Cause} (c : Fin 8) (s : State) (h : cause ≠ .left) :
    ∃ reserved charged congested, chanOf c (depart x cause s) =
      { dormantChannel x (chanOf c s) with reserved := reserved, charged := charged, congested := congested } := by
  have hfirst : SameButAccounts (chanOf c s) (chanOf c (departFirst x s)) :=
    sameButAccounts_departStaging x c (stopDraw x s)
  refine ⟨(chanOf c (departFirst x s)).reserved, (chanOf c (departFirst x s)).charged,
    (chanOf c (departFirst x s)).congested, ?_⟩
  rw [chanOf_depart, chanOf_departEnds c _ h, hfirst]
  unfold dormantChannel
  simp only
  cases holdsEnd x (chanOf c s).sender <;> cases hr : holdsEnd x (chanOf c s).receiver <;> simp [hr, returnLent]

/-- R17, R65: what becoming dormant makes of a channel. -/
theorem dormantChannel_spec (x : Station) (ch : Channel) :
    channelState (dormantChannel x ch) = channelState ch ∧ (dormantChannel x ch).params = ch.params ∧
      (dormantChannel x ch).nextSeq = ch.nextSeq ∧ (dormantChannel x ch).arrivalOption = ch.arrivalOption ∧
      (holdsEnd x ch.sender = true → (dormantChannel x ch).sender = { holder := some x, dormant := true }) ∧
      (holdsEnd x ch.sender = false → (dormantChannel x ch).sender = ch.sender) ∧
      (holdsEnd x ch.receiver = true →
        (dormantChannel x ch).receiver = { holder := some x, dormant := true } ∧
        (dormantChannel x ch).queue = ch.queue.map returnMessage) ∧
      (holdsEnd x ch.receiver = false →
        (dormantChannel x ch).receiver = ch.receiver ∧ (dormantChannel x ch).queue = ch.queue) := by
  unfold dormantChannel
  cases hs : holdsEnd x ch.sender <;> cases hr : holdsEnd x ch.receiver <;>
    simp [hr, returnLent, channelState, endHeld]
  · exact holdsEnd_iff.mp hr
  · exact holdsEnd_iff.mp hs
  · exact ⟨holdsEnd_iff.mp hs, holdsEnd_iff.mp hr⟩

/-! ### What the peer of a departing station is told -/

theorem waitCounts_departEnds (x : Station) (cause : Cause) (s : State) :
    (departEnds x cause (departFirst x s)).waitCounts = s.waitCounts := by
  rw [(leasesSame_departEnds x cause _).2, departFirst, (leasesSame_departStaging x _).2, stopDraw_waitCounts]

theorem unitOf_departFirst_peer {x : Station} {s : State}
    (h : ∀ r ∈ (unitOf x s).staging, holdsEnd x (chanOf r.channel s).sender = true) :
    unitOf x.peer (departFirst x s) = unitOf x.peer s := by
  refine (unitOf_departStaging_peer fun r hr => ?_).trans (unitOf_stopDraw_peer x s)
  rw [unitOf_stopDraw] at hr
  exact h r hr

theorem leaseOf_departEnds (x : Station) (cause : Cause) (e : Fin 16) (s : State) :
    leaseOf e (departEnds x cause (departFirst x s)) = leaseOf e s := by
  rw [(leasesSame_departEnds x cause _).leaseOf, departFirst, (leasesSame_departStaging x _).leaseOf, leaseOf_stopDraw]

/-- Settles O11. -/
theorem departureLeavesNothing : Obligations.DepartureLeavesNothing := by
  unfold Obligations.DepartureLeavesNothing
  refine ⟨fun x cause s => ?_, fun x cause c s hc => ?_, fun x cause s => ?_, fun x cause e s => ?_,
    fun x cause s hc hp hst => ?_⟩
  · have hn := hasNothing_depart x cause s
    obtain ⟨hrecord, hsignals, hstaging, hcache, hdraw⟩ := unitOf_depart_peer x cause s
    obtain ⟨hmem, hhealth, htime, hstraps, hpending⟩ := depart_rest x cause s
    have hlink : linkOf x (depart x cause s) = _ := (linkOf_depart x x cause s).trans (linkOf_stopDraw x s)
    refine ⟨hn, by rw [attentionAsserted, hn.1]; rfl, record_depart x cause s, by rw [unitOf_depart]; rfl,
      by rw [hlink], by rw [hlink], by rw [hlink, List.map_map]; rfl, by rw [hlink],
      by rw [linkOf_depart, linkOf_stopDraw_peer], hrecord, hsignals, hstaging, hcache, hdraw, hmem, hhealth, htime,
      hstraps, hpending, fun e h1 h2 => ?_, fun c => chanOf_depart_of_absent cause⟩
    rw [leaseOf_depart, departedLease_of_uninvolved ⟨h1, h2⟩]
  · obtain ⟨reserved, charged, congested, h⟩ := chanOf_depart_dormant (x := x) c s hc
    have spec := dormantChannel_spec x (chanOf c s)
    rw [returnMessage_fun] at spec
    simp only [h]
    exact spec
  · exact ⟨_, hasNothing_departed x cause s, depart_eq_offer x cause s⟩
  · simp only [leaseOf_depart]
    exact departedLease_cases x (leaseOf e s)
  · have hst' : ∀ r ∈ (unitOf x s).staging, holdsEnd x (chanOf r.channel s).sender = true := List.all_eq_true.mp hst
    have hends : unitOf x.peer (departEnds x cause (departFirst x s)) = unitOf x.peer s := by
      rw [unitOf, units_departEnds _ hc]; exact unitOf_departFirst_peer hst'
    obtain ⟨told, count⟩ := told_depart x cause (.of_unit hends) (waitCounts_departEnds x cause s)
      (leaseOf_departEnds x cause · s) (depart_eq_offer x cause s)
    simp only [revokeNotices, revokedWaiters_eq, handOnNotice_eq, allEntries_eq, List.nil_append] at told count
    refine ⟨count, fun hlen hno => ?_⟩
    exact (told.notices hp (by rw [List.length_append, List.length_singleton]; exact hlen) hno).trans
      (List.append_assoc _ _ _).symm

end Sys2Proof.Machine
end

section
/-!
PROOFS. LEAVE: what closing the ends of a station frees and tells, and the statement settled (R14, R15, R17, R127).
-/

namespace Sys2Proof.Machine

/-! ### Operations that take channels one by one, once more -/

/-- Among operations of which each acts on its own place alone, place `i` is as before when its own operation comes. `R`
relates the state to what follows. -/
theorem foldl_reaches {ι β : Type} {f : State → ι → State} {R : State → State → Prop} (hrefl : ∀ s, R s s)
    (htrans : ∀ {s t u}, R s t → R t u → R s u) (hR : ∀ t i, R t (f t i)) (v : ι → State → β)
    (hne : ∀ t i j, j ≠ i → v j (f t i) = v j t) {l : List ι} (hl : l.Nodup) {i : ι} (hi : i ∈ l) (s : State) :
    ∃ t, R s t ∧ v i t = v i s ∧ R (f t i) (l.foldl f s) := by
  obtain ⟨l1, l2, rfl⟩ := List.append_of_mem hi
  have hout : i ∉ l1 := fun h => (List.disjoint_of_nodup_append hl) h List.mem_cons_self
  refine ⟨l1.foldl f s, ?_, ?_, ?_⟩
  · exact foldl_keeps (P := R s) l1 (fun j _ t h => htrans h (hR t j)) (hrefl s)
  · exact foldl_keeps (P := fun t => v i t = v i s) l1
      (fun j hj t h => (hne t j i fun e => hout (e ▸ hj)).trans h) rfl
  · rw [List.foldl_append, List.foldl_cons]
    exact foldl_keeps (P := R (f (l1.foldl f s) i)) l2 (fun j _ t h => htrans h (hR t j)) (hrefl _)

/-! ### The free pool grows -/

/-- R14, R23, R47: no block leaves the free pool. -/
def FreeGrows (s t : State) : Prop := ∀ b ∈ s.store.freePool, b ∈ t.store.freePool

theorem FreeGrows.trans {s t u : State} (h : FreeGrows s t) (k : FreeGrows t u) : FreeGrows s u :=
  fun b hb => k b (h b hb)

theorem freeGrows_of_store {s t : State} (h : t.store = s.store) : FreeGrows s t := fun b hb => by rw [h]; exact hb

theorem freeGrows_freeBlocks (bs : List (Fin 256)) {s t : State} (h : t.store = freeBlocks bs s.store) :
    FreeGrows s t := fun b hb => by rw [h]; exact mem_freeBlocks.mpr (.inr hb)

theorem freeGrows_dropStaging (x : Station) (r : Staging) (s : State) : FreeGrows s (dropStaging x r s) := by
  rw [dropStaging_frame]
  exact freeGrows_freeBlocks r.blocks rfl

theorem freeGrows_abandonStaging (x : Station) (r : Staging) (s : State) : FreeGrows s (abandonStaging x r s) :=
  (freeGrows_dropStaging x r s).trans (freeGrows_of_store (evalCongestion_store _ _))

theorem freeGrows_releaseEnd (x : Station) (c : Fin 8) (role : Role) (s : State) :
    FreeGrows s (releaseEnd x c role s) := by
  have h := releaseEnd_store x c role s
  unfold releasedStore at h
  split at h
  · exact freeGrows_freeBlocks _ h
  · exact freeGrows_of_store h

theorem freeGrows_closeEnd (x : Station) (c : Fin 8) (role : Role) (s : State) :
    FreeGrows s (closeEnd x c role s).1 := by
  refine (freeGrows_releaseEnd x c role s).trans ?_
  by_cases h : endHeld (endOf role.other (chanOf c s)) = true
  · rw [closeEnd_of_held h, closedBefore_frame]
    exact freeGrows_of_store (offer_store _ _ _)
  · rw [closeEnd_of_last (by simpa using h), becomeClosed_frame]
    exact freeGrows_freeBlocks _ rfl

theorem freeGrows_closeEndsOn (x : Station) (test : End → Bool) (c : Fin 8) (s : State) :
    FreeGrows s (closeEndsOn x test c s) := by
  have step : ∀ (b : Bool) role t, FreeGrows s t → FreeGrows s (if b then (closeEnd x c role t).1 else t) := by
    intro b role t h
    split
    · exact h.trans (freeGrows_closeEnd x c role t)
    · exact h
  exact step _ .receive _ (step _ .send s (fun _ h => h))

/-- R15: the close of the last end frees the blocks of the messages. -/
theorem freed_closeEnd {x : Station} {c : Fin 8} {role : Role} {s : State}
    (h : endHeld (endOf role.other (chanOf c s)) = false) {b : Fin 256} (hb : b ∈ blocksOf (chanOf c s).queue) :
    b ∈ (closeEnd x c role s).1.store.freePool := by
  rw [closeEnd_of_last h, becomeClosed_frame, setChan_store]
  refine mem_freeBlocks.mpr (.inl ?_)
  rw [chanOf_releaseEnd_self, releasedChannel_blocks]
  exact hb

/-! ### A channel of which the station holds one end -/

/-- R3: the station does not hold both ends. -/
def NotBoth (x : Station) (ch : Channel) : Prop := holdsEnd x ch.sender = false ∨ holdsEnd x ch.receiver = false

theorem NotBoth.other {x : Station} {ch : Channel} (h : NotBoth x ch) {role : Role}
    (hr : holdsEnd x (endOf role ch) = true) : holdsEnd x (endOf role.other ch) = false := by
  cases role with
  | send => exact h.resolve_left (by simpa [endOf] using hr)
  | receive => exact h.resolve_right (by simpa [endOf] using hr)

/-- With no other end of the station, the close of the ends is the close of the picked one. -/
theorem closeEndsOn_of_picked {x : Station} {test : End → Bool} {c : Fin 8} {role : Role} {s : State}
    (hb : NotBoth x (chanOf c s)) (hp : picked x test role (chanOf c s) = true) :
    closeEndsOn x test c s = (closeEnd x c role s).1 := by
  have hr : holdsEnd x (endOf role (chanOf c s)) = true := (Bool.and_eq_true _ _ ▸ hp).1
  have ho := hb.other hr
  rw [closeEndsOn_eq, shutSender]
  cases role with
  | send =>
    simp only [hp, if_true]
    have gone : picked x test .receive (chanOf c (closeEnd x c .send s).1) = false := by
      rw [picked, chanOf_closeEnd_self]
      rcases endOf_shutChannel_other (stagingOn x c s) .send (chanOf c s) with k | k <;>
        simp only [Role.other] at k ho <;> rw [k]
      · rw [ho, Bool.false_and]
      · rfl
    rw [gone]; rfl
  | receive =>
    have hs : picked x test .send (chanOf c s) = false := by
      rw [picked, show holdsEnd x (endOf .send (chanOf c s)) = false from ho, Bool.false_and]
    simp [hs, hp]

theorem closeEndsOn_of_none {x : Station} {test : End → Bool} {c : Fin 8} {s : State}
    (hp : ∀ role, picked x test role (chanOf c s) = false) : closeEndsOn x test c s = s := by
  rw [closeEndsOn_eq, shutSender]
  simp [hp]

/-- The channel after the close of the picked end. -/
theorem shutEnds_of_picked {x : Station} {test : End → Bool} {role : Role} {r : Option Staging} {ch : Channel}
    (hb : NotBoth x ch) (hp : picked x test role ch = true) : shutEnds x test r ch = shutChannel r role ch := by
  have hr : holdsEnd x (endOf role ch) = true := (Bool.and_eq_true _ _ ▸ hp).1
  have ho := hb.other hr
  cases role with
  | send =>
    have gone : picked x test .receive (shutChannel r .send ch) = false := by
      rw [picked]
      rcases endOf_shutChannel_other r .send ch with k | k <;> simp only [Role.other] at k ho <;> rw [k]
      · rw [ho, Bool.false_and]
      · rfl
    simp [shutEnds, shutEnd, hp, gone]
  | receive =>
    have hs : picked x test .send ch = false := by
      rw [picked, show holdsEnd x (endOf .send ch) = false from ho, Bool.false_and]
    simp [shutEnds, shutEnd, hp, hs, shutChannel_receive r]

/-- R14: the roles whose close the other end's holder is told of. -/
def toldRoles (x : Station) (test : End → Bool) (ch : Channel) : List Role :=
  [Role.send, Role.receive].filter fun role => picked x test role ch && endHeld (endOf role.other ch)

/-- R14: what the peer is told of the closes on a channel. -/
def closeNotices (x : Station) (test : End → Bool) (c : Fin 8) (ch : Channel) : List Notice :=
  (toldRoles x test ch).map (.channelClosed c)

theorem told_closeEnd (x : Station) (c : Fin 8) (role : Role) (s : State) :
    Told x.peer s (closeEnd x c role s).1
      (if endHeld (endOf role.other (chanOf c s)) = true then [.channelClosed c role] else []) := by
  split
  · rename_i h
    have hu : Told x.peer s (closedBefore x c role s) [] :=
      .of_unit (by rw [closedBefore_frame, unitOf_setChan, unitOf_releaseEnd_peer])
    rw [closeEnd_of_held h]
    exact hu.trans (told_offer _ ⟨rfl, fun _ => rfl⟩)
  · rename_i h
    rw [closeEnd_of_last (by simpa using h)]
    exact .of_unit (by rw [becomeClosed_frame, unitOf_setChan, unitOf_setStore, unitOf_releaseEnd_peer])

/-- The other end of a picked one is not picked. -/
theorem not_picked_other {x : Station} {test : End → Bool} {role : Role} {ch : Channel} (hb : NotBoth x ch)
    (hp : picked x test role ch = true) : picked x test role.other ch = false := by
  rw [picked, hb.other (Bool.and_eq_true _ _ ▸ hp).1, Bool.false_and]

theorem toldRoles_of_picked {x : Station} {test : End → Bool} {role : Role} {ch : Channel} (hb : NotBoth x ch)
    (hp : picked x test role ch = true) :
    toldRoles x test ch = if endHeld (endOf role.other ch) = true then [role] else [] := by
  have ho := not_picked_other hb hp
  unfold toldRoles
  cases role <;> simp only [Role.other] at ho <;> cases he : endHeld (endOf _ ch) <;> simp [hp, ho, he]

theorem told_closeEndsOn {x : Station} {test : End → Bool} {c : Fin 8} {s : State} (hb : NotBoth x (chanOf c s)) :
    Told x.peer s (closeEndsOn x test c s) (closeNotices x test c (chanOf c s)) := by
  unfold closeNotices
  by_cases hp : ∃ role, picked x test role (chanOf c s) = true
  · obtain ⟨role, hp⟩ := hp
    have told := told_closeEnd x c role s
    rw [closeEndsOn_of_picked hb hp, toldRoles_of_picked hb hp]
    split <;> rename_i h
    · rwa [if_pos h] at told
    · rwa [if_neg h] at told
  · have hp : ∀ role, picked x test role (chanOf c s) = false := fun role => by
      simpa using not_exists.mp hp role
    rw [closeEndsOn_of_none hp]
    simpa [toldRoles, hp] using Told.of_unit rfl

/-- R14: what the peer is told of the closes of all channels, taken in the order of a free value. -/
def allCloseNotices (x : Station) (test : End → Bool) (n : Nat) (s : State) : List Notice :=
  (channelOrder n).flatMap fun c => closeNotices x test c (chanOf c s)

theorem mem_allCloseNotices {x : Station} {test : End → Bool} {n : Nat} {s : State} {m : Notice} :
    m ∈ allCloseNotices x test n s ↔ ∃ (c : Fin 8) (role : Role), m = .channelClosed c role ∧
      picked x test role (chanOf c s) = true ∧ endHeld (endOf role.other (chanOf c s)) = true := by
  have hrole : ∀ role : Role, role = .send ∨ role = .receive := fun role => by cases role <;> simp
  simp only [allCloseNotices, closeNotices, toldRoles, List.mem_flatMap, List.mem_map, List.mem_filter,
    Bool.and_eq_true, List.mem_cons, List.not_mem_nil, or_false, mem_channelOrder, true_and, hrole]
  exact ⟨fun ⟨c, role, h, e⟩ => ⟨c, role, e.symm, h⟩, fun ⟨c, role, e, h⟩ => ⟨c, role, h, e.symm⟩⟩

theorem nodup_allCloseNotices (x : Station) (test : End → Bool) (n : Nat) (s : State) :
    (allCloseNotices x test n s).Nodup := by
  refine List.nodup_flatMap.mpr ⟨fun c _ => ?_, (channelOrder_nodup n).imp fun {c d} hcd => ?_⟩
  · refine List.Nodup.map (fun a b h => ?_) (List.Nodup.filter _ (by decide))
    simpa using h
  · intro m hm hm'
    obtain ⟨r, -, rfl⟩ := List.mem_map.mp hm
    obtain ⟨r', -, h⟩ := List.mem_map.mp hm'
    exact hcd (by injection h.symm)

/-- R14, R18: the peer is told of the closes of all channels, and of nothing else. -/
theorem told_closeAll {x : Station} (test : End → Bool) (n : Nat) {s : State} (hb : ∀ c, NotBoth x (chanOf c s)) :
    Told x.peer s ((channelOrder n).foldl (fun t c => closeEndsOn x test c t) s) (allCloseNotices x test n s) :=
  foldl_yields (f := fun t c => closeEndsOn x test c t) (R := Told x.peer) (fun _ => .of_unit rfl)
    (fun h k => h.trans k)
    chanOf (fun c => chanOf c s) (fun t c h => by rw [← h]; exact told_closeEndsOn (by rw [h]; exact hb c))
    (fun t _ _ h => (closeEndsOn_off t h).1) (channelOrder_nodup n) (fun _ _ => rfl)

/-- R15: the closes of all channels free the messages' blocks where no end is left. -/
theorem freed_closeAll {x : Station} {test : End → Bool} {n : Nat} {c : Fin 8} {role : Role} {s : State}
    (hb : NotBoth x (chanOf c s)) (hp : picked x test role (chanOf c s) = true)
    (ho : endHeld (endOf role.other (chanOf c s)) = false) {b : Fin 256} (hm : b ∈ blocksOf (chanOf c s).queue) :
    b ∈ ((channelOrder n).foldl (fun t c => closeEndsOn x test c t) s).store.freePool := by
  obtain ⟨t, -, hv, hr⟩ := foldl_reaches (f := fun t c => closeEndsOn x test c t) (R := FreeGrows) (fun _ _ h => h)
    (fun h k => h.trans k) (fun t c => freeGrows_closeEndsOn x test c t) chanOf
    (fun t _ _ h => (closeEndsOn_off t h).1) (channelOrder_nodup n) (mem_channelOrder n c) s
  rw [← hv] at hb hp ho hm
  refine hr b ?_
  rw [closeEndsOn_of_picked hb hp]
  exact freed_closeEnd ho hm

theorem freeGrows_closeAll (x : Station) (test : End → Bool) (l : List (Fin 8)) (s : State) :
    FreeGrows s (l.foldl (fun t c => closeEndsOn x test c t) s) :=
  foldl_keeps (P := FreeGrows s) l (fun c _ t h => h.trans (freeGrows_closeEndsOn x test c t)) fun _ h => h

/-! ### The staging record of a departing station, on its channel -/

theorem chanOf_abandonStaging_ne (x : Station) {r : Staging} {c : Fin 8} (s : State) (hc : c ≠ r.channel) :
    chanOf c (abandonStaging x r s) = chanOf c s := by
  have hdrop : chanOf c (dropStaging x r s) = chanOf c s := by
    rw [dropStaging_frame, chanOf_setUnit, chanOf_setChan_ne _ _ hc, chanOf_setStore]
  rw [abandonStaging, ← hdrop]
  rcases evalCongestion_cases r.channel (dropStaging x r s) with k | ⟨v, k | ⟨y, k⟩⟩ <;> rw [k]
  · rw [chanOf_setChan_ne _ _ hc]
  · rw [chanOf_offer, chanOf_setChan_ne _ _ hc]

theorem chanOf_offerFlow (c d : Fin 8) (v : Bool) (s : State) : chanOf d (offerFlow c v s) = chanOf d s := by
  unfold offerFlow
  split
  · rfl
  · exact chanOf_offer _ _ _ _

/-- R19: the flag after an evaluation is the flip's, or stays. -/
theorem congestionFlip_getD {ch : Channel} {p : Params} (hp : ch.params = some p) :
    (congestionFlip p (occupancy ch) ch.congested).getD ch.congested = congestionAfter ch := by
  unfold congestionFlip congestionAfter
  rw [hp]
  cases ch.congested
  · by_cases h : p.high ≤ occupancy ch <;> simp [h]
  · by_cases h : p.low < occupancy ch
    · simp [h, Nat.not_le.mpr h]
    · simp [h, Nat.not_lt.mp h]

/-- R19: what an evaluation makes of its channel. -/
theorem chanOf_evalCongestion_self (c : Fin 8) (s : State) :
    chanOf c (evalCongestion c s) = { chanOf c s with congested := congestionAfter (chanOf c s) } := by
  cases hp : (chanOf c s).params with
  | none =>
    have hsame : congestionAfter (chanOf c s) = (chanOf c s).congested := by simp [congestionAfter, hp]
    rw [show evalCongestion c s = s by simp [evalCongestion, hp], hsame]
  | some p =>
    have hafter := congestionFlip_getD hp
    cases hf : congestionFlip p (occupancy (chanOf c s)) (chanOf c s).congested with
    | none =>
      rw [hf, Option.getD_none] at hafter
      rw [evalCongestion_of_noFlip hp hf, ← hafter]
    | some v =>
      rw [hf, Option.getD_some] at hafter
      rw [evalCongestion_of_flip hp hf, chanOf_offerFlow, chanOf_setChan_self, hafter]

/-- R47: what the abandonment of a staging record makes of its channel. -/
def abandonedChannel (r : Staging) (ch : Channel) : Channel :=
  { withoutStaging (some r) ch with congested := congestionAfter (withoutStaging (some r) ch) }

theorem chanOf_abandonStaging_self (x : Station) (r : Staging) (s : State) :
    chanOf r.channel (abandonStaging x r s) = abandonedChannel r (chanOf r.channel s) := by
  have hdrop : chanOf r.channel (dropStaging x r s) = withoutStaging (some r) (chanOf r.channel s) := by
    rw [dropStaging_frame, chanOf_setUnit, chanOf_setChan_self]
  rw [abandonStaging, chanOf_evalCongestion_self, hdrop, abandonedChannel]

theorem foldl_abandonStaging_off {x : Station} {c : Fin 8} {l : List Staging} (h : ∀ r ∈ l, r.channel ≠ c) (s : State) :
    chanOf c (l.foldl (fun t r => abandonStaging x r t) s) = chanOf c s :=
  foldl_keeps (P := fun t => chanOf c t = chanOf c s) l
    (fun r hr t ht => (chanOf_abandonStaging_ne x t fun e => h r hr e.symm).trans ht) rfl

/-- R47: of several records of which one alone is on the channel, that one's abandonment is seen there. -/
theorem foldl_abandonStaging_at {x : Station} {r : Staging} {l : List Staging}
    (hone : (l.filter fun t => t.channel == r.channel) = [r]) (s : State) :
    chanOf r.channel (l.foldl (fun t r => abandonStaging x r t) s) = abandonedChannel r (chanOf r.channel s) := by
  have hr : r ∈ l := (List.mem_filter.mp (hone ▸ List.mem_singleton_self r)).1
  obtain ⟨l1, l2, rfl⟩ := List.append_of_mem hr
  have hcount := congrArg List.length hone
  simp only [List.filter_append, List.filter_cons, beq_self_eq_true, if_true, List.length_append, List.length_cons,
    List.length_nil] at hcount
  have off : ∀ l : List Staging, (l.filter fun t => t.channel == r.channel).length = 0 → ∀ t ∈ l,
      t.channel ≠ r.channel := by
    intro l h t ht hc
    have hmem : t ∈ l.filter fun t => t.channel == r.channel :=
      List.mem_filter.mpr ⟨ht, by rw [hc]; exact beq_self_eq_true _⟩
    rw [List.length_eq_zero_iff.mp h] at hmem
    exact absurd hmem List.not_mem_nil
  rw [List.foldl_append, List.foldl_cons, foldl_abandonStaging_off (off l2 (by omega)), chanOf_abandonStaging_self,
    foldl_abandonStaging_off (off l1 (by omega))]

theorem filter_reverse_singleton {α : Type} {p : α → Bool} {l : List α} {a : α} (h : l.filter p = [a]) :
    l.reverse.filter p = [a] := by
  rw [List.filter_reverse, h]; rfl

/-- R133 step 3: the channel of a staging record that is the station's only one there. -/
theorem chanOf_departStaging_of_one {x : Station} {r : Staging} {s : State}
    (hone : ((unitOf x s).staging.filter fun t => t.channel == r.channel) = [r]) :
    chanOf r.channel (departStaging x s) = abandonedChannel r (chanOf r.channel s) := by
  unfold departStaging
  split
  · rename_i h; rw [h] at hone; cases hone
  · rename_i q h
    rw [h] at hone
    exact foldl_abandonStaging_at (l := [q]) hone s
  · split
    · exact foldl_abandonStaging_at (filter_reverse_singleton hone) _
    · exact foldl_abandonStaging_at hone _

/-- R47, R133: the abandoned records' blocks are free. -/
theorem freed_departStaging {x : Station} {r : Staging} {s : State} (hr : r ∈ (unitOf x s).staging) {b : Fin 256}
    (hb : b ∈ r.blocks) : b ∈ (departStaging x s).store.freePool := by
  have drop : ∀ t : State, b ∈ (abandonStaging x r t).store.freePool := by
    intro t
    rw [abandonStaging, evalCongestion_store, dropStaging_frame]
    exact mem_freeBlocks.mpr (.inl hb)
  have fold : ∀ (l : List Staging) (t : State), r ∈ l →
      b ∈ (l.foldl (fun t r => abandonStaging x r t) t).store.freePool := by
    intro l t hl
    obtain ⟨l1, l2, rfl⟩ := List.append_of_mem hl
    rw [List.foldl_append, List.foldl_cons]
    exact foldl_keeps (P := fun t => b ∈ t.store.freePool) l2 (fun q _ t ht => freeGrows_abandonStaging x q t b ht)
      (drop _)
  unfold departStaging
  split
  · rename_i h; rw [h] at hr; cases hr
  · rename_i q h
    rw [h] at hr
    exact fold [q] s hr
  · refine fold _ _ ?_
    split
    · exact List.mem_reverse.mpr hr
    · exact hr

end Sys2Proof.Machine
end

section
/-!
PROOFS. LEAVE: the statement settled (R14, R15, R17, R103, R127, R133).
-/

namespace Sys2Proof.Machine

/-! ### What the channel law says of one station -/

theorem ChannelOk.notBoth {c : Fin 8} {s : State} (h : ChannelOk c s) (x : Station) : NotBoth x (chanOf c s) := by
  obtain ⟨h1, _⟩ := h
  unfold NotBoth
  rw [holdsEnd_eq_false, holdsEnd_eq_false]
  rcases h1 with h1 | h1
  · exact .inl (by rw [h1]; exact Option.some_ne_none x |>.symm)
  · by_cases hs : (chanOf c s).sender.holder = some x
    · exact .inr (fun hr => h1 (hs.trans hr.symm))
    · exact .inl hs

theorem ChannelOk.holdsSender {c : Fin 8} {s : State} (h : ChannelOk c s) {x : Station} {r : Staging}
    (hr : r ∈ (unitOf x s).staging) (hc : r.channel = c) : holdsActive x (chanOf c s).sender = true := by
  obtain ⟨_, _, _, _, _, _, _, ha, hb⟩ := h
  cases x
  · exact ha r hr hc
  · exact hb r hr hc

theorem stagingRecords_eq (c : Fin 8) (s : State) :
    stagingRecords c s = ((unitOf .a s).staging.filter fun r => r.channel == c) ++
      (unitOf .b s).staging.filter fun r => r.channel == c := List.filter_append _ _

theorem ChannelOk.one {c : Fin 8} {s : State} (h : ChannelOk c s) {x : Station} {r : Staging}
    (hr : r ∈ (unitOf x s).staging) (hc : r.channel = c) :
    ((unitOf x s).staging.filter fun t => t.channel == c) = [r] := by
  obtain ⟨_, _, _, _, _, _, hone, _, _⟩ := h
  have hmem : r ∈ (unitOf x s).staging.filter fun t => t.channel == c :=
    List.mem_filter.mpr ⟨hr, by rw [hc]; exact beq_self_eq_true _⟩
  have hlen : ((unitOf x s).staging.filter fun t => t.channel == c).length ≤ 1 := by
    rw [stagingRecords_eq, List.length_append] at hone
    cases x <;> omega
  obtain ⟨q, hq⟩ := List.length_eq_one_iff.mp (le_antisymm hlen (List.length_pos_of_mem hmem))
  rw [hq, List.mem_singleton] at hmem
  rw [hq, hmem]

theorem ChannelLaw.notBoth {s : State} (h : ChannelLaw s) (x : Station) (c : Fin 8) : NotBoth x (chanOf c s) :=
  (h c).notBoth x

/-! ### The reply of LEAVE goes before the last steps -/

theorem setUnit_setLink (x y : Station) (u : StationUnit) (l : LinkInterface) (s : State) :
    setUnit x u (setLink y l s) = setLink y l (setUnit x u s) := rfl

theorem offerFault_setLink (x y : Station) (k : FaultKind) (n : Nat) (l : LinkInterface) (s : State) :
    offerFault x k n (setLink y l s) = setLink y l (offerFault x k n s) := by
  unfold offerFault
  rw [isPresent_setLink]
  split <;> rfl

theorem markSevere_setLink (x y : Station) (l : LinkInterface) (s : State) :
    markSevere x (setLink y l s) = setLink y l (markSevere x s) := by
  unfold markSevere
  rw [setLink_severe]
  split <;> rfl

/-- A fault neither sees nor changes a link. -/
theorem recordFault_setLink (x y : Station) (k : FaultKind) (i : CaptureInfo) (l : LinkInterface) (s : State) :
    recordFault x k i (setLink y l s) = setLink y l (recordFault x k i s) := by
  unfold recordFault
  simp only [unitOf_setLink, setLink_timeBase, setUnit_setLink, offerFault_setLink, isPresent_setLink,
    markSevere_setLink, apply_ite (setLink y l)]

/-- An offer neither sees nor changes a link. -/
theorem offer_setLink (x y : Station) (n : Notice) (l : LinkInterface) (s : State) :
    offer x n (setLink y l s) = setLink y l (offer x n s) := by
  unfold offer setNotices
  simp only [unitOf_setLink, isPresent_setLink, setUnit_setLink, recordFault_setLink, apply_ite (setLink y l)]

theorem departUnit_transmit (x y : Station) (cause : Cause) (f : OutFrame) (d : Bool) (s : State) :
    departUnit x cause (transmit y f d s) = transmit y f d (departUnit x cause s) := by
  rw [departUnit_eq, departUnit_eq, unitOf_transmit]
  have h : clearedState x cause (transmit y f d s) = transmit y f d (clearedState x cause s) := rfl
  rw [h]
  unfold transmit
  simp only [offer_setLink, linkOf_offer, offer_straps]

/-! ### What LEAVE counts -/

/-- The ends and the leases of the station are what they were before the first steps. -/
theorem endsHeld_departFirst (x : Station) (s : State) : endsHeld x (departFirst x s) = endsHeld x s := by
  have h : ∀ c, SameButAccounts (chanOf c s) (chanOf c (departFirst x s)) := fun c =>
    sameButAccounts_departStaging x c (stopDraw x s)
  have hs : ∀ c, (chanOf c (departFirst x s)).sender = (chanOf c s).sender := fun c => by rw [h c]
  have hr : ∀ c, (chanOf c (departFirst x s)).receiver = (chanOf c s).receiver := fun c => by rw [h c]
  simp only [endsHeld, hs, hr]

theorem leasesHeld_departEnds (x : Station) (cause : Cause) (s : State) :
    leasesHeld x (departEnds x cause (departFirst x s)) = leasesHeld x s := by
  simp only [leasesHeld, leaseOf_departEnds]

theorem endsHeld_depart_left (x : Station) (s : State) : endsHeld x (depart x .left s) = 0 := by
  have h : ∀ c role, holdsEnd x (endOf role (chanOf c (depart x .left s))) = false := by
    intro c role
    rw [chanOf_depart, chanOf_departEnds_left]
    exact holdsEnd_shutEnds x _ _ role
  have hs : ∀ c, holdsEnd x (chanOf c (depart x .left s)).sender = false := fun c => h c .send
  have hr : ∀ c, holdsEnd x (chanOf c (depart x .left s)).receiver = false := fun c => h c .receive
  simp [endsHeld, hs, hr]

/-- R127: what the owner of LEAVE leaves. -/
theorem ownerLeave_eq (x : Station) (f : Frame) (s : State) :
    ownerLeave x f s = .finished (transmit x
      (replyFrame f .ok (halfBytes (unitOf x s).record.epoch ++ [byteOf (endsHeld x s), byteOf (leasesHeld x s)]))
      false (depart x .left s)) := by
  unfold ownerLeave
  simp only [endsHeld_departFirst, leasesHeld_departEnds, departUnit_transmit]
  rfl

theorem Advisory.stopDraw {x : Station} {s : State} (h : Advisory s) : Advisory (stopDraw x s) := by
  rw [stopDraw_frame]
  exact Advisory.of_setUnit (by rw [unitOf_setLink]) (Advisory.of_units rfl h)

theorem Advisory.departed {x : Station} {cause : Cause} {s : State} (h : Advisory s) :
    Advisory (departed x cause s) := by
  have hset : Advisory (setUnit x (clearUnit cause (unitOf x (departOwners x cause s))) (departOwners x cause s)) :=
    Advisory.of_setUnit (by unfold clearUnit; rfl) ((departOwners_sheltered x cause s).advisory h.stopDraw).1
  exact Advisory.of_units (by rfl) hset

theorem Advisory.depart {x : Station} {cause : Cause} {s : State} (h : Advisory s) : Advisory (depart x cause s) := by
  rw [depart_eq_offer]
  exact Advisory.offer h.departed

/-- R132: while no kind is SEVERE, a departure makes no station depart. -/
theorem depart_severe {x : Station} (cause : Cause) {s : State} (ha : Advisory s) (hs : s.severe = []) :
    (depart x cause s).severe = [] := by
  rw [depart_eq_offer, offer_severe (ha.departed.at _), Machine.departed, clearedState, setSevere_severe,
    ((departOwners_sheltered x cause s).advisory ha.stopDraw).2]
  simp [stopDraw_frame, hs]

/-- A request of a PRESENT station whose owner hands over its frames itself. -/
theorem runRequest_finished {α : Type} {x : Station} {f : Frame} {handler : Frame → State → State}
    {check : List Byte → Except Status α} {owner : α → State → Handled} {s t : State} {a : α} (hr : Ready x f s)
    (hp : isPresent x s = true) (hh : ∀ t, handler f t = handleKnown x f check owner t) (hc : check f.payload = .ok a)
    (ho : owner a (restartKeepalive x s) = .finished t) (ht : t.severe = []) : runRequest x f handler s = t := by
  have handled : handler f (restartKeepalive x s) = t := by
    rw [hh]
    unfold handleKnown dispatch
    simp [hr.2, hp, hc, ho]
  rw [runRequest_taken hr.1, handled, settle_nil ht]

/-- A LEAVE that is taken at once. -/
theorem exec_leave {x : Station} {tag : Byte} {s : State} (hr : Ready x (requestFrame 0x02 tag []) s) (ha : Advisory s)
    (hp : isPresent x s = true) :
    exec (.leave x tag []) s = .next (transmit x
      (replyFrame (requestFrame 0x02 tag []) .ok
        (halfBytes (unitOf x s).record.epoch ++ [byteOf (endsHeld x s), byteOf (leasesHeld x s)]))
      false (depart x .left (restartKeepalive x s))) := by
  have hepoch : (unitOf x (restartKeepalive x s)).record.epoch = (unitOf x s).record.epoch := by simp
  have hleases : leasesHeld x (restartKeepalive x s) = leasesHeld x s := by simp [leasesHeld]
  have owner := ownerLeave_eq x (requestFrame 0x02 tag []) (restartKeepalive x s)
  rw [hepoch, hleases, endsHeld_restartKeepalive] at owner
  refine congrArg Host.Outcome.next (runRequest_finished (check := emptyCheck)
    (owner := fun _ t => ownerLeave x (requestFrame 0x02 tag []) t) hr hp (fun _ => rfl) rfl owner ?_)
  rw [transmit_severe]
  exact depart_severe .left ha.restartKeepalive (by simp [hr.severe])

/-! ### The channels after a LEAVE -/

section

variable {x : Station} {c : Fin 8} {s : State}

/-- The channel after the station's staging records are gone. -/
theorem chanOf_departFirst_of_none (h : stagingOn x c s = none) : chanOf c (departFirst x s) = chanOf c s := by
  have hst : stagingOn x c (stopDraw x s) = none := by rw [stagingOn, unitOf_stopDraw]; exact h
  rw [departFirst, chanOf_departStaging_of_none hst, chanOf_stopDraw]

theorem chanOf_departFirst_of_some (hc : ChannelOk c s) {r : Staging} (hr : stagingOn x c s = some r) :
    chanOf c (departFirst x s) = abandonedChannel r (chanOf c s) := by
  have hcr : r.channel = c := Kept.stagingOn_channel hr
  have hone := hc.one (stagingOn_mem hr) hcr
  subst hcr
  rw [departFirst, chanOf_departStaging_of_one (by rw [unitOf_stopDraw]; exact hone), chanOf_stopDraw]

theorem sameButAccounts_departFirst (x : Station) (c : Fin 8) (s : State) :
    SameButAccounts (chanOf c s) (chanOf c (departFirst x s)) := sameButAccounts_departStaging x c (stopDraw x s)

theorem endOf_departFirst (x : Station) (c : Fin 8) (s : State) (role : Role) :
    endOf role (chanOf c (departFirst x s)) = endOf role (chanOf c s) := by
  rw [sameButAccounts_departFirst x c s]
  cases role <;> rfl

theorem stagingOn_departFirst (x : Station) (c : Fin 8) (s : State) : stagingOn x c (departFirst x s) = none := by
  rw [stagingOn, departFirst, staging_departStaging]
  rfl

/-- R14, R17: a channel of which the station held this end alone. -/
theorem chanOf_depart_left {role : Role} (h : (endOf role (chanOf c s)).holder = some x)
    (hb : NotBoth x (chanOf c s)) :
    chanOf c (depart x .left s) = shutChannel none role (chanOf c (departFirst x s)) := by
  have hp : picked x (fun _ => true) role (chanOf c (departFirst x s)) = true := by
    rw [picked, endOf_departFirst, holdsEnd_iff.mpr h]; rfl
  have hb' : NotBoth x (chanOf c (departFirst x s)) := by
    have hs := endOf_departFirst x c s .send
    have hr := endOf_departFirst x c s .receive
    simp only [endOf] at hs hr
    rwa [NotBoth, hs, hr]
  rw [chanOf_depart, chanOf_departEnds_left, stagingOn_departFirst, shutEnds_of_picked hb' hp]

theorem shutChannel_of_held {r : Option Staging} {role : Role} {ch : Channel}
    (h : endHeld (endOf role.other ch) = true) :
    shutChannel r role ch = closedChannel r role ch := if_pos h

theorem shutChannel_of_free {r : Option Staging} {role : Role} {ch : Channel}
    (h : endHeld (endOf role.other ch) = false) : shutChannel r role ch = resetChannel := by
  rw [shutChannel, h]; rfl

theorem store_depart (x : Station) (cause : Cause) (s : State) :
    (depart x cause s).store = (departEnds x cause (departFirst x s)).store := by
  rw [depart_eq_offer, offer_store, departed, clearedState, setSevere_store, setUnit_store, departOwners,
    (channelsSame_departLeases x _).2.1]

/-- R15, R127: the messages of a channel that becomes CLOSED free their blocks. -/
theorem freed_depart_left {role : Role} (h : (endOf role (chanOf c s)).holder = some x) (hb : NotBoth x (chanOf c s))
    (ho : endHeld (endOf role.other (chanOf c s)) = false) {b : Fin 256} (hm : b ∈ blocksOf (chanOf c s).queue) :
    b ∈ (depart x .left s).store.freePool := by
  have hs := endOf_departFirst x c s .send
  have hr := endOf_departFirst x c s .receive
  simp only [endOf] at hs hr
  have same : ∀ n, chanOf c { departFirst x s with freeTick := n } = chanOf c (departFirst x s) := fun _ => rfl
  rw [store_depart]
  refine freed_closeAll (c := c) (role := role) ?_ ?_ ?_ ?_
  · rw [NotBoth, same, hs, hr]; exact hb
  · rw [picked, same, endOf_departFirst, holdsEnd_iff.mpr h]; rfl
  · rw [same, endOf_departFirst, ho]
  · rw [same, sameButAccounts_departFirst x c s]; exact hm

/-- R47, R127: the abandoned records free their blocks. -/
theorem freed_staging_depart_left {r : Staging} (hr : r ∈ (unitOf x s).staging) {b : Fin 256} (hb : b ∈ r.blocks) :
    b ∈ (depart x .left s).store.freePool := by
  rw [store_depart]
  refine freeGrows_closeAll x _ _ _ b ?_
  exact freed_departStaging (by rw [unitOf_stopDraw]; exact hr) hb

end

end Sys2Proof.Machine
end

section
/-!
PROOFS. LEAVE: the statement itself (R14, R15, R17, R103, R127, R133).
-/

namespace Sys2Proof.Machine

theorem stagingRecords_of_same {c : Fin 8} {s t : State} (hst : ∀ y, (unitOf y t).staging = (unitOf y s).staging) :
    stagingRecords c t = stagingRecords c s := by
  rw [stagingRecords, hst, hst, stagingRecords]

/-- The accounts of a channel depend on it and on the staging records alone. -/
theorem ChannelOk.of_same {c : Fin 8} {s t : State} (hc : chanOf c t = chanOf c s)
    (hst : ∀ y, (unitOf y t).staging = (unitOf y s).staging) (h : ChannelOk c s) : ChannelOk c t := by
  unfold ChannelOk
  rw [hc, stagingRecords_of_same hst, hst, hst]
  exact h

/-- R14, R17, R19: the channel after a LEAVE of the sender, with a staging record on it. -/
theorem chanOf_depart_left_staged {x : Station} {c : Fin 8} {s : State} {r : Staging} {p : Params}
    (hc : ChannelOk c s) (hx : (chanOf c s).sender.holder = some x) (hy : endHeld (chanOf c s).receiver = true)
    (hr : stagingOn x c s = some r) (hp : (chanOf c s).params = some p) :
    chanOf c (depart x .left s) =
      { chanOf c s with
        sender := resetEnd, reserved := 0, charged := (chanOf c s).charged - r.blocks.length
        congested :=
          if (chanOf c s).congested = true then decide (p.low < (chanOf c s).queue.length)
          else decide (p.high ≤ (chanOf c s).queue.length) } := by
  have hheld : endHeld (endOf Role.send.other (chanOf c (departFirst x s))) = true := by
    rw [endOf_departFirst]; exact hy
  rw [chanOf_depart_left (role := .send) hx (hc.notBoth x), shutChannel_of_held hheld,
    chanOf_departFirst_of_some hc hr]
  simp [closedChannel, releasedChannel, abandonedChannel, congestionAfter, hp, occupancy]

/-- R14, R17: the channel after a LEAVE of the sender, without a staging record. -/
theorem chanOf_depart_left_sender {x : Station} {c : Fin 8} {s : State} (hb : NotBoth x (chanOf c s))
    (hx : (chanOf c s).sender.holder = some x) (hy : endHeld (chanOf c s).receiver = true)
    (hr : stagingOn x c s = none) : chanOf c (depart x .left s) = { chanOf c s with sender := resetEnd } := by
  have hheld : endHeld (endOf Role.send.other (chanOf c s)) = true := hy
  rw [chanOf_depart_left (role := .send) hx hb, chanOf_departFirst_of_none hr, shutChannel_of_held hheld]
  rfl

/-- R14, R17: the channel after a LEAVE of the receiver. -/
theorem chanOf_depart_left_receiver {x : Station} {c : Fin 8} {s : State} (hb : NotBoth x (chanOf c s))
    (hx : (chanOf c s).receiver.holder = some x) (hy : endHeld (chanOf c s).sender = true)
    (hr : stagingOn x c s = none) :
    chanOf c (depart x .left s) =
      { chanOf c s with
        receiver := resetEnd, arrivalOption := false, queue := (chanOf c s).queue.map returnMessage } := by
  have hheld : endHeld (endOf Role.receive.other (chanOf c s)) = true := hy
  rw [chanOf_depart_left (role := .receive) hx hb, chanOf_departFirst_of_none hr, shutChannel_of_held hheld]
  rfl

/-- R15, R17: the channel after a LEAVE of the one holder. -/
theorem chanOf_depart_left_last {x : Station} {c : Fin 8} {role : Role} {s : State} (hb : NotBoth x (chanOf c s))
    (hx : (endOf role (chanOf c s)).holder = some x) (hy : (endOf role.other (chanOf c s)).holder = none) :
    chanOf c (depart x .left s) = resetChannel ∧
      ∀ m ∈ (chanOf c s).queue, ∀ b ∈ m.blocks, b ∈ (depart x .left s).store.freePool := by
  have hfree : endHeld (endOf role.other (chanOf c s)) = false := endHeld_of_free hy
  refine ⟨?_, fun m hm b hb' => freed_depart_left hx hb hfree (List.mem_flatMap.mpr ⟨m, hm, hb'⟩)⟩
  rw [chanOf_depart_left hx hb, shutChannel_of_free (by rw [endOf_departFirst, hfree])]

/-- R99, R103: what the peer is told of an entry, as R127's statement writes it. -/
theorem revokeNotices_eq (x : Station) (e : Fin 16) (l : LeaseEntry) :
    revokeNotices x e l =
      if heldBy x l = false then []
      else if l.fence = 0xFFFFFFFF then
        (l.waiters.filter fun w => w.station == x.peer).map fun w => .leaseWaitExpired e w.client
      else ((l.waiters.filter fun w => w.station == x.peer).take 1).map fun w =>
        .leaseGranted e w.client (l.fence + 1) w.duration := by
  rw [revokeNotices, revokedWaiters_eq, handOnNotice_eq]
  cases heldBy x l
  · rfl
  · by_cases hf : l.fence = 0xFFFFFFFF
    · simp only [hf, if_true, Bool.true_eq_false, if_false]
    · simp only [hf, if_true, Bool.true_eq_false, if_false]

theorem allCloseNotices_of_ends {x : Station} {test : End → Bool} {n : Nat} {s t : State}
    (h : ∀ c role, endOf role (chanOf c t) = endOf role (chanOf c s)) :
    allCloseNotices x test n t = allCloseNotices x test n s := by
  simp only [allCloseNotices, closeNotices, toldRoles, picked, h]

/-- R14, R103, R133: what the peer of a station that leaves is told. -/
theorem told_depart_left {x : Station} {s : State} (h : ChannelLaw s) :
    ∃ n, Told x.peer s (depart x .left s)
      (allCloseNotices x (fun _ => true) n s ++
        allEntries.flatMap (fun e => revokeNotices x e (leaseOf e s)) ++
        [.peerDeparted .left (unitOf x s).record.epoch]) := by
  have hst : ∀ r ∈ (unitOf x s).staging, holdsEnd x (chanOf r.channel s).sender = true := fun r hr =>
    (Bool.and_eq_true _ _ ▸ (h r.channel).holdsSender hr rfl).1
  have first : Told x.peer s (departFirst x s) [] := .of_unit (unitOf_departFirst_peer hst)
  have hends : ∀ c role, endOf role (chanOf c { departFirst x s with freeTick := (departFirst x s).freeTick + 1 }) =
      endOf role (chanOf c s) := fun c role => endOf_departFirst x c s role
  have hboth : ∀ c, NotBoth x (chanOf c { departFirst x s with freeTick := (departFirst x s).freeTick + 1 }) := by
    intro c
    have hs := hends c .send
    have hr := hends c .receive
    simp only [endOf] at hs hr
    rw [NotBoth, hs, hr]
    exact h.notBoth x c
  have closes := told_closeAll (fun _ => true) (departFirst x s).freeTick hboth
  rw [allCloseNotices_of_ends hends] at closes
  have ticked : Told x.peer (departFirst x s) { departFirst x s with freeTick := (departFirst x s).freeTick + 1 } [] :=
    .of_unit rfl
  exact ⟨_, (told_depart x .left (first.trans (ticked.trans closes)) (waitCounts_departEnds x .left s)
    (leaseOf_departEnds x .left · s) (depart_eq_offer x .left s)).1⟩

/-- R128, R133: the restart of the keepalive timer is not seen in the record of a departed station. -/
theorem record_depart_restartKeepalive (x : Station) (cause : Cause) (s : State) :
    (unitOf x (depart x cause (restartKeepalive x s))).record =
      { (unitOf x s).record with presence := .absent, keepaliveTimer := none, lastCause := some cause } := by
  rw [record_depart]
  unfold restartKeepalive
  simp only
  split
  · rw [unitOf_setUnit_self]
  · rfl

/-- R144: the frames in the transmitter after a departure and the reply that follows. -/
theorem tx_transmit_depart (x : Station) (cause : Cause) (r : OutFrame) (s : State) :
    (linkOf x (transmit x r false (depart x cause s))).tx.map (·.frame) = (linkOf x s).tx.map (·.frame) ++ [r] := by
  rw [transmit_tx, linkOf_depart, linkOf_stopDraw, List.map_append, List.map_map]
  rfl

/-- R14, R15, R17: every channel after a LEAVE. -/
theorem channels_depart_left {x : Station} {c : Fin 8} {s : State} (hc : ChannelOk c s) :
    ((chanOf c s).sender.holder = some x → (chanOf c s).receiver.holder = some x.peer →
      (stagingOn x c s = none → chanOf c (depart x .left s) = { chanOf c s with sender := resetEnd }) ∧
      (∀ r p, stagingOn x c s = some r → (chanOf c s).params = some p →
        chanOf c (depart x .left s) =
          { chanOf c s with
            sender := resetEnd, reserved := 0, charged := (chanOf c s).charged - r.blocks.length
            congested :=
              if (chanOf c s).congested = true then decide (p.low < (chanOf c s).queue.length)
              else decide (p.high ≤ (chanOf c s).queue.length) })) ∧
    ((chanOf c s).receiver.holder = some x → (chanOf c s).sender.holder = some x.peer →
      chanOf c (depart x .left s) =
        { chanOf c s with
          receiver := resetEnd, arrivalOption := false, queue := (chanOf c s).queue.map returnMessage }) ∧
    ((chanOf c s).sender.holder = some x ∧ (chanOf c s).receiver.holder = none ∨
        (chanOf c s).receiver.holder = some x ∧ (chanOf c s).sender.holder = none →
      chanOf c (depart x .left s) = resetChannel ∧
        ∀ m ∈ (chanOf c s).queue, ∀ b ∈ m.blocks, b ∈ (depart x .left s).store.freePool) ∧
    ∀ r, stagingOn x c s = some r → ∀ b ∈ r.blocks, b ∈ (depart x .left s).store.freePool := by
  have hb := hc.notBoth x
  refine ⟨fun hx hy => ⟨fun hr => ?_, fun r p hr hp => ?_⟩, fun hx hy => ?_, fun h => ?_, fun r hr b hm => ?_⟩
  · exact chanOf_depart_left_sender hb hx (endHeld_of_holder hy) hr
  · exact chanOf_depart_left_staged hc hx (endHeld_of_holder hy) hr hp
  · refine chanOf_depart_left_receiver hb hx (endHeld_of_holder hy) (stagingOn_eq_none.mpr fun r hr hcr => ?_)
    have hh := (Bool.and_eq_true _ _ ▸ hc.holdsSender hr hcr).1
    rw [holdsEnd_of_peer hy] at hh
    cases hh
  · rcases h with ⟨hx, hy⟩ | ⟨hx, hy⟩
    · exact chanOf_depart_left_last (role := .send) hb hx hy
    · exact chanOf_depart_left_last (role := .receive) hb hx hy
  · exact freed_staging_depart_left (stagingOn_mem hr) hm

/-- Settles O19: a LEAVE is a departure with cause LEFT, with the reply handed over. -/
theorem leaveClosesAndDeparts : Obligations.LeaveClosesAndDeparts := by
  intro x tag s f hr ha hp
  have hn := hasNothing_depart x .left (restartKeepalive x s)
  obtain ⟨hrecord, hsignals, hstaging, hcache, hdraw⟩ := unitOf_depart_peer x .left (restartKeepalive x s)
  rw [unitOf_restartKeepalive_peer] at hrecord hsignals hstaging hcache hdraw
  obtain ⟨hmem, hhealth, htime, -, -⟩ := depart_rest x .left (restartKeepalive x s)
  rw [restartKeepalive_store] at hmem hhealth
  rw [restartKeepalive_timeBase] at htime
  have hlink : linkOf x.peer (depart x .left (restartKeepalive x s)) = linkOf x.peer s := by
    rw [linkOf_depart, linkOf_stopDraw_peer, linkOf_restartKeepalive]
  have hsame : ∀ c, ChannelLaw s → ChannelOk c (restartKeepalive x s) := fun c h =>
    (h c).of_same (chanOf_restartKeepalive c x s) (fun y => by simp)
  refine ⟨_, exec_leave hr ha hp, hn, endsHeld_depart_left x _, record_depart_restartKeepalive x .left s, ?_, hhealth,
    hmem, htime, (linkOf_transmit_peer _ _ _ _).trans hlink, hrecord, hsignals, hstaging, hcache, hdraw,
    fun e h1 h2 => ?_, fun c h1 h2 h3 => ?_, rfl, fun h _ c => ?_, fun e => ?_, fun hpeer h => ?_⟩
  · rw [tx_transmit_depart, linkOf_restartKeepalive]
  · rw [leaseOf_transmit, leaseOf_depart, leaseOf_restartKeepalive, departedLease_of_uninvolved ⟨h1, h2⟩]
  · rw [chanOf_transmit]
    rw [← chanOf_restartKeepalive c x s] at h1 h2
    rw [← stagingOn_restartKeepalive x x c s] at h3
    rw [chanOf_depart_of_absent .left h1 h2 h3, chanOf_restartKeepalive]
  · have spec := channels_depart_left (x := x) (hsame c h)
    rw [chanOf_restartKeepalive, stagingOn_restartKeepalive, returnMessage_fun] at spec
    exact spec
  · have spec := departedLease_cases x (leaseOf e s)
    rw [leaseOf_transmit, leaseOf_depart, leaseOf_restartKeepalive]
    exact spec
  · obtain ⟨n, told⟩ := told_depart_left (x := x) (s := restartKeepalive x s) (fun c => hsame c h)
    have hepoch : (unitOf x (restartKeepalive x s)).record.epoch = (unitOf x s).record.epoch := by simp
    have hnotices : (unitOf x.peer (restartKeepalive x s)).notices = (unitOf x.peer s).notices := by simp
    have hends : allCloseNotices x (fun _ => true) n (restartKeepalive x s) = allCloseNotices x (fun _ => true) n s :=
      allCloseNotices_of_ends fun c role => by rw [chanOf_restartKeepalive]
    simp only [hepoch, hends, leaseOf_restartKeepalive, revokeNotices_eq, allEntries_eq] at told
    refine ⟨allCloseNotices x (fun _ => true) n s, nodup_allCloseNotices _ _ _ _, fun m => ?_, fun hlen hno => ?_⟩
    · simp only [mem_allCloseNotices, picked, Bool.and_true, holdsEnd_iff]
    · rw [← hnotices] at hlen hno
      rw [unitOf_transmit, ← hnotices]
      refine (told.notices (by simpa using hpeer) ?_ hno).trans ?_
      · rw [List.length_append, List.length_append, List.length_singleton, ← Nat.add_assoc, ← Nat.add_assoc]
        exact hlen
      · rw [← List.append_assoc, ← List.append_assoc]

end Sys2Proof.Machine
end

section
/-!
PROOFS. JOIN: what it makes of the ends and whom it tells what (R14, R15, R18, R125, R126).
-/

namespace Sys2Proof.Machine

/-! ### Leases, links and channels of a JOIN -/

theorem leasesSame_tellReceiver (x : Station) (c : Fin 8) (s : State) : LeasesSame s (tellReceiver x c s) :=
  ⟨tellReceiver_leases _ _ _, tellReceiver_waitCounts _ _ _⟩

theorem leasesSame_tellSender (x : Station) (c : Fin 8) (s : State) : LeasesSame s (tellSender x c s) :=
  ⟨tellSender_leases _ _ _, tellSender_waitCounts _ _ _⟩

/-- R18: the resumed ends. -/
def resumedState (x : Station) (s : State) : State := allChannels.foldl (fun t c => resumeOn x c t) s

/-- R18: the state after the ARRIVAL offers of a RESUME. -/
def arrivalsTold (x : Station) (s : State) : State :=
  (channelOrder s.freeTick).foldl (fun t c => tellReceiver x c t) (resumedState x s)

theorem joinEnds_resume (x : Station) (s : State) :
    joinEnds x .resume s =
      (channelOrder (s.freeTick + 1)).foldl (fun t c => tellSender x c t)
        { arrivalsTold x s with freeTick := s.freeTick + 2 } := rfl

theorem joinEnds_fresh (x : Station) (s : State) :
    joinEnds x .fresh s =
      (channelOrder s.freeTick).foldl (fun t c => closeEndsOn x (fun e => e.dormant) c t)
        { s with freeTick := s.freeTick + 1 } := rfl

theorem leasesSame_joinEnds (x : Station) (mode : JoinMode) (s : State) : LeasesSame s (joinEnds x mode s) := by
  cases mode with
  | fresh =>
    rw [joinEnds_fresh]
    exact foldl_keeps (P := LeasesSame s) _ (fun c _ t h => h.trans (leasesSame_closeEndsOn x _ c t)) ⟨rfl, rfl⟩
  | resume =>
    have resumed : LeasesSame s (resumedState x s) :=
      foldl_keeps (P := LeasesSame s) (f := fun t c => resumeOn x c t) _ (fun c _ t h => h.trans ⟨rfl, rfl⟩) ⟨rfl, rfl⟩
    have arrivals : LeasesSame s (arrivalsTold x s) :=
      foldl_keeps (P := LeasesSame s) _ (fun c _ t h => h.trans (leasesSame_tellReceiver x c t)) resumed
    rw [joinEnds_resume]
    exact foldl_keeps (P := LeasesSame s) _ (fun c _ t h => h.trans (leasesSame_tellSender x c t)) arrivals

/-- R18: a channel after the station's ends have become active. -/
def resumedChannel (x : Station) (ch : Channel) : Channel :=
  let ch1 := if holdsEnd x ch.sender then { ch with sender := { ch.sender with dormant := false } } else ch
  if holdsEnd x ch1.receiver then { ch1 with receiver := { ch1.receiver with dormant := false } } else ch1

theorem resumeOn_eq (x : Station) (c : Fin 8) (s : State) :
    resumeOn x c s = setChan c (resumedChannel x (chanOf c s)) s := rfl

theorem chanOf_resumedState (x : Station) (c : Fin 8) (s : State) :
    chanOf c (resumedState x s) = resumedChannel x (chanOf c s) := by
  obtain ⟨t, -, h1, h2⟩ := foldl_at (f := fun t c => resumeOn x c t) (fun _ => True) chanOf (fun _ _ _ => trivial)
    (fun t i j _ h => chanOf_setChan_ne _ _ h) allChannels_nodup (mem_allChannels c) (s := s) trivial
  rw [resumedState, h2, resumeOn_eq, chanOf_setChan_self, h1]

theorem units_resumedState (x : Station) (s : State) :
    (resumedState x s).units = s.units ∧ (resumedState x s).store = s.store :=
  foldl_keeps (P := fun t => t.units = s.units ∧ t.store = s.store) (f := fun t c => resumeOn x c t) _
    (fun _ _ _ h => h)
    ⟨rfl, rfl⟩

theorem chanOf_arrivalsTold (x : Station) (c : Fin 8) (s : State) :
    chanOf c (arrivalsTold x s) = resumedChannel x (chanOf c s) := by
  rw [← chanOf_resumedState]
  exact foldl_keeps (P := fun t => chanOf c t = chanOf c (resumedState x s)) _
    (fun d _ t h => (chanOf_tellReceiver c x d t).trans h) rfl

theorem chanOf_joinEnds_resume (x : Station) (c : Fin 8) (s : State) :
    chanOf c (joinEnds x .resume s) = resumedChannel x (chanOf c s) := by
  rw [joinEnds_resume, ← chanOf_arrivalsTold]
  exact foldl_keeps (P := fun t => chanOf c t = chanOf c (arrivalsTold x s)) _
    (fun d _ t h => (chanOf_tellSender c x d t).trans h) rfl

theorem chanOf_joinEnds_fresh (x : Station) (c : Fin 8) (s : State) :
    chanOf c (joinEnds x .fresh s) = shutEnds x (fun e => e.dormant) (stagingOn x c s) (chanOf c s) :=
  chanOf_closeAll x _ c (channelOrder_nodup _) (mem_channelOrder _ c) _

theorem store_joinEnds_resume (x : Station) (s : State) : (joinEnds x .resume s).store = s.store := by
  have arrivals : (arrivalsTold x s).store = s.store :=
    foldl_keeps (P := fun t => t.store = s.store) _ (fun d _ t h => (tellReceiver_store x d t).trans h)
      (units_resumedState x s).2
  rw [joinEnds_resume]
  exact foldl_keeps (P := fun t => t.store = s.store) _ (fun d _ t h => (tellSender_store x d t).trans h) arrivals

/-! ### The ends after a JOIN -/

/-- R18: a resumed channel. -/
theorem resumedChannel_spec (x : Station) (ch : Channel) :
    (holdsEnd x ch.sender = true → (resumedChannel x ch).sender = { holder := some x, dormant := false }) ∧
      (holdsEnd x ch.sender = false → (resumedChannel x ch).sender = ch.sender) ∧
      (holdsEnd x ch.receiver = true → (resumedChannel x ch).receiver = { holder := some x, dormant := false }) ∧
      (holdsEnd x ch.receiver = false → (resumedChannel x ch).receiver = ch.receiver) ∧
      resumedChannel x ch =
        { ch with sender := (resumedChannel x ch).sender, receiver := (resumedChannel x ch).receiver } := by
  unfold resumedChannel
  cases hs : holdsEnd x ch.sender <;> cases hr : holdsEnd x ch.receiver <;> simp [hr]
  · exact holdsEnd_iff.mp hr
  · exact holdsEnd_iff.mp hs
  · exact ⟨holdsEnd_iff.mp hs, holdsEnd_iff.mp hr⟩

/-- R14, R18: an end that is picked is released. -/
theorem endOf_shutEnds_picked {x : Station} {test : End → Bool} {role : Role} {r : Option Staging} {ch : Channel}
    (hp : picked x test role ch = true) : endOf role (shutEnds x test r ch) = resetEnd := by
  have self : ∀ r role ch, picked x test role ch = true → endOf role (shutEnd x test r role ch) = resetEnd := by
    intro r role ch h
    rw [shutEnd, if_pos h, endOf_shutChannel_self]
  have other : ∀ r role ch, endOf role.other (shutEnd x test r role ch) = endOf role.other ch ∨
      endOf role.other (shutEnd x test r role ch) = resetEnd := by
    intro r role ch
    unfold shutEnd
    split
    · exact endOf_shutChannel_other r role ch
    · exact .inl rfl
  have stays : ∀ r role ch, endOf role ch = resetEnd → endOf role (shutEnd x test r role ch) = resetEnd := by
    intro r role ch h
    have hn : picked x test role ch = false := by rw [picked, h]; rfl
    rw [shutEnd, hn]
    exact h
  cases role with
  | send =>
    rcases other none .receive (shutEnd x test r .send ch) with k | k
    · exact k.trans (self r .send ch hp)
    · exact k
  | receive =>
    rcases other r .send ch with k | k
    · refine self none .receive _ ?_
      simp only [Role.other] at k
      rwa [picked, k]
    · exact stays none .receive _ k

/-- R14, R18: no picked end is left. -/
theorem picked_shutEnds (x : Station) (test : End → Bool) (role : Role) (r : Option Staging) (ch : Channel) :
    picked x test role (shutEnds x test r ch) = false := by
  cases hp : picked x test role ch
  · have stays : ∀ r role' ch, picked x test role ch = false →
        picked x test role (shutEnd x test r role' ch) = false := by
      intro r role' ch h
      unfold shutEnd
      split
      · have hends : endOf role (shutChannel r role' ch) = endOf role ch ∨
            endOf role (shutChannel r role' ch) = resetEnd := by
          by_cases hr : role = role'
          · subst hr; exact .inr (endOf_shutChannel_self r role ch)
          · have : role = role'.other := by cases role <;> cases role' <;> first | rfl | exact absurd rfl hr
            rw [this]; exact endOf_shutChannel_other r role' ch
        rcases hends with k | k
        · rwa [picked, k]
        · rw [picked, k]; rfl
      · exact h
    exact stays none .receive _ (stays r .send ch hp)
  · rw [picked, endOf_shutEnds_picked hp]; rfl

theorem dormantEnds_eq_zero {x : Station} {s : State}
    (h : ∀ c role, picked x (fun e => e.dormant) role (chanOf c s) = false) : dormantEnds x s = 0 := by
  have hs : ∀ c, (holdsEnd x (chanOf c s).sender && (chanOf c s).sender.dormant) = false := fun c => h c .send
  have hr : ∀ c, (holdsEnd x (chanOf c s).receiver && (chanOf c s).receiver.dormant) = false := fun c => h c .receive
  simp [dormantEnds, hs, hr]

theorem picked_resumedChannel (x : Station) (role : Role) (ch : Channel) :
    picked x (fun e => e.dormant) role (resumedChannel x ch) = false := by
  obtain ⟨h1, h2, h3, h4, -⟩ := resumedChannel_spec x ch
  cases role with
  | send =>
    cases h : holdsEnd x ch.sender
    · simp [picked, endOf, h2 h, h]
    · simp [picked, endOf, h1 h]
  | receive =>
    cases h : holdsEnd x ch.receiver
    · simp [picked, endOf, h4 h, h]
    · simp [picked, endOf, h3 h]

/-- R18: after a JOIN the station has no dormant end. -/
theorem picked_joinEnds (x : Station) (mode : JoinMode) (c : Fin 8) (role : Role) (s : State) :
    picked x (fun e => e.dormant) role (chanOf c (joinEnds x mode s)) = false := by
  cases mode with
  | resume => rw [chanOf_joinEnds_resume]; exact picked_resumedChannel x role _
  | fresh => rw [chanOf_joinEnds_fresh]; exact picked_shutEnds x _ role _ _

theorem picked_dormant_iff {x : Station} {role : Role} {ch : Channel} :
    picked x (fun e => e.dormant) role ch = true ↔ endOf role ch = { holder := some x, dormant := true } := by
  rw [picked, Bool.and_eq_true, holdsEnd_iff]
  generalize endOf role ch = e
  cases e
  simp

theorem chanOf_joinEnds_of_absent {x : Station} (mode : JoinMode) {c : Fin 8} {s : State}
    (h1 : holdsEnd x (chanOf c s).sender = false) (h2 : holdsEnd x (chanOf c s).receiver = false) :
    chanOf c (joinEnds x mode s) = chanOf c s := by
  cases mode with
  | resume =>
    obtain ⟨-, hs, -, hr, h⟩ := resumedChannel_spec x (chanOf c s)
    rw [chanOf_joinEnds_resume, h, hs h1, hr h2]
  | fresh => rw [chanOf_joinEnds_fresh, shutEnds_of_absent _ _ h1 h2]

/-! ### Notices that coalesce with none of the queue -/

/-- Station `y` is offered the notices `ns`, of which none coalesces with another or with an entry. -/
def Queued (y : Station) (s t : State) (ns : List Notice) : Prop :=
  (∀ n ∈ ns, Notice.isOverflow n = false) ∧ (isPresent y s = true → isPresent y t = true ∧
    ((unitOf y s).notices.length + ns.length ≤ 23 → (unitOf y s).notices.any Notice.isOverflow = false →
      ((unitOf y s).notices ++ ns).Pairwise (fun m n => Notice.coalesces n m = false) →
        (unitOf y t).notices = (unitOf y s).notices ++ ns))

theorem Queued.nil {y : Station} {s t : State} (h : unitOf y t = unitOf y s) : Queued y s t [] :=
  ⟨fun _ hn => absurd hn List.not_mem_nil, fun hp => ⟨by rwa [isPresent, h], fun _ _ _ => by rw [h, List.append_nil]⟩⟩

theorem Queued.trans {y : Station} {s t u : State} {a b : List Notice} (h : Queued y s t a) (k : Queued y t u b) :
    Queued y s u (a ++ b) := by
  obtain ⟨ha, h⟩ := h
  obtain ⟨hb, k⟩ := k
  refine ⟨fun n hn => (List.mem_append.mp hn).elim (ha n) (hb n), fun hp => ?_⟩
  obtain ⟨hp', h⟩ := h hp
  obtain ⟨hp'', k⟩ := k hp'
  refine ⟨hp'', fun hlen hno hpair => ?_⟩
  rw [List.length_append] at hlen
  rw [← List.append_assoc] at hpair ⊢
  have h := h (by omega) hno (hpair.sublist (List.sublist_append_left _ _))
  have hno' : (unitOf y t).notices.any Notice.isOverflow = false := by
    rw [h, List.any_append, hno, Bool.false_or, List.any_eq_false]
    exact fun n hn => by rw [ha n hn]; exact Bool.false_ne_true
  rw [← h] at hpair ⊢
  exact k (by rw [h, List.length_append]; omega) hno' hpair

theorem queued_offer {y : Station} {n : Notice} (s : State) (hn : Notice.isOverflow n = false) :
    Queued y s (offer y n s) [n] := by
  refine ⟨fun m hm => List.mem_singleton.mp hm ▸ hn, fun hp => ⟨by rw [isPresent_offer, hp], fun hlen hno hpair => ?_⟩⟩
  have hc : (unitOf y s).notices.any (Notice.coalesces n) = false := by
    rw [List.any_eq_false]
    intro m hm
    rw [(List.pairwise_append.mp hpair).2.2 m hm n (List.mem_singleton_self n)]
    exact Bool.false_ne_true
  have hroom : ¬ Config.regularPlaces ≤ (unitOf y s).notices.length := by
    simp only [List.length_singleton] at hlen
    have : Config.regularPlaces = 23 := rfl
    omega
  have fate : offerFate n (unitOf y s).notices = .appended ((unitOf y s).notices ++ [n]) := by
    simp [offerFate, hc, hno, hroom]
  simp [offer, hp, fate, OfferFate.queue, OfferFate.isDropped, setNotices]

/-! ### The notices of a JOIN with RESUME -/

/-- R18: whether ARRIVAL is offered. -/
def arrivalDue (x : Station) (ch : Channel) : Bool :=
  holdsEnd x ch.receiver && ch.arrivalOption && ch.queue.any isQueued

/-- R18: whether FLOW is offered. -/
def flowDue (x : Station) (ch : Channel) : Bool := holdsEnd x ch.sender && ch.congested

theorem queued_tellReceiver {x : Station} {c : Fin 8} {ch : Channel} {s : State} (h : chanOf c s = ch) :
    Queued x s (tellReceiver x c s) (if arrivalDue x ch then [.arrival c] else []) := by
  subst h
  unfold tellReceiver arrivalDue
  simp only
  split
  · exact queued_offer s rfl
  · exact .nil rfl

theorem queued_tellSender {x : Station} {c : Fin 8} {ch : Channel} {s : State} (h : chanOf c s = ch) :
    Queued x s (tellSender x c s) (if flowDue x ch then [.flow c true (occupancy ch)] else []) := by
  subst h
  unfold tellSender flowDue
  simp only
  split
  · exact queued_offer s rfl
  · exact .nil rfl

theorem flatMap_ite_singleton {α β : Type} (p : α → Bool) (f : α → β) (l : List α) :
    (l.flatMap fun a => if p a then [f a] else []) = (l.filter p).map f := by
  induction l with
  | nil => rfl
  | cons a l ih =>
    rw [List.flatMap_cons, ih, List.filter_cons]
    cases p a <;> rfl

/-- R18: the notices of a JOIN with RESUME, the channels in the orders of two free values. -/
def resumeNotices (x : Station) (n : Nat) (s : State) : List Notice :=
  (((channelOrder n).filter fun c => arrivalDue x (chanOf c s)).map Notice.arrival) ++
    ((channelOrder (n + 1)).filter fun c => flowDue x (chanOf c s)).map
      fun c => Notice.flow c true (occupancy (chanOf c s))

theorem mem_resumeNotices {x : Station} {n : Nat} {s : State} {m : Notice} :
    m ∈ resumeNotices x n s ↔
      (∃ c, m = .arrival c ∧ arrivalDue x (chanOf c s) = true) ∨
        ∃ c, m = .flow c true (occupancy (chanOf c s)) ∧ flowDue x (chanOf c s) = true := by
  simp only [resumeNotices, List.mem_append, List.mem_map, List.mem_filter, mem_channelOrder, true_and]
  constructor
  · rintro (⟨c, h, rfl⟩ | ⟨c, h, rfl⟩)
    · exact .inl ⟨c, rfl, h⟩
    · exact .inr ⟨c, rfl, h⟩
  · rintro (⟨c, rfl, h⟩ | ⟨c, rfl, h⟩)
    · exact .inl ⟨c, h, rfl⟩
    · exact .inr ⟨c, h, rfl⟩

theorem length_filter_channelOrder (p : Fin 8 → Bool) (n : Nat) : ((channelOrder n).filter p).length ≤ 8 := by
  have h := List.length_filter_le p (channelOrder n)
  rwa [(channelOrder_perm n).length_eq] at h

/-- R109: no two of them coalesce. -/
theorem pairwise_resumeNotices (x : Station) (n : Nat) (s : State) :
    (resumeNotices x n s).Pairwise (fun m k => Notice.coalesces k m = false) := by
  refine List.pairwise_append.mpr ⟨?_, ?_, ?_⟩
  · refine List.pairwise_map.mpr (((channelOrder_nodup n).filter _).imp fun {c d} h => ?_)
    exact beq_eq_false_iff_ne.mpr fun e => h e.symm
  · refine List.pairwise_map.mpr (((channelOrder_nodup (n + 1)).filter _).imp fun {c d} h => ?_)
    exact beq_eq_false_iff_ne.mpr fun e => h e.symm
  · intro m hm k hk
    obtain ⟨c, -, rfl⟩ := List.mem_map.mp hm
    obtain ⟨d, -, rfl⟩ := List.mem_map.mp hk
    rfl

theorem nodup_resumeNotices (x : Station) (n : Nat) (s : State) : (resumeNotices x n s).Nodup := by
  refine List.nodup_append.mpr ⟨?_, ?_, ?_⟩
  · exact ((channelOrder_nodup n).filter _).map fun c d h => by injection h
  · exact ((channelOrder_nodup (n + 1)).filter _).map fun c d h => by injection h
  · intro m hm k hk
    obtain ⟨c, -, rfl⟩ := List.mem_map.mp hm
    obtain ⟨d, -, rfl⟩ := List.mem_map.mp hk
    exact Notice.noConfusion

/-- R18: what a JOIN with RESUME offers the station. -/
theorem queued_joinEnds_resume (x : Station) (s : State) :
    Queued x s (joinEnds x .resume s) (resumeNotices x s.freeTick (resumedState x s)) := by
  have resumed : Queued x s (resumedState x s) [] := .nil (by rw [unitOf, (units_resumedState x s).1]; rfl)
  have arrivals := foldl_yields (f := fun t c => tellReceiver x c t) (R := Queued x) (fun _ => .nil rfl)
    (fun h k => h.trans k) chanOf (fun c => chanOf c (resumedState x s)) (fun t c h => queued_tellReceiver h)
    (fun t c d _ => chanOf_tellReceiver d x c t) (channelOrder_nodup s.freeTick) (s := resumedState x s)
      (fun _ _ => rfl)
  have ticked : Queued x (arrivalsTold x s) { arrivalsTold x s with freeTick := s.freeTick + 2 } [] := .nil rfl
  have flows := foldl_yields (f := fun t c => tellSender x c t) (R := Queued x) (fun _ => .nil rfl)
    (fun h k => h.trans k) chanOf (fun c => chanOf c (resumedState x s)) (fun t c h => queued_tellSender h)
    (fun t c d _ => chanOf_tellSender d x c t) (channelOrder_nodup (s.freeTick + 1))
    (s := { arrivalsTold x s with freeTick := s.freeTick + 2 })
    (fun c _ => (chanOf_arrivalsTold x c s).trans (chanOf_resumedState x c s).symm)
  rw [flatMap_ite_singleton] at arrivals flows
  exact resumed.trans (arrivals.trans (ticked.trans flows))

/-- R18: with an empty queue a JOIN with RESUME leaves these notices. -/
theorem notices_joinEnds_resume {x : Station} {s : State} (hp : isPresent x s = true)
    (hn : (unitOf x s).notices = []) :
    (unitOf x (joinEnds x .resume s)).notices = resumeNotices x s.freeTick (resumedState x s) := by
  have hlen : (resumeNotices x s.freeTick (resumedState x s)).length ≤ 16 := by
    have h1 := length_filter_channelOrder (fun c => arrivalDue x (chanOf c (resumedState x s))) s.freeTick
    have h2 := length_filter_channelOrder (fun c => flowDue x (chanOf c (resumedState x s))) (s.freeTick + 1)
    rw [resumeNotices, List.length_append, List.length_map, List.length_map]
    omega
  have told := ((queued_joinEnds_resume x s).2 hp).2
  rw [hn] at told
  simpa using told (by simpa using le_trans hlen (by decide)) rfl (by simpa using pairwise_resumeNotices x _ _)

/-- R18: a JOIN with RESUME tells the peer nothing. -/
theorem unitOf_joinEnds_resume_peer (x : Station) (s : State) :
    unitOf x.peer (joinEnds x .resume s) = unitOf x.peer s := by
  have receiver : ∀ c t, unitOf x.peer (tellReceiver x c t) = unitOf x.peer t := by
    intro c t
    unfold tellReceiver
    simp only
    split
    · exact unitOf_offer_peer _ _ _
    · rfl
  have sender : ∀ c t, unitOf x.peer (tellSender x c t) = unitOf x.peer t := by
    intro c t
    unfold tellSender
    simp only
    split
    · exact unitOf_offer_peer _ _ _
    · rfl
  have resumed : unitOf x.peer (resumedState x s) = unitOf x.peer s := by
    rw [unitOf, (units_resumedState x s).1]; rfl
  have arrivals : unitOf x.peer (arrivalsTold x s) = unitOf x.peer s :=
    foldl_keeps (P := fun t => unitOf x.peer t = unitOf x.peer s) _ (fun c _ t h => (receiver c t).trans h) resumed
  rw [joinEnds_resume]
  exact foldl_keeps (P := fun t => unitOf x.peer t = unitOf x.peer s) _ (fun c _ t h => (sender c t).trans h) arrivals

end Sys2Proof.Machine
end

section
/-!
PROOFS. JOIN: the statement settled (R14, R15, R18, R114, R118, R123 to R126).
-/

namespace Sys2Proof.Machine

/-! ### The payload of a JOIN -/

theorem wordOf_extract (w : Word) :
    wordOf (w.extractLsb' 24 8) (w.extractLsb' 16 8) (w.extractLsb' 8 8) (w.extractLsb' 0 8) = w := by
  refine BitVec.eq_of_getLsbD_eq fun i hi => ?_
  simp only [wordOf, BitVec.getLsbD_append, BitVec.getLsbD_extractLsb']
  split
  · split
    · simp [*]
    · have h8 : 8 + (i - 8) = i := by omega
      have hlt : i - 8 < 8 := by omega
      simp [h8, hlt]
  · split
    · have h16 : 16 + (i - 16) = i := by omega
      simp [*]
    · have h24 : 24 + (i - 16 - 8) = i := by omega
      have hlt : i - 16 - 8 < 8 := by omega
      simp [h24, hlt]

/-- R125, R160: the fields of a JOIN. -/
abbrev joinBytes (period : Half) (mode : JoinMode) (identity : Word) : List Byte :=
  halfBytes period ++ [joinModeByte (some mode)] ++ wordBytes identity

theorem joinCheck_bytes {period : Half} (mode : JoinMode) (identity : Word)
    (h : period = 0 ∨ (50 ≤ period.toNat ∧ period.toNat ≤ 60000)) :
    joinCheck (joinBytes period mode identity) =
      .ok { period := period.toNat, mode := mode, identity := identity } := by
  have hp : periodField period = some period.toNat := by
    refine if_pos ?_
    rcases h with h | h
    · exact .inl (by rw [h]; rfl)
    · exact .inr h
  have hm : joinModeField (joinModeByte (some mode)) = some mode := by cases mode <;> rfl
  simp [joinCheck, joinBytes, halfBytes, wordBytes, halfOf_extract, wordOf_extract, hp, hm, fields]

/-! ### The state after a JOIN -/

/-- R125 steps 1 to 3: the station as a JOIN makes it, before its ends. -/
def joinedUnit (x : Station) (j : JoinFields) (s : State) : State := setUnit x (joinUnit j (unitOf x s)) s

/-- R125: the state before the PEER_JOINED offer. -/
def joined (x : Station) (j : JoinFields) (s : State) : State := joinEnds x j.mode (joinedUnit x j s)

theorem unitOf_joinedUnit (x : Station) (j : JoinFields) (s : State) :
    unitOf x (joinedUnit x j s) = joinUnit j (unitOf x s) := unitOf_setUnit_self _ _ _

theorem isPresent_joinedUnit (x : Station) (j : JoinFields) (s : State) : isPresent x (joinedUnit x j s) = true := by
  rw [isPresent, unitOf_joinedUnit]; rfl

theorem joined_sheltered (x : Station) (j : JoinFields) (s : State) : Sheltered x (joinedUnit x j s) (joined x j s) :=
  Sheltered.joinEnds x j.mode _

theorem record_joined (x : Station) (j : JoinFields) (s : State) :
    (unitOf x (joined x j s)).record = (joinUnit j (unitOf x s)).record := by
  rw [(joined_sheltered x j s).record, unitOf_joinedUnit]

theorem joinStation_eq (x : Station) (j : JoinFields) (s : State) :
    joinStation x j s =
      offer x.peer (.peerJoined (nextEpoch (unitOf x s).record.epoch) j.identity) (joined x j s) := by
  have h : (unitOf x (joined x j s)).record.epoch = nextEpoch (unitOf x s).record.epoch := by
    rw [record_joined]; rfl
  rw [← h]
  rfl

theorem Advisory.joinedUnit {x : Station} {j : JoinFields} {s : State} (h : Advisory s) : Advisory (joinedUnit x j s) :=
  Advisory.of_setUnit (by unfold joinUnit; rfl) h

theorem joinStation_severe {x : Station} {j : JoinFields} {s : State} (ha : Advisory s) (hs : s.severe = []) :
    (joinStation x j s).severe = [] := by
  obtain ⟨hadv, hsev⟩ := (joined_sheltered x j s).advisory ha.joinedUnit
  rw [joinStation_eq, offer_severe (hadv.at _), hsev]
  exact hs

theorem record_joinStation (x : Station) (j : JoinFields) (s : State) :
    (unitOf x (joinStation x j s)).record = (joinUnit j (unitOf x s)).record := by
  rw [joinStation_eq, offer_record, record_joined]

theorem record_joinStation_peer (x : Station) (j : JoinFields) (s : State) :
    (unitOf x.peer (joinStation x j s)).record = (unitOf x.peer s).record := by
  rw [joinStation_eq, offer_record, (joined_sheltered x j s).record, joinedUnit, unitOf_setUnit_peer]

theorem isPresent_joinStation (x : Station) (j : JoinFields) (s : State) : isPresent x (joinStation x j s) = true := by
  rw [isPresent, record_joinStation]; rfl

/-- R125, R126: the reply of a JOIN, from the state after the departure that a PRESENT station makes first. -/
theorem ownerJoin_eq {x : Station} {j : JoinFields} {s d : State} (h : departForRejoin x s = d) :
    ownerJoin x j s = .reply (joinStation x j d) .ok
      (halfBytes (nextEpoch (unitOf x d).record.epoch) ++ [causeByte (unitOf x d).record.lastCause] ++
        [Presence.code (unitOf x.peer d).record.presence] ++ halfBytes (unitOf x.peer d).record.epoch ++
        [byteOf (dormantEnds x d)]) := by
  subst h
  unfold ownerJoin
  simp only [record_joinStation, record_joinStation_peer]
  rfl

/-! ### A JOIN that is taken at once -/

theorem restartKeepalive_absent {x : Station} {s : State} (h : isPresent x s = false) : restartKeepalive x s = s := by
  simp [restartKeepalive, h]

/-- A request that an ABSENT station may make, and that makes it PRESENT. -/
theorem runRequest_joining {α : Type} {x : Station} {f : Frame} {handler : Frame → State → State}
    {check : List Byte → Except Status α} {owner : α → State → Handled} {s t : State} {a : α} {status : Status}
    {fieldBytes : List Byte} (hr : Ready x f s) (hp : isPresent x s = false) (hk : kindForAbsent f.kind = true)
    (hh : ∀ t, handler f t = handleKnown x f check owner t) (hc : check f.payload = .ok a)
    (ho : owner a s = .reply t status fieldBytes) (ht : t.severe = []) (hpt : isPresent x t = true) :
    runRequest x f handler s = answered x f status fieldBytes t := by
  have handled : handler f s = answered x f status fieldBytes t := by
    rw [hh]
    unfold handleKnown dispatch
    simp [hr.2, hk, hc, ho, finishReply_present hpt ht]
  rw [runRequest_taken hr.1, restartKeepalive_absent hp, handled]
  exact settle_nil (by simp [answered, ht])

theorem departForRejoin_absent {x : Station} {s : State} (h : isPresent x s = false) : departForRejoin x s = s := by
  rw [departForRejoin, h]; rfl

/-- R126: while no kind is SEVERE, a PRESENT station departs and nothing more. -/
theorem departForRejoin_present {x : Station} {s : State} (h : isPresent x s = true) (ha : Advisory s)
    (hs : s.severe = []) : departForRejoin x s = depart x .rejoin s := by
  rw [departForRejoin, h, if_pos rfl, settlePeerOfRejoin, depart_severe .rejoin ha hs]
  rfl

theorem exec_join_absent {x : Station} {tag : Byte} {period : Half} {mode : JoinMode} {identity : Word} {s : State}
    (hr : Ready x (requestFrame 0x01 tag (joinBytes period mode identity)) s) (ha : Advisory s)
    (hp : isPresent x s = false) (hk : period = 0 ∨ (50 ≤ period.toNat ∧ period.toNat ≤ 60000)) :
    exec (.join x tag (joinBytes period mode identity)) s =
      .next (answered x (requestFrame 0x01 tag (joinBytes period mode identity)) .ok
        (halfBytes (nextEpoch (unitOf x s).record.epoch) ++ [causeByte (unitOf x s).record.lastCause] ++
          [Presence.code (unitOf x.peer s).record.presence] ++ halfBytes (unitOf x.peer s).record.epoch ++
          [byteOf (dormantEnds x s)])
        (joinStation x { period := period.toNat, mode := mode, identity := identity } s)) :=
  congrArg Host.Outcome.next (runRequest_joining (check := joinCheck) (owner := ownerJoin x) hr hp rfl (fun _ => rfl)
    (joinCheck_bytes mode identity hk) (ownerJoin_eq (departForRejoin_absent hp)) (joinStation_severe ha hr.severe)
    (isPresent_joinStation _ _ _))

theorem exec_join_present {x : Station} {tag : Byte} {period : Half} {mode : JoinMode} {identity : Word} {s : State}
    (hr : Ready x (requestFrame 0x01 tag (joinBytes period mode identity)) s) (ha : Advisory s)
    (hp : isPresent x s = true) (hk : period = 0 ∨ (50 ≤ period.toNat ∧ period.toNat ≤ 60000)) :
    exec (.join x tag (joinBytes period mode identity)) s =
      .next (answered x (requestFrame 0x01 tag (joinBytes period mode identity)) .ok
        (halfBytes (nextEpoch (unitOf x (depart x .rejoin (restartKeepalive x s))).record.epoch) ++
          [causeByte (unitOf x (depart x .rejoin (restartKeepalive x s))).record.lastCause] ++
          [Presence.code (unitOf x.peer (depart x .rejoin (restartKeepalive x s))).record.presence] ++
          halfBytes (unitOf x.peer (depart x .rejoin (restartKeepalive x s))).record.epoch ++
          [byteOf (dormantEnds x (depart x .rejoin (restartKeepalive x s)))])
        (joinStation x { period := period.toNat, mode := mode, identity := identity }
          (depart x .rejoin (restartKeepalive x s)))) := by
  have hs : (restartKeepalive x s).severe = [] := by rw [restartKeepalive_severe, hr.severe]
  have hp' : isPresent x (restartKeepalive x s) = true := by rw [isPresent_restartKeepalive, hp]
  have hadv : Advisory (depart x .rejoin (restartKeepalive x s)) := ha.restartKeepalive.depart
  exact congrArg Host.Outcome.next (runRequest_answered (check := joinCheck) (owner := ownerJoin x) hr hp (fun _ => rfl)
    (joinCheck_bytes mode identity hk) (ownerJoin_eq (departForRejoin_present hp' ha.restartKeepalive hs))
    (joinStation_severe hadv (depart_severe .rejoin ha.restartKeepalive hs)) (isPresent_joinStation _ _ _))

end Sys2Proof.Machine
end

section
/-!
PROOFS. JOIN: the statement itself (R14, R15, R18, R114, R118, R123 to R126).
-/

namespace Sys2Proof.Machine

section

variable {x : Station} {j : JoinFields} {s : State}

theorem chanOf_joinedUnit (x : Station) (j : JoinFields) (c : Fin 8) (s : State) :
    chanOf c (joinedUnit x j s) = chanOf c s := rfl

theorem unitOf_joinedUnit_peer (x : Station) (j : JoinFields) (s : State) :
    unitOf x.peer (joinedUnit x j s) = unitOf x.peer s := unitOf_setUnit_peer _ _ _

theorem stagingOn_joinedUnit (x : Station) (j : JoinFields) (c : Fin 8) (s : State) :
    stagingOn x c (joinedUnit x j s) = stagingOn x c s := by
  rw [stagingOn, unitOf_joinedUnit]; rfl

/-- The leases, the links and the store's bytes after a JOIN. -/
theorem joined_rest (x : Station) (j : JoinFields) (s : State) :
    (joined x j s).leases = s.leases ∧ (joined x j s).links = s.links ∧ (joined x j s).waitCounts = s.waitCounts ∧
      (joined x j s).store.mem = s.store.mem ∧ (joined x j s).store.health = s.store.health := by
  have h := joined_sheltered x j s
  obtain ⟨hl, hw⟩ := leasesSame_joinEnds x j.mode (joinedUnit x j s)
  exact ⟨hl, h.links, hw, h.mem, h.health⟩

/-- R118, R125: the station's unit after a JOIN, but for its notices. -/
theorem unitOf_joined (x : Station) (j : JoinFields) (s : State) :
    (unitOf x (joined x j s)).signals = resetSignals ∧ (unitOf x (joined x j s)).nextNotice = 0 ∧
      (unitOf x (joined x j s)).cache = (unitOf x s).cache ∧ (unitOf x (joined x j s)).draw = (unitOf x s).draw := by
  have h := joined_sheltered x j s
  rw [h.signals, h.nextNotice, h.cache, h.draw, unitOf_joinedUnit]
  exact ⟨rfl, rfl, rfl, rfl⟩

/-- What a JOIN leaves of the peer's unit. -/
theorem unitOf_joined_peer (x : Station) (j : JoinFields) (s : State) :
    (unitOf x.peer (joined x j s)).record = (unitOf x.peer s).record ∧
      (unitOf x.peer (joined x j s)).signals = (unitOf x.peer s).signals ∧
      (unitOf x.peer (joined x j s)).staging = (unitOf x.peer s).staging ∧
      (unitOf x.peer (joined x j s)).cache = (unitOf x.peer s).cache ∧
      (unitOf x.peer (joined x j s)).draw = (unitOf x.peer s).draw := by
  have h := joined_sheltered x j s
  rw [h.record, h.signals, h.cache, h.draw, h.peerStaging, unitOf_joinedUnit_peer]
  exact ⟨rfl, rfl, rfl, rfl, rfl⟩

/-! ### RESUME -/

theorem chanOf_joined_resume (hm : j.mode = .resume) (c : Fin 8) :
    chanOf c (joined x j s) = resumedChannel x (chanOf c s) := by
  rw [joined, hm, chanOf_joinEnds_resume, chanOf_joinedUnit]

theorem store_joined_resume (hm : j.mode = .resume) : (joined x j s).store = s.store := by
  rw [joined, hm, store_joinEnds_resume]; rfl

/-- R18: the notices after a JOIN with RESUME, as the statement lists them. -/
theorem notices_joined_resume (hm : j.mode = .resume) (hn : (unitOf x s).notices = []) :
    (unitOf x (joined x j s)).notices.Nodup ∧ ∀ n, n ∈ (unitOf x (joined x j s)).notices ↔
      (∃ c : Fin 8, n = .arrival c ∧ holdsEnd x (chanOf c s).receiver = true ∧
        (chanOf c s).arrivalOption = true ∧ (chanOf c s).queue.any isQueued = true) ∨
      (∃ c : Fin 8, n = .flow c true ((chanOf c s).queue.length + (chanOf c s).reserved) ∧
        holdsEnd x (chanOf c s).sender = true ∧ (chanOf c s).congested = true) := by
  have hn' : (unitOf x (joinedUnit x j s)).notices = [] := by rw [unitOf_joinedUnit]; exact hn
  have holds : ∀ ch, holdsEnd x (resumedChannel x ch).sender = holdsEnd x ch.sender ∧
      holdsEnd x (resumedChannel x ch).receiver = holdsEnd x ch.receiver := by
    intro ch
    obtain ⟨h1, h2, h3, h4, -⟩ := resumedChannel_spec x ch
    constructor
    · cases h : holdsEnd x ch.sender
      · rw [h2 h, h]
      · rw [h1 h]; exact beq_self_eq_true _
    · cases h : holdsEnd x ch.receiver
      · rw [h4 h, h]
      · rw [h3 h]; exact beq_self_eq_true _
  have arrival : ∀ ch, arrivalDue x (resumedChannel x ch) = arrivalDue x ch := fun ch => by
    rw [arrivalDue, (holds ch).2, (resumedChannel_spec x ch).2.2.2.2]; rfl
  have flow : ∀ ch, flowDue x (resumedChannel x ch) = flowDue x ch := fun ch => by
    rw [flowDue, (holds ch).1, (resumedChannel_spec x ch).2.2.2.2]; rfl
  have occ : ∀ ch, occupancy (resumedChannel x ch) = occupancy ch := fun ch => by
    rw [(resumedChannel_spec x ch).2.2.2.2]; rfl
  rw [joined, hm, notices_joinEnds_resume (isPresent_joinedUnit x j s) hn']
  refine ⟨nodup_resumeNotices _ _ _, fun n => ?_⟩
  rw [mem_resumeNotices]
  simp only [chanOf_resumedState, chanOf_joinedUnit, arrival, flow, occ]
  simp only [arrivalDue, flowDue, Bool.and_eq_true, and_assoc, occupancy]

theorem notices_joined_resume_peer (hm : j.mode = .resume) :
    (unitOf x.peer (joined x j s)).notices = (unitOf x.peer s).notices := by
  rw [joined, hm, unitOf_joinEnds_resume_peer, unitOf_joinedUnit_peer]

/-! ### FRESH -/

theorem chanOf_joined_fresh (hm : j.mode = .fresh) (c : Fin 8) :
    chanOf c (joined x j s) = shutEnds x (fun e => e.dormant) (stagingOn x c s) (chanOf c s) := by
  rw [joined, hm, chanOf_joinEnds_fresh, chanOf_joinedUnit, stagingOn_joinedUnit]

theorem length_allCloseNotices (test : End → Bool) (n : Nat) (hb : ∀ c, NotBoth x (chanOf c s)) :
    (allCloseNotices x test n s).length ≤ 8 := by
  have one : ∀ c, (closeNotices x test c (chanOf c s)).length ≤ 1 := by
    intro c
    rw [closeNotices, List.length_map]
    by_cases hp : ∃ role, picked x test role (chanOf c s) = true
    · obtain ⟨role, hp⟩ := hp
      rw [toldRoles_of_picked (hb c) hp]
      split
      · exact le_rfl
      · exact Nat.zero_le _
    · have hp : ∀ role, picked x test role (chanOf c s) = false := fun role => by simpa using not_exists.mp hp role
      simp [toldRoles, hp]
  have sum : ∀ l : List (Fin 8), (l.flatMap fun c => closeNotices x test c (chanOf c s)).length ≤ l.length := by
    intro l
    induction l with
    | nil => exact le_rfl
    | cons c l ih =>
      have := one c
      rw [List.flatMap_cons, List.length_append, List.length_cons]
      omega
  exact (sum (channelOrder n)).trans_eq (channelOrder_perm n).length_eq

/-- R14, R18: what the peer is told of the ends that a JOIN with FRESH closes. -/
theorem notices_joined_fresh_peer (hm : j.mode = .fresh) (hp : isPresent x.peer s = true)
    (hlen : (unitOf x.peer s).notices.length ≤ 15) (hno : ∀ v, .overflow v ∉ (unitOf x.peer s).notices)
    (hb : ∀ c, NotBoth x (chanOf c s)) :
    (unitOf x.peer (joined x j s)).notices =
      (unitOf x.peer s).notices ++ allCloseNotices x (fun e => e.dormant) s.freeTick s := by
  have told : Told x.peer (joinedUnit x j s) (joined x j s)
      (allCloseNotices x (fun e => e.dormant) s.freeTick s) := by
    rw [joined, hm, joinEnds_fresh]
    exact (Told.of_unit (t := { joinedUnit x j s with freeTick := (joinedUnit x j s).freeTick + 1 }) rfl).trans
      (told_closeAll (s := { joinedUnit x j s with freeTick := (joinedUnit x j s).freeTick + 1 }) _ s.freeTick hb)
  have hlen' := length_allCloseNotices (x := x) (s := s) (fun e => e.dormant) s.freeTick hb
  have hu := unitOf_joinedUnit_peer x j s
  rw [← hu] at hlen hno ⊢
  exact told.notices (by rw [isPresent, hu]; exact hp) (by omega) hno

/-- R14, R15, R18: a dormant end that a JOIN with FRESH closes. -/
theorem channel_joined_fresh (hm : j.mode = .fresh) (h : ChannelLaw s) {c : Fin 8} {role : Role}
    (he : endOf role (chanOf c s) = { holder := some x, dormant := true }) :
    chanOf c (joined x j s) = shutChannel none role (chanOf c s) ∧
      (endHeld (endOf role.other (chanOf c s)) = false →
        ∀ m ∈ (chanOf c s).queue, ∀ b ∈ m.blocks, b ∈ (joined x j s).store.freePool) := by
  have hb := h.notBoth x c
  have hp : picked x (fun e => e.dormant) role (chanOf c s) = true := picked_dormant_iff.mpr he
  have hnone : role = .send → stagingOn x c s = none := by
    rintro rfl
    refine stagingOn_eq_none.mpr fun r hr hc => ?_
    have hact := (h c).holdsSender hr hc
    rw [show (chanOf c s).sender = _ from he] at hact
    simp [holdsActive] at hact
  refine ⟨?_, fun ho m hm' b hbm => ?_⟩
  · rw [chanOf_joined_fresh hm, shutEnds_of_picked hb hp]
    cases role with
    | send => rw [hnone rfl]
    | receive => exact shutChannel_receive _ _
  · rw [joined, hm, joinEnds_fresh]
    exact freed_closeAll (c := c) (s := { joinedUnit x j s with freeTick := (joinedUnit x j s).freeTick + 1 }) hb hp ho
      (List.mem_flatMap.mpr ⟨m, hm', hbm⟩)

end

/-- R124: the epoch as the statement writes it. -/
theorem record_joinUnit {period : Half} {mode : JoinMode} {identity : Word} (u : StationUnit) :
    (joinUnit { period := period.toNat, mode := mode, identity := identity } u).record =
      { presence := .present, epoch := if u.record.epoch = 0xFFFF then 1 else u.record.epoch + 1
        period := period.toNat, keepaliveTimer := if period = 0 then none else some period.toNat
        identity := identity, joinMode := some mode, lastCause := u.record.lastCause } := by
  have h : (period.toNat = 0) = (period = 0) := by
    rw [BitVec.toNat_eq]; rfl
  simp only [joinUnit, nextEpoch, h]

/-- Settles O18, by the mode of the JOIN. -/
theorem joinMakesTheStationPresent : Obligations.JoinMakesTheStationPresent := by
  refine ⟨?_, ?_⟩
  · intro x tag period mode identity s f hr ha hp hk u epoch
    have hexec := exec_join_absent hr ha hp hk
    rw [joinStation_eq] at hexec
    obtain ⟨hleases, hlinks, hwaits, hmem, hhealth⟩ :=
      joined_rest x { period := period.toNat, mode := mode, identity := identity } s
    obtain ⟨hsignals, hnext, hcache, hdraw⟩ :=
      unitOf_joined x { period := period.toNat, mode := mode, identity := identity } s
    obtain ⟨precord, psignals, pstaging, pcache, pdraw⟩ :=
      unitOf_joined_peer x { period := period.toNat, mode := mode, identity := identity } s
    refine ⟨_, hexec.trans ?_, (record_joined _ _ _).trans (record_joinUnit _), hsignals, hnext,
      dormantEnds_eq_zero fun c role => picked_joinEnds x mode c role _, hleases, hlinks, hwaits, hmem, hhealth, hcache,
      hdraw, precord, psignals, pstaging, pcache, pdraw, fun c h1 h2 => chanOf_joinEnds_of_absent mode h1 h2,
      fun hm => ⟨store_joined_resume hm, fun c => ?_⟩, fun hm c => ?_,
      fun hm => ⟨notices_joined_resume_peer hm, notices_joined_resume hm⟩, fun hm hpeer _ hlen hno hb => ?_,
      fun hm h c role => ?_⟩
    · simp only [nextEpoch, List.append_assoc]
      rfl
    · obtain ⟨h1, -, h3, -, h5⟩ := resumedChannel_spec x (chanOf c s)
      rw [chanOf_joined_resume hm]
      exact ⟨h1, h3, by rw [h5], by rw [h5]⟩
    · rw [chanOf_joined_fresh hm]
      have released : ∀ role, endOf role (chanOf c s) = { holder := some x, dormant := true } →
          endHeld (endOf role (shutEnds x (fun e => e.dormant) (stagingOn x c s) (chanOf c s))) = false :=
        fun role he => by rw [endOf_shutEnds_picked (picked_dormant_iff.mpr he)]; rfl
      exact ⟨released .send, released .receive⟩
    · refine ⟨_, notices_joined_fresh_peer hm hpeer hlen hno hb, nodup_allCloseNotices _ _ _ _, fun n => ?_⟩
      simp only [mem_allCloseNotices, picked_dormant_iff]
    · intro ch he
      obtain ⟨hch, hfree⟩ := channel_joined_fresh (j := { period := period.toNat, mode := mode, identity := identity })
        hm h he
      rw [hch]
      refine ⟨fun ho => ?_, fun ho => ⟨by rw [shutChannel_of_free ho]; rfl, hfree ho⟩⟩
      rw [shutChannel_of_held ho]
      cases role with
      | send => rfl
      | receive =>
        simp only [closedChannel, releasedChannel, returnLent, returnMessage_fun]
        rfl
  · intro x tag period mode identity s f hr ha hp hk departed t
    rw [exec_join_present hr ha hp hk, record_depart, (unitOf_depart_peer x .rejoin _).1, unitOf_restartKeepalive_peer]
    simp only [restartKeepalive_epoch, List.append_assoc]
    rfl

end Sys2Proof.Machine
end

section
/-!
PROOFS. Changes that the accounts of the channels do not see: the law of the stations by its parts, and which elementary
changes keep it (R17, R18, R40, R74, R107, R118, R134, R142, R146).
-/

namespace Sys2Proof.Machine

/-! ### The law of a station by its parts -/

/-- R40, R118, R128, R134, R146: what the law says of a station's unit alone. -/
def UnitBounds (u : StationUnit) : Prop :=
  u.cache.length ≤ 8 ∧ (u.cache.map (·.tag)).Nodup ∧ u.staging.length ≤ 2 ∧ (∀ f : Fin 16, u.signals.counts[f] ≤ 15) ∧
    ((u.record.presence == .present) = false →
      u.staging = [] ∧ u.draw = none ∧ u.notices = [] ∧ u.cache = [] ∧ u.record.keepaliveTimer = none)

/-- R17, R18: the station has no dormant end of the channel. -/
def NoDormant (x : Station) (ch : Channel) : Prop :=
  ch.sender ≠ { holder := some x, dormant := true } ∧ ch.receiver ≠ { holder := some x, dormant := true }

/-- The law of a station, part by part. -/
structure StationParts (x : Station) (s : State) : Prop where
  bounds : UnitBounds (unitOf x s)
  inQueue : (linkOf x s).inQueue.length ≤ 4
  waits : isPresent x s = false → s.waitCounts.get x = 0
  leases : isPresent x s = false → ∀ e, Uninvolved x (leaseOf e s)
  ends : isPresent x s = false → ∀ c, NothingOf x (chanOf c s)
  active : isPresent x s = true → ∀ c, NoDormant x (chanOf c s)
  draw : ∀ d, (unitOf x s).draw = some d → holdsActive x (chanOf d.channel s).receiver = true

/-- R134: an ABSENT station's unit. -/
theorem UnitBounds.absent {u : StationUnit} (h : UnitBounds u) (hp : (u.record.presence == .present) = false) :
    u.staging = [] ∧ u.draw = none ∧ u.notices = [] ∧ u.cache = [] ∧ u.record.keepaliveTimer = none := by
  obtain ⟨-, -, -, -, h5⟩ := h
  exact h5 hp

theorem stationOk_iff {x : Station} {s : State} : StationOk x s ↔ StationParts x s := by
  constructor
  · rintro ⟨h1, h2, h3, h4, h5, h6, h7, h8⟩
    refine ⟨⟨h1, h2, h4, h5, fun hp => ?_⟩, h3, fun hp => ?_, fun hp => ?_, fun hp => ?_, fun hp c => h7 c hp,
      fun d hd => h8 d hd⟩
    all_goals obtain ⟨⟨-, hst, hd, hn, hc, hw, hl, he⟩, hk⟩ := h6 hp
    · exact ⟨hst, hd, hn, hc, hk⟩
    · exact hw
    · exact hl
    · exact he
  · rintro ⟨⟨h1, h2, h4, h5, h6⟩, h3, hw, hl, he, ha, hd⟩
    refine ⟨h1, h2, h3, h4, h5, fun hp => ?_, fun c hp => ha hp c, hd⟩
    obtain ⟨k1, k2, k3, k4, k5⟩ := h6 hp
    exact ⟨⟨hp, k1, k2, k3, k4, hw hp, hl hp, he hp⟩, k5⟩

theorem stationLaw_iff {s : State} : StationLaw s ↔ ∀ x, StationParts x s :=
  ⟨fun h x => by cases x <;> rw [← stationOk_iff] <;> [exact h.1; exact h.2],
    fun h => ⟨stationOk_iff.mpr (h .a), stationOk_iff.mpr (h .b)⟩⟩

/-! ### Changes of one field -/

theorem StationLaw.setUnit {x : Station} {u : StationUnit} {s : State} (h : StationLaw s)
    (hp : u.record.presence = (unitOf x s).record.presence) (hb : UnitBounds (unitOf x s) → UnitBounds u)
    (hd : ∀ d, u.draw = some d → holdsActive x (chanOf d.channel s).receiver = true) : StationLaw (setUnit x u s) := by
  rw [stationLaw_iff] at *
  intro y
  obtain ⟨hbounds, hin, hw, hl, he, ha, hdraw⟩ := h y
  have hpres : isPresent y (Machine.setUnit x u s) = isPresent y s := isPresent_setUnit x y u s hp
  refine ⟨?_, hin, ?_, ?_, ?_, ?_, ?_⟩
  · rw [unitOf_setUnit]
    split
    · subst y; exact hb hbounds
    · exact hbounds
  · rw [hpres]; exact hw
  · rw [hpres]; exact hl
  · rw [hpres]; exact he
  · rw [hpres]; exact ha
  · rw [unitOf_setUnit]
    split
    · subst y; exact hd
    · exact hdraw

theorem StationLaw.setLink {x : Station} {l : LinkInterface} {s : State} (h : StationLaw s)
    (hl : (linkOf x s).inQueue.length ≤ 4 → l.inQueue.length ≤ 4) : StationLaw (setLink x l s) := by
  rw [stationLaw_iff] at *
  intro y
  obtain ⟨hbounds, hin, hw, hle, he, ha, hdraw⟩ := h y
  refine ⟨hbounds, ?_, hw, hle, he, ha, hdraw⟩
  rw [linkOf_setLink]
  split
  · subst y; exact hl hin
  · exact hin

theorem StationLaw.setLease {e : Fin 16} {l : LeaseEntry} {s : State} (h : StationLaw s)
    (hl : ∀ y, isPresent y s = false → Uninvolved y (leaseOf e s) → Uninvolved y l) : StationLaw (setLease e l s) := by
  rw [stationLaw_iff] at *
  intro y
  obtain ⟨hbounds, hin, hw, hle, he, ha, hdraw⟩ := h y
  refine ⟨hbounds, hin, hw, fun hp f => ?_, he, ha, hdraw⟩
  rw [leaseOf_setLease]
  split
  · exact hl y hp (hle hp e)
  · exact hle hp f

theorem StationLaw.setWaitCount {x : Station} {n : Nat} {s : State} (h : StationLaw s)
    (hn : isPresent x s = false → s.waitCounts.get x = 0 → n = 0) : StationLaw (setWaitCount x n s) := by
  rw [stationLaw_iff] at *
  intro y
  obtain ⟨hbounds, hin, hw, hle, he, ha, hdraw⟩ := h y
  refine ⟨hbounds, hin, fun hp => ?_, hle, he, ha, hdraw⟩
  rw [waitCounts_setWaitCount]
  split
  · subst y; exact hn hp (hw hp)
  · exact hw hp

/-- A channel changes: what an ABSENT station must not get of it, a PRESENT one not lose. -/
theorem StationLaw.setChan {c : Fin 8} {ch : Channel} {s : State} (h : StationLaw s)
    (hn : ∀ y, isPresent y s = false → NothingOf y (chanOf c s) → NothingOf y ch)
    (hd : ∀ y, isPresent y s = true → NoDormant y (chanOf c s) → NoDormant y ch)
    (hr : ∀ y d, (unitOf y s).draw = some d → d.channel = c → holdsActive y (chanOf c s).receiver = true →
      holdsActive y ch.receiver = true) : StationLaw (setChan c ch s) := by
  rw [stationLaw_iff] at *
  intro y
  obtain ⟨hbounds, hin, hw, hle, he, ha, hdraw⟩ := h y
  refine ⟨hbounds, hin, hw, hle, fun hp d => ?_, fun hp d => ?_, fun d hds => ?_⟩
  · rw [chanOf_setChan]
    split
    · exact hn y hp (he hp c)
    · exact he hp d
  · rw [chanOf_setChan]
    split
    · exact hd y hp (ha hp c)
    · exact ha hp d
  · rw [chanOf_setChan]
    split
    · rename_i hc
      exact hr y d hds hc (hc ▸ hdraw d hds)
    · exact hdraw d hds

/-! ### Quiet changes -/

/-- What the accounts see of a unit's staging records. -/
def stagedView (u : StationUnit) : List (Fin 8 × List (Fin 256)) := u.staging.map fun r => (r.channel, r.blocks)

/-- A change that leaves the channels and what the accounts see of the staging records, and keeps the law of the
stations. -/
structure Quiet (s t : State) : Prop where
  channels : t.channels = s.channels
  staged : ∀ y, stagedView (unitOf y t) = stagedView (unitOf y s)
  law : StationLaw s → StationLaw t

theorem Quiet.refl (s : State) : Quiet s s := ⟨rfl, fun _ => rfl, fun h => h⟩

theorem Quiet.trans {s t u : State} (h : Quiet s t) (k : Quiet t u) : Quiet s u :=
  ⟨k.channels.trans h.channels, fun y => (k.staged y).trans (h.staged y), fun hs => k.law (h.law hs)⟩

theorem Quiet.foldl {α : Type} {f : State → α → State} (hf : ∀ t a, Quiet t (f t a)) (l : List α) (s : State) :
    Quiet s (l.foldl f s) :=
  foldl_keeps (P := Quiet s) l (fun a _ t h => h.trans (hf t a)) (Quiet.refl s)

/-- The fields that neither law sees. -/
theorem quiet_rest {s t : State} (hu : t.units = s.units) (hl : t.links = s.links) (hc : t.channels = s.channels)
    (he : t.leases = s.leases) (hw : t.waitCounts = s.waitCounts) : Quiet s t := by
  have hunit : ∀ y, unitOf y t = unitOf y s := fun y => by rw [unitOf, hu]; rfl
  refine ⟨hc, fun y => by rw [hunit], fun h => ?_⟩
  rw [stationLaw_iff] at *
  intro y
  obtain ⟨hbounds, hin, hwaits, hle, hends, ha, hdraw⟩ := h y
  have hp : isPresent y t = isPresent y s := by rw [isPresent, hunit, isPresent]
  have hchan : ∀ c, Machine.chanOf c t = Machine.chanOf c s := fun c => by rw [Machine.chanOf, hc]; rfl
  have hlease : ∀ e, leaseOf e t = leaseOf e s := fun e => by rw [leaseOf, he]; rfl
  have hlink : linkOf y t = linkOf y s := by rw [linkOf, hl]; rfl
  exact ⟨by rw [hunit]; exact hbounds, by rw [hlink]; exact hin, by rw [hp, hw]; exact hwaits,
    by simp only [hp, hlease]; exact hle, by simp only [hp, hchan]; exact hends, by simp only [hp, hchan]; exact ha,
    by simp only [hunit, hchan]; exact hdraw⟩

theorem quiet_setUnit {x : Station} {u : StationUnit} {s : State}
    (hp : u.record.presence = (unitOf x s).record.presence) (hs : stagedView u = stagedView (unitOf x s))
    (hb : UnitBounds (unitOf x s) → UnitBounds u)
    (hd : StationLaw s → ∀ d, u.draw = some d → holdsActive x (chanOf d.channel s).receiver = true) :
    Quiet s (setUnit x u s) := by
  refine ⟨rfl, fun y => ?_, fun h => h.setUnit hp hb (hd h)⟩
  rw [unitOf_setUnit]
  split
  · subst y; exact hs
  · rfl

/-- The draw of a unit that keeps it. -/
theorem StationLaw.drawActive {x : Station} {d : Draw} {s : State} (h : StationLaw s)
    (hd : (unitOf x s).draw = some d) :
    holdsActive x (chanOf d.channel s).receiver = true := (stationLaw_iff.mp h x).draw d hd

theorem quiet_setLink {x : Station} {l : LinkInterface} {s : State}
    (h : (linkOf x s).inQueue.length ≤ 4 → l.inQueue.length ≤ 4) : Quiet s (setLink x l s) :=
  ⟨rfl, fun _ => rfl, fun hs => hs.setLink h⟩

theorem quiet_setLease {e : Fin 16} {l : LeaseEntry} {s : State}
    (h : ∀ y, isPresent y s = false → Uninvolved y (leaseOf e s) → Uninvolved y l) : Quiet s (setLease e l s) :=
  ⟨rfl, fun _ => rfl, fun hs => hs.setLease h⟩

theorem quiet_setWaitCount {x : Station} {n : Nat} {s : State}
    (h : isPresent x s = false → s.waitCounts.get x = 0 → n = 0) : Quiet s (setWaitCount x n s) :=
  ⟨rfl, fun _ => rfl, fun hs => hs.setWaitCount h⟩

theorem quiet_setStore (st : Store) (s : State) : Quiet s (setStore st s) := quiet_rest rfl rfl rfl rfl rfl

theorem quiet_setSevere (l : List Station) (s : State) : Quiet s (setSevere l s) := quiet_rest rfl rfl rfl rfl rfl

theorem quiet_freeTick (n : Nat) (s : State) : Quiet s { s with freeTick := n } := quiet_rest rfl rfl rfl rfl rfl

/-! ### Notices and faults -/

theorem quiet_setFaults {x : Station} (r : FaultRecord) (s : State) :
    Quiet s (setUnit x { unitOf x s with faults := r } s) :=
  quiet_setUnit rfl rfl (fun h => h) fun h _ hd => h.drawActive hd

/-- R134: an ABSENT station's queue stays empty. -/
theorem quiet_setNotices {x : Station} {q : List Notice} {s : State}
    (h : isPresent x s = false → (unitOf x s).notices = [] → q = []) : Quiet s (setNotices x q s) := by
  refine quiet_setUnit rfl rfl (fun hb => ?_) fun h _ hd => h.drawActive hd
  obtain ⟨h1, h2, h3, h4, h5⟩ := hb
  refine ⟨h1, h2, h3, h4, fun hp => ?_⟩
  obtain ⟨k1, k2, k3, k4, k5⟩ := h5 hp
  exact ⟨k1, k2, h hp k3, k4, k5⟩

theorem quiet_offerFault (x : Station) (k : FaultKind) (n : Nat) (s : State) : Quiet s (offerFault x k n s) := by
  unfold offerFault
  split
  · rename_i hp
    exact quiet_setNotices fun ha => absurd hp (by rw [ha]; exact Bool.false_ne_true)
  · exact Quiet.refl s

theorem quiet_recordFault (x : Station) (k : FaultKind) (i : CaptureInfo) (s : State) :
    Quiet s (recordFault x k i s) := by
  unfold recordFault markSevere
  simp only
  split
  · split
    · split
      · exact (quiet_setFaults _ s).trans (quiet_offerFault _ _ _ _)
      · exact ((quiet_setFaults _ s).trans (quiet_offerFault _ _ _ _)).trans (quiet_setSevere _ _)
    · exact (quiet_setFaults _ s).trans (quiet_offerFault _ _ _ _)
  · exact quiet_setFaults _ s

theorem quiet_offer (x : Station) (n : Notice) (s : State) : Quiet s (offer x n s) := by
  unfold offer
  simp only
  split
  · rename_i hp
    have queued : Quiet s (setNotices x (offerFate n (unitOf x s).notices).queue s) :=
      quiet_setNotices fun ha => absurd hp (by rw [ha]; exact Bool.false_ne_true)
    split
    · exact queued.trans (quiet_recordFault _ _ _ _)
    · exact queued
  · exact Quiet.refl s

theorem quiet_withdraw (x : Station) (n : Notice) (s : State) : Quiet s (withdraw x n s) :=
  quiet_setNotices fun _ h => by rw [h]; rfl

theorem quiet_offerArrival (c : Fin 8) (s : State) : Quiet s (offerArrival c s) := by
  rcases offerArrival_cases c s with k | ⟨y, k⟩ <;> rw [k]
  · exact Quiet.refl s
  · exact quiet_offer _ _ _

theorem quiet_tellReceiver (x : Station) (c : Fin 8) (s : State) : Quiet s (tellReceiver x c s) := by
  rcases tellReceiver_cases x c s with k | ⟨y, k⟩ <;> rw [k]
  · exact Quiet.refl s
  · exact quiet_offer _ _ _

theorem quiet_tellSender (x : Station) (c : Fin 8) (s : State) : Quiet s (tellSender x c s) := by
  rcases tellSender_cases x c s with k | ⟨y, k⟩ <;> rw [k]
  · exact Quiet.refl s
  · exact quiet_offer _ _ _

theorem quiet_withdrawArrival (c : Fin 8) (s : State) : Quiet s (withdrawArrival c s) := by
  unfold withdrawArrival
  split
  · exact Quiet.refl s
  · exact quiet_withdraw _ _ _

theorem quiet_offerFlow (c : Fin 8) (v : Bool) (s : State) : Quiet s (offerFlow c v s) := by
  unfold offerFlow
  split
  · exact Quiet.refl s
  · exact quiet_offer _ _ _

theorem quiet_recordDamage (x : Station) (c : Fin 8) (seq : Half) (bad : Bool) (s : State) :
    Quiet s (recordDamage x c seq bad s) := by
  unfold recordDamage
  split
  · exact quiet_recordFault _ _ _ _
  · exact Quiet.refl s

/-! ### Frames out and the reply cache -/

theorem quiet_transmit (x : Station) (f : OutFrame) (d : Bool) (s : State) : Quiet s (transmit x f d s) := by
  unfold transmit
  exact quiet_setLink fun h => h

theorem unitBounds_cacheInsert {u : StationUnit} (e : CacheEntry) (hp : (u.record.presence == .present) = true)
    (h : UnitBounds u) : UnitBounds { u with cache := cacheInsert e u.cache } := by
  obtain ⟨-, h2, h3, h4, -⟩ := h
  refine ⟨List.length_take_le _ _, ?_, h3, h4, fun ha => ?_⟩
  · have hnodup : ((e :: u.cache.filter fun old => old.tag != e.tag).map (·.tag)).Nodup := by
      rw [List.map_cons, List.nodup_cons]
      refine ⟨fun hm => ?_, (List.filter_sublist.map _).nodup h2⟩
      obtain ⟨old, ho, ht⟩ := List.mem_map.mp hm
      have := (List.mem_filter.mp ho).2
      simp [ht] at this
    exact ((List.take_sublist _ _).map _).nodup hnodup
  · simp only at ha
    rw [hp] at ha
    cases ha

/-- R146: the cache of a PRESENT station. -/
theorem quiet_enterCache {x : Station} (e : CacheEntry) {s : State} (hp : isPresent x s = true) :
    Quiet s (enterCache x e s) :=
  quiet_setUnit rfl rfl (unitBounds_cacheInsert e hp) fun h _ hd => h.drawActive hd

/-- A change that the law of the stations says happens to a PRESENT station. -/
theorem Quiet.of_present {x : Station} {s t : State} (h : StationLaw s → isPresent x s = true)
    (hc : t.channels = s.channels) (hs : ∀ y, stagedView (unitOf y t) = stagedView (unitOf y s))
    (hq : isPresent x s = true → Quiet s t) : Quiet s t :=
  ⟨hc, hs, fun hl => (hq (h hl)).law hl⟩

theorem stagedView_of_staging {u v : StationUnit} (h : u.staging = v.staging) : stagedView u = stagedView v := by
  rw [stagedView, h, stagedView]

/-- R134, R147: a station with a cached reply is PRESENT. -/
theorem StationLaw.present_of_cache {x : Station} {f : Frame} {e : CacheEntry} {s : State} (h : StationLaw s)
    (he : cacheMatch x f s = some e) : isPresent x s = true := by
  by_contra hp
  obtain ⟨-, -, -, hcache, -⟩ := (stationLaw_iff.mp h x).bounds.absent (by simpa [isPresent] using hp)
  have hmem := List.mem_of_find?_eq_some he
  rw [hcache] at hmem
  cases hmem

/-- R134: a station with a draw in flight is PRESENT. -/
theorem StationLaw.present_of_draw {x : Station} {d : Draw} {s : State} (h : StationLaw s)
    (hd : (unitOf x s).draw = some d) : isPresent x s = true := by
  by_contra hp
  obtain ⟨-, hnone, -⟩ := (stationLaw_iff.mp h x).bounds.absent (by simpa [isPresent] using hp)
  rw [hnone] at hd
  cases hd

theorem quiet_answerFromCache {x : Station} {f : Frame} {e : CacheEntry} {s : State} (he : cacheMatch x f s = some e) :
    Quiet s (answerFromCache x e s) := by
  refine Quiet.of_present (x := x) (fun h => h.present_of_cache he) rfl (fun y => stagedView_of_staging ?_) fun hp => ?_
  · simp [answerFromCache]
  · exact (quiet_enterCache e hp).trans (quiet_transmit _ _ _ _)

theorem quiet_finishReply (x : Station) (f : Frame) (r : OutFrame) (s : State) : Quiet s (finishReply x f r s) := by
  unfold finishReply
  simp only
  split
  · rename_i h
    exact (quiet_enterCache _ (Bool.and_eq_true _ _ ▸ h).1).trans (quiet_transmit _ _ _ _)
  · exact quiet_transmit _ _ _ _

theorem quiet_refuseRequest (x : Station) (f : Frame) (r : OutFrame) (k : FaultKind) (s : State) :
    Quiet s (refuseRequest x f r k s) := (quiet_recordFault _ _ _ _).trans (quiet_finishReply _ _ _ _)

/-! ### The draw engine -/

/-- A unit's draw goes, or its channel stays. -/
theorem quiet_setDraw {x : Station} {d : Option Draw} {s : State}
    (h : ∀ e, d = some e → ∃ d0, (unitOf x s).draw = some d0 ∧ d0.channel = e.channel) :
    Quiet s (setUnit x { unitOf x s with draw := d } s) := by
  refine quiet_setUnit rfl rfl (fun hb => ?_) fun hl e he => ?_
  · obtain ⟨h1, h2, h3, h4, h5⟩ := hb
    refine ⟨h1, h2, h3, h4, fun hp => ?_⟩
    obtain ⟨k1, k2, k3, k4, k5⟩ := h5 hp
    refine ⟨k1, ?_, k3, k4, k5⟩
    cases d with
    | none => rfl
    | some e =>
      obtain ⟨d0, hd0, -⟩ := h e rfl
      rw [k2] at hd0
      cases hd0
  · obtain ⟨d0, hd0, hc⟩ := h e he
    rw [← hc]
    exact hl.drawActive hd0

/-- R79: the end of the draw in flight. -/
theorem quiet_endDraw {x : Station} {d0 : Draw} (d : Draw) (reason : DrawReason) {s : State}
    (hd : (unitOf x s).draw = some d0) : Quiet s (endDraw x d reason s) := by
  refine Quiet.of_present (x := x) (fun h => h.present_of_draw hd) ?_ (fun y => stagedView_of_staging ?_) fun hp => ?_
  · unfold endDraw
    simp only
    split <;> rfl
  · unfold endDraw
    simp only
    split
    · by_cases hy : y = x
      · subst hy; simp
      · rw [Station.eq_peer_of_ne hy]; simp
    · by_cases hy : y = x
      · subst hy; simp
      · rw [Station.eq_peer_of_ne hy]; simp
  · unfold endDraw
    simp only
    have ended : ∀ e, Quiet s (setUnit x { unitOf x (enterCache x e s) with draw := none } (enterCache x e s)) :=
      fun e => (quiet_enterCache e hp).trans (quiet_setDraw fun _ h => nomatch h)
    have sent : ∀ e f, Quiet s
        (transmit x f false (setUnit x { unitOf x (enterCache x e s) with draw := none } (enterCache x e s))) :=
      fun e f => (ended e).trans (quiet_transmit _ _ _ _)
    split
    · exact sent _ _
    · refine (sent _ _).trans ((quiet_enterCache _ ?_).trans (quiet_transmit _ _ _ _))
      rw [isPresent_transmit, isPresent_setUnit _ _ _ _ (by rfl)]
      simpa [isPresent] using hp

theorem quiet_haltDraw {x : Station} {d : Draw} (tag : Byte) {s : State} (hd : (unitOf x s).draw = some d) :
    Quiet s (haltDraw x d tag s) := by
  unfold haltDraw
  simp only
  split
  · refine quiet_setDraw fun e he => ⟨d, hd, ?_⟩
    rw [← Option.some.inj he]
  · exact quiet_endDraw _ _ hd

/-! ### Leases -/

theorem quiet_expireWaiter (e : Fin 16) (w : Waiter) (s : State) : Quiet s (expireWaiter e w s) :=
  (quiet_setWaitCount fun _ h => by rw [h]).trans (quiet_offer _ _ _)

/-- R99: a hand-on makes no ABSENT station a holder. -/
theorem quiet_handOn (e : Fin 16) (s : State) : Quiet s (handOn e s) := by
  have entry : ∀ l, handedOn (leaseOf e s) = l → Quiet s (setLease e l s) := fun l hl =>
    quiet_setLease fun y _ h => hl ▸ handedOn_uninvolved h.2
  unfold handOn
  simp only
  split
  · rename_i hw
    exact entry _ (by simp [handedOn, hw])
  · rename_i w ws hw
    split
    · rename_i hx
      exact (entry _ (by simp [handedOn, hw, hx])).trans (Quiet.foldl (fun t w => quiet_expireWaiter e w t) _ _)
    · rename_i hx
      exact ((entry _ (by simp [handedOn, hw, hx])).trans (quiet_setWaitCount fun _ h => by rw [h])).trans
        (quiet_offer _ _ _)

theorem uninvolved_recordEnding {y : Station} {ending : Ending} {l : LeaseEntry} :
    Uninvolved y (recordEnding ending l) ↔ Uninvolved y l := by
  rw [Uninvolved, Uninvolved, recordEnding_waiters, heldBy, recordEnding_hold, heldBy]

theorem quiet_recordEnding (e : Fin 16) (ending : Ending) (s : State) :
    Quiet s (setLease e (recordEnding ending (leaseOf e s)) s) :=
  quiet_setLease fun _ _ h => uninvolved_recordEnding.mpr h

theorem quiet_endHold (e : Fin 16) (ending : Ending) (s : State) : Quiet s (endHold e ending s) :=
  (quiet_recordEnding e ending s).trans (quiet_handOn _ _)

theorem uninvolved_filter {y : Station} {l : LeaseEntry} (p : Waiter → Bool) (h : Uninvolved y l) :
    Uninvolved y { l with waiters := l.waiters.filter p } := by
  refine ⟨h.1, ?_⟩
  have := h.2
  rw [List.all_eq_true] at *
  exact fun w hw => this w (List.mem_of_mem_filter hw)

theorem quiet_removeWaiter (e : Fin 16) (x : Station) (client : Fin 8) (s : State) :
    Quiet s (removeWaiter e x client s) :=
  (quiet_setLease fun _ _ h => uninvolved_filter _ h).trans (quiet_setWaitCount fun _ h => by rw [h])

end Sys2Proof.Machine
end

section
/-!
PROOFS. Requests and events that the accounts of the channels do not see (chapters 6 to 10).
-/

namespace Sys2Proof.Machine

/-! ### Links -/

theorem quiet_setRx (x : Station) (rx : Receiver) (s : State) : Quiet s (setRx x rx s) := quiet_setLink fun h => h

theorem quiet_dropFrame (x : Station) (header : List Byte) (s : State) : Quiet s (dropFrame x header s) :=
  (quiet_setRx _ _ _).trans (quiet_recordFault _ _ _ _)

theorem quiet_restartKeepalive (x : Station) (s : State) : Quiet s (restartKeepalive x s) := by
  unfold restartKeepalive
  simp only
  split
  · rename_i h
    have hp : isPresent x s = true := (Bool.and_eq_true _ _ ▸ h).1
    refine quiet_setUnit rfl rfl (fun hb => ?_) fun hl _ hd => hl.drawActive hd
    obtain ⟨h1, h2, h3, h4, -⟩ := hb
    exact ⟨h1, h2, h3, h4, fun ha => absurd hp (by rw [isPresent, ha]; exact Bool.false_ne_true)⟩
  · exact Quiet.refl s

theorem quiet_joinQueue (x : Station) (f : Frame) (s : State) : Quiet s (joinQueue x f s) := by
  unfold joinQueue
  simp only
  split
  · rename_i h
    refine quiet_setLink fun _ => ?_
    rw [List.length_append, List.length_singleton]
    exact h
  · exact quiet_recordFault _ _ _ _

/-- R141: a good frame, a HALT that acts at its arrival included. -/
theorem quiet_goodFrame (x : Station) (f : Frame) (s : State) : Quiet s (goodFrame x f s) := by
  unfold goodFrame
  simp only
  refine (quiet_restartKeepalive x s).trans ?_
  split
  · rename_i d hd
    refine quiet_haltDraw _ ?_
    unfold haltTarget at hd
    split at hd
    · cases hd
    · rename_i d0 hd0
      split at hd
      · rw [hd0]; exact hd
      · cases hd
  · exact quiet_joinQueue _ _ _

theorem quiet_completeFrame (x : Station) (len : Byte) (body : List Byte) (crc : Half) (s : State) :
    Quiet s (completeFrame x len body crc s) := by
  unfold completeFrame
  simp only
  split
  · split
    · exact (quiet_setRx _ _ _).trans (quiet_goodFrame _ _ _)
    · exact (quiet_setRx _ _ _).trans (quiet_recordFault _ _ _ _)
  · exact quiet_dropFrame _ _ _

theorem quiet_takeCharacter (x : Station) (b : Byte) (s : State) : Quiet s (takeCharacter x b s) := by
  unfold takeCharacter
  simp only
  split
  · exact Quiet.refl s
  · refine (quiet_setRx x { (linkOf x s).rx with lastCharacter := s.timeBase } s).trans ?_
    split
    · split
      · exact quiet_setRx _ _ _
      · exact Quiet.refl _
    · unfold takeLength
      split
      · exact quiet_setRx _ _ _
      · exact quiet_dropFrame _ _ _
    · unfold takeBody
      simp only
      split
      · exact quiet_setRx _ _ _
      · exact quiet_setRx _ _ _
    · unfold takeCheck
      split
      · exact quiet_setRx _ _ _
      · exact quiet_completeFrame _ _ _ _ _

theorem quiet_abortFrame (x : Station) (s : State) : Quiet s (abortFrame x s) := by
  unfold abortFrame
  simp only
  split
  · exact Quiet.refl s
  · split
    · exact Quiet.refl s
    · exact quiet_dropFrame _ _ _

theorem quiet_frameArrives (x : Station) (body : List Byte) (crc : Half) (s : State) :
    Quiet s (frameArrives x body crc s) := by
  unfold frameArrives
  simp only
  split
  · exact Quiet.refl s
  · refine (quiet_setRx x { (linkOf x s).rx with lastCharacter := s.timeBase } s).trans ?_
    split
    · exact quiet_completeFrame _ _ _ _ _
    · exact quiet_dropFrame _ _ _

theorem quiet_shiftTransmitter (x : Station) (s : State) : Quiet s (shiftTransmitter x s) := by
  unfold shiftTransmitter
  exact quiet_setLink fun h => h

/-! ### Time and the part -/

theorem unitBounds_tickUnit {u : StationUnit} (h : UnitBounds u) : UnitBounds (tickUnit u) := by
  obtain ⟨h1, h2, h3, h4, h5⟩ := h
  refine ⟨h1, h2, by simpa [tickUnit] using h3, h4, fun hp => ?_⟩
  obtain ⟨k1, k2, k3, k4, k5⟩ := h5 hp
  refine ⟨?_, ?_, k3, k4, ?_⟩
  · simp [tickUnit, k1]
  · simp [tickUnit, k2]
  · simp [tickUnit, k5]

theorem uninvolved_tickLease {x : Station} {l : LeaseEntry} (h : Uninvolved x l) : Uninvolved x (tickLease l) := by
  obtain ⟨h1, h2⟩ := h
  refine ⟨?_, by simpa [tickLease] using h2⟩
  rw [← h1]
  unfold heldBy tickLease
  cases l.hold <;> rfl

/-- R150: a millisecond of every timer. -/
def tickedState (s : State) : State :=
  { s with
    timeBase := s.timeBase + 1
    links := { a := tickLink s.links.a, b := tickLink s.links.b }
    units := { a := tickUnit s.units.a, b := tickUnit s.units.b }
    leases := s.leases.map tickLease }

theorem unitOf_tickedState (y : Station) (s : State) : unitOf y (tickedState s) = tickUnit (unitOf y s) := by
  cases y <;> rfl

theorem inQueue_tickedState (y : Station) (s : State) : (linkOf y (tickedState s)).inQueue = (linkOf y s).inQueue := by
  have hlink : linkOf y (tickedState s) = tickLink (linkOf y s) := by
    cases y
    · exact congrArg tickLink (Eq.refl s.links.a)
    · exact congrArg tickLink (Eq.refl s.links.b)
  rw [hlink, tickLink]

theorem leaseOf_tickedState (e : Fin 16) (s : State) : leaseOf e (tickedState s) = tickLease (leaseOf e s) := by
  simp [leaseOf, tickedState]

theorem isPresent_tickedState (y : Station) (s : State) : isPresent y (tickedState s) = isPresent y s := by
  rw [isPresent, unitOf_tickedState]
  rfl

theorem quiet_tickedState (s : State) : Quiet s (tickedState s) := by
  refine ⟨rfl, fun y => ?_, fun h => ?_⟩
  · rw [unitOf_tickedState]
    simp [stagedView, tickUnit, Function.comp_def]
  · rw [stationLaw_iff] at *
    intro y
    obtain ⟨hbounds, hin, hw, hle, he, ha, hdraw⟩ := h y
    refine ⟨?_, ?_, ?_, fun hp e => ?_, ?_, ?_, fun d hd => ?_⟩
    · rw [unitOf_tickedState]; exact unitBounds_tickUnit hbounds
    · rw [inQueue_tickedState]; exact hin
    · rw [isPresent_tickedState]; exact hw
    · rw [isPresent_tickedState] at hp
      rw [leaseOf_tickedState]
      exact uninvolved_tickLease (hle hp e)
    · rw [isPresent_tickedState]; exact he
    · rw [isPresent_tickedState]; exact ha
    · rw [unitOf_tickedState] at hd
      obtain ⟨d0, hd0, rfl⟩ := Option.map_eq_some_iff.mp hd
      exact hdraw d0 hd0

theorem quiet_tick (s : State) : Quiet s (tick s) := by
  unfold tick
  split
  · exact Quiet.refl s
  · exact quiet_rest rfl rfl rfl rfl rfl
  · exact quiet_tickedState s

theorem quiet_releaseReset (p : StrapPins) (s : State) : Quiet s (releaseReset p s) := by
  unfold releaseReset
  split <;> exact quiet_rest rfl rfl rfl rfl rfl

theorem quiet_completeInit (s : State) : Quiet s (completeInit s) := by
  unfold completeInit
  split <;> exact quiet_rest rfl rfl rfl rfl rfl

theorem quiet_bitErrors (b : Fin 256) (places : List BitPlace) (s : State) : Quiet s (bitErrors b places s) := by
  unfold bitErrors
  split <;> exact quiet_rest rfl rfl rfl rfl rfl

/-! ### Notices and signals -/

theorem quiet_setSignals {x : Station} {g : SignalSet} {s : State}
    (h : (∀ f : Fin 16, (unitOf x s).signals.counts[f] ≤ 15) → ∀ f : Fin 16, g.counts[f] ≤ 15) :
    Quiet s (setSignals x g s) := by
  refine quiet_setUnit rfl rfl (fun hb => ?_) fun hl _ hd => hl.drawActive hd
  obtain ⟨h1, h2, h3, h4, h5⟩ := hb
  exact ⟨h1, h2, h3, h h4, h5⟩

theorem quiet_withdrawSignals (x : Station) (s : State) : Quiet s (withdrawSignals x s) := by
  unfold withdrawSignals
  split
  · exact Quiet.refl s
  · exact quiet_withdraw _ _ _

theorem quiet_ownerCollect (x : Station) (m : Nat) (s : State) : Quiet s (ownerCollect x m s).state := by
  refine quiet_setUnit rfl rfl (fun hb => ?_) fun hl _ hd => hl.drawActive hd
  obtain ⟨h1, h2, h3, h4, h5⟩ := hb
  refine ⟨h1, h2, h3, h4, fun hp => ?_⟩
  obtain ⟨k1, k2, k3, k4, k5⟩ := h5 hp
  exact ⟨k1, k2, by simp [takeNotices, k3], k4, k5⟩

theorem quiet_ownerRaise (x : Station) (flags : Half) (s : State) : Quiet s (ownerRaise x flags s).state := by
  unfold ownerRaise
  simp only
  split
  · have raised : Quiet s (setSignals x.peer (raiseFlags flags (unitOf x.peer s).signals) s) := by
      refine quiet_setSignals fun h f => ?_
      simp only [raiseFlags, Fin.getElem_fin, Vector.getElem_mapIdx]
      split
      · exact Nat.min_le_left _ _
      · exact h f
    refine raised.trans ?_
    show Quiet _ (offerSignals _ _)
    unfold offerSignals
    split
    · exact quiet_offer _ _ _
    · exact Quiet.refl _
  · exact Quiet.refl s

theorem quiet_ownerAccept (x : Station) (flags : Half) (s : State) : Quiet s (ownerAccept x flags s).state := by
  have accepted : Quiet s (setSignals x (acceptFlags flags (unitOf x s).signals) s) := by
    refine quiet_setSignals fun h f => ?_
    simp only [acceptFlags, Fin.getElem_fin, Vector.getElem_mapIdx]
    split
    · exact Nat.zero_le _
    · exact h f
  exact accepted.trans (quiet_withdrawSignals _ _)

theorem quiet_ownerMask (x : Station) (mask : Half) (s : State) : Quiet s (ownerMask x mask s).state := by
  show Quiet s (applyMask x mask s)
  unfold applyMask
  simp only
  have masked : Quiet s (setSignals x { (unitOf x s).signals with mask := mask } s) := quiet_setSignals fun h => h
  refine masked.trans ?_
  split
  · exact quiet_offer _ _ _
  · exact quiet_withdrawSignals _ _

/-! ### Leases -/

/-- A PRESENT station may hold and wait. -/
theorem quiet_setLease_own {x : Station} {e : Fin 16} {l : LeaseEntry} {s : State} (hp : isPresent x s = true)
    (h : ∀ y, y ≠ x → Uninvolved y (leaseOf e s) → Uninvolved y l) : Quiet s (setLease e l s) :=
  quiet_setLease fun y hy => h y fun e => absurd hp (by rw [← e, hy]; exact Bool.false_ne_true)

theorem quiet_ownerAcquire {x : Station} (a : AcquireFields) {s : State} (hp : isPresent x s = true) :
    Quiet s (ownerAcquire x a s).state := by
  unfold ownerAcquire
  simp only
  split
  · split
    · exact Quiet.refl s
    · refine quiet_setLease_own hp fun y hy h => ⟨?_, h.2⟩
      exact beq_eq_false_iff_ne.mpr fun e => hy e.symm
  · unfold acquireHeld
    split
    · exact Quiet.refl s
    · split
      · exact Quiet.refl s
      · split
        · exact Quiet.refl s
        · split
          · exact Quiet.refl s
          · split
            · exact Quiet.refl s
            · split
              · exact Quiet.refl s
              · show Quiet s (appendWaiter x a s)
                have waiting : Quiet s (setLease a.entry
                    { leaseOf a.entry s with
                      waiters := (leaseOf a.entry s).waiters ++
                        [{ station := x, client := a.client, duration := a.duration, wait := a.wait }] } s) := by
                  refine quiet_setLease_own hp fun y hy h => ⟨?_, ?_⟩
                  · exact h.1
                  · rw [List.all_append, h.2, Bool.true_and, List.all_cons, List.all_nil, Bool.and_true]
                    exact bne_iff_ne.mpr fun e => hy e.symm
                refine waiting.trans (quiet_setWaitCount fun ha _ => absurd hp ?_)
                rw [isPresent_setLease] at ha
                rw [ha]
                exact Bool.false_ne_true

theorem quiet_ownerRenew (x : Station) (r : RenewFields) (s : State) : Quiet s (ownerRenew x r s).state := by
  unfold ownerRenew
  simp only
  split
  · exact Quiet.refl s
  · exact Quiet.refl s
  · refine quiet_setLease fun y _ h => ⟨?_, h.2⟩
    rw [← h.1]
    unfold heldBy renewHold
    cases (leaseOf r.entry s).hold <;> rfl

theorem quiet_ownerRelease (x : Station) (r : ReleaseFields) (s : State) : Quiet s (ownerRelease x r s).state := by
  unfold ownerRelease
  simp only
  split
  · exact Quiet.refl s
  · exact Quiet.refl s
  · exact quiet_endHold _ _ _

theorem quiet_ownerCancel (x : Station) (e : Fin 16) (client : Fin 8) (s : State) :
    Quiet s (ownerCancel x e client s).state := by
  unfold ownerCancel
  simp only
  split
  · exact quiet_removeWaiter _ _ _ _
  · exact Quiet.refl s

theorem quiet_lapseHold (e : Fin 16) (s : State) : Quiet s (lapseHold e s) := by
  unfold lapseHold
  simp only
  split
  · exact Quiet.refl s
  · split
    · exact ((quiet_recordEnding _ _ _).trans (quiet_offer _ _ _)).trans (quiet_handOn _ _)
    · exact Quiet.refl s

theorem quiet_expireWait (e : Fin 16) (x : Station) (client : Fin 8) (s : State) :
    Quiet s (expireWait e x client s) := by
  unfold expireWait
  split
  · exact (quiet_removeWaiter _ _ _ _).trans (quiet_offer _ _ _)
  · exact Quiet.refl s

/-! ### Requests that report -/

theorem quiet_ownerInquire (x : Station) (q : InquireFields) (s : State) : Quiet s (ownerInquire x q s).state := by
  cases q <;> exact Quiet.refl s

end Sys2Proof.Machine
end

section
/-!
PROOFS. A property of the state that the quiet changes and the changes of the channel controller carry is carried by
every command and by every step (chapters 1 to 5 and 7).
-/

namespace Sys2Proof.Machine

/-! ### The changes of the channel controller -/

/-- A change of a channel that leaves its ends, its parameters, its counts and the messages' numbers and blocks. -/
structure Requeued (ch dh : Channel) : Prop where
  sender : dh.sender = ch.sender
  receiver : dh.receiver = ch.receiver
  params : dh.params = ch.params
  nextSeq : dh.nextSeq = ch.nextSeq
  reserved : dh.reserved = ch.reserved
  charged : dh.charged = ch.charged
  seqs : dh.queue.map (·.seq) = ch.queue.map (·.seq)
  blocks : dh.queue.map (·.blocks) = ch.queue.map (·.blocks)

/-- R56, R134: LENT messages appear only under an active receiver end. -/
def LentKept (ch dh : Channel) : Prop :=
  (∃ y, holdsActive y ch.receiver = true) ∨ (ch.queue.any isLent = false → dh.queue.any isLent = false)

/-- R38: a message is appended and charged. -/
def postedState (c : Fin 8) (m : Message) (s : State) : State :=
  setChan c { appendMessage m (chanOf c s) with charged := (chanOf c s).charged + m.blocks.length } s

/-- R43: a staging record is created, its place reserved and its blocks charged. -/
def stagedState (x : Station) (r : Staging) (s : State) : State :=
  setChan r.channel { chanOf r.channel s with reserved := 1, charged := (chanOf r.channel s).charged + r.blocks.length }
    (setUnit x { unitOf x s with staging := (unitOf x s).staging ++ [r] } s)

/-- R47: a staging record is gone, its reservation and charge dropped. -/
def droppedState (x : Station) (r : Staging) (s : State) : State :=
  setUnit x { unitOf x s with staging := (unitOf x s).staging.filter fun t => t.channel != r.channel }
    (setChan r.channel (withoutStaging (some r) (chanOf r.channel s)) s)

/-- R46: a staging record becomes a message. -/
def completedState (x : Station) (r : Staging) (m : Message) (s : State) : State :=
  setUnit x { unitOf x s with staging := (unitOf x s).staging.filter fun t => t.channel != r.channel }
    (setChan r.channel { appendMessage m (chanOf r.channel s) with reserved := 0 } s)

/-- R63, R66: messages leave a queue. -/
def removedState (c : Fin 8) (gone kept : List Message) (s : State) : State :=
  setChan c { chanOf c s with queue := kept, charged := (chanOf c s).charged - (blocksOf gone).length } s

/-- R14, R15: an end is closed. -/
def shutState (x : Station) (c : Fin 8) (role : Role) (s : State) : State :=
  setChan c (shutChannel (stagingOn x c s) role (chanOf c s))
    (setUnit x { unitOf x s with staging := keptStaging c role (unitOf x s).staging } s)

/-- The quiet changes and the changes of the channel controller carry `P`. -/
structure Carried (P : State → Prop) : Prop where
  quiet : ∀ {s t}, Quiet s t → P s → P t
  requeued : ∀ {c dh s}, Requeued (chanOf c s) dh → (StationLaw s → LentKept (chanOf c s) dh) → P s →
    P (setChan c dh s)
  /-- R11: the first end of a CLOSED channel is taken. -/
  opened : ∀ {x c role arrival p s}, isPresent x s = true → endHeld (endOf role (chanOf c s)) = false →
    endHeld (endOf role.other (chanOf c s)) = false → P s →
    P (setChan c (takeEnd x role arrival { chanOf c s with params := some p, nextSeq := 0 }) s)
  /-- R12: the second end is taken. -/
  joinedEnd : ∀ {x c role arrival s}, isPresent x s = true → endHeld (endOf role (chanOf c s)) = false →
    endHeld (endOf role.other (chanOf c s)) = true → holdsEnd x (endOf role.other (chanOf c s)) = false → P s →
    P (setChan c (takeEnd x role arrival (chanOf c s)) s)
  closed : ∀ {x c role s}, holdsEnd x (endOf role (chanOf c s)) = true → (unitOf x s).draw = none → P s →
    P (shutState x c role s)
  posted : ∀ {x c m s}, holdsActive x (chanOf c s).sender = true → admission (chanOf c s) m.blocks.length s = none →
    m.state = .queued → m.seq = (chanOf c s).nextSeq → P s → P (postedState c m s)
  staged : ∀ {x r s}, holdsActive x (chanOf r.channel s).sender = true → stagingOn x r.channel s = none →
    (unitOf x s).staging.length < Config.maxStaging → admission (chanOf r.channel s) r.blocks.length s = none → P s →
    P (stagedState x r s)
  replaced : ∀ {x r r1 s}, stagingOn x r.channel s = some r → r1.channel = r.channel → r1.blocks = r.blocks → P s →
    P (replaceStaging x r1 s)
  completed : ∀ {x r m s}, stagingOn x r.channel s = some r → m.blocks = r.blocks → m.state = .queued →
    m.seq = (chanOf r.channel s).nextSeq → P s → P (completedState x r m s)
  dropped : ∀ {x r s}, stagingOn x r.channel s = some r → P s → P (droppedState x r s)
  removed : ∀ {c gone kept s}, kept.Sublist (chanOf c s).queue →
    (blocksOf gone).length + (blocksOf kept).length = (blocksOf (chanOf c s).queue).length → P s →
    P (removedState c gone kept s)
  departed : ∀ {x cause s}, P s → P (depart x cause s)
  joined : ∀ {x j s}, isPresent x s = false → P s → P (joinStation x j s)

/-- R134: a station that holds an active end is PRESENT. -/
theorem StationLaw.present_of_active {x : Station} {c : Fin 8} {role : Role} {s : State} (h : StationLaw s)
    (ha : holdsActive x (endOf role (chanOf c s)) = true) : isPresent x s = true := by
  by_contra hp
  obtain ⟨hsend, hreceive, -⟩ := (stationLaw_iff.mp h x).ends (by simpa using hp) c
  cases role
  · exact Bool.false_ne_true (hsend.symm.trans ha)
  · exact Bool.false_ne_true (hreceive.symm.trans ha)

/-! ### The model's operations as such changes -/

/-- R27: an admitted message has the blocks that it needs. -/
theorem length_allocateAndWrite {ch : Channel} {k : Nat} (data : List Byte) {s : State} (h : admission ch k s = none) :
    (allocateAndWrite k data s).2.length = k :=
  List.length_take_of_le (Kept.admission_free h)

/-- R38: the message that a POST appends. -/
def postedMessage (x : Station) (c : Fin 8) (data : List Byte) (s : State) : Message :=
  { seq := (chanOf c s).nextSeq, length := data.length,
    blocks := (allocateAndWrite (blocksNeeded data.length) data s).2,
    state := .queued, redelivered := false, damaged := false, epoch := (unitOf x s).record.epoch }

theorem postMessage_eq {x : Station} {c : Fin 8} {data : List Byte} {s : State}
    (h : admission (chanOf c s) (blocksNeeded data.length) s = none) :
    ∃ st, postMessage x c data s =
      offerArrival c (evalCongestion c (setStore st (postedState c (postedMessage x c data s) s))) := by
  refine ⟨(allocateAndWrite (blocksNeeded data.length) data s).1.store, ?_⟩
  unfold postedState
  rw [show (postedMessage x c data s).blocks.length = blocksNeeded data.length from length_allocateAndWrite data h]
  rfl

/-- R43: the staging record that a FIRST creates. -/
def newStaging (c : Fin 8) (total : Nat) (data : List Byte) (s : State) : Staging :=
  { channel := c, total := total, received := data.length,
    blocks := (allocateAndWrite (blocksNeeded total) data s).2, damaged := false, timer := Config.segmentTime }

theorem startStaging_eq {x : Station} {c : Fin 8} {total : Nat} {data : List Byte} {s : State}
    (h : admission (chanOf c s) (blocksNeeded total) s = none) :
    ∃ st, startStaging x c total data s =
      evalCongestion c (setStore st (stagedState x (newStaging c total data s) s)) := by
  refine ⟨(allocateAndWrite (blocksNeeded total) data s).1.store, ?_⟩
  unfold stagedState
  rw [show (newStaging c total data s).blocks.length = blocksNeeded total from length_allocateAndWrite data h]
  rfl

/-- R46: the message that a completed staging record becomes. -/
def completedMessage (x : Station) (r : Staging) (s : State) : Message :=
  { seq := (chanOf r.channel s).nextSeq, length := r.total, blocks := r.blocks, state := .queued, redelivered := false,
    damaged := r.damaged, epoch := (unitOf x s).record.epoch }

theorem completeStaging_eq (x : Station) (r : Staging) (s : State) :
    completeStaging x r s = offerArrival r.channel (completedState x r (completedMessage x r s) s) := rfl

theorem dropStaging_eq (x : Station) (r : Staging) (s : State) :
    dropStaging x r s = setStore (freeBlocks r.blocks s.store) (droppedState x r s) := rfl

theorem removeMessages_eq (c : Fin 8) (gone kept : List Message) (s : State) :
    removeMessages c gone kept s = setStore (freeBlocks (blocksOf gone) s.store) (removedState c gone kept s) := rfl

/-- R14, R15: a close is the change of the channel and of the station's staging records, with the CHANNEL_CLOSED offer
while the other end is held. -/
theorem closeEnd_eq (x : Station) (c : Fin 8) (role : Role) (s : State) :
    ∃ st, (closeEnd x c role s).1 = setStore st (shutState x c role s) ∨
      (closeEnd x c role s).1 = offer x.peer (.channelClosed c role) (setStore st (shutState x c role s)) := by
  by_cases h : endHeld (endOf role.other (chanOf c s)) = true
  · refine ⟨releasedStore (stagingOn x c s) role s.store, .inr ?_⟩
    rw [closeEnd_of_held h, closedBefore_frame, releaseEnd_frame, setChan_setChan, shutState, shutChannel_of_held h]
    rfl
  · have hfree := (Bool.not_eq_true _).mp h
    have setStore_setChan : ∀ st ch t, setStore st (setChan c ch t) = setChan c ch (setStore st t) := fun _ _ _ => rfl
    refine ⟨(becomeClosed c (releaseEnd x c role s)).store, .inl ?_⟩
    rw [closeEnd_of_last hfree, becomeClosed_frame, releaseEnd_frame, shutState, shutChannel_of_free hfree,
      setStore_setChan, setStore_setChan, setChan_setChan]
    rfl

/-! ### Changes that requeue -/

theorem requeued_congested (ch : Channel) (v : Bool) : Requeued ch { ch with congested := v } :=
  ⟨rfl, rfl, rfl, rfl, rfl, rfl, rfl, rfl⟩

theorem requeued_of_map {ch : Channel} {f : Message → Message} (hs : ∀ m, (f m).seq = m.seq)
    (hb : ∀ m, (f m).blocks = m.blocks) : Requeued ch { ch with queue := ch.queue.map f } :=
  ⟨rfl, rfl, rfl, rfl, rfl, rfl, by simp [Function.comp_def, hs], by simp [Function.comp_def, hb]⟩

theorem requeued_markDamaged (seq : Half) (ch : Channel) : Requeued ch (markDamaged seq ch) :=
  requeued_of_map (fun m => by split <;> rfl) fun m => by split <;> rfl

theorem any_isLent_markDamaged (seq : Half) (ch : Channel) :
    (markDamaged seq ch).queue.any isLent = ch.queue.any isLent := by
  rw [markDamaged, List.any_map]
  refine congrArg ch.queue.any (funext fun m => ?_)
  simp only [Function.comp]
  split <;> rfl

theorem requeued_returnLent (ch : Channel) : Requeued ch (returnLent ch) :=
  requeued_of_map (fun m => by unfold returnMessage; split <;> rfl) blocks_returnMessage

theorem any_isLent_returnLent (ch : Channel) : (returnLent ch).queue.any isLent = false := by
  rw [returnLent, List.any_map, List.any_eq_false]
  intro m _
  rw [Function.comp, isLent_returnMessage]
  exact Bool.false_ne_true

theorem map_lendFirst {α : Type} {f : Message → α} (hf : ∀ m : Message, f { m with state := .lent } = f m)
    (q : List Message) : (lendFirst q).map f = q.map f := by
  induction q with
  | nil => rfl
  | cons m ms ih =>
    rw [lendFirst]
    split
    · rw [List.map_cons, hf, List.map_cons]
    · rw [List.map_cons, ih, List.map_cons]

theorem requeued_lendFirst (ch : Channel) : Requeued ch { ch with queue := lendFirst ch.queue } :=
  ⟨rfl, rfl, rfl, rfl, rfl, rfl, map_lendFirst (fun _ => rfl) _, map_lendFirst (fun _ => rfl) _⟩

namespace Carried

variable {P : State → Prop}

/-! ### Channels -/

theorem ofEvalCongestion (k : Carried P) {c : Fin 8} {s : State} (h : P s) : P (evalCongestion c s) := by
  unfold evalCongestion
  simp only
  split
  · exact h
  · split
    · exact h
    · exact k.quiet (quiet_offerFlow _ _ _) (k.requeued (requeued_congested _ _) (fun _ => Or.inr fun hl => hl) h)

theorem ofAbandonStaging (k : Carried P) {x : Station} {r : Staging} {s : State}
    (hr : stagingOn x r.channel s = some r) (h : P s) : P (abandonStaging x r s) := by
  rw [abandonStaging, dropStaging_eq]
  exact k.ofEvalCongestion (k.quiet (quiet_setStore _ _) (k.dropped hr h))

theorem ofOwnerOpen (k : Carried P) {x : Station} {o : OpenFields} {s : State} (hp : isPresent x s = true) (h : P s) :
    P (ownerOpen x o s).state := by
  unfold ownerOpen
  simp only
  split
  · exact h
  · rename_i hother
    split
    · exact h
    · split
      · exact h
      · rename_i hrole
        rw [Bool.not_eq_true] at hother hrole
        split
        · rename_i hheld
          split
          · show P (openSecond x o s)
            have taken := k.joinedEnd (arrival := o.arrival) hp hrole hheld hother h
            unfold openSecond
            simp only
            split
            · exact k.quiet ((quiet_offer _ _ _).trans (quiet_tellSender _ _ _)) taken
            · exact k.quiet ((quiet_offer _ _ _).trans (quiet_tellReceiver _ _ _)) taken
          · exact h
        · rename_i hfree
          split
          · exact h
          · exact k.quiet (quiet_offer _ _ _) (k.opened hp hrole (Bool.not_eq_true _ ▸ hfree) h)

theorem ofCloseEnd (k : Carried P) {x : Station} {c : Fin 8} {role : Role} {s : State}
    (hheld : holdsEnd x (endOf role (chanOf c s)) = true) (hd : (unitOf x s).draw = none) (h : P s) :
    P (closeEnd x c role s).1 := by
  obtain ⟨st, e | e⟩ := closeEnd_eq x c role s <;> rw [e]
  · exact k.quiet (quiet_setStore _ _) (k.closed hheld hd h)
  · exact k.quiet ((quiet_setStore _ _).trans (quiet_offer _ _ _)) (k.closed hheld hd h)

theorem ofOwnerClose (k : Carried P) {x : Station} {c : Fin 8} {role : Role} {s : State}
    (hd : (unitOf x s).draw = none) (h : P s) : P (ownerClose x c role s).state := by
  unfold ownerClose
  split
  · rename_i hheld
    exact k.ofCloseEnd hheld hd h
  · exact h

/-! ### Posting -/

theorem ofOwnerPost (k : Carried P) {x : Station} {c : Fin 8} {data : List Byte} {s : State} (h : P s) :
    P (ownerPost x c data s).state := by
  unfold ownerPost
  simp only
  split
  · rename_i hheld
    split
    · exact h
    · rename_i hadmit
      show P (postMessage x c data s)
      obtain ⟨st, hpost⟩ := postMessage_eq (x := x) hadmit
      rw [← length_allocateAndWrite data hadmit] at hadmit
      rw [hpost]
      exact k.quiet (quiet_offerArrival _ _)
        (k.ofEvalCongestion (k.quiet (quiet_setStore _ _) (k.posted hheld hadmit rfl rfl h)))
  · exact h

theorem ofOwnerSegmentFirst (k : Carried P) {x : Station} {c : Fin 8} {total : Nat} {data : List Byte} {s : State}
    (hheld : holdsActive x (chanOf c s).sender = true) (h : P s) : P (ownerSegmentFirst x c total data s).state := by
  unfold ownerSegmentFirst
  split
  · exact h
  · rename_i hfree
    split
    · exact h
    · rename_i hlimit
      split
      · exact h
      · split
        · exact h
        · rename_i hadmit
          show P (startStaging x c total data s)
          obtain ⟨st, hstart⟩ := startStaging_eq (x := x) (data := data) hadmit
          rw [← length_allocateAndWrite data hadmit] at hadmit
          rw [hstart]
          exact k.ofEvalCongestion (k.quiet (quiet_setStore _ _)
            (k.staged (r := newStaging c total data s) hheld (Option.not_isSome_iff_eq_none.mp hfree)
              (Nat.lt_of_not_le hlimit) hadmit h))

theorem ofAddSegment (k : Carried P) {x : Station} {r : Staging} {data : List Byte} {s : State}
    (hr : stagingOn x r.channel s = some r) (h : P s) : P (addSegment x r data s).1 := by
  unfold addSegment
  exact k.replaced (r := r) hr rfl rfl (k.quiet (quiet_setStore _ _) h)

theorem ofOwnerSegmentMiddle (k : Carried P) {x : Station} {c : Fin 8} {data : List Byte} {s : State} (h : P s) :
    P (ownerSegmentMiddle x c data s).state := by
  unfold ownerSegmentMiddle
  split
  · exact h
  · rename_i r hr
    rw [← Kept.stagingOn_channel hr] at hr
    split
    · exact k.ofAbandonStaging hr h
    · exact k.replaced (Kept.stagingOn_addSegment hr) rfl rfl (k.ofAddSegment hr h)

theorem ofOwnerSegmentLast (k : Carried P) {x : Station} {c : Fin 8} {data : List Byte} {s : State} (h : P s) :
    P (ownerSegmentLast x c data s).state := by
  unfold ownerSegmentLast
  split
  · exact h
  · rename_i r hr
    rw [← Kept.stagingOn_channel hr] at hr
    split
    · exact k.ofAbandonStaging hr h
    · split
      · exact k.ofAbandonStaging hr h
      · show P (completeStaging x _ _)
        rw [completeStaging_eq]
        exact k.quiet (quiet_offerArrival _ _)
          (k.completed (Kept.stagingOn_addSegment hr) rfl rfl rfl (k.ofAddSegment hr h))

theorem ofOwnerSegment (k : Carried P) {x : Station} {g : SegmentFields} {s : State} (h : P s) :
    P (ownerSegment x g s).state := by
  unfold ownerSegment
  split
  · rename_i hheld
    split
    · exact k.ofOwnerSegmentFirst hheld h
    · exact k.ofOwnerSegmentMiddle h
    · exact k.ofOwnerSegmentLast h
  · exact h

theorem ofOwnerAbandon (k : Carried P) {x : Station} {c : Fin 8} {s : State} (h : P s) :
    P (ownerAbandon x c s).state := by
  unfold ownerAbandon
  split
  · split
    · exact h
    · rename_i r hr
      rw [← Kept.stagingOn_channel hr] at hr
      exact k.ofAbandonStaging hr h
  · exact h

theorem ofExpireStaging (k : Carried P) {x : Station} {c : Fin 8} {s : State} (h : P s) : P (expireStaging x c s) := by
  unfold expireStaging
  split
  · exact h
  · rename_i r hr
    rw [← Kept.stagingOn_channel hr] at hr
    split
    · exact k.quiet ((quiet_offer _ _ _).trans (quiet_recordFault _ _ _ _)) (k.ofAbandonStaging hr h)
    · exact h

end Carried

end Sys2Proof.Machine
end

section
/-!
PROOFS. Carried properties: deliveries, draws, departures, the path of a request, the commands and the step (chapters 4,
5, 7, 9 and 11).
-/

namespace Sys2Proof.Machine

/-! ### What a delivery leaves -/

theorem unitOf_deliver (y : Station) (c : Fin 8) (m : Message) (off n : Nat) (s : State) :
    unitOf y (deliver c m off n s).1 = unitOf y s := by
  unfold deliver
  simp only
  split <;> rfl

theorem receiver_deliver (c : Fin 8) (m : Message) (off n : Nat) (s : State) :
    (chanOf c (deliver c m off n s).1).receiver = (chanOf c s).receiver := by
  unfold deliver
  simp only
  split
  · rw [chanOf_setChan_self]; rfl
  · rfl

theorem draw_withdrawArrival (y : Station) (c : Fin 8) (s : State) :
    (unitOf y (withdrawArrival c s)).draw = (unitOf y s).draw := by
  unfold withdrawArrival
  split
  · rfl
  · rw [withdraw_draw]

theorem draw_lend (y : Station) (c : Fin 8) (s : State) : (unitOf y (lend c s)).draw = (unitOf y s).draw := by
  unfold lend
  simp only
  split
  · rfl
  · rw [draw_withdrawArrival]; rfl

theorem draw_recordDamage (y x : Station) (c : Fin 8) (seq : Half) (bad : Bool) (s : State) :
    (unitOf y (recordDamage x c seq bad s)).draw = (unitOf y s).draw := by
  unfold recordDamage
  split
  · rw [recordFault_draw]
  · rfl

/-- R56, R77: the state after a delivery from byte 0, with the lend in LEND mode. -/
def deliveredState (c : Fin 8) (mode : DeliveryMode) (m : Message) (s : State) : State :=
  match mode with
  | .lend => lend c (deliver c m 0 (min Config.fetchBytes m.length) s).1
  | .peek => (deliver c m 0 (min Config.fetchBytes m.length) s).1

theorem takeItem_state (x : Station) (d : Draw) (m : Message) (s : State) :
    (takeItem x d m s).1 =
      recordDamage x d.channel m.seq (deliver d.channel m 0 (min Config.fetchBytes m.length) s).2.2
        (deliveredState d.channel d.mode m s) := rfl

theorem fetchMessage_state (x : Station) (c : Fin 8) (mode : DeliveryMode) (m : Message) (s : State) :
    (fetchMessage x c mode m s).state =
      recordDamage x c m.seq (deliver c m 0 (min Config.fetchBytes m.length) s).2.2 (deliveredState c mode m s) := rfl

theorem draw_takeItem (y x : Station) (d : Draw) (m : Message) (s : State) :
    (unitOf y (takeItem x d m s).1).draw = (unitOf y s).draw := by
  rw [takeItem_state, draw_recordDamage]
  unfold deliveredState
  split
  · rw [draw_lend, unitOf_deliver]
  · rw [unitOf_deliver]
/-- A departure leaves the other station's presence. -/
theorem isPresent_depart_peer (x : Station) (cause : Cause) (s : State) :
    isPresent x.peer (depart x cause s) = isPresent x.peer s := by
  rw [isPresent, (unitOf_depart_peer x cause s).1, isPresent]

/-- R74, R75: a draw begins at a station that holds the receiver end, active. -/
theorem quiet_newDraw {x : Station} {c : Fin 8} {d : Draw} {s : State}
    (hheld : holdsActive x (chanOf c s).receiver = true)
    (hc : d.channel = c) : Quiet s (setUnit x { unitOf x s with draw := some d } s) := by
  have staged : ∀ y, stagedView (unitOf y (setUnit x { unitOf x s with draw := some d } s)) = stagedView (unitOf y s) :=
    fun y => by
      rw [unitOf_setUnit]
      split
      · subst y; rfl
      · rfl
  refine Quiet.of_present (x := x) (fun hl => hl.present_of_active (role := .receive) hheld) rfl staged fun hp => ?_
  refine quiet_setUnit rfl rfl (fun hb => ?_) fun _ e he => ?_
  · obtain ⟨h1, h2, h3, h4, -⟩ := hb
    exact ⟨h1, h2, h3, h4, fun ha => absurd hp (by rw [isPresent, ha]; exact Bool.false_ne_true)⟩
  · rw [← Option.some.inj he, hc]
    exact hheld

theorem length_blocksOf_filter (p : Message → Bool) (q : List Message) :
    (blocksOf (q.filter p)).length + (blocksOf (q.filter fun m => !(p m))).length = (blocksOf q).length := by
  have hperm := (List.filter_append_perm p q).flatMap_right (·.blocks)
  rw [← List.length_append, ← Kept.blocksOf_append]
  exact hperm.length_eq

namespace Carried

variable {P : State → Prop}

/-! ### Deliveries -/

theorem ofDeliver (k : Carried P) {c : Fin 8} {m : Message} {off n : Nat} {s : State} (h : P s) :
    P (deliver c m off n s).1 := by
  unfold deliver
  simp only
  have read : P (setStore (readBlocks c m.seq (blocksSpanned m.blocks off n) s.store).1 s) :=
    k.quiet (quiet_setStore _ _) h
  split
  · exact k.requeued (requeued_markDamaged _ _)
      (fun _ => Or.inr fun hl => by rw [any_isLent_markDamaged]; exact hl) read
  · exact read

theorem ofLend (k : Carried P) {c : Fin 8} {s : State}
    (hr : StationLaw s → ∃ y, holdsActive y (chanOf c s).receiver = true) (h : P s) : P (lend c s) := by
  unfold lend
  simp only
  have lent := k.requeued (requeued_lendFirst (chanOf c s)) (fun hl => Or.inl (hr hl)) h
  split
  · exact lent
  · exact k.quiet (quiet_withdrawArrival _ _) lent

theorem ofDelivered (k : Carried P) {c : Fin 8} {mode : DeliveryMode} {m : Message} {s : State}
    (hr : StationLaw (deliver c m 0 (min Config.fetchBytes m.length) s).1 →
      ∃ y, holdsActive y (chanOf c s).receiver = true) (h : P s) : P (deliveredState c mode m s) := by
  cases mode with
  | lend => exact k.ofLend (fun hl => by rw [receiver_deliver]; exact hr hl) (k.ofDeliver h)
  | peek => exact k.ofDeliver h

theorem ofOwnerFetch (k : Carried P) {x : Station} {c : Fin 8} {mode : DeliveryMode} {s : State} (h : P s) :
    P (ownerFetch x c mode s).state := by
  unfold ownerFetch
  simp only
  split
  · rename_i hheld
    split
    · exact h
    · split
      · exact h
      · rw [fetchMessage_state]
        exact k.quiet (quiet_recordDamage _ _ _ _ _) (k.ofDelivered (fun _ => ⟨x, hheld⟩) h)
  · exact h

theorem ofOwnerRead (k : Carried P) {x : Station} {r : ReadFields} {s : State} (h : P s) :
    P (ownerRead x r s).state := by
  unfold ownerRead
  simp only
  split
  · split
    · exact h
    · split
      · exact h
      · exact k.quiet (quiet_recordDamage _ _ _ _ _) (k.ofDeliver h)
  · exact h

theorem ofRemoveMessages (k : Carried P) {c : Fin 8} {gone kept : List Message} {s : State}
    (hkept : kept.Sublist (chanOf c s).queue)
    (hblocks : (blocksOf gone).length + (blocksOf kept).length = (blocksOf (chanOf c s).queue).length) (h : P s) :
    P (removeMessages c gone kept s) := by
  rw [removeMessages_eq]
  exact k.quiet (quiet_setStore _ _) (k.removed hkept hblocks h)

theorem ofOwnerRetire (k : Carried P) {x : Station} {c : Fin 8} {seq : Half} {s : State} (h : P s) :
    P (ownerRetire x c seq s).state := by
  unfold ownerRetire
  simp only
  split
  · split
    · exact h
    · refine k.ofEvalCongestion (k.ofRemoveMessages (List.drop_sublist _ _) ?_ h)
      rw [← List.length_append, ← Kept.blocksOf_append, List.take_append_drop]
  · exact h

theorem ofOwnerReturn (k : Carried P) {x : Station} {c : Fin 8} {s : State} (h : P s) :
    P (ownerReturn x c s).state := by
  unfold ownerReturn
  simp only
  split
  · exact k.requeued (requeued_returnLent _) (fun _ => Or.inr fun _ => any_isLent_returnLent _) h
  · exact h

theorem ofOwnerPurge (k : Carried P) {x : Station} {c : Fin 8} {s : State} (h : P s) : P (ownerPurge x c s).state := by
  unfold ownerPurge
  simp only
  split
  · refine k.quiet (quiet_withdrawArrival _ _) ?_
    have purged := k.ofRemoveMessages (gone := (chanOf c s).queue.filter isQueued)
      (kept := (chanOf c s).queue.filter fun m => !(isQueued m)) List.filter_sublist (length_blocksOf_filter _ _) h
    split
    · exact purged
    · exact k.ofEvalCongestion purged
  · exact h

/-! ### Departures -/

theorem ofDepartFault (k : Carried P) {x : Station} {s : State} (h : P s) : P (departFault x s) := by
  unfold departFault
  split
  · exact k.departed h
  · exact k.quiet (quiet_setSevere _ _) h

theorem ofSettleSecond (k : Carried P) {s : State} (h : P s) : P (settleSecond s) := by
  unfold settleSecond
  split
  · exact h
  · exact k.ofDepartFault h

theorem ofSettle (k : Carried P) {s : State} (h : P s) : P (settle s) := by
  unfold settle
  split
  · exact h
  · exact k.ofSettleSecond (k.ofDepartFault h)
  · exact k.ofSettleSecond (k.ofDepartFault (k.quiet (quiet_freeTick _ _) h))

theorem ofDetectBreak (k : Carried P) {x : Station} {s : State} (h : P s) : P (detectBreak x s) := by
  unfold detectBreak
  simp only
  split
  · exact h
  · have broken : P (setLink x { linkOf x s with
        rx := { (linkOf x s).rx with state := .hunt, inBreak := true }, inQueue := [] } s) :=
      k.quiet (quiet_setLink fun _ => Nat.zero_le _) h
    split
    · exact k.departed broken
    · exact broken

theorem ofLapseKeepalive (k : Carried P) {x : Station} {s : State} (h : P s) : P (lapseKeepalive x s) := by
  unfold lapseKeepalive
  split
  · exact k.departed h
  · exact h

theorem ofDepartForRejoin (k : Carried P) {x : Station} {s : State} (h : P s) : P (departForRejoin x s) := by
  unfold departForRejoin
  split
  · unfold settlePeerOfRejoin
    simp only
    split
    · split
      · exact k.ofDepartFault (k.quiet (quiet_freeTick _ _) (k.departed h))
      · exact k.quiet (quiet_freeTick _ _) (k.departed h)
    · exact k.departed h
  · exact h

end Carried

theorem isPresent_departFault_peer (x : Station) (s : State) : isPresent x (departFault x.peer s) = isPresent x s := by
  unfold departFault
  split
  · have := isPresent_depart_peer x.peer .fault s
    rwa [Station.peer_peer] at this
  · rfl

/-- R126: the station that is to join is ABSENT. -/
theorem isPresent_departForRejoin (x : Station) (s : State) : isPresent x (departForRejoin x s) = false := by
  have hgone : isPresent x (depart x .rejoin s) = false := (hasNothing_depart x .rejoin s).1
  unfold departForRejoin
  split
  · unfold settlePeerOfRejoin
    simp only
    split
    · split
      · rw [isPresent_departFault_peer]; exact hgone
      · exact hgone
    · exact hgone
  · rename_i hp
    exact Bool.not_eq_true _ ▸ hp

namespace Carried

variable {P : State → Prop}

theorem ofOwnerJoin (k : Carried P) {x : Station} {j : JoinFields} {s : State} (h : P s) : P (ownerJoin x j s).state :=
  k.joined (isPresent_departForRejoin x s) (k.ofDepartForRejoin h)

theorem ofOwnerLeave (k : Carried P) {x : Station} {f : Frame} {s : State} (h : P s) : P (ownerLeave x f s).state := by
  rw [ownerLeave_eq]
  exact k.quiet (quiet_transmit _ _ _ _) (k.departed h)

/-! ### Draws -/

theorem ofBuildItem (k : Carried P) {x : Station} {d d0 : Draw} {m : Message} {s : State}
    (hd : (unitOf x s).draw = some d0) (hc : d0.channel = d.channel) (h : P s) : P (buildItem x d m s) := by
  have taken : P (takeItem x d m s).1 := by
    rw [takeItem_state]
    refine k.quiet (quiet_recordDamage _ _ _ _ _) (k.ofDelivered (fun hl => ⟨x, ?_⟩) h)
    have := hl.drawActive (d := d0) (by rw [unitOf_deliver]; exact hd)
    rwa [hc, receiver_deliver] at this
  have hdraw : (unitOf x (takeItem x d m s).1).draw = some d0 := by rw [draw_takeItem]; exact hd
  unfold buildItem
  generalize takeItem x d m s = taking at taken hdraw
  simp only
  split
  · exact k.ofDepartFault taken
  · refine k.quiet ((quiet_setDraw fun e he => ⟨d0, hdraw, ?_⟩).trans (quiet_transmit _ _ _ _)) taken
    rw [← Option.some.inj he]
    exact hc

theorem ofPick (k : Carried P) {x : Station} {d d0 : Draw} {s : State} (hd : (unitOf x s).draw = some d0)
    (hc : d0.channel = d.channel) (h : P s) : P (pick x d s) := by
  unfold pick
  split
  · exact k.quiet (quiet_endDraw _ _ hd) h
  · exact k.ofBuildItem hd hc h

theorem ofAtBoundary (k : Carried P) {x : Station} {d : Draw} {s : State} (hd : (unitOf x s).draw = some d) (h : P s) :
    P (atBoundary x d s) := by
  unfold atBoundary
  split
  · exact k.quiet (quiet_endDraw _ _ hd) h
  · split
    · exact k.quiet (quiet_endDraw _ _ hd) h
    · split
      · exact k.ofPick hd rfl h
      · refine k.quiet (quiet_setDraw fun e he => ⟨d, hd, ?_⟩) h
        rw [← Option.some.inj he]

theorem ofEndTransmission (k : Carried P) {x : Station} {s : State} (h : P s) : P (endTransmission x s) := by
  unfold endTransmission
  split
  · exact h
  · have shifted := k.quiet (quiet_shiftTransmitter x s) h
    simp only
    split
    · rename_i hd
      exact k.ofAtBoundary hd shifted
    · exact shifted

theorem ofItemBoundary (k : Carried P) {x : Station} {s : State} (h : P s) : P (itemBoundary x s) := by
  unfold itemBoundary
  split
  · exact k.ofEndTransmission h
  · exact h

theorem ofExpireSpacing (k : Carried P) {x : Station} {s : State} (h : P s) : P (expireSpacing x s) := by
  unfold expireSpacing
  split
  · exact h
  · rename_i d hd
    split
    · exact h
    · split
      · exact k.ofPick hd rfl h
      · exact h

/-- R75: a DRAW begins at a station that holds the receiver end, active. -/
theorem ofOwnerDraw (k : Carried P) {x : Station} {f : Frame} {d : DrawFields} {s : State} (h : P s) :
    P (ownerDraw x f d s).state := by
  unfold ownerDraw
  split
  · rename_i hheld
    exact k.ofPick (d0 := newDraw f d) (by rw [unitOf_setUnit_self]) rfl (k.quiet (quiet_newDraw hheld rfl) h)
  · exact h

/-! ### The path of a request -/

theorem ofHandleKnown (k : Carried P) {α : Type} {x : Station} {f : Frame} {check : List Byte → Except Status α}
    {owner : α → State → Handled} {s : State}
    (ho : ∀ a, (isPresent x s = true ∨ kindForAbsent f.kind = true) → P (owner a s).state) (h : P s) :
    P (handleKnown x f check owner s) := by
  unfold handleKnown
  split
  · rename_i hcache
    exact k.quiet (quiet_answerFromCache hcache) h
  · unfold dispatch
    split
    · exact k.quiet (quiet_refuseRequest _ _ _ _ _) h
    · rename_i hgate
      have hmay : isPresent x s = true ∨ kindForAbsent f.kind = true := by
        rw [Bool.and_eq_true, Bool.not_eq_true', Bool.not_eq_true'] at hgate
        rcases hp : isPresent x s with _ | _
        · exact Or.inr (by simpa [hp] using hgate)
        · exact Or.inl rfl
      split
      · exact k.quiet (quiet_refuseRequest _ _ _ _ _) h
      · rename_i a _
        have owned := ho a hmay
        split
        · rename_i he
          rw [he] at owned
          exact k.quiet (quiet_finishReply _ _ _ _) owned
        · rename_i he
          rw [he] at owned
          exact owned

/-- A request whose kind an ABSENT station may not send (R148 step 3). -/
theorem ofHandlePresent (k : Carried P) {α : Type} {x : Station} {f : Frame} {check : List Byte → Except Status α}
    {owner : α → State → Handled} {s : State} (hk : kindForAbsent f.kind = false)
    (ho : ∀ a, isPresent x s = true → P (owner a s).state) (h : P s) : P (handleKnown x f check owner s) :=
  k.ofHandleKnown (fun a hmay => ho a (hmay.resolve_right fun e => Bool.false_ne_true (hk.symm.trans e))) h

/-- A request whose owner's execution is a quiet change. -/
theorem ofHandleQuiet (k : Carried P) {α : Type} {x : Station} {f : Frame} {check : List Byte → Except Status α}
    {owner : α → State → Handled} {s : State} (ho : ∀ a, Quiet s (owner a s).state) (h : P s) :
    P (handleKnown x f check owner s) :=
  k.ofHandleKnown (fun a _ => k.quiet (ho a) h) h

theorem ofHandleUnknown (k : Carried P) {x : Station} {f : Frame} {s : State} (h : P s) : P (handleUnknown x f s) := by
  unfold handleUnknown
  split
  · rename_i hcache
    exact k.quiet (quiet_answerFromCache hcache) h
  · exact k.quiet (quiet_refuseRequest _ _ _ _ _) h

theorem ofIte (_k : Carried P) {c : Prop} [Decidable c] {a b : State} (ha : c → P a) (hb : P b) :
    P (if c then a else b) := by
  split
  · rename_i hc
    exact ha hc
  · exact hb

/-- R148: a frame that a station without a draw in flight sends. -/
theorem ofHandleFrame (k : Carried P) {x : Station} {f : Frame} {s : State} (hd : (unitOf x s).draw = none) (h : P s) :
    P (handleFrame x f s) := by
  have notAbsent : ∀ {kind : Byte}, f.kind = kind → kindForAbsent kind = false → kindForAbsent f.kind = false :=
    fun e hk => e ▸ hk
  unfold handleFrame
  refine k.ofIte (fun _ => k.ofHandleKnown (fun _ _ => k.ofOwnerJoin h) h) ?_
  refine k.ofIte (fun _ => k.ofHandleKnown (fun _ _ => k.ofOwnerLeave h) h) ?_
  refine k.ofIte (fun _ => k.ofHandleQuiet (fun _ => Quiet.refl s) h) ?_
  refine k.ofIte (fun _ => k.ofHandleQuiet (fun _ => Quiet.refl s) h) ?_
  refine k.ofIte (fun _ => k.ofHandleQuiet (fun _ => quiet_ownerInquire _ _ _) h) ?_
  refine k.ofIte (fun _ => k.ofHandleQuiet (fun _ => quiet_ownerCollect _ _ _) h) ?_
  refine k.ofIte (fun _ => k.ofHandleQuiet (fun _ => quiet_ownerRaise _ _ _) h) ?_
  refine k.ofIte (fun _ => k.ofHandleQuiet (fun _ => quiet_ownerAccept _ _ _) h) ?_
  refine k.ofIte (fun _ => k.ofHandleQuiet (fun _ => quiet_ownerMask _ _ _) h) ?_
  refine k.ofIte (fun e => k.ofHandlePresent (notAbsent e (by decide)) (fun _ hp => k.ofOwnerOpen hp h) h) ?_
  refine k.ofIte (fun _ => k.ofHandleKnown (fun _ _ => k.ofOwnerClose hd h) h) ?_
  refine k.ofIte (fun _ => k.ofHandleKnown (fun _ _ => k.ofOwnerPost h) h) ?_
  refine k.ofIte (fun _ => k.ofHandleKnown (fun _ _ => k.ofOwnerSegment h) h) ?_
  refine k.ofIte (fun _ => k.ofHandleKnown (fun _ _ => k.ofOwnerAbandon h) h) ?_
  refine k.ofIte (fun _ => k.ofHandleKnown (fun _ _ => k.ofOwnerFetch h) h) ?_
  refine k.ofIte (fun _ => k.ofHandleKnown (fun _ _ => k.ofOwnerRead h) h) ?_
  refine k.ofIte (fun _ => k.ofHandleKnown (fun _ _ => k.ofOwnerRetire h) h) ?_
  refine k.ofIte (fun _ => k.ofHandleKnown (fun _ _ => k.ofOwnerReturn h) h) ?_
  refine k.ofIte (fun _ => k.ofHandleKnown (fun _ _ => k.ofOwnerPurge h) h) ?_
  refine k.ofIte (fun _ => k.ofHandleKnown (fun _ _ => k.ofOwnerDraw h) h) ?_
  refine k.ofIte (fun _ => k.ofHandleQuiet (fun _ => Quiet.refl s) h) ?_
  refine k.ofIte (fun e => k.ofHandlePresent (notAbsent e (by decide))
    (fun _ hp => k.quiet (quiet_ownerAcquire _ hp) h) h) ?_
  refine k.ofIte (fun _ => k.ofHandleQuiet (fun _ => quiet_ownerRenew _ _ _) h) ?_
  refine k.ofIte (fun _ => k.ofHandleQuiet (fun _ => quiet_ownerRelease _ _ _) h) ?_
  refine k.ofIte (fun _ => k.ofHandleQuiet (fun _ => quiet_ownerCancel _ _ _ _) h) ?_
  refine k.ofIte (fun _ => k.ofHandleQuiet (fun _ => Quiet.refl s) h) ?_
  refine k.ofIte (fun _ => k.ofHandleQuiet (fun _ => quiet_setFaults _ _) h) ?_
  refine k.ofIte (fun _ => k.ofHandleQuiet (fun _ => quiet_setFaults _ _) h) ?_
  exact k.ofHandleUnknown h

/-- R145: a frame is taken only from a station without a draw in flight. -/
theorem ofTakeHead (k : Carried P) {x : Station} {f : Frame} {s : State} (h : P s) :
    P (takeHead x f (handleFrame x) s) := by
  unfold takeHead
  simp only
  split
  · exact h
  · rename_i g rest hq
    split
    · rename_i htake
      have hd : (unitOf x s).draw = none := by
        have := htake.2
        rw [mayTake, Bool.and_eq_true, Option.isNone_iff_eq_none] at this
        exact this.1
      refine k.ofHandleFrame (by rw [unitOf_setLink]; exact hd) (k.quiet (quiet_setLink fun hl => ?_) h)
      rw [hq, List.length_cons] at hl
      exact Nat.le_of_succ_le hl
    · exact h

theorem ofRunRequest (k : Carried P) {x : Station} {f : Frame} {s : State} (h : P s) :
    P (runRequest x f (handleFrame x) s) := by
  unfold runRequest
  split
  · apply k.ofSettle
    split
    · exact k.ofTakeHead h
    · split
      · exact h
      · exact k.ofTakeHead (k.quiet (quiet_goodFrame _ _ _) h)
  · exact h

theorem ofRunEvent (k : Carried P) {event : State → State} {s : State} (he : P (event s)) (h : P s) :
    P (runEvent event s) := by
  unfold runEvent
  split
  · exact k.ofSettle he
  · exact h

end Carried

/-! ### The commands -/

theorem chooseEvent_mem (c d : Instr) (rest : List Instr) (n : Nat) : chooseEvent c d rest n ∈ c :: d :: rest := by
  unfold chooseEvent
  simp only
  have hlt : Config.eventChoice n % (c :: d :: rest).length < (c :: d :: rest).length :=
    Nat.mod_lt _ (Nat.zero_lt_succ _)
  rw [List.getD_eq_getElem?_getD, List.getElem?_eq_getElem hlt]
  exact List.getElem_mem hlt

/-- The station and the frame of a request command. -/
def requestOf : Instr → Option (Station × Frame)
  | .join x tag payload => some (x, requestFrame kindJoin tag payload)
  | .leave x tag payload => some (x, requestFrame kindLeave tag payload)
  | .keepalive x tag payload => some (x, requestFrame kindKeepalive tag payload)
  | .identify x tag payload => some (x, requestFrame kindIdentify tag payload)
  | .inquireChannel x tag payload => some (x, requestFrame kindInquire tag payload)
  | .inquireStore x tag payload => some (x, requestFrame kindInquire tag payload)
  | .inquireLease x tag payload => some (x, requestFrame kindInquire tag payload)
  | .inquireStation x tag payload => some (x, requestFrame kindInquire tag payload)
  | .collect x tag payload => some (x, requestFrame kindCollect tag payload)
  | .raise x tag payload => some (x, requestFrame kindRaise tag payload)
  | .accept x tag payload => some (x, requestFrame kindAccept tag payload)
  | .mask x tag payload => some (x, requestFrame kindMask tag payload)
  | .open_ x tag payload => some (x, requestFrame kindOpen tag payload)
  | .close x tag payload => some (x, requestFrame kindClose tag payload)
  | .post x tag payload => some (x, requestFrame kindPost tag payload)
  | .segmentFirst x tag payload => some (x, requestFrame kindSegment tag payload)
  | .segmentMiddle x tag payload => some (x, requestFrame kindSegment tag payload)
  | .segmentLast x tag payload => some (x, requestFrame kindSegment tag payload)
  | .abandon x tag payload => some (x, requestFrame kindAbandon tag payload)
  | .fetchLend x tag payload => some (x, requestFrame kindFetch tag payload)
  | .fetchPeek x tag payload => some (x, requestFrame kindFetch tag payload)
  | .read x tag payload => some (x, requestFrame kindRead tag payload)
  | .retire x tag payload => some (x, requestFrame kindRetire tag payload)
  | .return_ x tag payload => some (x, requestFrame kindReturn tag payload)
  | .purge x tag payload => some (x, requestFrame kindPurge tag payload)
  | .draw x tag payload => some (x, requestFrame kindDraw tag payload)
  | .halt x tag payload => some (x, requestFrame kindHalt tag payload)
  | .acquire x tag payload => some (x, requestFrame kindAcquire tag payload)
  | .renew x tag payload => some (x, requestFrame kindRenew tag payload)
  | .release x tag payload => some (x, requestFrame kindRelease tag payload)
  | .cancel x tag payload => some (x, requestFrame kindCancel tag payload)
  | .faults x tag payload => some (x, requestFrame kindFaults tag payload)
  | .clearFaults x tag payload => some (x, requestFrame kindClearFaults tag payload)
  | .faultPolicy x tag payload => some (x, requestFrame kindFaultPolicy tag payload)
  | .unknownKindRequest x kind tag payload => some (x, requestFrame kind tag payload)
  | _ => none

/-- Every request command handles its frame by the frame's kind. -/
theorem exec_requestOf {i : Instr} {x : Station} {f : Frame} (h : requestOf i = some (x, f)) (s : State) :
    exec i s = .next (runRequest x f (handleFrame x) s) := by
  cases i with
  | unknownKindRequest y kind tag payload => cases h; rfl
  | _ =>
    cases h
    all_goals exact congrArg Host.Outcome.next (runRequest_congr (fun t => by
      simp (decide := true) only [handleFrame, requestFrame, if_true, if_false]) s)

namespace Carried

variable {P : State → Prop}

/-- A request command carries `P`. -/
theorem ofRequest (k : Carried P) {i : Instr} {q : Station × Frame} {s t : State} (hq : requestOf i = some q) (h : P s)
    (he : exec i s = .next t) : P t := by
  obtain ⟨x, f⟩ := q
  rw [exec_requestOf hq] at he
  exact Host.Outcome.next.inj he ▸ k.ofRunRequest h

/-- A command other than RESET_ASSERT carries `P`. -/
theorem ofExec (k : Carried P) {i : Instr} {s t : State} (hi : ∀ p, i ≠ .resetAssert p) (h : P s)
    (he : exec i s = .next t) : P t := by
  cases i with
  | receiveCharacter x b => exact Host.Outcome.next.inj he ▸ k.ofRunEvent (k.quiet (quiet_takeCharacter _ _ _) h) h
  | characterError x => exact Host.Outcome.next.inj he ▸ k.ofRunEvent (k.quiet (quiet_abortFrame _ _) h) h
  | frameComplete x body crc => exact Host.Outcome.next.inj he ▸ k.ofRunEvent (k.quiet (quiet_frameArrives _ _ _ _) h) h
  | gapLimitExpiry x => exact Host.Outcome.next.inj he ▸ k.ofRunEvent (k.quiet (quiet_abortFrame _ _) h) h
  | lineBreak x => exact Host.Outcome.next.inj he ▸ k.ofRunEvent (k.ofDetectBreak h) h
  | itemBoundary x => exact Host.Outcome.next.inj he ▸ k.ofRunEvent (k.ofItemBoundary h) h
  | transmissionEnd x => exact Host.Outcome.next.inj he ▸ k.ofRunEvent (k.ofEndTransmission h) h
  | spacingExpiry x => exact Host.Outcome.next.inj he ▸ k.ofRunEvent (k.ofExpireSpacing h) h
  | segmentTimeout x c => exact Host.Outcome.next.inj he ▸ k.ofRunEvent (k.ofExpireStaging h) h
  | keepaliveLapse x => exact Host.Outcome.next.inj he ▸ k.ofRunEvent (k.ofLapseKeepalive h) h
  | holdLapse e => exact Host.Outcome.next.inj he ▸ k.ofRunEvent (k.quiet (quiet_lapseHold _ _) h) h
  | waitExpiry e x client => exact Host.Outcome.next.inj he ▸ k.ofRunEvent (k.quiet (quiet_expireWait _ _ _ _) h) h
  | breakEnd x => exact Host.Outcome.next.inj he ▸ k.ofRunEvent (k.quiet (quiet_setRx _ _ _) h) h
  | resetAssert p => exact absurd rfl (hi p)
  | resetRelease p => exact Host.Outcome.next.inj he ▸ k.quiet (quiet_releaseReset _ _) h
  | storeInitComplete => exact Host.Outcome.next.inj he ▸ k.quiet (quiet_completeInit _) h
  | bitError b places => exact Host.Outcome.next.inj he ▸ k.quiet (quiet_bitErrors _ _ _) h
  | _ => exact k.ofRequest rfl h he

/-- A step whose front command is not RESET_ASSERT carries `P`. -/
theorem ofStep (k : Carried P) {s t : State} (hi : ∀ p rest, s.pending ≠ Instr.resetAssert p :: rest) (h : P s)
    (he : step s = .next t) : P t := by
  unfold step at he
  split at he
  · rename_i c rest hp
    have popped : P { s with pending := rest } := k.quiet (quiet_rest (s := s) rfl rfl rfl rfl rfl) h
    exact k.ofExec (fun p hc => hi p rest (hp.trans (hc ▸ rfl))) popped he
  · unfold idle at he
    split at he
    · exact Host.Outcome.next.inj he ▸ k.quiet (quiet_tick _) h
    · rename_i c hd
      exact k.ofExec (Kept.dueEvents_ne_reset (by rw [hd]; exact List.mem_singleton_self c)) h he
    · rename_i c d rest hd
      refine k.ofExec (Kept.dueEvents_ne_reset (s := s) ?_) (k.quiet (quiet_freeTick _ _) h) he
      rw [hd]
      exact chooseEvent_mem _ _ _ _

end Carried

/-- A law of the state after reset that is carried is kept by every step. -/
theorem step_carries {P : State → Prop} (hreset : ∀ phase straps pending n, P (resetState phase straps pending n))
    (hcarried : Carried P) (s t : State) (h : P s) (he : step s = .next t) : P t := by
  by_cases hp : ∃ straps rest, s.pending = Instr.resetAssert straps :: rest
  · obtain ⟨straps, rest, hp⟩ := hp
    rw [step_reset hp he]
    exact hreset _ _ _ _
  · exact hcarried.ofStep (fun p rest hc => hp ⟨p, rest, hc⟩) h he

end Sys2Proof.Machine
end

section
/-!
PROOFS. Every step keeps the law of the stations (R17, R18, R40, R74, R107, R109, R110, R118, R128, R134, R142, R146).
-/

namespace Sys2Proof.Machine

/-! ### What another station keeps of a channel -/

/-- What the law of the stations says of the channel for station `y` is kept. -/
structure KeptFor (y : Station) (ch dh : Channel) : Prop where
  nothing : NothingOf y ch → NothingOf y dh
  noDormant : NoDormant y ch → NoDormant y dh
  receiver : holdsActive y ch.receiver = true → holdsActive y dh.receiver = true

theorem KeptFor.refl (y : Station) (ch : Channel) : KeptFor y ch ch := ⟨id, id, id⟩

theorem KeptFor.trans {y : Station} {ch dh eh : Channel} (h : KeptFor y ch dh) (k : KeptFor y dh eh) :
    KeptFor y ch eh :=
  ⟨fun n => k.nothing (h.nothing n), fun n => k.noDormant (h.noDormant n), fun n => k.receiver (h.receiver n)⟩

theorem holdsActive_of_not_held {y : Station} {e : End} (h : holdsEnd y e = false) : holdsActive y e = false := by
  rw [holdsActive, h]; rfl

theorem not_dormant_of_not_held {y : Station} {e : End} (h : holdsEnd y e = false) :
    e ≠ { holder := some y, dormant := true } := fun he => by
  rw [he, holdsEnd_iff.mpr rfl] at h
  cases h

/-- R134: ends that stay or are not the station's own. -/
theorem NothingOf.of_ends {y : Station} {ch dh : Channel} (h : NothingOf y ch)
    (hs : dh.sender = ch.sender ∨ holdsEnd y dh.sender = false)
    (hr : (dh.receiver = ch.receiver ∧ (ch.queue.any isLent = false → dh.queue.any isLent = false)) ∨
      holdsEnd y dh.receiver = false) : NothingOf y dh := by
  obtain ⟨h1, h2, h3⟩ := h
  refine ⟨?_, ?_, ?_⟩
  · rcases hs with e | e
    · rw [e]; exact h1
    · exact holdsActive_of_not_held e
  · rcases hr with ⟨e, -⟩ | e
    · rw [e]; exact h2
    · exact holdsActive_of_not_held e
  · rcases hr with ⟨e, hq⟩ | e
    · rw [e]; exact fun hy => hq (h3 hy)
    · rw [e]; exact fun hy => absurd hy Bool.false_ne_true

theorem NoDormant.of_ends {y : Station} {ch dh : Channel} (h : NoDormant y ch)
    (hs : dh.sender = ch.sender ∨ holdsEnd y dh.sender = false)
    (hr : dh.receiver = ch.receiver ∨ holdsEnd y dh.receiver = false) : NoDormant y dh := by
  obtain ⟨h1, h2⟩ := h
  refine ⟨?_, ?_⟩
  · rcases hs with e | e
    · rw [e]; exact h1
    · exact not_dormant_of_not_held e
  · rcases hr with e | e
    · rw [e]; exact h2
    · exact not_dormant_of_not_held e

/-- Another station's ends: those it holds stay, the others do not become its own. -/
theorem KeptFor.of_ends {y : Station} {ch dh : Channel} (hs : dh.sender = ch.sender ∨ holdsEnd y dh.sender = false)
    (hr : (dh.receiver = ch.receiver ∧ (ch.queue.any isLent = false → dh.queue.any isLent = false)) ∨
      (holdsEnd y ch.receiver = false ∧ holdsEnd y dh.receiver = false)) : KeptFor y ch dh where
  nothing h := h.of_ends hs (hr.imp id And.right)
  noDormant h := h.of_ends hs (hr.imp And.left And.right)
  receiver h := by
    rcases hr with ⟨e, -⟩ | ⟨e, -⟩
    · rw [e]; exact h
    · exact absurd ((holdsActive_of_not_held e).symm.trans h) Bool.false_ne_true

theorem StationLaw.setChan_kept {c : Fin 8} {ch : Channel} {s : State} (h : StationLaw s)
    (hk : ∀ y, KeptFor y (chanOf c s) ch) : StationLaw (Machine.setChan c ch s) :=
  h.setChan (fun y _ => (hk y).nothing) (fun y _ => (hk y).noDormant) fun y _ _ _ => (hk y).receiver

theorem not_holdsEnd_of_ne {x y : Station} {e : End} (hy : y ≠ x) (h : holdsEnd x e = true) : holdsEnd y e = false := by
  rw [holdsEnd_iff] at h
  rw [holdsEnd_eq_false, h]
  exact fun e => hy (Option.some.inj e).symm

theorem not_holdsEnd_of_free {y : Station} {e : End} (h : endHeld e = false) : holdsEnd y e = false :=
  holdsEnd_of_free (by simpa [endHeld] using h)

theorem holdsEnd_of_active {y : Station} {e : End} (h : holdsActive y e = true) : holdsEnd y e = true :=
  (Bool.and_eq_true _ _ ▸ h).1

/-- R56, R64: lends and returns. -/
theorem keptFor_requeued {y : Station} {ch dh : Channel} (hr : Requeued ch dh) (hl : LentKept ch dh) :
    KeptFor y ch dh := by
  rcases hl with ⟨z, hz⟩ | hl
  · by_cases hy : y = z
    · subst y
      have active : holdsActive z dh.receiver = true := hr.receiver.symm ▸ hz
      refine ⟨fun h => absurd hz (by rw [h.2.1]; exact Bool.false_ne_true), fun h => ?_, fun _ => active⟩
      rw [NoDormant, hr.sender, hr.receiver]
      exact h
    · have hfree := not_holdsEnd_of_ne hy (holdsEnd_of_active hz)
      exact KeptFor.of_ends (.inl hr.sender) (.inr ⟨hfree, hr.receiver.symm ▸ hfree⟩)
  · exact KeptFor.of_ends (.inl hr.sender) (.inl ⟨hr.receiver, hl⟩)

/-- R14: an end that another station closes. -/
theorem keptFor_shutChannel {x y : Station} (hy : y ≠ x) {r : Option Staging} {role : Role} {ch : Channel}
    (h : holdsEnd x (endOf role ch) = true) : KeptFor y ch (shutChannel r role ch) := by
  have hself := not_holdsEnd_of_ne hy h
  cases role with
  | send =>
    by_cases hheld : endHeld (endOf Role.send.other ch) = true
    · rw [shutChannel_of_held hheld]
      cases r with
      | none => exact KeptFor.of_ends (.inr rfl) (.inl ⟨rfl, id⟩)
      | some r => exact KeptFor.of_ends (.inr rfl) (.inl ⟨rfl, id⟩)
    · have hfree := (Bool.not_eq_true _).mp hheld
      rw [shutChannel_of_free hfree]
      exact KeptFor.of_ends (.inr rfl) (.inr ⟨not_holdsEnd_of_free hfree, rfl⟩)
  | receive =>
    by_cases hheld : endHeld (endOf Role.receive.other ch) = true
    · rw [shutChannel_of_held hheld]
      exact KeptFor.of_ends (.inl rfl) (.inr ⟨hself, rfl⟩)
    · rw [shutChannel_of_free ((Bool.not_eq_true _).mp hheld)]
      exact KeptFor.of_ends (.inr rfl) (.inr ⟨hself, rfl⟩)

theorem keptFor_shutEnds {x y : Station} (hy : y ≠ x) (test : End → Bool) (r : Option Staging) (ch : Channel) :
    KeptFor y ch (shutEnds x test r ch) := by
  have one : ∀ r role ch, KeptFor y ch (shutEnd x test r role ch) := by
    intro r role ch
    unfold shutEnd
    split
    · rename_i hp
      exact keptFor_shutChannel hy (Bool.and_eq_true _ _ ▸ hp).1
    · exact KeptFor.refl y ch
  exact (one r .send ch).trans (one none .receive _)

/-- R17: the ends that a departure makes dormant are the departing station's. -/
theorem keptFor_dormantChannel {x y : Station} (hy : y ≠ x) (ch : Channel) : KeptFor y ch (dormantChannel x ch) := by
  obtain ⟨-, -, -, -, hs, hs', hr, hr'⟩ := dormantChannel_spec x ch
  refine KeptFor.of_ends ?_ ?_
  · cases h : holdsEnd x ch.sender
    · exact .inl (hs' h)
    · exact .inr (by rw [hs h]; exact holdsEnd_eq_false.mpr fun e => hy (Option.some.inj e).symm)
  · cases h : holdsEnd x ch.receiver
    · obtain ⟨hend, hqueue⟩ := hr' h
      exact .inl ⟨hend, by rw [hqueue]; exact id⟩
    · refine .inr ⟨not_holdsEnd_of_ne hy h, ?_⟩
      rw [(hr h).1]
      exact holdsEnd_eq_false.mpr fun e => hy (Option.some.inj e).symm

theorem keptFor_resumedChannel {x y : Station} (hy : y ≠ x) (ch : Channel) : KeptFor y ch (resumedChannel x ch) := by
  obtain ⟨hs, hs', hr, hr', hrest⟩ := resumedChannel_spec x ch
  have hqueue : (resumedChannel x ch).queue = ch.queue := by rw [hrest]
  refine KeptFor.of_ends ?_ ?_
  · cases h : holdsEnd x ch.sender
    · exact .inl (hs' h)
    · exact .inr (by rw [hs h]; exact holdsEnd_eq_false.mpr fun e => hy (Option.some.inj e).symm)
  · cases h : holdsEnd x ch.receiver
    · exact .inl ⟨hr' h, by rw [hqueue]; exact id⟩
    · refine .inr ⟨not_holdsEnd_of_ne hy h, ?_⟩
      rw [hr h]
      exact holdsEnd_eq_false.mpr fun e => hy (Option.some.inj e).symm

theorem keptFor_sameButAccounts (y : Station) {ch dh : Channel} (h : SameButAccounts ch dh) : KeptFor y ch dh := by
  rw [h]
  exact KeptFor.of_ends (.inl rfl) (.inl ⟨rfl, id⟩)

/-- R11, R12: station `x` takes a free end. -/
theorem StationLaw.takeEnd {x : Station} {c : Fin 8} {role : Role} {arrival : Bool} {ch : Channel} {s : State}
    (h : StationLaw s) (hp : isPresent x s = true) (hfree : endHeld (endOf role (chanOf c s)) = false)
    (hs : ch.sender = (chanOf c s).sender) (hr : ch.receiver = (chanOf c s).receiver)
    (hq : ch.queue = (chanOf c s).queue) : StationLaw (Machine.setChan c (Machine.takeEnd x role arrival ch) s) := by
  have other : ∀ y, y ≠ x → KeptFor y (chanOf c s) (Machine.takeEnd x role arrival ch) := by
    intro y hy
    have new : holdsEnd y { holder := some x, dormant := false } = false :=
      holdsEnd_eq_false.mpr fun e => hy (Option.some.inj e).symm
    cases role with
    | send => exact KeptFor.of_ends (.inr new) (.inl ⟨hr, by rw [← hq]; exact id⟩)
    | receive => exact KeptFor.of_ends (.inl hs) (.inr ⟨not_holdsEnd_of_free hfree, new⟩)
  refine h.setChan (fun y hy => (other y ?_).nothing) (fun y _ hn => ?_) fun y _ _ _ hheld => ?_
  · rintro rfl
    rw [hp] at hy
    cases hy
  · by_cases hy : y = x
    · subst y
      obtain ⟨h1, h2⟩ := hn
      have active : ({ holder := some x, dormant := false } : End) ≠ { holder := some x, dormant := true } :=
        fun e => Bool.false_ne_true (End.mk.inj e).2
      cases role with
      | send => exact ⟨active, hr ▸ h2⟩
      | receive => exact ⟨hs ▸ h1, active⟩
    · exact (other y hy).noDormant hn
  · cases role with
    | send => exact hr.symm ▸ hheld
    | receive =>
      exact absurd ((holdsActive_of_not_held (not_holdsEnd_of_free hfree)).symm.trans hheld) Bool.false_ne_true

/-! ### Staging records -/

/-- A unit's staging records change within the limit; an ABSENT station has none. -/
theorem StationLaw.setStaging {x : Station} {l : List Staging} {s : State} (h : StationLaw s)
    (hlen : (unitOf x s).staging.length ≤ 2 → l.length ≤ 2)
    (hnone : isPresent x s = false → (unitOf x s).staging = [] → l = []) :
    StationLaw (Machine.setUnit x { unitOf x s with staging := l } s) := by
  refine h.setUnit rfl (fun hb => ?_) fun _ hd => h.drawActive hd
  obtain ⟨h1, h2, h3, h4, h5⟩ := hb
  refine ⟨h1, h2, hlen h3, h4, fun hp => ?_⟩
  obtain ⟨k1, k2, k3, k4, k5⟩ := h5 hp
  exact ⟨hnone hp k1, k2, k3, k4, k5⟩

theorem StationLaw.filterStaging {x : Station} (p : Staging → Bool) {s : State} (h : StationLaw s) :
    StationLaw (Machine.setUnit x { unitOf x s with staging := (unitOf x s).staging.filter p } s) :=
  h.setStaging (fun hl => (List.length_filter_le _ _).trans hl) fun _ he => by rw [he]; rfl

/-! ### The close of an end -/

/-- R14, R15: of any station, the two ends after a close. -/
theorem shutChannel_ends (r : Option Staging) (role : Role) (ch : Channel) :
    ((shutChannel r role ch).sender = ch.sender ∨ (shutChannel r role ch).sender = resetEnd) ∧
      (((shutChannel r role ch).receiver = ch.receiver ∧ (shutChannel r role ch).queue = ch.queue) ∨
        (shutChannel r role ch).receiver = resetEnd) := by
  unfold shutChannel
  split
  · cases role with
    | send => cases r <;> exact ⟨.inr rfl, .inl ⟨rfl, rfl⟩⟩
    | receive => exact ⟨.inl rfl, .inr rfl⟩
  · exact ⟨.inr rfl, .inr rfl⟩

theorem keptStaging_sublist (c : Fin 8) (role : Role) (l : List Staging) : (keptStaging c role l).Sublist l := by
  cases role
  · exact List.filter_sublist
  · exact List.Sublist.refl l

theorem StationLaw.shut {x : Station} {c : Fin 8} {role : Role} {s : State}
    (hheld : holdsEnd x (endOf role (chanOf c s)) = true) (hd : (unitOf x s).draw = none) (h : StationLaw s) :
    StationLaw (shutState x c role s) := by
  have kept : StationLaw (Machine.setUnit x
      { unitOf x s with staging := keptStaging c role (unitOf x s).staging } s) :=
    h.setStaging (fun hl => (keptStaging_sublist c role _).length_le.trans hl) fun _ he =>
      List.sublist_nil.mp (he ▸ keptStaging_sublist c role _)
  obtain ⟨hs, hr⟩ := shutChannel_ends (stagingOn x c s) role (chanOf c s)
  have sender : ∀ y, (shutChannel (stagingOn x c s) role (chanOf c s)).sender = (chanOf c s).sender ∨
      holdsEnd y (shutChannel (stagingOn x c s) role (chanOf c s)).sender = false :=
    fun y => hs.imp id fun e => by rw [e]; rfl
  refine kept.setChan (fun y _ => ?_) (fun y _ => ?_) fun y d hdraw _ => ?_
  all_goals rw [chanOf_setUnit]
  · exact fun hn => hn.of_ends (sender y) (hr.imp (fun e => ⟨e.1, by rw [e.2]; exact id⟩) fun e => by rw [e]; rfl)
  · exact fun hn => hn.of_ends (sender y) (hr.imp And.left fun e => by rw [e]; rfl)
  · refine (keptFor_shutChannel (fun e => ?_) hheld).receiver
    subst e
    rw [unitOf_setUnit_self] at hdraw
    rw [hd] at hdraw
    cases hdraw

/-! ### Departures and joins -/

theorem counts_resetSignals (f : Fin 16) : resetSignals.counts[f] ≤ 15 := by
  simp [resetSignals]

/-- R103: a wait count of 0 stays. -/
theorem waitCount_departLeases_of_zero {x y : Station} {s : State} (h : s.waitCounts.get y = 0) :
    (departLeases x s).waitCounts.get y = 0 := by
  rw [departLeases_eq]
  refine foldl_keeps (P := fun t => t.waitCounts.get y = 0) _ (fun e _ t ht => waitCount_revokeOn x e ht) ?_
  rw [waitsRemoved, waitCounts_setWaitCount]
  split
  · rfl
  · exact foldl_keeps (P := fun t => t.waitCounts.get y = 0) (f := fun t e => removeWaits x e t) _
      (fun _ _ _ ht => ht) h

theorem inQueue_stopDraw (x y : Station) (s : State) : (linkOf y (stopDraw x s)).inQueue = (linkOf y s).inQueue := by
  by_cases hy : y = x
  · subst y; rw [linkOf_stopDraw]
  · rw [Station.eq_peer_of_ne hy, linkOf_stopDraw_peer]

/-- R134: the law of the station that has departed. -/
theorem stationParts_departed (x : Station) (cause : Cause) {s : State} (h : StationParts x s) :
    StationParts x (departed x cause s) := by
  obtain ⟨hp, hst, hd, hn, hc, hw, hl, he⟩ := hasNothing_departed x cause s
  have hsignals : (unitOf x (departed x cause s)).signals = resetSignals := by rw [unitOf_departed]; rfl
  refine ⟨⟨?_, ?_, ?_, ?_, fun _ => ⟨hst, hd, hn, hc, ?_⟩⟩, ?_, fun _ => hw, fun _ => hl, fun _ => he,
    fun ha => absurd ha (by rw [hp]; exact Bool.false_ne_true), fun d hdraw => ?_⟩
  · rw [hc]; exact Nat.zero_le _
  · rw [hc]; exact List.nodup_nil
  · rw [hst]; exact Nat.zero_le _
  · rw [hsignals]; exact counts_resetSignals
  · rw [unitOf_departed]; rfl
  · rw [linkOf_departed, inQueue_stopDraw]; exact h.inQueue
  · rw [hd] at hdraw
    cases hdraw

/-- R17: what a departure leaves of a channel for the other station. -/
theorem keptFor_departed (x : Station) (cause : Cause) (c : Fin 8) (s : State) :
    KeptFor x.peer (chanOf c s) (chanOf c (departed x cause s)) := by
  have hne : x.peer ≠ x := Station.peer_ne x
  rw [chanOf_departed]
  refine (keptFor_sameButAccounts x.peer (sameButAccounts_departFirst x c s)).trans ?_
  by_cases hc : cause = .left
  · subst hc
    rw [chanOf_departEnds_left]
    exact keptFor_shutEnds hne _ _ _
  · rw [chanOf_departEnds c _ hc]
    exact keptFor_dormantChannel hne _

/-- R133: the law of the station that stays. -/
theorem stationParts_departed_peer (x : Station) (cause : Cause) {s : State} (h : StationParts x.peer s) :
    StationParts x.peer (departed x cause s) := by
  obtain ⟨hbounds, hin, hw, hle, he, ha, hdraw⟩ := h
  have hsh := departOwners_sheltered x cause s
  have hunit := unitOf_departed_peer x cause s
  have hrecord : (unitOf x.peer (departed x cause s)).record = (unitOf x.peer s).record := by
    rw [hunit, hsh.record, unitOf_stopDraw_peer]
  have hcache : (unitOf x.peer (departed x cause s)).cache = (unitOf x.peer s).cache := by
    rw [hunit, hsh.cache, unitOf_stopDraw_peer]
  have hstaging : (unitOf x.peer (departed x cause s)).staging = (unitOf x.peer s).staging := by
    rw [hunit, hsh.peerStaging, unitOf_stopDraw_peer]
  have hsignals : (unitOf x.peer (departed x cause s)).signals = (unitOf x.peer s).signals := by
    rw [hunit, hsh.signals, unitOf_stopDraw_peer]
  have hd : (unitOf x.peer (departed x cause s)).draw = (unitOf x.peer s).draw := by
    rw [hunit, hsh.draw, unitOf_stopDraw_peer]
  have hp : isPresent x.peer (departed x cause s) = isPresent x.peer s := by rw [isPresent, hrecord, isPresent]
  have hnotices : isPresent x.peer s = false →
      (unitOf x.peer (departed x cause s)).notices = (unitOf x.peer s).notices := fun hpeer => by
    rw [hunit, hsh.absentNotices _ (by rw [isPresent_stopDraw, hpeer]), unitOf_stopDraw_peer]
  refine ⟨?_, ?_, fun hpeer => ?_, fun hpeer e => ?_, fun hpeer c => ?_, fun hpeer c => ?_, fun d hds => ?_⟩
  · obtain ⟨h1, h2, h3, h4, h5⟩ := hbounds
    rw [UnitBounds, hcache, hstaging, hsignals, hrecord, hd]
    refine ⟨h1, h2, h3, h4, fun hpeer => ?_⟩
    rw [hnotices hpeer]
    exact h5 hpeer
  · rw [linkOf_departed, inQueue_stopDraw]; exact hin
  · rw [hp] at hpeer
    rw [departed, clearedState, setSevere_waitCounts, setUnit_waitCounts, departOwners]
    exact waitCount_departLeases_of_zero (by rw [waitCounts_departEnds]; exact hw hpeer)
  · rw [hp] at hpeer
    rw [leaseOf_departed]
    exact (hle hpeer e).departedLease
  · rw [hp] at hpeer
    exact (keptFor_departed x cause c s).nothing (he hpeer c)
  · rw [hp] at hpeer
    exact (keptFor_departed x cause c s).noDormant (ha hpeer c)
  · rw [hd] at hds
    exact (keptFor_departed x cause d.channel s).receiver (hdraw d hds)

theorem StationLaw.depart {x : Station} {cause : Cause} {s : State} (h : StationLaw s) :
    StationLaw (Machine.depart x cause s) := by
  rw [stationLaw_iff] at h
  rw [depart_eq_offer]
  refine (quiet_offer _ _ _).law (stationLaw_iff.mpr fun y => ?_)
  by_cases hy : y = x
  · subst y
    exact stationParts_departed x cause (h x)
  · rw [Station.eq_peer_of_ne hy]
    exact stationParts_departed_peer x cause (h x.peer)

/-- R18: what a JOIN leaves of a channel for the other station. -/
theorem keptFor_joined (x : Station) (j : JoinFields) (c : Fin 8) (s : State) :
    KeptFor x.peer (chanOf c s) (chanOf c (Machine.joined x j s)) := by
  have hne : x.peer ≠ x := Station.peer_ne x
  rw [Machine.joined, ← chanOf_joinedUnit x j c s]
  cases j.mode with
  | resume => rw [chanOf_joinEnds_resume]; exact keptFor_resumedChannel hne _
  | fresh => rw [chanOf_joinEnds_fresh]; exact keptFor_shutEnds hne _ _ _

/-- The station's staging records after a JOIN are among those before it. -/
theorem staging_joinEnds_sublist (x : Station) (mode : JoinMode) (s : State) :
    (unitOf x (joinEnds x mode s)).staging.Sublist (unitOf x s).staging := by
  cases mode with
  | fresh =>
    rw [joinEnds_fresh]
    exact foldl_keeps (P := fun t => (unitOf x t).staging.Sublist (unitOf x s).staging) _
      (fun c _ t h => (staging_closeEndsOn_sublist x _ c t).trans h) (List.Sublist.refl _)
  | resume =>
    have arrivals : (unitOf x (arrivalsTold x s)).staging.Sublist (unitOf x s).staging :=
      foldl_keeps (P := fun t => (unitOf x t).staging.Sublist (unitOf x s).staging) _
        (fun c _ t h => by rw [tellReceiver_staging]; exact h) (by rw [unitOf, (units_resumedState x s).1]; rfl)
    rw [joinEnds_resume]
    exact foldl_keeps (P := fun t => (unitOf x t).staging.Sublist (unitOf x s).staging) _
      (fun c _ t h => by rw [tellSender_staging]; exact h) arrivals

/-- R18, R125: the law of the station that has joined. -/
theorem stationParts_joined {x : Station} {j : JoinFields} {s : State} (hp : isPresent x s = false)
    (h : StationParts x s) : StationParts x (Machine.joined x j s) := by
  obtain ⟨hsignals, -, hcache, hdraw⟩ := unitOf_joined x j s
  obtain ⟨-, hlinks, -, -, -⟩ := joined_rest x j s
  obtain ⟨hst, hd, -, hc, -⟩ := h.bounds.absent (by simpa [isPresent] using hp)
  have hpresent : isPresent x (Machine.joined x j s) = true := by rw [isPresent, record_joined]; rfl
  have absurdly : ∀ {p : Prop}, isPresent x (Machine.joined x j s) = false → p := fun ha => by
    rw [hpresent] at ha
    cases ha
  refine ⟨⟨?_, ?_, ?_, ?_, fun ha => absurdly ha⟩, ?_, absurdly, absurdly, absurdly, fun _ c => ⟨?_, ?_⟩,
    fun d hds => ?_⟩
  · rw [hcache, hc]; exact Nat.zero_le _
  · rw [hcache, hc]; exact List.nodup_nil
  · have hsub := staging_joinEnds_sublist x j.mode (joinedUnit x j s)
    rw [unitOf_joinedUnit] at hsub
    exact hsub.length_le.trans (by rw [joinUnit, hst]; exact Nat.zero_le _)
  · rw [hsignals]; exact counts_resetSignals
  · rw [linkOf, hlinks]; exact h.inQueue
  · exact fun e => Bool.false_ne_true ((picked_joinEnds x j.mode c .send _).symm.trans (picked_dormant_iff.mpr e))
  · exact fun e => Bool.false_ne_true ((picked_joinEnds x j.mode c .receive _).symm.trans (picked_dormant_iff.mpr e))
  · rw [hdraw, hd] at hds
    cases hds

theorem stationParts_joined_peer {x : Station} {j : JoinFields} {s : State} (h : StationParts x.peer s) :
    StationParts x.peer (Machine.joined x j s) := by
  obtain ⟨hbounds, hin, hw, hle, he, ha, hdraw⟩ := h
  obtain ⟨hrecord, hsignals, hstaging, hcache, hd⟩ := unitOf_joined_peer x j s
  obtain ⟨hleases, hlinks, hwaits, -, -⟩ := joined_rest x j s
  have hp : isPresent x.peer (Machine.joined x j s) = isPresent x.peer s := by rw [isPresent, hrecord, isPresent]
  have hnotices : isPresent x.peer s = false →
      (unitOf x.peer (Machine.joined x j s)).notices = (unitOf x.peer s).notices := fun hpeer => by
    rw [(joined_sheltered x j s).absentNotices _ (by rw [isPresent, unitOf_joinedUnit_peer]; exact hpeer),
      unitOf_joinedUnit_peer]
  refine ⟨?_, by rw [linkOf, hlinks]; exact hin, by rw [hp, hwaits]; exact hw, fun hpeer e => ?_, fun hpeer c => ?_,
    fun hpeer c => ?_, fun d hds => ?_⟩
  · obtain ⟨h1, h2, h3, h4, h5⟩ := hbounds
    rw [UnitBounds, hcache, hstaging, hsignals, hrecord, hd]
    refine ⟨h1, h2, h3, h4, fun hpeer => ?_⟩
    rw [hnotices hpeer]
    exact h5 hpeer
  · rw [hp] at hpeer
    rw [leaseOf, hleases]
    exact hle hpeer e
  · rw [hp] at hpeer
    exact (keptFor_joined x j c s).nothing (he hpeer c)
  · rw [hp] at hpeer
    exact (keptFor_joined x j c s).noDormant (ha hpeer c)
  · rw [hd] at hds
    exact (keptFor_joined x j d.channel s).receiver (hdraw d hds)

theorem StationLaw.joinStation {x : Station} {j : JoinFields} {s : State} (hp : isPresent x s = false)
    (h : StationLaw s) : StationLaw (Machine.joinStation x j s) := by
  rw [stationLaw_iff] at h
  rw [joinStation_eq]
  refine (quiet_offer _ _ _).law (stationLaw_iff.mpr fun y => ?_)
  by_cases hy : y = x
  · subst y
    exact stationParts_joined hp (h x)
  · rw [Station.eq_peer_of_ne hy]
    exact stationParts_joined_peer (h x.peer)

/-! ### The law is carried -/

theorem any_isLent_of_sublist {l q : List Message} (hs : l.Sublist q) (h : q.any isLent = false) :
    l.any isLent = false := by
  rw [List.any_eq_false] at *
  exact fun m hm => h m (hs.subset hm)

theorem keptFor_append (y : Station) {m : Message} (hm : m.state = .queued) {ch dh : Channel}
    (hs : dh.sender = ch.sender) (hr : dh.receiver = ch.receiver) (hq : dh.queue = ch.queue ++ [m]) :
      KeptFor y ch dh := by
  refine KeptFor.of_ends (.inl hs) (.inl ⟨hr, fun h => ?_⟩)
  rw [hq, List.any_append, h, List.any_cons, List.any_nil, isLent, hm]
  rfl

theorem StationLaw.posted {c : Fin 8} {m : Message} {s : State} (hm : m.state = .queued) (h : StationLaw s) :
    StationLaw (postedState c m s) := h.setChan_kept fun y => keptFor_append y hm rfl rfl rfl

theorem StationLaw.stage {x : Station} {r : Staging} {s : State}
    (hheld : holdsActive x (chanOf r.channel s).sender = true)
    (hlimit : (unitOf x s).staging.length < Config.maxStaging) (h : StationLaw s) : StationLaw (stagedState x r s) := by
  have hp := h.present_of_active (role := .send) hheld
  have added : StationLaw (Machine.setUnit x { unitOf x s with staging := (unitOf x s).staging ++ [r] } s) := by
    refine h.setStaging (fun _ => ?_) fun ha => absurd hp (by rw [ha]; exact Bool.false_ne_true)
    rw [List.length_append, List.length_singleton]
    exact hlimit
  exact added.setChan_kept fun _ => KeptFor.of_ends (.inl rfl) (.inl ⟨rfl, id⟩)

theorem StationLaw.replace {x : Station} {r : Staging} {s : State} (h : StationLaw s) :
    StationLaw (replaceStaging x r s) :=
  h.setStaging (fun hl => by rwa [List.length_map]) fun _ he => by rw [he]; rfl

theorem StationLaw.complete {x : Station} {r : Staging} {m : Message} {s : State} (hm : m.state = .queued)
    (h : StationLaw s) : StationLaw (completedState x r m s) := by
  have appended : StationLaw
      (Machine.setChan r.channel { appendMessage m (chanOf r.channel s) with reserved := 0 } s) :=
    h.setChan_kept fun y => keptFor_append y hm rfl rfl rfl
  exact appended.filterStaging fun t => t.channel != r.channel

theorem StationLaw.dropped {x : Station} {r : Staging} {s : State} (h : StationLaw s) :
    StationLaw (droppedState x r s) := by
  have uncharged : StationLaw (Machine.setChan r.channel (withoutStaging (some r) (chanOf r.channel s)) s) :=
    h.setChan_kept fun _ => KeptFor.of_ends (.inl rfl) (.inl ⟨rfl, id⟩)
  exact uncharged.filterStaging fun t => t.channel != r.channel

theorem StationLaw.removed {c : Fin 8} {gone kept : List Message} {s : State} (hs : kept.Sublist (chanOf c s).queue)
    (h : StationLaw s) : StationLaw (removedState c gone kept s) :=
  h.setChan_kept fun _ => KeptFor.of_ends (.inl rfl) (.inl ⟨rfl, any_isLent_of_sublist hs⟩)

theorem stationLaw_carried : Carried StationLaw where
  quiet hq h := hq.law h
  requeued hr hl h := h.setChan_kept fun _ => keptFor_requeued hr (hl h)
  opened hp hfree _ h := h.takeEnd hp hfree rfl rfl rfl
  joinedEnd hp hfree _ _ h := h.takeEnd hp hfree rfl rfl rfl
  closed hheld hd h := h.shut hheld hd
  posted _ _ hm _ h := h.posted hm
  staged hheld _ hlimit _ h := h.stage hheld hlimit
  replaced _ _ _ h := h.replace
  completed _ _ hm _ h := h.complete hm
  dropped _ h := h.dropped
  removed hs _ h := h.removed hs
  departed h := h.depart
  joined hp h := h.joinStation hp

/-- Settles O57, from the notices' law and the stations' law, each kept by every elementary change. -/
theorem stepsKeepTheNoticeQueues : Obligations.StepsKeepTheNoticeQueues :=
  ⟨step_keeps_noticeLaw, step_carries resetState_station stationLaw_carried⟩

end Sys2Proof.Machine
end

section
/-!
PROOFS. A property of the channels and of the blocks of the staging records: the changes of one channel that it must
survive (chapters 1 and 3), and departures and JOINs made of them (R17, R18, R133).
-/

namespace Sys2Proof.Machine

/-- The channels and what the accounts see of the staging records are as before. -/
structure SameAccounts (s t : State) : Prop where
  channels : t.channels = s.channels
  staged : ∀ y, stagedView (unitOf y t) = stagedView (unitOf y s)

theorem Quiet.sameAccounts {s t : State} (h : Quiet s t) : SameAccounts s t := ⟨h.channels, h.staged⟩

theorem ChannelsSame.sameAccounts {s t : State} (h : ChannelsSame s t) : SameAccounts s t :=
  ⟨h.1, fun y => stagedView_of_staging (h.2.2 y)⟩

theorem sameAccounts_setUnit {x : Station} {u : StationUnit} {s : State} (h : u.staging = (unitOf x s).staging) :
    SameAccounts s (setUnit x u s) := by
  refine ⟨rfl, fun y => stagedView_of_staging ?_⟩
  rw [unitOf_setUnit]
  split
  · subst y; exact h
  · rfl

/-- The changes of a channel and of the staging records on it carry `P`. -/
structure Accounted (P : State → Prop) : Prop where
  same : ∀ {s t}, SameAccounts s t → P s → P t
  requeued : ∀ {c dh s}, Requeued (chanOf c s) dh → P s → P (setChan c dh s)
  opened : ∀ {x c role arrival p s}, endHeld (endOf role (chanOf c s)) = false →
    endHeld (endOf role.other (chanOf c s)) = false → P s →
    P (setChan c (takeEnd x role arrival { chanOf c s with params := some p, nextSeq := 0 }) s)
  joinedEnd : ∀ {x c role arrival s}, endHeld (endOf role (chanOf c s)) = false →
    endHeld (endOf role.other (chanOf c s)) = true → holdsEnd x (endOf role.other (chanOf c s)) = false → P s →
    P (setChan c (takeEnd x role arrival (chanOf c s)) s)
  closed : ∀ {x c role s}, holdsEnd x (endOf role (chanOf c s)) = true → P s → P (shutState x c role s)
  posted : ∀ {x c m s}, holdsActive x (chanOf c s).sender = true → admission (chanOf c s) m.blocks.length s = none →
    m.seq = (chanOf c s).nextSeq → P s → P (postedState c m s)
  staged : ∀ {x r s}, holdsActive x (chanOf r.channel s).sender = true → stagingOn x r.channel s = none →
    admission (chanOf r.channel s) r.blocks.length s = none → P s → P (stagedState x r s)
  replaced : ∀ {x r r1 s}, stagingOn x r.channel s = some r → r1.channel = r.channel → r1.blocks = r.blocks → P s →
    P (replaceStaging x r1 s)
  completed : ∀ {x r m s}, stagingOn x r.channel s = some r → m.blocks = r.blocks →
    m.seq = (chanOf r.channel s).nextSeq → P s → P (completedState x r m s)
  dropped : ∀ {x r s}, stagingOn x r.channel s = some r → P s → P (droppedState x r s)
  removed : ∀ {c gone kept s}, kept.Sublist (chanOf c s).queue →
    (blocksOf gone).length + (blocksOf kept).length = (blocksOf (chanOf c s).queue).length → P s →
    P (removedState c gone kept s)
  /-- R47, R133: all staging records of a station are abandoned. -/
  abandoned : ∀ {x s}, P s → P (departStaging x s)
  /-- R17: the ends of a station without staging records become dormant. -/
  dormant : ∀ {x c s}, (unitOf x s).staging = [] → P s → P (setChan c (dormantChannel x (chanOf c s)) s)
  resumed : ∀ {x c s}, P s → P (setChan c (resumedChannel x (chanOf c s)) s)

namespace Accounted

variable {P : State → Prop}

theorem ofQuiet (k : Accounted P) {s t : State} (hq : Quiet s t) (h : P s) : P t := k.same hq.sameAccounts h

theorem ofCloseEnd (k : Accounted P) {x : Station} {c : Fin 8} {role : Role} {s : State}
    (hheld : holdsEnd x (endOf role (chanOf c s)) = true) (h : P s) : P (closeEnd x c role s).1 := by
  obtain ⟨st, e | e⟩ := closeEnd_eq x c role s <;> rw [e]
  · exact k.ofQuiet (quiet_setStore _ _) (k.closed hheld h)
  · exact k.ofQuiet ((quiet_setStore _ _).trans (quiet_offer _ _ _)) (k.closed hheld h)

theorem ofCloseEndsOn (k : Accounted P) {x : Station} {test : End → Bool} {c : Fin 8} {s : State} (h : P s) :
    P (closeEndsOn x test c s) := by
  have one : ∀ role t, P t → P (if picked x test role (chanOf c t) then (closeEnd x c role t).1 else t) := by
    intro role t ht
    split
    · rename_i hp
      exact k.ofCloseEnd (Bool.and_eq_true _ _ ▸ hp).1 ht
    · exact ht
  exact one .receive _ (one .send s h)

/-- R17: the departing station's ends, after its staging records are gone. -/
theorem ofDepartEnds (k : Accounted P) {x : Station} {cause : Cause} {s : State} (hst : (unitOf x s).staging = [])
    (h : P s) : P (departEnds x cause s) := by
  by_cases hc : cause = .left
  · subst hc
    exact foldl_keeps (P := P) _ (fun c _ t ht => k.ofCloseEndsOn ht) (k.ofQuiet (quiet_freeTick _ _) h)
  · rw [departEnds_of_ne s hc]
    refine (foldl_keeps (P := fun t => (unitOf x t).staging = [] ∧ P t) (f := fun t c => makeDormantOn x c t) _
      (fun c _ t ht => ?_) ⟨hst, h⟩).2
    exact ⟨ht.1, k.dormant ht.1 ht.2⟩

theorem ofDepart (k : Accounted P) {x : Station} {cause : Cause} {s : State} (h : P s) : P (depart x cause s) := by
  have stopped : P (stopDraw x s) := by
    rw [stopDraw_frame]
    exact k.same (sameAccounts_setUnit rfl) (k.ofQuiet (quiet_setLink fun hl => hl) h)
  have ends : P (departEnds x cause (departStaging x (stopDraw x s))) :=
    k.ofDepartEnds (staging_departStaging x _) (k.abandoned stopped)
  rw [depart_eq_offer]
  refine k.ofQuiet (quiet_offer _ _ _) ?_
  rw [departed, clearedState]
  refine k.ofQuiet (quiet_setSevere _ _) (k.same (sameAccounts_setUnit rfl) ?_)
  exact k.same (channelsSame_departLeases x _).sameAccounts ends

/-- R18: the joining station's ends. -/
theorem ofJoinEnds (k : Accounted P) {x : Station} {mode : JoinMode} {s : State} (h : P s) : P (joinEnds x mode s) := by
  cases mode with
  | fresh =>
    rw [joinEnds_fresh]
    exact foldl_keeps (P := P) _ (fun c _ t ht => k.ofCloseEndsOn ht) (k.ofQuiet (quiet_freeTick _ _) h)
  | resume =>
    have resumed : P (resumedState x s) :=
      foldl_keeps (P := P) (f := fun t c => resumeOn x c t) _ (fun c _ t ht => k.resumed ht) h
    have arrivals : P (arrivalsTold x s) :=
      foldl_keeps (P := P) _ (fun c _ t ht => k.ofQuiet (quiet_tellReceiver _ _ _) ht) resumed
    rw [joinEnds_resume]
    exact foldl_keeps (P := P) _ (fun c _ t ht => k.ofQuiet (quiet_tellSender _ _ _) ht)
      (k.ofQuiet (quiet_freeTick _ _) arrivals)

theorem ofJoinStation (k : Accounted P) {x : Station} {j : JoinFields} {s : State} (h : P s) :
    P (joinStation x j s) := by
  rw [joinStation_eq]
  exact k.ofQuiet (quiet_offer _ _ _) (k.ofJoinEnds (k.same (sameAccounts_setUnit rfl) h))

/-- An accounted property is carried by every change. -/
theorem carried (k : Accounted P) : Carried P where
  quiet hq h := k.ofQuiet hq h
  requeued hr _ h := k.requeued hr h
  opened _ hfree hother h := k.opened hfree hother h
  joinedEnd _ hfree hheld hx h := k.joinedEnd hfree hheld hx h
  closed hheld _ h := k.closed hheld h
  posted hheld hadmit _ hseq h := k.posted hheld hadmit hseq h
  staged hheld hnone _ hadmit h := k.staged hheld hnone hadmit h
  replaced hr hc hb h := k.replaced hr hc hb h
  completed hr hb _ hseq h := k.completed hr hb hseq h
  dropped hr h := k.dropped hr h
  removed hs hb h := k.removed hs hb h
  departed h := k.ofDepart h
  joined _ h := k.ofJoinStation h

end Accounted

end Sys2Proof.Machine
end

section
/-!
PROOFS. Every step keeps the accounts of the channels (R3, R9, R15, R40).
-/

namespace Sys2Proof.Machine

/-! ### The accounts of a channel, from one station's view -/

/-- The block lists of a station's staging records on a channel. -/
def stagedOn (x : Station) (c : Fin 8) (s : State) : List (List (Fin 256)) :=
  ((unitOf x s).staging.filter fun r => r.channel == c).map (·.blocks)

/-- R3, R9, R15, R40: the accounts of a channel, with the block lists of the staging records of station `x` and of its
peer. -/
structure Accounts (x : Station) (ch : Channel) (own peers : List (List (Fin 256))) : Prop where
  apart : ch.sender.holder = none ∨ ch.sender.holder ≠ ch.receiver.holder
  open_ : ch.params = none ↔ ch.sender.holder = none ∧ ch.receiver.holder = none
  closed : ch.params = none → ch.queue = [] ∧ ch.reserved = 0 ∧ ch.charged = 0
  bounds : ∀ p ∈ ch.params, ch.queue.length + ch.reserved ≤ p.depth ∧ ch.charged ≤ p.quota
  charged : ch.charged = (blocksOf ch.queue).length + (own.flatten.length + peers.flatten.length)
  reserved : ch.reserved = own.length + peers.length
  one : own.length + peers.length ≤ 1
  held : own ≠ [] → holdsActive x ch.sender = true
  heldPeer : peers ≠ [] → holdsActive x.peer ch.sender = true

theorem length_stagedOn (x : Station) (c : Fin 8) (s : State) :
    (stagedOn x c s).length = ((unitOf x s).staging.filter fun r => r.channel == c).length := List.length_map _

theorem flatten_stagedOn (x : Station) (c : Fin 8) (s : State) :
    (stagedOn x c s).flatten = ((unitOf x s).staging.filter fun r => r.channel == c).flatMap (·.blocks) := rfl

theorem stagedOn_ne_nil {x : Station} {c : Fin 8} {s : State} :
    stagedOn x c s ≠ [] ↔ ∃ r ∈ (unitOf x s).staging, r.channel = c := by
  rw [stagedOn, ne_eq, List.map_eq_nil_iff, List.filter_eq_nil_iff]
  simp

/-- The counts of both stations' records do not depend on which station is looked at first. -/
theorem stagingRecords_counts (x : Station) (c : Fin 8) (s : State) :
    (stagingRecords c s).length = (stagedOn x c s).length + (stagedOn x.peer c s).length ∧
      ((stagingRecords c s).flatMap (·.blocks)).length =
        (stagedOn x c s).flatten.length + (stagedOn x.peer c s).flatten.length := by
  rw [stagingRecords_eq, List.flatMap_append, List.length_append, List.length_append, length_stagedOn, length_stagedOn,
    flatten_stagedOn, flatten_stagedOn]
  cases x
  · exact ⟨rfl, rfl⟩
  · exact ⟨Nat.add_comm _ _, Nat.add_comm _ _⟩

theorem channelOk_iff (x : Station) {c : Fin 8} {s : State} :
    ChannelOk c s ↔ Accounts x (chanOf c s) (stagedOn x c s) (stagedOn x.peer c s) := by
  obtain ⟨hlen, hblocks⟩ := stagingRecords_counts x c s
  constructor
  · intro h
    have held : ∀ y, stagedOn y c s ≠ [] → holdsActive y (chanOf c s).sender = true := fun y hy => by
      obtain ⟨r, hr, hc⟩ := stagedOn_ne_nil.mp hy
      exact h.holdsSender hr hc
    obtain ⟨h1, h2, h3, h4, h5, h6, h7, -, -⟩ := h
    rw [hblocks] at h5
    rw [hlen] at h6 h7
    exact ⟨h1, h2, h3, h4, h5, h6, h7, held x, held x.peer⟩
  · rintro ⟨h1, h2, h3, h4, h5, h6, h7, h8, h9⟩
    have held : ∀ y, ∀ r ∈ (unitOf y s).staging, r.channel = c → holdsActive y (chanOf c s).sender = true := by
      intro y r hr hc
      by_cases hy : y = x
      · subst y
        exact h8 (stagedOn_ne_nil.mpr ⟨r, hr, hc⟩)
      · rw [Station.eq_peer_of_ne hy] at hr ⊢
        exact h9 (stagedOn_ne_nil.mpr ⟨r, hr, hc⟩)
    rw [← hlen] at h6 h7
    rw [← hblocks] at h5
    exact ⟨h1, h2, h3, h4, h5, h6, h7, held .a, held .b⟩

/-! ### Reading the accounts -/

theorem stagedOn_of_none {x : Station} {c : Fin 8} {s : State} (h : stagingOn x c s = none) : stagedOn x c s = [] := by
  by_contra hne
  obtain ⟨r, hr, hc⟩ := stagedOn_ne_nil.mp hne
  exact stagingOn_eq_none.mp h r hr hc

theorem ChannelOk.stagedOn {x : Station} {c : Fin 8} {r : Staging} {s : State} (h : ChannelOk c s)
    (hr : stagingOn x c s = some r) : Machine.stagedOn x c s = [r.blocks] := by
  rw [Machine.stagedOn, h.one (stagingOn_mem hr) (Kept.stagingOn_channel hr)]
  rfl

theorem stagedOn_of_sameAccounts {s t : State} (h : SameAccounts s t) (x : Station) (c : Fin 8) :
    stagedOn x c t = stagedOn x c s := by
  have view : ∀ u : StationUnit, ((u.staging.filter fun r => r.channel == c).map (·.blocks)) =
      ((stagedView u).filter fun p => p.1 == c).map (·.2) := fun u => by
    rw [stagedView, List.filter_map, List.map_map]
    rfl
  rw [stagedOn, view, h.staged, ← view, stagedOn]

section
variable {x : Station} {ch dh : Channel} {own peers : List (List (Fin 256))}

/-- A station that does not hold the sender end has no staging record. -/
theorem Accounts.peers_nil (h : Accounts x ch own peers) (hx : holdsEnd x ch.sender = true) : peers = [] := by
  by_contra hne
  have := not_holdsEnd_of_ne (Station.peer_ne x) hx
  rw [holdsEnd_of_active (h.heldPeer hne)] at this
  cases this

theorem endHeld_eq_false {e : End} : endHeld e = false ↔ e.holder = none := by simp [endHeld]

theorem endHeld_eq_true {e : End} : endHeld e = true ↔ e.holder ≠ none := by
  rw [← Bool.not_eq_false, endHeld_eq_false]

theorem endHeld_of_active {y : Station} {e : End} (h : holdsActive y e = true) : endHeld e = true :=
  endHeld_of_holder (holdsEnd_iff.mp (holdsEnd_of_active h))

/-- R15: with the sender end not held there is no staging record. -/
theorem Accounts.none_staged (h : Accounts x ch own peers) (hs : endHeld ch.sender = false) :
    own = [] ∧ peers = [] := by
  refine ⟨?_, ?_⟩
  · by_contra hne
    exact Bool.false_ne_true (hs.symm.trans (endHeld_of_active (h.held hne)))
  · by_contra hne
    exact Bool.false_ne_true (hs.symm.trans (endHeld_of_active (h.heldPeer hne)))

/-- R3: a held channel has parameters. -/
theorem Accounts.params_ne_none (h : Accounts x ch own peers) {role : Role} (hheld : endHeld (endOf role ch) = true) :
    ch.params ≠ none := fun hp => by
  obtain ⟨hs, hr⟩ := h.open_.mp hp
  cases role
  · exact endHeld_eq_true.mp hheld hs
  · exact endHeld_eq_true.mp hheld hr

/-- R9: the accounts follow the holders, the parameters, the counts and the blocks. -/
theorem Accounts.of_counts (h : Accounts x ch own peers) (hs : dh.sender.holder = ch.sender.holder)
    (hr : dh.receiver.holder = ch.receiver.holder) (hp : dh.params = ch.params) (hres : dh.reserved = ch.reserved)
    (hcharged : dh.charged = ch.charged) (hlen : dh.queue.length = ch.queue.length)
    (hblocks : blocksOf dh.queue = blocksOf ch.queue)
    (hheld : own ≠ [] → holdsActive x ch.sender = true → holdsActive x dh.sender = true)
    (hpeer : peers ≠ [] → holdsActive x.peer ch.sender = true → holdsActive x.peer dh.sender = true) :
    Accounts x dh own peers where
  apart := by rw [hs, hr]; exact h.apart
  open_ := by rw [hs, hr, hp]; exact h.open_
  closed hnone := by
    rw [hp] at hnone
    obtain ⟨hq, hrest⟩ := h.closed hnone
    rw [hres, hcharged]
    exact ⟨List.length_eq_zero_iff.mp (by rw [hlen, hq]; rfl), hrest⟩
  bounds := by rw [hp, hres, hcharged, hlen]; exact h.bounds
  charged := by rw [hcharged, hblocks]; exact h.charged
  reserved := by rw [hres]; exact h.reserved
  one := h.one
  held ho := hheld ho (h.held ho)
  heldPeer ho := hpeer ho (h.heldPeer ho)

theorem Requeued.length (hr : Requeued ch dh) : dh.queue.length = ch.queue.length := by
  rw [← List.length_map (f := (·.seq)), hr.seqs, List.length_map]

theorem Requeued.blocksOf (hr : Requeued ch dh) : Machine.blocksOf dh.queue = Machine.blocksOf ch.queue := by
  have flat : ∀ q : List Message, Machine.blocksOf q = (q.map (·.blocks)).flatten := fun _ => rfl
  rw [flat, hr.blocks, flat]

theorem Accounts.of_requeued (h : Accounts x ch own peers) (hr : Requeued ch dh) : Accounts x dh own peers :=
  h.of_counts (by rw [hr.sender]) (by rw [hr.receiver]) hr.params hr.reserved hr.charged hr.length hr.blocksOf
    (fun _ ha => by rw [hr.sender]; exact ha) fun _ ha => by rw [hr.sender]; exact ha

/-- R1: the accounts of a CLOSED channel. -/
theorem accounts_resetChannel (x : Station) : Accounts x resetChannel [] [] :=
  ⟨.inl rfl, ⟨fun _ => ⟨rfl, rfl⟩, fun _ => rfl⟩, fun _ => ⟨rfl, rfl, rfl⟩, fun _ hp => (nomatch hp), rfl, rfl,
    Nat.zero_le _, fun h => absurd rfl h, fun h => absurd rfl h⟩

/-! ### Ends -/

/-- R11: an end of a CLOSED channel is taken. -/
theorem Accounts.opened (h : Accounts x ch own peers) {role : Role} (arrival : Bool) (p : Params)
    (hfree : endHeld (endOf role ch) = false) (hother : endHeld (endOf role.other ch) = false) :
    Accounts x (takeEnd x role arrival { ch with params := some p, nextSeq := 0 }) own peers := by
  have hends : endHeld ch.sender = false ∧ endHeld ch.receiver = false := by
    cases role
    · exact ⟨hfree, hother⟩
    · exact ⟨hother, hfree⟩
  obtain ⟨hs, hr⟩ := hends
  obtain ⟨rfl, rfl⟩ := h.none_staged hs
  rw [endHeld_eq_false] at hs hr
  obtain ⟨hq, hres, hcharged⟩ := h.closed (h.open_.mpr ⟨hs, hr⟩)
  have counts : ch.queue.length + ch.reserved ≤ p.depth ∧ ch.charged ≤ p.quota := by
    rw [hq, hres, hcharged]
    exact ⟨Nat.zero_le _, Nat.zero_le _⟩
  cases role with
  | send =>
    exact ⟨.inr (by rw [takeEnd, hr]; exact Option.some_ne_none x), ⟨nofun, nofun⟩, nofun,
      fun q hp => Option.some.inj hp ▸ counts, h.charged, h.reserved, h.one, fun e => absurd rfl e,
        fun e => absurd rfl e⟩
  | receive =>
    exact ⟨.inl hs, ⟨nofun, nofun⟩, nofun,
      fun q hp => Option.some.inj hp ▸ counts, h.charged, h.reserved, h.one, fun e => absurd rfl e,
        fun e => absurd rfl e⟩

/-- R12: the second end is taken. -/
theorem Accounts.joinedEnd (h : Accounts x ch own peers) {role : Role} (arrival : Bool)
    (hfree : endHeld (endOf role ch) = false) (hheld : endHeld (endOf role.other ch) = true)
    (hx : holdsEnd x (endOf role.other ch) = false) : Accounts x (takeEnd x role arrival ch) own peers := by
  have hp := h.params_ne_none hheld
  rw [holdsEnd_eq_false] at hx
  cases role with
  | send =>
    obtain ⟨rfl, rfl⟩ := h.none_staged hfree
    exact ⟨.inr (Ne.symm hx), ⟨fun e => absurd e hp, nofun⟩, h.closed, h.bounds, h.charged, h.reserved, h.one,
      fun e => absurd rfl e, fun e => absurd rfl e⟩
  | receive =>
    exact ⟨.inr hx, ⟨fun e => absurd e hp, nofun⟩, h.closed, h.bounds, h.charged, h.reserved, h.one, h.held, h.heldPeer⟩

/-- R14: the sender end is released, while the receiver end is held. -/
theorem Accounts.releaseSender (h : Accounts x ch [] []) (hr : endHeld ch.receiver = true) :
    Accounts x { ch with sender := resetEnd } [] [] where
  apart := .inl rfl
  open_ := ⟨fun e => absurd e (h.params_ne_none (role := .receive) hr), fun e => absurd e.2 (endHeld_eq_true.mp hr)⟩
  closed := h.closed
  bounds := h.bounds
  charged := h.charged
  reserved := h.reserved
  one := h.one
  held e := absurd rfl e
  heldPeer e := absurd rfl e

/-- R14: the receiver end is released, while the sender end is held. -/
theorem Accounts.releaseReceiver (h : Accounts x ch own peers) (hs : endHeld ch.sender = true) :
    Accounts x { ch with receiver := resetEnd, arrivalOption := false } own peers where
  apart := .inr (endHeld_eq_true.mp hs)
  open_ := ⟨fun e => absurd e (h.params_ne_none (role := .send) hs), fun e => absurd e.1 (endHeld_eq_true.mp hs)⟩
  closed := h.closed
  bounds := h.bounds
  charged := h.charged
  reserved := h.reserved
  one := h.one
  held := h.held
  heldPeer := h.heldPeer

/-- The block lists of the record that is found on a channel. -/
def foundBlocks (r : Option Staging) : List (List (Fin 256)) := r.toList.map (·.blocks)

/-- R47: the station's record is gone. -/
theorem Accounts.withoutStaging {r : Option Staging} (h : Accounts x ch (foundBlocks r) peers) :
    Accounts x (Machine.withoutStaging r ch) [] peers := by
  cases r with
  | none => exact h
  | some r =>
    have hcharged : ch.charged = (blocksOf ch.queue).length + (r.blocks.length + peers.flatten.length) := by
      simpa [foundBlocks] using h.charged
    have hone : 1 + peers.length ≤ 1 := h.one
    have hpeers : peers = [] := List.length_eq_zero_iff.mp (by omega)
    subst hpeers
    refine ⟨h.apart, h.open_, fun hp => ?_, fun p hp => ?_, ?_, rfl, Nat.zero_le _, fun e => absurd rfl e, h.heldPeer⟩
    · obtain ⟨hq, -, hc⟩ := h.closed hp
      exact ⟨hq, rfl, by rw [withoutStaging_some, hc, Nat.zero_sub]⟩
    · obtain ⟨hlen, hquota⟩ := h.bounds p hp
      simp only [withoutStaging_some]
      omega
    · simp only [withoutStaging_some, List.flatten_nil, List.length_nil] at *
      omega

/-- The block lists left after the close of an end. -/
def leftBlocks (role : Role) (own : List (List (Fin 256))) : List (List (Fin 256)) :=
  match role with
  | .send => []
  | .receive => own

/-- R14, R15: an end is closed. -/
theorem Accounts.shut {r : Option Staging} {role : Role} (h : Accounts x ch own peers) (hown : own = foundBlocks r)
    (hheld : holdsEnd x (endOf role ch) = true) : Accounts x (shutChannel r role ch) (leftBlocks role own) peers := by
  cases role with
  | send =>
    subst hown
    obtain rfl := h.peers_nil hheld
    by_cases hother : endHeld (endOf Role.send.other ch) = true
    · rw [shutChannel_of_held hother]
      cases r with
      | none => exact h.withoutStaging.releaseSender hother
      | some r => exact (h.withoutStaging.releaseSender hother).of_requeued (requeued_congested _ _)
    · rw [shutChannel_of_free ((Bool.not_eq_true _).mp hother)]
      exact accounts_resetChannel x
  | receive =>
    by_cases hother : endHeld (endOf Role.receive.other ch) = true
    · rw [shutChannel_of_held hother]
      exact (h.of_requeued (requeued_returnLent ch)).releaseReceiver hother
    · have hfree := (Bool.not_eq_true _).mp hother
      obtain ⟨rfl, rfl⟩ := h.none_staged hfree
      rw [shutChannel_of_free hfree]
      exact accounts_resetChannel x

/-- R17: the ends of a station without a staging record become dormant. -/
theorem Accounts.dormant (h : Accounts x ch [] peers) : Accounts x (dormantChannel x ch) [] peers := by
  obtain ⟨-, hp, -, -, hs, hs', hr, hr'⟩ := dormantChannel_spec x ch
  have hcounts : (dormantChannel x ch).reserved = ch.reserved ∧ (dormantChannel x ch).charged = ch.charged := by
    unfold dormantChannel
    simp only
    split <;> split <;> exact ⟨rfl, rfl⟩
  obtain ⟨hres, hcharged⟩ := hcounts
  have hqueue : (dormantChannel x ch).queue.length = ch.queue.length ∧
      blocksOf (dormantChannel x ch).queue = blocksOf ch.queue := by
    cases hx : holdsEnd x ch.receiver
    · rw [(hr' hx).2]; exact ⟨rfl, rfl⟩
    · rw [(hr hx).2]; exact ⟨List.length_map _, blocksOf_map_returnMessage _⟩
  obtain ⟨hlen, hblocks⟩ := hqueue
  refine h.of_counts ?_ ?_ hp hres hcharged hlen hblocks (fun e => absurd rfl e) fun hne ha => ?_
  · cases hx : holdsEnd x ch.sender
    · rw [hs' hx]
    · rw [hs hx, holdsEnd_iff.mp hx]
  · cases hx : holdsEnd x ch.receiver
    · rw [(hr' hx).1]
    · rw [(hr hx).1, holdsEnd_iff.mp hx]
  · have hx : holdsEnd x ch.sender = false := by
      by_contra hx
      exact hne (h.peers_nil ((Bool.not_eq_false _).mp hx))
    rw [hs' hx]
    exact ha

/-- R18: dormant ends become active. -/
theorem Accounts.resumed (h : Accounts x ch own peers) : Accounts x (resumedChannel x ch) own peers := by
  obtain ⟨hs, hs', hr, hr', hrest⟩ := resumedChannel_spec x ch
  have same : ∀ e : Channel, e = { ch with sender := e.sender, receiver := e.receiver } →
      e.params = ch.params ∧ e.reserved = ch.reserved ∧ e.charged = ch.charged ∧ e.queue = ch.queue := by
    intro e he
    rw [he]
    exact ⟨rfl, rfl, rfl, rfl⟩
  obtain ⟨hp, hres, hcharged, hq⟩ := same _ hrest
  have hactive : holdsActive x { holder := some x, dormant := false } = true := by
    rw [holdsActive, holdsEnd_iff.mpr rfl]
    rfl
  refine h.of_counts ?_ ?_ hp hres hcharged (by rw [hq]) (by rw [hq]) (fun _ ha => ?_) fun hne ha => ?_
  · cases hx : holdsEnd x ch.sender
    · rw [hs' hx]
    · rw [hs hx, holdsEnd_iff.mp hx]
  · cases hx : holdsEnd x ch.receiver
    · rw [hr' hx]
    · rw [hr hx, holdsEnd_iff.mp hx]
  · rw [hs (holdsEnd_of_active ha)]
    exact hactive
  · have hx : holdsEnd x ch.sender = false := by
      by_contra hx
      exact hne (h.peers_nil ((Bool.not_eq_false _).mp hx))
    rw [hs' hx]
    exact ha

/-! ### Messages and staging records -/

/-- R37: what the admission of a message says of its channel. -/
theorem admission_room {k : Nat} {s : State} (h : admission ch k s = none) :
    ∃ p, ch.params = some p ∧ channelFull p ch = false ∧ ch.charged + k ≤ p.quota := by
  unfold admission at h
  split at h
  · cases h
  · rename_i p hp
    split at h
    · cases h
    · rename_i hfull
      split at h
      · cases h
      · rename_i hquota
        exact ⟨p, hp, (Bool.not_eq_true _).mp hfull, Nat.le_of_not_lt hquota⟩

theorem occupancy_of_not_full {p : Params} (h : channelFull p ch = false) :
    ch.queue.length + ch.reserved < p.depth := by
  rw [channelFull, Bool.or_eq_false_iff, decide_eq_false_iff_not] at h
  exact Nat.lt_of_not_le h.1

theorem length_blocksOf_append (q : List Message) (m : Message) :
    (blocksOf (q ++ [m])).length = (blocksOf q).length + m.blocks.length := by
  simp [blocksOf]

/-- R38: a message is appended and charged. -/
theorem Accounts.posted (h : Accounts x ch own peers) {m : Message} {s : State}
    (hadmit : admission ch m.blocks.length s = none) :
    Accounts x { appendMessage m ch with charged := ch.charged + m.blocks.length } own peers := by
  obtain ⟨p, hp, hfull, hquota⟩ := admission_room hadmit
  have hroom := occupancy_of_not_full hfull
  have hcharged := h.charged
  refine ⟨h.apart, h.open_, fun hnone => absurd (hp.symm.trans hnone) (Option.some_ne_none p), fun q hq => ?_, ?_,
    h.reserved, h.one, h.held, h.heldPeer⟩
  · obtain rfl : p = q := Option.some.inj (hp.symm.trans hq)
    refine ⟨?_, hquota⟩
    simp only [appendMessage, List.length_append, List.length_singleton]
    omega
  · simp only [appendMessage, length_blocksOf_append]
    omega

/-- R43: a staging record is created. -/
theorem Accounts.staged (h : Accounts x ch [] peers) {r : Staging} {s : State} (hx : holdsActive x ch.sender = true)
    (hadmit : admission ch r.blocks.length s = none) :
    Accounts x { ch with reserved := 1, charged := ch.charged + r.blocks.length } [r.blocks] peers := by
  obtain ⟨p, hp, hfull, hquota⟩ := admission_room hadmit
  have hroom := occupancy_of_not_full hfull
  obtain rfl := h.peers_nil (holdsEnd_of_active hx)
  have hcharged : ch.charged = (blocksOf ch.queue).length := h.charged
  refine ⟨h.apart, h.open_, fun hnone => absurd (hp.symm.trans hnone) (Option.some_ne_none p), fun q hq => ?_, ?_,
    rfl, le_refl _, fun _ => hx, fun e => absurd rfl e⟩
  · obtain rfl : p = q := Option.some.inj (hp.symm.trans hq)
    exact ⟨by simp only; omega, hquota⟩
  · simp only [List.flatten_cons, List.flatten_nil, List.append_nil, List.length_nil]
    omega

/-- R46: a staging record becomes a message. -/
theorem Accounts.completed {r : Staging} (h : Accounts x ch [r.blocks] peers) {m : Message} (hm : m.blocks = r.blocks) :
    Accounts x { appendMessage m ch with reserved := 0 } [] peers := by
  have hone : 1 + peers.length ≤ 1 := h.one
  obtain rfl : peers = [] := List.length_eq_zero_iff.mp (by omega)
  have hcharged : ch.charged = (blocksOf ch.queue).length + r.blocks.length := by simpa using h.charged
  have hreserved : ch.reserved = 1 := h.reserved
  refine ⟨h.apart, h.open_, fun hnone => ?_, fun p hp => ?_, ?_, rfl, Nat.zero_le _, fun e => absurd rfl e, h.heldPeer⟩
  · exact absurd ((h.closed hnone).2.1.symm.trans hreserved) Nat.zero_ne_one
  · obtain ⟨hlen, hquota⟩ := h.bounds p hp
    refine ⟨?_, hquota⟩
    simp only [appendMessage, List.length_append, List.length_singleton]
    omega
  · simp only [appendMessage, length_blocksOf_append, hm, List.flatten_nil, List.length_nil]
    omega

/-- R63, R66: messages leave the queue. -/
theorem Accounts.removed (h : Accounts x ch own peers) {gone kept : List Message} (hs : kept.Sublist ch.queue)
    (hblocks : (blocksOf gone).length + (blocksOf kept).length = (blocksOf ch.queue).length) :
    Accounts x { ch with queue := kept, charged := ch.charged - (blocksOf gone).length } own peers := by
  have hcharged := h.charged
  refine ⟨h.apart, h.open_, fun hnone => ?_, fun p hp => ?_, ?_, h.reserved, h.one, h.held, h.heldPeer⟩
  · obtain ⟨hq, hres, hc⟩ := h.closed hnone
    exact ⟨List.sublist_nil.mp (hq ▸ hs), hres, by simp only [hc, Nat.zero_sub]⟩
  · obtain ⟨hlen, hquota⟩ := h.bounds p hp
    have := hs.length_le
    exact ⟨by simp only; omega, by simp only; omega⟩
  · simp only
    omega

end

end Sys2Proof.Machine
end

section
/-!
PROOFS. The law of the channel accounts is kept by every step (R3, R9, R15, R40).
-/

namespace Sys2Proof.Machine

/-! ### Changes at one channel -/

/-- The block lists of staging records on a channel, of a list of records. -/
def blocksOn (c : Fin 8) (l : List Staging) : List (List (Fin 256)) := (l.filter fun r => r.channel == c).map (·.blocks)

theorem stagedOn_eq (x : Station) (c : Fin 8) (s : State) : stagedOn x c s = blocksOn c (unitOf x s).staging := rfl

theorem ChannelLaw.same {s t : State} (hst : SameAccounts s t) (h : ChannelLaw s) : ChannelLaw t := fun c => by
  have hchan : chanOf c t = chanOf c s := by rw [chanOf, hst.channels]; rfl
  rw [channelOk_iff .a, hchan, stagedOn_of_sameAccounts hst, stagedOn_of_sameAccounts hst]
  exact (channelOk_iff .a).mp (h c)

/-- A channel changes. -/
theorem ChannelLaw.setChan {c : Fin 8} {ch : Channel} {s : State} (x : Station) (h : ChannelLaw s)
    (hc : Accounts x (chanOf c s) (stagedOn x c s) (stagedOn x.peer c s) →
      Accounts x ch (stagedOn x c s) (stagedOn x.peer c s)) : ChannelLaw (Machine.setChan c ch s) := by
  intro d
  have hst : ∀ y, stagedOn y d (Machine.setChan c ch s) = stagedOn y d s := fun _ => rfl
  rw [channelOk_iff x, chanOf_setChan, hst, hst]
  split
  · subst d
    exact hc ((channelOk_iff x).mp (h c))
  · exact (channelOk_iff x).mp (h d)

/-- A channel and the staging records of a station on it change. -/
theorem ChannelLaw.setBoth {x : Station} {c : Fin 8} {ch : Channel} {l : List Staging} {s : State} (h : ChannelLaw s)
    (hoff : ∀ d, d ≠ c → blocksOn d l = stagedOn x d s)
    (hc : Accounts x (chanOf c s) (stagedOn x c s) (stagedOn x.peer c s) →
      Accounts x ch (blocksOn c l) (stagedOn x.peer c s)) :
    ChannelLaw (setUnit x { unitOf x s with staging := l } (Machine.setChan c ch s)) := by
  intro d
  rw [channelOk_iff x, chanOf_setUnit, chanOf_setChan, stagedOn_eq, stagedOn_eq, unitOf_setUnit_self,
    unitOf_setUnit_peer, unitOf_setChan, ← stagedOn_eq]
  split
  · subst d
    exact hc ((channelOk_iff x).mp (h c))
  · rename_i hd
    have hold := (channelOk_iff x).mp (h d)
    rw [← hoff d hd] at hold
    exact hold

theorem blocksOn_filter_self (c : Fin 8) (l : List Staging) : blocksOn c (l.filter fun t => t.channel != c) = [] := by
  simp [blocksOn, List.filter_filter]

theorem blocksOn_filter_ne {c d : Fin 8} (hd : d ≠ c) (l : List Staging) :
    blocksOn d (l.filter fun t => t.channel != c) = blocksOn d l := by
  rw [blocksOn, List.filter_filter, blocksOn]
  congr 1
  refine List.filter_congr fun r _ => ?_
  by_cases hr : r.channel = d
  · simp [hr, hd]
  · simp [hr]

theorem blocksOn_append (c : Fin 8) (l : List Staging) (r : Staging) :
    blocksOn c (l ++ [r]) = blocksOn c l ++ if r.channel = c then [r.blocks] else [] := by
  rw [blocksOn, List.filter_append, List.map_append, ← blocksOn]
  congr 1
  split
  · rename_i hr
    simp [hr]
  · rename_i hr
    simp [hr]

theorem blocksOn_keptStaging_ne {c d : Fin 8} (hd : d ≠ c) (role : Role) (l : List Staging) :
    blocksOn d (keptStaging c role l) = blocksOn d l := by
  cases role
  · exact blocksOn_filter_ne hd l
  · rfl

theorem blocksOn_keptStaging_self (c : Fin 8) (role : Role) (l : List Staging) :
    blocksOn c (keptStaging c role l) = leftBlocks role (blocksOn c l) := by
  cases role
  · exact blocksOn_filter_self c l
  · rfl

theorem ChannelOk.foundBlocks {x : Station} {c : Fin 8} {s : State} (h : ChannelOk c s) :
    Machine.stagedOn x c s = Machine.foundBlocks (stagingOn x c s) := by
  cases hr : stagingOn x c s with
  | none => exact stagedOn_of_none hr
  | some r => exact h.stagedOn hr

/-! ### The changes -/

theorem ChannelLaw.shut {x : Station} {c : Fin 8} {role : Role} {s : State}
    (hheld : holdsEnd x (endOf role (chanOf c s)) = true) (h : ChannelLaw s) : ChannelLaw (shutState x c role s) :=
  h.setBoth (fun _ hd => blocksOn_keptStaging_ne hd role _) fun hc => by
    rw [blocksOn_keptStaging_self]
    exact hc.shut (h c).foundBlocks hheld

theorem ChannelLaw.stage {x : Station} {r : Staging} {s : State}
    (hheld : holdsActive x (chanOf r.channel s).sender = true) (hnone : stagingOn x r.channel s = none)
    (hadmit : admission (chanOf r.channel s) r.blocks.length s = none) (h : ChannelLaw s) :
    ChannelLaw (stagedState x r s) := by
  refine h.setBoth (fun d hd => ?_) fun hc => ?_
  · rw [blocksOn_append, if_neg (Ne.symm hd), List.append_nil]
    rfl
  · rw [blocksOn_append, if_pos rfl]
    rw [stagedOn_of_none hnone] at hc
    rw [← stagedOn_eq, stagedOn_of_none hnone]
    exact hc.staged hheld hadmit

theorem ChannelLaw.complete {x : Station} {r : Staging} {m : Message} {s : State}
    (hr : stagingOn x r.channel s = some r) (hm : m.blocks = r.blocks) (h : ChannelLaw s) :
    ChannelLaw (completedState x r m s) := by
  refine h.setBoth (fun d hd => blocksOn_filter_ne hd _) fun hc => ?_
  rw [blocksOn_filter_self]
  rw [(h r.channel).stagedOn hr] at hc
  exact hc.completed hm

theorem ChannelLaw.dropped {x : Station} {r : Staging} {s : State} (hr : stagingOn x r.channel s = some r)
    (h : ChannelLaw s) : ChannelLaw (droppedState x r s) := by
  refine h.setBoth (fun d hd => blocksOn_filter_ne hd _) fun hc => ?_
  rw [blocksOn_filter_self]
  rw [(h r.channel).stagedOn hr] at hc
  exact hc.withoutStaging (r := some r)

/-- R40: the record found on a channel is the only one there, so a replacement that keeps its blocks is not seen. -/
theorem ChannelLaw.replace {x : Station} {r r1 : Staging} {s : State} (hr : stagingOn x r.channel s = some r)
    (hc : r1.channel = r.channel) (hb : r1.blocks = r.blocks) (h : ChannelLaw s) :
      ChannelLaw (replaceStaging x r1 s) := by
  have hview : stagedView { unitOf x s with
      staging := (unitOf x s).staging.map fun t => if t.channel = r1.channel then r1 else t } =
        stagedView (unitOf x s) := by
    rw [stagedView, List.map_map, stagedView]
    refine List.map_congr_left fun t ht => ?_
    simp only [Function.comp]
    split
    · rename_i hch
      rw [hc] at hch
      have hone := (h r.channel).one ht hch
      rw [(h r.channel).one (stagingOn_mem hr) rfl, List.singleton_inj] at hone
      rw [← hone, hc, hb]
    · rfl
  have hsame : SameAccounts s (replaceStaging x r1 s) := by
    refine ⟨rfl, fun y => ?_⟩
    rw [replaceStaging, unitOf_setUnit]
    split
    · subst y; exact hview
    · rfl
  exact h.same hsame

/-- R47, R133: what the abandonment of all records of a station makes of a channel. -/
theorem chanOf_departStaging {x : Station} {c : Fin 8} {s : State} (h : ChannelOk c s) :
    ∃ v, chanOf c (departStaging x s) =
      { withoutStaging (stagingOn x c s) (chanOf c s) with congested := v } := by
  cases hr : stagingOn x c s with
  | none => exact ⟨(chanOf c s).congested, chanOf_departStaging_of_none hr⟩
  | some r =>
    have hcr : r.channel = c := Kept.stagingOn_channel hr
    have hone := h.one (stagingOn_mem hr) hcr
    subst hcr
    exact ⟨_, chanOf_departStaging_of_one hone⟩

theorem ChannelLaw.abandon {x : Station} {s : State} (h : ChannelLaw s) : ChannelLaw (departStaging x s) := by
  intro c
  obtain ⟨v, hv⟩ := chanOf_departStaging (x := x) (h c)
  have hc := (channelOk_iff x).mp (h c)
  rw [(h c).foundBlocks] at hc
  have hown : stagedOn x c (departStaging x s) = [] := by
    rw [stagedOn_eq, staging_departStaging]
    rfl
  have hpeer : stagedOn x.peer c (departStaging x s) = stagedOn x.peer c s := by
    rw [stagedOn_eq, (Sheltered.departStaging x s).peerStaging, ← stagedOn_eq]
  rw [channelOk_iff x, hv, hown, hpeer]
  exact hc.withoutStaging.of_requeued (requeued_congested _ _)

theorem channelLaw_accounted : Accounted ChannelLaw where
  same hst h := h.same hst
  requeued hr h := h.setChan .a fun hc => hc.of_requeued hr
  opened {x} _ _ _ _ _ hfree hother h := h.setChan x fun hc => hc.opened _ _ hfree hother
  joinedEnd {x} _ _ _ _ hfree hheld hx h := h.setChan x fun hc => hc.joinedEnd _ hfree hheld hx
  closed hheld h := h.shut hheld
  posted _ hadmit _ h := h.setChan .a fun hc => hc.posted hadmit
  staged hheld hnone hadmit h := h.stage hheld hnone hadmit
  replaced hr hc hb h := h.replace hr hc hb
  completed hr hm _ h := h.complete hr hm
  dropped hr h := h.dropped hr
  removed hs hb h := h.setChan .a fun hc => hc.removed hs hb
  abandoned h := h.abandon
  dormant {x c s} hst h := h.setChan x fun hc => by
    have hown : stagedOn x c s = [] := by rw [stagedOn_eq, hst]; rfl
    rw [hown] at hc ⊢
    exact hc.dormant
  resumed {x} _ _ h := h.setChan x fun hc => hc.resumed

/-- Settles O56: the accounts of a channel are kept by every change of a channel and of the staging records on it. -/
theorem stepsKeepTheChannelAccounts : Obligations.StepsKeepTheChannelAccounts :=
  step_carries resetState_channel channelLaw_accounted.carried

end Sys2Proof.Machine
end

section
/-!
PROOFS. Every step keeps the sequence numbers of a queue rising below next_seq (R8, R37, R46).
-/

namespace Sys2Proof.Machine

/-! ### Distances -/

/-- R37: the distance of a sequence number from the oldest one. -/
theorem distance_succ {n h : Half} (hd : (n - h).toNat < 65535) : (n + 1 - h).toNat = (n - h).toNat + 1 := by
  bv_omega

/-- A distance from a later number is the difference of the distances. -/
theorem distance_sub {m g h : Half} (hle : (g - h).toNat ≤ (m - h).toNat) :
    (m - g).toNat = (m - h).toNat - (g - h).toNat := by
  bv_omega

section
variable {ch dh : Channel}

/-- The law follows the sequence numbers. -/
theorem SequenceOk.of_seqs (h : SequenceOk ch) (hq : dh.queue.map (·.seq) = ch.queue.map (·.seq))
    (hn : dh.nextSeq = ch.nextSeq) (hr : dh.reserved ≤ ch.reserved) : SequenceOk dh := by
  intro g hg
  obtain ⟨m, rest, hch⟩ : ∃ m rest, ch.queue = m :: rest := by
    cases hch : ch.queue with
    | nil =>
      rw [hch, List.map_nil, List.map_eq_nil_iff] at hq
      rw [hq] at hg
      cases hg
    | cons m rest => exact ⟨m, rest, rfl⟩
  have hseq : g.seq = m.seq := by
    have := congrArg List.head? hq
    rw [List.head?_map, List.head?_map, Option.mem_def.mp hg, hch] at this
    exact Option.some.inj this
  obtain ⟨h1, h2, h3⟩ := h m (by rw [hch]; rfl)
  rw [hseq, hn]
  have pairs : ∀ q : List Message, q.Pairwise (fun a b => (a.seq - m.seq).toNat < (b.seq - m.seq).toNat) ↔
      (q.map (·.seq)).Pairwise fun a b : Half => (a - m.seq).toNat < (b - m.seq).toNat :=
    fun q => by rw [List.pairwise_map]
  have below : ∀ q : List Message, (∀ a ∈ q, (a.seq - m.seq).toNat < (ch.nextSeq - m.seq).toNat) ↔
      ∀ a ∈ q.map (·.seq), (a - m.seq).toNat < (ch.nextSeq - m.seq).toNat := fun q => by simp
  refine ⟨?_, ?_, by omega⟩
  · rw [pairs, hq, ← pairs]; exact h1
  · rw [below, hq, ← below]; exact h2

theorem sequenceOk_of_empty (h : ch.queue = []) : SequenceOk ch := fun g hg => by
  rw [h] at hg
  cases hg

/-- R8, R37, R46: a message with the number next_seq is appended. -/
theorem SequenceOk.append (h : SequenceOk ch) {m : Message} {n : Nat} (hm : m.seq = ch.nextSeq)
    (hroom : ∀ g ∈ ch.queue.head?, (ch.nextSeq - g.seq).toNat + 1 + n ≤ 32769) (hn : n ≤ 1)
    (hq : dh.queue = ch.queue ++ [m]) (hnext : dh.nextSeq = ch.nextSeq + 1) (hr : dh.reserved = n) : SequenceOk dh := by
  intro g hg
  rw [hq, hnext, hr]
  rw [hq] at hg
  cases hch : ch.queue with
  | nil =>
    rw [hch] at hg
    obtain rfl : m = g := Option.some.inj hg
    have hself : (m.seq - m.seq).toNat = 0 := by rw [BitVec.sub_self]; rfl
    have hone : (ch.nextSeq + 1 - m.seq).toNat = 1 := by
      rw [hm, distance_succ (by rw [BitVec.sub_self]; decide), BitVec.sub_self]; rfl
    rw [hone, List.nil_append]
    refine ⟨List.pairwise_singleton _ _, fun a ha => ?_, by omega⟩
    rw [List.mem_singleton.mp ha, hself]
    exact Nat.one_pos
  | cons k rest =>
    rw [hch] at hg
    obtain rfl : k = g := Option.some.inj hg
    obtain ⟨h1, h2, -⟩ := h k (by rw [hch]; rfl)
    have hdist := hroom k (by rw [hch]; rfl)
    rw [distance_succ (by omega), ← hch]
    refine ⟨List.pairwise_append.mpr ⟨h1, List.pairwise_singleton _ _, fun a ha b hb => ?_⟩, fun a ha => ?_, hdist⟩
    · rw [List.mem_singleton.mp hb, hm]
      exact h2 a ha
    · rcases List.mem_append.mp ha with ha | ha
      · exact Nat.lt_succ_of_lt (h2 a ha)
      · rw [List.mem_singleton.mp ha, hm]
        exact Nat.lt_succ_self _

/-- R63, R66: messages leave the queue, wherever they stand. -/
theorem SequenceOk.sublist (h : SequenceOk ch) (hs : dh.queue.Sublist ch.queue) (hn : dh.nextSeq = ch.nextSeq)
    (hr : dh.reserved = ch.reserved) : SequenceOk dh := by
  intro g hg
  obtain ⟨rest, hdh⟩ : ∃ rest, dh.queue = g :: rest := List.head?_eq_some_iff.mp hg
  rw [hdh] at hs
  have hmem : g ∈ ch.queue := hs.subset List.mem_cons_self
  obtain ⟨k, tail, hch⟩ := List.exists_cons_of_ne_nil (List.ne_nil_of_mem hmem)
  obtain ⟨h1, h2, h3⟩ := h k (by rw [hch]; rfl)
  have hpairs := h1.sublist hs
  obtain ⟨hafter, -⟩ := List.pairwise_cons.mp hpairs
  have hfrom : ∀ m ∈ g :: rest, (m.seq - g.seq).toNat = (m.seq - k.seq).toNat - (g.seq - k.seq).toNat := by
    intro m hm
    refine distance_sub ?_
    rcases List.mem_cons.mp hm with e | hm
    · rw [e]
    · exact Nat.le_of_lt (hafter m hm)
  have hnext : (ch.nextSeq - g.seq).toNat = (ch.nextSeq - k.seq).toNat - (g.seq - k.seq).toNat :=
    distance_sub (Nat.le_of_lt (h2 g hmem))
  have hle : ∀ m ∈ g :: rest, (g.seq - k.seq).toNat ≤ (m.seq - k.seq).toNat := by
    intro m hm
    rcases List.mem_cons.mp hm with e | hm
    · rw [e]
    · exact Nat.le_of_lt (hafter m hm)
  rw [hdh, hn, hr, hnext]
  refine ⟨hpairs.imp_of_mem fun {a b} ha hb hab => ?_, fun m hm => ?_, by omega⟩
  · rw [hfrom a ha, hfrom b hb]
    have := hle a ha
    omega
  · rw [hfrom m hm]
    have := hle m hm
    have := h2 m (hs.subset hm)
    omega

end

/-! ### The law of a channel with its accounts -/

/-- R37: next_seq is less than 32,768 ahead of the oldest message of a channel that admits one. -/
theorem distance_of_not_full {p : Params} {ch : Channel} (h : channelFull p ch = false) :
    ∀ g ∈ ch.queue.head?, (ch.nextSeq - g.seq).toNat < 32768 := by
  intro g hg
  obtain ⟨rest, hq⟩ := List.head?_eq_some_iff.mp hg
  rw [channelFull, hq, Bool.or_eq_false_iff, decide_eq_false_iff_not] at h
  exact Nat.lt_of_not_le (of_decide_eq_false h.2)

theorem SequenceLaw.setChan {c : Fin 8} {ch : Channel} {s : State} (h : SequenceLaw s)
    (hc : SequenceOk (chanOf c s) → SequenceOk ch) : SequenceLaw (Machine.setChan c ch s) := by
  intro d
  rw [chanOf_setChan]
  split
  · exact hc (h c)
  · exact h d

theorem SequenceLaw.of_chans {s t : State} (hc : ∀ c, chanOf c t = chanOf c s) (h : SequenceLaw s) : SequenceLaw t :=
  fun c => by rw [hc]; exact h c

theorem ChannelOk.reserved_le {c : Fin 8} {s : State} (h : ChannelOk c s) : (chanOf c s).reserved ≤ 1 := by
  have hc := (channelOk_iff .a).mp h
  rw [hc.reserved]
  exact hc.one

/-! ### The changes -/

theorem map_seq_returnMessage (q : List Message) : (q.map returnMessage).map (·.seq) = q.map (·.seq) := by
  rw [List.map_map]
  refine List.map_congr_left fun m _ => ?_
  simp only [Function.comp, returnMessage]
  split <;> rfl

theorem SequenceOk.shut {ch : Channel} (r : Option Staging) (role : Role) (h : SequenceOk ch) :
    SequenceOk (shutChannel r role ch) := by
  unfold shutChannel
  split
  · cases role with
    | send =>
      cases r with
      | none => exact h.of_seqs rfl rfl (le_refl _)
      | some r => exact h.of_seqs rfl rfl (Nat.zero_le _)
    | receive => exact h.of_seqs (map_seq_returnMessage _) rfl (le_refl _)
  · exact sequenceOk_of_empty rfl

theorem SequenceOk.dormant {ch : Channel} (x : Station) (h : SequenceOk ch) : SequenceOk (dormantChannel x ch) := by
  unfold dormantChannel
  simp only
  split
  · split
    · exact h.of_seqs (map_seq_returnMessage _) rfl (le_refl _)
    · exact h.of_seqs rfl rfl (le_refl _)
  · split
    · exact h.of_seqs (map_seq_returnMessage _) rfl (le_refl _)
    · exact h

theorem SequenceOk.resumed {ch : Channel} (x : Station) (h : SequenceOk ch) : SequenceOk (resumedChannel x ch) := by
  obtain ⟨-, -, -, -, hrest⟩ := resumedChannel_spec x ch
  rw [hrest]
  exact h.of_seqs rfl rfl (le_refl _)

theorem SequenceOk.withoutStaging {ch : Channel} (r : Option Staging) (v : Bool) (h : SequenceOk ch) :
    SequenceOk { Machine.withoutStaging r ch with congested := v } := by
  cases r with
  | none => exact h.of_seqs rfl rfl (le_refl _)
  | some r => exact h.of_seqs rfl rfl (Nat.zero_le _)

theorem SequenceOk.takeEnd {ch : Channel} (x : Station) (role : Role) (arrival : Bool) (h : SequenceOk ch) :
    SequenceOk (Machine.takeEnd x role arrival ch) := by
  cases role <;> exact h.of_seqs rfl rfl (le_refl _)

/-- R8, R11: a CLOSED channel has no message. -/
theorem ChannelOk.queue_nil {c : Fin 8} {role : Role} {s : State} (h : ChannelOk c s)
    (hfree : endHeld (endOf role (chanOf c s)) = false) (hother : endHeld (endOf role.other (chanOf c s)) = false) :
    (chanOf c s).queue = [] := by
  have hc := (channelOk_iff .a).mp h
  rw [endHeld_eq_false] at hfree hother
  have hends : (chanOf c s).sender.holder = none ∧ (chanOf c s).receiver.holder = none := by
    cases role
    · exact ⟨hfree, hother⟩
    · exact ⟨hother, hfree⟩
  exact (hc.closed (hc.open_.mpr hends)).1

/-- R37, R38: a message is appended to a channel that admits it. -/
theorem SequenceOk.posted {c : Fin 8} {m : Message} {s : State} (hc : ChannelOk c s)
    (hadmit : admission (chanOf c s) m.blocks.length s = none) (hm : m.seq = (chanOf c s).nextSeq)
    (h : SequenceOk (chanOf c s)) :
    SequenceOk { appendMessage m (chanOf c s) with charged := (chanOf c s).charged + m.blocks.length } := by
  obtain ⟨p, -, hfull, -⟩ := admission_room hadmit
  have hres := hc.reserved_le
  refine h.append hm (fun g hg => ?_) hres rfl rfl rfl
  have := distance_of_not_full hfull g hg
  omega

/-- R37, R43: a place is reserved on a channel that admits the message. -/
theorem SequenceOk.staged {ch : Channel} {k : Nat} {s : State} (hadmit : admission ch k s = none) (h : SequenceOk ch) :
    SequenceOk { ch with reserved := 1, charged := ch.charged + k } := by
  obtain ⟨p, -, hfull, -⟩ := admission_room hadmit
  intro g hg
  obtain ⟨h1, h2, -⟩ := h g hg
  have hdist := distance_of_not_full hfull g hg
  refine ⟨h1, h2, ?_⟩
  simp only
  omega

/-- R46: the reserved place becomes a message. -/
theorem SequenceOk.completed {x : Station} {r : Staging} {m : Message} {s : State} (hc : ChannelOk r.channel s)
    (hr : stagingOn x r.channel s = some r) (hm : m.seq = (chanOf r.channel s).nextSeq)
    (h : SequenceOk (chanOf r.channel s)) :
    SequenceOk { appendMessage m (chanOf r.channel s) with reserved := 0 } := by
  have hreserved : (chanOf r.channel s).reserved = 1 := by
    have hacc := (channelOk_iff x).mp hc
    rw [hc.stagedOn hr] at hacc
    have hone := hacc.one
    rw [hacc.reserved]
    rw [List.length_singleton] at hone ⊢
    omega
  refine h.append hm (fun g hg => ?_) (Nat.zero_le _) rfl rfl rfl
  obtain ⟨-, -, h3⟩ := h g hg
  omega

/-- The accounts of the channels and the order of their sequence numbers. -/
def SequencedLaw (s : State) : Prop := ChannelLaw s ∧ SequenceLaw s

theorem sequencedLaw_accounted : Accounted SequencedLaw where
  same hst h := ⟨channelLaw_accounted.same hst h.1, h.2.of_chans fun c => by rw [chanOf, hst.channels]; rfl⟩
  requeued hr h := ⟨channelLaw_accounted.requeued hr h.1,
    h.2.setChan fun hc => hc.of_seqs hr.seqs hr.nextSeq (le_of_eq hr.reserved)⟩
  opened hfree hother h := ⟨channelLaw_accounted.opened hfree hother h.1, h.2.setChan fun _ =>
    SequenceOk.takeEnd _ _ _ (sequenceOk_of_empty ((h.1 _).queue_nil hfree hother))⟩
  joinedEnd hfree hheld hx h := ⟨channelLaw_accounted.joinedEnd hfree hheld hx h.1,
    h.2.setChan fun hc => hc.takeEnd _ _ _⟩
  closed {_ _ role _} hheld h := ⟨channelLaw_accounted.closed hheld h.1,
    SequenceLaw.setChan h.2 fun hc => hc.shut _ role⟩
  posted hheld hadmit hm h := ⟨channelLaw_accounted.posted hheld hadmit hm h.1,
    h.2.setChan fun hc => hc.posted (h.1 _) hadmit hm⟩
  staged hheld hnone hadmit h := ⟨channelLaw_accounted.staged hheld hnone hadmit h.1,
    SequenceLaw.setChan h.2 fun hc => hc.staged hadmit⟩
  replaced hr hc hb h := ⟨channelLaw_accounted.replaced hr hc hb h.1, h.2⟩
  completed hr hm hseq h := ⟨channelLaw_accounted.completed hr hm hseq h.1,
    SequenceLaw.setChan h.2 fun hc => hc.completed (h.1 _) hr hseq⟩
  dropped {_ r _} hr h := ⟨channelLaw_accounted.dropped hr h.1,
    SequenceLaw.setChan h.2 fun hc => hc.withoutStaging (some r) _⟩
  removed hs hb h := ⟨channelLaw_accounted.removed hs hb h.1, h.2.setChan fun hc => hc.sublist hs rfl rfl⟩
  abandoned {x s} h := ⟨channelLaw_accounted.abandoned h.1, fun c => by
    obtain ⟨v, hv⟩ := chanOf_departStaging (x := x) (h.1 c)
    rw [hv]
    exact (h.2 c).withoutStaging _ v⟩
  dormant hst h := ⟨channelLaw_accounted.dormant hst h.1, h.2.setChan fun hc => hc.dormant _⟩
  resumed h := ⟨channelLaw_accounted.resumed h.1, h.2.setChan fun hc => hc.resumed _⟩

/-- Settles O55: the order of the LENT messages is kept by every elementary change, the order of the sequence numbers,
with the accounts, by every change of a channel. -/
theorem stepsKeepLentMessagesFirst : Obligations.StepsKeepLentMessagesFirst := by
  refine ⟨step_keeps_lentFirst, fun s t hc hs hstep => ?_⟩
  have hreset : ∀ phase straps pending n, SequencedLaw (resetState phase straps pending n) :=
    fun phase straps pending n => ⟨resetState_channel phase straps pending n,
      resetState_sequence phase straps pending n⟩
  exact (step_carries hreset sequencedLaw_accounted.carried s t ⟨hc, hs⟩ hstep).2

end Sys2Proof.Machine
end

section
/-!
PROOFS. Each block stays in one place (R23, R25, R26, R40): the free pool, a message record or a staging record.
-/

namespace Sys2Proof.Machine

/-! ### The free pool as a list in ascending order -/

theorem insertBlock_perm {b : Fin 256} {l : List (Fin 256)} (h : b ∉ l) : (insertBlock b l).Perm (b :: l) := by
  induction l with
  | nil => exact .refl _
  | cons c cs ih =>
    rw [List.mem_cons, not_or] at h
    unfold insertBlock
    rw [if_neg h.1]
    split
    · exact .refl _
    · exact ((ih h.2).cons c).trans (.swap b c cs)

theorem insertBlock_sorted {b : Fin 256} {l : List (Fin 256)} (h : l.Pairwise (· < ·)) :
    (insertBlock b l).Pairwise (· < ·) := by
  induction l with
  | nil => exact List.pairwise_singleton _ _
  | cons c cs ih =>
    have hc := List.pairwise_cons.mp h
    unfold insertBlock
    split
    · rename_i hb
      refine List.pairwise_cons.mpr ⟨fun d hd => ?_, h⟩
      rcases List.mem_cons.mp hd with rfl | hd
      · exact hb
      · exact hb.trans (hc.1 d hd)
    · split
      · exact h
      · rename_i hb hne
        refine List.pairwise_cons.mpr ⟨fun d hd => ?_, ih hc.2⟩
        rcases mem_insertBlock.mp hd with rfl | hd
        · exact lt_of_le_of_ne (not_lt.mp hb) (Ne.symm hne)
        · exact hc.1 d hd

/-- R26: freeing keeps the free pool in ascending order. -/
theorem freeBlocks_sorted (bs : List (Fin 256)) {st : Store} (h : st.freePool.Pairwise (· < ·)) :
    (freeBlocks bs st).freePool.Pairwise (· < ·) := by
  unfold freeBlocks
  induction bs with
  | nil => exact h
  | cons b bs ih => exact insertBlock_sorted ih

/-- R26: blocks that are not free, and are all different, join the free pool. -/
theorem freeBlocks_perm {bs : List (Fin 256)} {st : Store} (h : (bs ++ st.freePool).Nodup) :
    (freeBlocks bs st).freePool.Perm (bs ++ st.freePool) := by
  unfold freeBlocks
  induction bs with
  | nil => exact .refl _
  | cons b bs ih =>
    rw [List.cons_append, List.nodup_cons] at h
    have hperm := ih h.2
    exact (insertBlock_perm fun hb => h.1 (hperm.mem_iff.mp hb)).trans (hperm.cons b)

/-! ### The blocks that are not free -/

/-- The blocks that messages and staging records hold. -/
def heldBlocks (s : State) : List (Fin 256) :=
  allChannels.flatMap (fun c => blocksOf (chanOf c s).queue) ++
    ((unitOf .a s).staging.flatMap (·.blocks) ++ (unitOf .b s).staging.flatMap (·.blocks))

theorem accountedBlocks_eq (s : State) : accountedBlocks s = s.store.freePool ++ heldBlocks s := by
  rw [accountedBlocks, heldBlocks, List.append_assoc]

/-- What the accounts see of a unit's staging records holds its blocks. -/
theorem staging_blocks (u : StationUnit) : u.staging.flatMap (·.blocks) = (stagedView u).flatMap (·.2) := by
  rw [stagedView, List.flatMap_map]

theorem staging_channels (u : StationUnit) : u.staging.map (·.channel) = (stagedView u).map (·.1) := by
  rw [stagedView, List.map_map]; rfl

/-- The held blocks are seen from the channels' queues and the staging records. -/
theorem heldBlocks_of_same {s t : State} (hc : ∀ c, blocksOf (chanOf c t).queue = blocksOf (chanOf c s).queue)
    (hs : ∀ x, stagedView (unitOf x t) = stagedView (unitOf x s)) : heldBlocks t = heldBlocks s := by
  simp only [heldBlocks, staging_blocks, hc, hs]

/-- A channel's queue changes: its old blocks go and its new ones come. -/
theorem count_heldBlocks_setChan (b : Fin 256) (c : Fin 8) (ch : Channel) (s : State) :
    (heldBlocks (setChan c ch s)).count b + (blocksOf (chanOf c s).queue).count b =
      (heldBlocks s).count b + (blocksOf ch.queue).count b := by
  have hsum : ∀ l : List (Fin 8), l.Nodup → c ∈ l →
      (l.flatMap fun d => blocksOf (chanOf d (setChan c ch s)).queue).count b +
          (blocksOf (chanOf c s).queue).count b =
        (l.flatMap fun d => blocksOf (chanOf d s).queue).count b + (blocksOf ch.queue).count b := by
    intro l
    induction l with
    | nil => intro _ h; cases h
    | cons d l ih =>
      intro hl hm
      rw [List.nodup_cons] at hl
      simp only [List.flatMap_cons, List.count_append]
      rcases List.mem_cons.mp hm with rfl | hm
      · have hrest : (l.flatMap fun d => blocksOf (chanOf d (setChan c ch s)).queue) =
            l.flatMap fun d => blocksOf (chanOf d s).queue :=
          List.flatMap_congr fun d hd => by
            rw [chanOf_setChan_ne ch s (ne_of_mem_of_not_mem hd hl.1)]
        rw [hrest, chanOf_setChan_self]
        omega
      · have := ih hl.2 hm
        rw [chanOf_setChan_ne ch s (ne_of_mem_of_not_mem hm hl.1).symm]
        omega
  have := hsum allChannels allChannels_nodup (mem_allChannels c)
  simp only [heldBlocks, List.count_append, unitOf_setChan] at this ⊢
  omega

/-- A unit's staging records change. -/
theorem count_heldBlocks_setUnit (b : Fin 256) (x : Station) (u : StationUnit) (s : State) :
    (heldBlocks (setUnit x u s)).count b + ((unitOf x s).staging.flatMap (·.blocks)).count b =
      (heldBlocks s).count b + (u.staging.flatMap (·.blocks)).count b := by
  cases x <;> simp only [heldBlocks, List.count_append, chanOf_setUnit, unitOf_setUnit, reduceCtorEq, if_true, if_false] <;>
    omega

/-! ### The law -/

/-- R23, R25, R40, without what R35 says of the time before the store initialisation has completed. -/
structure BlocksApart (s : State) : Prop where
  once : ∀ b, s.store.freePool.count b + (heldBlocks s).count b = 1
  sorted : s.store.freePool.Pairwise (· < ·)
  channels : ∀ x, ((unitOf x s).staging.map (·.channel)).Nodup
  idle : s.phase ≠ .running → heldBlocks s = []

theorem blocksApart_of_law {s : State} (h : BlockLaw s) : BlocksApart s := by
  obtain ⟨honce, hsorted, ha, hb, hidle⟩ := h
  refine ⟨fun b => ?_, hsorted, fun x => by cases x <;> assumption, fun hp => ?_⟩
  · rw [← List.count_append, ← accountedBlocks_eq]; exact honce b
  · obtain ⟨hq, hsa, hsb⟩ := hidle hp
    simp [heldBlocks, hq, hsa, hsb, blocksOf]

theorem BlocksApart.law {s : State} (h : BlocksApart s)
    (hidle : s.phase ≠ .running → (∀ c, (chanOf c s).queue = []) ∧ ∀ x, (unitOf x s).staging = []) : BlockLaw s :=
  ⟨fun b => by rw [accountedBlocks_eq, List.count_append]; exact h.once b, h.sorted, h.channels .a, h.channels .b,
    fun hp => ⟨(hidle hp).1, (hidle hp).2 .a, (hidle hp).2 .b⟩⟩

/-- The blocks move, and none is gained or lost. -/
theorem BlocksApart.moved {s t : State} (h : BlocksApart s)
    (hcount : ∀ b, t.store.freePool.count b + (heldBlocks t).count b =
      s.store.freePool.count b + (heldBlocks s).count b)
    (hsorted : t.store.freePool.Pairwise (· < ·)) (hch : ∀ x, ((unitOf x t).staging.map (·.channel)).Nodup)
    (hidle : t.phase ≠ .running → ∀ b, (heldBlocks t).count b = 0) : BlocksApart t :=
  ⟨fun b => (hcount b).trans (h.once b), hsorted, hch,
    fun hp => List.eq_nil_iff_forall_not_mem.mpr fun b => List.count_eq_zero.mp (hidle hp b)⟩

/-- R26: no block that is held is free, and none is held twice. -/
theorem BlocksApart.nodup {s : State} (h : BlocksApart s) {bs : List (Fin 256)}
    (hb : ∀ b, bs.count b ≤ (heldBlocks s).count b) : (bs ++ s.store.freePool).Nodup := by
  rw [List.nodup_iff_count_le_one]
  intro b
  rw [List.count_append]
  have := h.once b
  have := hb b
  omega

/-- Neither the free pool nor the held blocks change. -/
theorem BlocksApart.same {s t : State} (h : BlocksApart s) (hpool : t.store.freePool = s.store.freePool)
    (hc : ∀ c, blocksOf (chanOf c t).queue = blocksOf (chanOf c s).queue)
    (hs : ∀ x, stagedView (unitOf x t) = stagedView (unitOf x s)) (hphase : t.phase = s.phase) : BlocksApart t := by
  have hheld := heldBlocks_of_same hc hs
  refine ⟨fun b => by rw [hpool, hheld]; exact h.once b, by rw [hpool]; exact h.sorted, fun x => ?_,
    fun hp => by rw [hheld]; exact h.idle (hphase ▸ hp)⟩
  rw [staging_channels, hs, ← staging_channels]
  exact h.channels x

theorem BlocksApart.setUnit {x : Station} {u : StationUnit} {s : State} (h : BlocksApart s)
    (hu : u.staging = (unitOf x s).staging) : BlocksApart (setUnit x u s) :=
  h.same rfl (fun _ => rfl) (fun y => by
    rw [unitOf_setUnit]
    split
    · subst y; rw [stagedView, hu, stagedView]
    · rfl) rfl

theorem BlocksApart.setChan {c : Fin 8} {ch : Channel} {s : State} (h : BlocksApart s)
    (hq : blocksOf ch.queue = blocksOf (chanOf c s).queue) : BlocksApart (setChan c ch s) :=
  h.same rfl (fun d => by
    rw [chanOf_setChan]
    split
    · subst d; exact hq
    · rfl) (fun _ => rfl) rfl

theorem BlocksApart.offer {x : Station} {n : Notice} {s : State} (h : BlocksApart s) : BlocksApart (offer x n s) :=
  h.same (by rw [offer_store]) (fun _ => by rw [chanOf_offer])
    (fun y => by rw [stagedView, offer_staging, stagedView]) (offer_phase _ _ _)

theorem BlocksApart.evalCongestion {c : Fin 8} {s : State} (h : BlocksApart s) : BlocksApart (evalCongestion c s) :=
  h.same (by rw [evalCongestion_store]) (fun d => by rw [evalCongestion_queue])
    (fun y => by rw [stagedView, evalCongestion_staging, stagedView]) (evalCongestion_phase _ _)

theorem BlocksApart.offerArrival {c : Fin 8} {s : State} (h : BlocksApart s) : BlocksApart (offerArrival c s) :=
  h.same (by rw [offerArrival_store]) (fun d => by rw [chanOf_offerArrival])
    (fun y => by rw [stagedView, offerArrival_staging, stagedView]) (offerArrival_phase _ _)

/-- R26: held blocks are freed. `s'` is `s` without what held them. -/
theorem BlocksApart.freed {bs : List (Fin 256)} {s s' : State} (h : BlocksApart s)
    (hheld : ∀ b, (heldBlocks s').count b + bs.count b = (heldBlocks s).count b)
    (hch : ∀ x, ((unitOf x s').staging.map (·.channel)).Nodup) (hphase : s'.phase = s.phase) :
    BlocksApart (setStore (freeBlocks bs s.store) s') := by
  have hpool := freeBlocks_perm (h.nodup (bs := bs) fun b => by have := hheld b; omega)
  refine h.moved (fun b => ?_) (freeBlocks_sorted bs h.sorted) hch fun hp b => ?_
  · have hfree := hpool.count_eq b
    rw [List.count_append] at hfree
    have := hheld b
    have hsame : heldBlocks (setStore (freeBlocks bs s.store) s') = heldBlocks s' := rfl
    rw [setStore_store, hsame]
    omega
  · have := hheld b
    rw [h.idle (hphase ▸ hp), List.count_nil] at this
    exact Nat.eq_zero_of_add_eq_zero_right this

/-! ### Staging records -/

/-- R40: with one record on a channel, taking the channel's records out takes that record's blocks. -/
theorem count_staging_filter {l : List Staging} {r : Staging} (hl : (l.map (·.channel)).Nodup) (hr : r ∈ l)
    (b : Fin 256) :
    ((l.filter fun t => t.channel != r.channel).flatMap (·.blocks)).count b + r.blocks.count b =
      (l.flatMap (·.blocks)).count b := by
  induction l with
  | nil => cases hr
  | cons t l ih =>
    rw [List.map_cons, List.nodup_cons] at hl
    rw [List.flatMap_cons, List.count_append]
    rcases List.mem_cons.mp hr with rfl | hr
    · have hrest : (l.filter fun t => t.channel != r.channel) = l :=
        List.filter_eq_self.mpr fun t ht => by
          have hne : t.channel ≠ r.channel := fun e => hl.1 (e ▸ List.mem_map_of_mem ht)
          simpa using hne
      rw [List.filter_cons_of_neg (by simp), hrest]
      omega
    · have hne : t.channel ≠ r.channel := fun e => hl.1 (e ▸ List.mem_map_of_mem hr)
      rw [List.filter_cons_of_pos (by simpa using hne), List.flatMap_cons, List.count_append]
      have := ih hl.2 hr
      omega

/-- R40: without its record on a channel the station holds that record's blocks no more. -/
theorem count_heldBlocks_unstaged {x : Station} {r r0 : Staging} {s : State}
    (hl : ((unitOf x s).staging.map (·.channel)).Nodup) (hr : stagingOn x r.channel s = some r0) (b : Fin 256) :
    (heldBlocks (Machine.setUnit x { unitOf x s with
      staging := (unitOf x s).staging.filter fun t => t.channel != r.channel } s)).count b + r0.blocks.count b =
        (heldBlocks s).count b := by
  have hunit := count_heldBlocks_setUnit b x { unitOf x s with
    staging := (unitOf x s).staging.filter fun t => t.channel != r.channel } s
  have hfilter := count_staging_filter hl (stagingOn_mem hr) b
  rw [Kept.stagingOn_channel hr] at hfilter
  simp only at hunit ⊢
  omega

theorem nodup_unstaged {x : Station} {c : Fin 8} {s : State}
    (hl : ∀ y, ((unitOf y s).staging.map (·.channel)).Nodup) (y : Station) :
    ((unitOf y (Machine.setUnit x { unitOf x s with
      staging := (unitOf x s).staging.filter fun t => t.channel != c } s)).staging.map (·.channel)).Nodup := by
  rw [unitOf_setUnit]
  split
  · subst y
    exact (hl _).sublist (List.filter_sublist.map _)
  · exact hl y

/-- R47: the record's blocks are freed and the record is gone. -/
theorem BlocksApart.dropStaging {x : Station} {r : Staging} {s : State} (hr : stagingOn x r.channel s = some r)
    (h : BlocksApart s) : BlocksApart (dropStaging x r s) := by
  rw [dropStaging_eq, droppedState]
  refine h.freed (fun b => ?_) (nodup_unstaged (s := Machine.setChan _ _ s) h.channels) rfl
  have hchan := count_heldBlocks_setChan b r.channel (withoutStaging (some r) (chanOf r.channel s)) s
  have hunit := count_heldBlocks_unstaged (s := Machine.setChan r.channel
    (withoutStaging (some r) (chanOf r.channel s)) s) (h.channels x) hr b
  rw [withoutStaging_some] at hchan hunit ⊢
  rw [unitOf_setChan] at hunit
  simp only at hchan hunit ⊢
  omega

theorem BlocksApart.abandonStaging {x : Station} {r : Staging} {s : State}
    (hr : stagingOn x r.channel s = some r) (h : BlocksApart s) : BlocksApart (abandonStaging x r s) :=
  (h.dropStaging hr).evalCongestion

/-- A record of a unit whose records stand on different channels is the one found on its channel. -/
theorem stagingOn_of_mem {x : Station} {r : Staging} {s : State}
    (hl : ((unitOf x s).staging.map (·.channel)).Nodup) (hr : r ∈ (unitOf x s).staging) :
    stagingOn x r.channel s = some r := by
  unfold stagingOn
  generalize (unitOf x s).staging = l at hl hr
  induction l with
  | nil => cases hr
  | cons t l ih =>
    rw [List.map_cons, List.nodup_cons] at hl
    rcases List.mem_cons.mp hr with rfl | hr
    · simp
    · have hne : t.channel ≠ r.channel := fun e => hl.1 (e ▸ List.mem_map_of_mem hr)
      rw [List.find?_cons_of_neg (by simpa using hne)]
      exact ih hl.2 hr

/-- R133 step 3: staging records of a station are abandoned one after the other. -/
theorem BlocksApart.abandonAll {x : Station} {l : List Staging} {s : State} (hl : (l.map (·.channel)).Nodup)
    (hr : ∀ r ∈ l, r ∈ (unitOf x s).staging) (h : BlocksApart s) :
    BlocksApart (l.foldl (fun t r => Machine.abandonStaging x r t) s) := by
  induction l generalizing s with
  | nil => exact h
  | cons r l ih =>
    rw [List.map_cons, List.nodup_cons] at hl
    have hfound := stagingOn_of_mem (h.channels x) (hr r (.head _))
    refine ih hl.2 (fun t ht => ?_) (h.abandonStaging hfound)
    have hne : t.channel ≠ r.channel := fun e => hl.1 (e ▸ List.mem_map_of_mem ht)
    rw [staging_abandonStaging]
    exact List.mem_filter.mpr ⟨hr t (.tail _ ht), by simpa using hne⟩

theorem BlocksApart.departStaging {x : Station} {s : State} (h : BlocksApart s) : BlocksApart (departStaging x s) := by
  unfold Machine.departStaging
  split
  · exact h
  · rename_i r hr
    exact h.abandonStaging (stagingOn_of_mem (h.channels x) (by rw [hr]; exact List.mem_singleton_self r))
  · have hticked : BlocksApart { s with freeTick := s.freeTick + 1 } := h.same rfl (fun _ => rfl) (fun _ => rfl) rfl
    split
    · refine hticked.abandonAll ?_ fun r hr => List.mem_reverse.mp hr
      rw [List.map_reverse, List.nodup_reverse]
      exact h.channels x
    · exact hticked.abandonAll (h.channels x) fun r hr => hr

/-- R46: the record's blocks pass to the message. -/
theorem BlocksApart.completed {x : Station} {r r0 : Staging} {m : Message} {s : State}
    (hr : stagingOn x r.channel s = some r0) (hm : m.blocks = r0.blocks) (hp : s.phase = .running)
    (h : BlocksApart s) : BlocksApart (completedState x r m s) := by
  have hchan := fun b => count_heldBlocks_setChan b r.channel { appendMessage m (chanOf r.channel s) with reserved := 0 } s
  have hheld : ∀ b, (heldBlocks (completedState x r m s)).count b = (heldBlocks s).count b := fun b => by
    have hunit := count_heldBlocks_unstaged (s := Machine.setChan r.channel
      { appendMessage m (chanOf r.channel s) with reserved := 0 } s) (h.channels x) hr b
    have := hchan b
    have happ : (blocksOf (appendMessage m (chanOf r.channel s)).queue).count b =
        (blocksOf (chanOf r.channel s).queue).count b + r0.blocks.count b := by
      rw [appendMessage, Kept.blocksOf_append, List.count_append, ← hm]
      simp [blocksOf]
    rw [completedState]
    rw [unitOf_setChan] at hunit
    simp only at this hunit ⊢
    omega
  exact h.moved (fun b => by rw [hheld]; rfl) h.sorted (nodup_unstaged (s := Machine.setChan _ _ s) h.channels)
    fun hn => absurd hp hn

/-- R63, R66: messages leave a queue and their blocks are freed. -/
theorem BlocksApart.removed {c : Fin 8} {gone kept : List Message} {s : State}
    (hcount : ∀ b, (blocksOf gone).count b + (blocksOf kept).count b = (blocksOf (chanOf c s).queue).count b)
    (h : BlocksApart s) : BlocksApart (removeMessages c gone kept s) := by
  rw [removeMessages_eq, removedState]
  refine h.freed (fun b => ?_) h.channels rfl
  have hchan := count_heldBlocks_setChan b c { chanOf c s with
    queue := kept, charged := (chanOf c s).charged - (blocksOf gone).length } s
  have := hcount b
  simp only at hchan ⊢
  omega

/-- R15: every message of the channel is discarded. -/
theorem BlocksApart.closed {c : Fin 8} {s : State} (h : BlocksApart s) : BlocksApart (becomeClosed c s) := by
  have heq : becomeClosed c s =
      setStore (freeBlocks (blocksOf (chanOf c s).queue) s.store) (Machine.setChan c resetChannel s) := rfl
  rw [heq]
  refine h.freed (fun b => ?_) h.channels rfl
  have hchan := count_heldBlocks_setChan b c resetChannel s
  rwa [show blocksOf resetChannel.queue = [] from rfl, List.count_nil, Nat.add_zero] at hchan

/-- R25: the blocks that are allocated leave the free pool, and what holds them is new. -/
theorem BlocksApart.allocated {k : Nat} {data : List Byte} {s t : State} (h : BlocksApart s)
    (hpool : t.store.freePool = (allocateAndWrite k data s).1.store.freePool)
    (hheld : ∀ b, (heldBlocks t).count b = (heldBlocks s).count b + (allocateAndWrite k data s).2.count b)
    (hch : ∀ x, ((unitOf x t).staging.map (·.channel)).Nodup) (hp : t.phase = .running) : BlocksApart t := by
  have hdrop : (allocateAndWrite k data s).1.store.freePool = s.store.freePool.drop k := by
    rw [allocateAndWrite_frame, setStore_store, writeMessage_freePool, allocate_freePool]
  refine h.moved (fun b => ?_) ?_ hch fun hn => absurd hp hn
  · rw [hheld, hpool, hdrop, allocateAndWrite_frame]
    have := congrArg (List.count b) (List.take_append_drop k s.store.freePool)
    rw [List.count_append] at this
    simp only
    omega
  · rw [hpool, hdrop]
    exact h.sorted.sublist (List.drop_sublist _ _)

/-- R43: the new record's channel has no other record of the station. -/
theorem nodup_staged {x : Station} {u : StationUnit} {r : Staging} {s : State}
    (hl : ((unitOf x s).staging.map (·.channel)).Nodup) (hnone : stagingOn x r.channel s = none)
    (hu : u.staging = (unitOf x s).staging ++ [r]) : (u.staging.map (·.channel)).Nodup := by
  rw [hu, List.map_append, List.map_singleton, List.nodup_append]
  refine ⟨hl, List.nodup_singleton _, fun c hc d hd => ?_⟩
  obtain ⟨t, ht, rfl⟩ := List.mem_map.mp hc
  rw [List.mem_singleton.mp hd]
  exact stagingOn_eq_none.mp hnone t ht

/-- R40: the replaced record stood alone on its channel, so neither blocks nor channels change. -/
theorem stagedView_replace {x : Station} {r r1 : Staging} {s : State}
    (hl : ((unitOf x s).staging.map (·.channel)).Nodup) (hr : stagingOn x r.channel s = some r)
    (hc : r1.channel = r.channel) (hb : r1.blocks = r.blocks) :
    stagedView (unitOf x (replaceStaging x r1 s)) = stagedView (unitOf x s) := by
  rw [replaceStaging, unitOf_setUnit_self, stagedView, List.map_map, stagedView]
  refine List.map_congr_left fun t ht => ?_
  simp only [Function.comp]
  split
  · rename_i hch
    have hfound := stagingOn_of_mem hl ht
    rw [hch, hc, hr] at hfound
    rw [← Option.some.inj hfound, hc, hb]
  · rfl

/-- Every elementary change keeps the blocks apart. -/
theorem blocksApart_kept : Kept BlocksApart where
  other s t hu hc hst _ hp h := h.same (by rw [hst]) (fun c => by rw [chanOf, hc]; rfl)
    (fun x => by rw [unitOf, hu]; rfl) hp
  unitSame x u s hs _ h := h.setUnit hs
  offered x n s h := h.setUnit rfl
  dropped x u m s hs _ h := h.setUnit hs
  withdrawn x n s h := h.setUnit rfl
  chanSame c ch s hq h := h.setChan (by rw [hq])
  returned c ch s hq h := h.setChan (by rw [hq, blocksOf_map_returnMessage])
  damaged c seq s h := h.setChan (requeued_markDamaged seq _).blocksOf
  lent c s _ h := h.setChan (requeued_lendFirst _).blocksOf
  storeSame st s hst _ h := h.same hst (fun _ => rfl) (fun _ => rfl) rfl
  appended c k data ch m s _ hp hm _ hq h := by
    refine h.allocated (k := k) (data := data) rfl (fun b => ?_) h.channels hp
    have hchan := count_heldBlocks_setChan b c ch (allocateAndWrite k data s).1
    rw [hq, Kept.blocksOf_append, List.count_append, allocateAndWrite_frame, chanOf_setStore] at hchan
    have hone : blocksOf [m] = m.blocks := by simp [blocksOf]
    rw [hone, hm] at hchan
    have hstore : ∀ st, heldBlocks (setStore st s) = heldBlocks s := fun _ => rfl
    rw [hstore] at hchan
    rw [allocateAndWrite_frame] at hchan ⊢
    omega
  staged x k data u r s _ hp hr hnone hu _ h := by
    refine h.allocated (k := k) (data := data) rfl (fun b => ?_) (fun y => ?_) hp
    · have hunit := count_heldBlocks_setUnit b x u (allocateAndWrite k data s).1
      rw [hu, List.flatMap_append, List.count_append, allocateAndWrite_frame, unitOf_setStore] at hunit
      have hone : [r].flatMap (·.blocks) = r.blocks := by simp
      rw [hone, hr] at hunit
      have hstore : ∀ st, heldBlocks (setStore st s) = heldBlocks s := fun _ => rfl
      rw [hstore] at hunit
      rw [allocateAndWrite_frame] at hunit ⊢
      omega
    · rw [unitOf_setUnit]
      split
      · subst y; exact nodup_staged (h.channels _) hnone hu
      · exact h.channels y
  replaced x r r1 s hr hc hb h := h.same rfl (fun _ => rfl) (fun y => by
    by_cases hy : y = x
    · subst y; exact stagedView_replace (h.channels _) hr hc hb
    · rw [replaceStaging, unitOf_setUnit, if_neg hy]) rfl
  completed x r0 r s hr hb hp h := by
    rw [completeStaging_eq]
    exact (h.completed hr hb hp).offerArrival
  unstaged x r s hr h := h.dropStaging hr
  allUnstaged x s h := h.departStaging
  removed c gone kept s hcount _ h := h.removed hcount
  closed c s h := h.closed
  lease e l s _ _ h := h.same rfl (fun _ => rfl) (fun _ => rfl) rfl
  ticked s h := by
    have hquiet := quiet_tick s
    exact h.same (by unfold tick; split <;> rfl) (fun c => by rw [chanOf, hquiet.channels]; rfl) hquiet.staged
      (by unfold tick; split <;> rfl)
  released p s h := by
    unfold releaseReset
    split
    · rename_i hp
      exact ⟨h.once, h.sorted, h.channels, fun _ => h.idle (by rw [hp]; exact nofun)⟩
    · exact h
    · exact h
  initialised s h := by
    unfold completeInit
    split
    · rename_i hp
      have hheld : heldBlocks s = [] := h.idle (by rw [hp]; exact nofun)
      have hpool : resetStore.freePool = List.finRange 256 := by simp only [resetStore]
      refine ⟨fun b => ?_, hpool ▸ List.pairwise_lt_finRange 256, h.channels, fun hn => absurd rfl hn⟩
      rw [show heldBlocks { s with phase := .running, store := resetStore } = [] from hheld, List.count_nil, hpool]
      exact List.count_eq_one_of_mem (List.nodup_finRange 256) (List.mem_finRange b)
    · exact h
    · exact h

/-! ### Before the store initialisation has completed -/

theorem runRequest_off {x : Station} {f : Frame} {handler : Frame → State → State} {s : State}
    (h : s.phase ≠ .running) : runRequest x f handler s = s := by
  unfold runRequest isRunning
  rw [if_neg (by simpa using h)]

theorem runEvent_off {event : State → State} {s : State} (h : s.phase ≠ .running) : runEvent event s = s := by
  unfold runEvent isRunning
  rw [if_neg (by simpa using h)]

/-- R35, R138: while the part does not run, no command but a reset changes a channel or a unit. -/
theorem exec_off {i : Instr} {s t : State} (hp : s.phase ≠ .running) (hi : ∀ p, i ≠ .resetAssert p)
    (he : exec i s = .next t) : t.channels = s.channels ∧ t.units = s.units := by
  cases i with
  | resetAssert p => exact absurd rfl (hi p)
  | resetRelease p =>
    rw [← Host.Outcome.next.inj he]
    unfold releaseReset
    split <;> exact ⟨rfl, rfl⟩
  | storeInitComplete =>
    rw [← Host.Outcome.next.inj he]
    unfold completeInit
    split <;> exact ⟨rfl, rfl⟩
  | bitError b places =>
    rw [← Host.Outcome.next.inj he]
    unfold bitErrors
    split <;> exact ⟨rfl, rfl⟩
  | receiveCharacter | characterError | frameComplete | gapLimitExpiry | lineBreak | itemBoundary | transmissionEnd
  | spacingExpiry | segmentTimeout | keepaliveLapse | holdLapse | waitExpiry | breakEnd =>
    rw [← Host.Outcome.next.inj he, runEvent_off hp]
    exact ⟨rfl, rfl⟩
  | _ =>
    rw [← Host.Outcome.next.inj he, runRequest_off hp]
    exact ⟨rfl, rfl⟩

/-- A step that begins before the store initialisation has completed changes no channel and no unit, but by a reset. -/
theorem step_off {s t : State} (hp : s.phase ≠ .running) (hi : ∀ p rest, s.pending ≠ Instr.resetAssert p :: rest)
    (he : step s = .next t) : t.channels = s.channels ∧ t.units = s.units := by
  unfold step at he
  split at he
  · rename_i c rest hc
    exact exec_off (s := { s with pending := rest }) hp (fun p e => hi p rest (e ▸ hc)) he
  · unfold idle at he
    split at he
    · rw [← Host.Outcome.next.inj he]
      unfold tick
      split
      · exact ⟨rfl, rfl⟩
      · exact ⟨rfl, rfl⟩
      · contradiction
    · rename_i c hd
      exact exec_off hp (Kept.dueEvents_ne_reset (by rw [hd]; exact List.mem_singleton_self c)) he
    · rename_i c d rest hd
      refine exec_off (s := { s with freeTick := s.freeTick + 1 }) hp (Kept.dueEvents_ne_reset (s := s) ?_) he
      rw [hd]
      exact chooseEvent_mem _ _ _ _

/-- A part that runs is brought out of it by a reset alone. -/
theorem running_kept : Kept fun s => s.phase = .running where
  other _ _ _ _ _ _ hp h := hp.trans h
  unitSame _ _ _ _ _ h := h
  offered _ _ _ h := h
  dropped _ _ _ _ _ _ h := h
  withdrawn _ _ _ h := h
  chanSame _ _ _ _ h := h
  returned _ _ _ _ h := h
  damaged _ _ _ h := h
  lent _ _ _ h := h
  storeSame _ _ _ _ h := h
  appended _ _ _ _ _ _ _ _ _ _ _ h := h
  staged _ _ _ _ _ _ _ _ _ _ _ _ h := h
  replaced _ _ _ _ _ _ _ h := h
  completed x _ r s _ _ _ h := by rw [completeStaging_eq, offerArrival_phase]; exact h
  unstaged _ _ _ _ h := h
  allUnstaged x s h := departStaging_induction (P := fun t => t.phase = .running) x s
    (fun r _ t ht => by rw [abandonStaging, evalCongestion_phase]; exact ht) (fun h => h) h
  removed _ _ _ _ _ _ h := h
  closed _ _ h := h
  lease _ _ _ _ _ h := h
  ticked s h := by unfold tick; rw [h]
  released p s h := by unfold releaseReset; rw [h]; exact h
  initialised s h := by unfold completeInit; rw [h]; exact h

/-- Settles O60: every elementary change keeps the blocks apart, and before the store initialisation has completed no
message and no staging record comes to be. -/
theorem stepsKeepEachBlockInOnePlace : Obligations.StepsKeepEachBlockInOnePlace := by
  intro s t h he
  by_cases hreset : ∃ straps rest, s.pending = Instr.resetAssert straps :: rest
  · obtain ⟨straps, rest, hp⟩ := hreset
    rw [step_reset hp he]
    exact resetState_blocks _ _ _ _
  · have hi : ∀ p rest, s.pending ≠ Instr.resetAssert p :: rest := fun p rest e => hreset ⟨p, rest, e⟩
    refine (blocksApart_kept.step_kept hi (blocksApart_of_law h) he).law fun hoff => ?_
    have hp : s.phase ≠ .running := fun hrun => hoff (running_kept.step_kept hi hrun he)
    obtain ⟨hc, hu⟩ := step_off hp hi he
    obtain ⟨-, -, -, -, hidle⟩ := h
    obtain ⟨hq, ha, hb⟩ := hidle hp
    exact ⟨fun c => by rw [chanOf, hc]; exact hq c, fun x => by rw [unitOf, hu]; cases x <;> assumption⟩

end Sys2Proof.Machine
end

section
/-!
PROOFS. The rules of the store's bytes and wrong bits, and the store initialisation and bit errors (R24, R27, R29, R35).
-/

namespace Sys2Proof.Machine

/-! ### Addresses -/

/-- R24: an address names one block and one position in it. -/
theorem blockAddress_inj {b d : Fin 256} {i j : Nat} (hi : i < 32) (hj : j < 32)
    (h : blockBase b + i = blockBase d + j) : b = d ∧ i = j := by
  unfold blockBase Config.blockBytes at h
  have hval : b.val = d.val := by omega
  refine ⟨Fin.ext hval, ?_⟩
  rw [hval] at h
  exact Nat.add_left_cancel h

theorem blockAddress_ne {b d : Fin 256} {i j : Nat} (hi : i < 32) (hj : j < 32) (hne : b ≠ d) :
    blockBase b + i ≠ blockBase d + j := fun h => hne (blockAddress_inj hi hj h).1

/-- An address of another block lies outside the block. -/
theorem blockAddress_off {b d : Fin 256} {i : Nat} (hi : i < 32) (hne : d ≠ b) :
    blockBase d + i < blockBase b ∨ blockBase b + 32 ≤ blockBase d + i := by
  have hval : d.val ≠ b.val := fun h => hne (Fin.ext h)
  unfold blockBase Config.blockBytes
  omega

/-! ### The bytes of a block -/

theorem blockBytesOf_getD (st : Store) (b : Fin 256) {i : Nat} (hi : i < 32) :
    (blockBytesOf st b).getD i 0x00 = Memory.read st.mem (blockBase b + i) := by
  simp [blockBytesOf, hi]

/-- The bytes of a block are what its addresses read as. -/
theorem blockBytesOf_congr {st st' : Store} {b : Fin 256}
    (h : ∀ i < 32, Memory.read st'.mem (blockBase b + i) = Memory.read st.mem (blockBase b + i)) :
    blockBytesOf st' b = blockBytesOf st b :=
  List.map_congr_left fun i hi => h i (List.mem_range.mp hi)

/-- R27: what a block that is written whole reads as, and the other blocks. -/
theorem read_writeBlock {st : Store} {b d : Fin 256} {bytes : List Byte} {i : Nat} (hwf : Memory.wf st.mem = true)
    (hlen : bytes.length = 32) (hi : i < 32) :
    Memory.read (writeBlock b bytes st).mem (blockBase d + i) =
      if d = b then bytes.getD i 0x00 else Memory.read st.mem (blockBase d + i) := by
  have hread := Memory.read_writeAll (blockBase b) (blockBase d + i) bytes hwf
  rw [hlen] at hread
  refine hread.trans ?_
  by_cases hd : d = b
  · subst d
    rw [if_pos (by omega), if_pos rfl, Nat.add_sub_cancel_left]
  · have := blockAddress_off hi hd
    rw [if_neg (by omega), if_neg hd]

/-! ### Wrong bits and classes -/

/-- R27: a written block has no wrong bit; the others keep theirs. -/
theorem wrongBits_writeBlock (b d : Fin 256) (bytes : List Byte) (st : Store) :
    wrongBits (writeBlock b bytes st) d = if d = b then [] else wrongBits st d := by
  unfold wrongBits writeBlock
  rw [List.filter_filter]
  split
  · subst d
    simp
  · rename_i hne
    congr 1
    refine List.filter_congr fun f _ => ?_
    by_cases hf : f.1 = d
    · simp [hf, hne]
    · simp [hf]

/-- The class of a block is seen from its bytes and its wrong bits. -/
theorem classOf_congr {st st' : Store} {b : Fin 256} (hbits : wrongBits st' b = wrongBits st b)
    (hbytes : blockBytesOf st' b = blockBytesOf st b) : classOf st' b = classOf st b := by
  unfold classOf
  rw [hbits, hbytes]

theorem classOf_of_none {st : Store} {b : Fin 256} (h : wrongBits st b = []) : classOf st b = .correct := by
  unfold classOf
  rw [h]

theorem classOf_of_one {st : Store} {b : Fin 256} {p : BitPlace} (h : wrongBits st b = [p]) :
    classOf st b = .singleBit := by
  unfold classOf
  rw [h]

theorem classOf_of_two {st : Store} {b : Fin 256} {p q : BitPlace} (h : wrongBits st b = [p, q]) :
    classOf st b = .doubleBit := by
  unfold classOf
  rw [h]

/-! ### The store initialisation (R35) -/

/-- Settles O4: the events of a link and the requests act in a running part alone. -/
theorem linksWaitForTheStore : Obligations.LinksWaitForTheStore := by
  refine ⟨fun straps s hp => ?_, fun s hp => ?_, fun x b kind tag payload body crc s hp => ?_⟩
  · show Host.Outcome.next (releaseReset straps s) = _
    unfold releaseReset
    rw [hp]
  · refine ⟨resetStore, ?_, by simp only [resetStore], fun _ => rfl, fun _ => rfl, rfl⟩
    show Host.Outcome.next (completeInit s) = _
    unfold completeInit
    rw [hp]
  · have event : ∀ e, Host.Outcome.next (runEvent e s) = (.next s : Host.Outcome State Fault Refusal) :=
      fun e => congrArg Host.Outcome.next (runEvent_off hp)
    refine ⟨event _, event _, event _, event _, event _, event _, ?_⟩
    rw [exec_requestCommand, runRequest_off hp]

/-! ### Bit errors (R29) -/

/-- A bit error toggles its place among the wrong bits of its block. -/
theorem wrongBits_flipStored_self (b : Fin 256) (p : BitPlace) (st : Store) :
    wrongBits (flipStored b p st) b =
      if p ∈ wrongBits st b then (wrongBits st b).filter (fun q => q != p) else wrongBits st b ++ [p] := by
  have hmem : p ∈ wrongBits st b ↔ (b, p) ∈ st.flips := by simp [wrongBits]
  simp only [hmem]
  unfold wrongBits flipStored toggleFlip
  simp only [List.contains_iff_mem]
  split
  · rw [List.filter_map, List.filter_filter, List.filter_filter]
    congr 1
    refine List.filter_congr fun f _ => ?_
    rw [Bool.eq_iff_iff]
    simp only [Bool.and_eq_true, beq_iff_eq, bne_iff_ne, ne_eq, Prod.ext_iff, Function.comp]
    tauto
  · simp

/-- A bit error leaves the wrong bits of the other blocks. -/
theorem wrongBits_flipStored_ne {b d : Fin 256} (p : BitPlace) (st : Store) (h : d ≠ b) :
    wrongBits (flipStored b p st) d = wrongBits st d := by
  unfold wrongBits flipStored toggleFlip
  simp only
  split
  · rw [List.filter_filter]
    congr 1
    refine List.filter_congr fun f _ => ?_
    by_cases hf : f.1 = d
    · simp [Prod.ext_iff, hf, h]
    · simp [hf]
  · simp [Ne.symm h]

/-- The store after bit errors in a block. -/
def flippedStore (b : Fin 256) (places : List BitPlace) (st : Store) : Store :=
  places.foldl (fun st p => flipStored b p st) st

theorem wrongBits_flippedStore_ne {b d : Fin 256} (places : List BitPlace) (st : Store) (h : d ≠ b) :
    wrongBits (flippedStore b places st) d = wrongBits st d := by
  unfold flippedStore
  induction places generalizing st with
  | nil => rfl
  | cons p ps ih => rw [List.foldl_cons, ih, wrongBits_flipStored_ne p st h]

theorem flippedStore_health (b : Fin 256) (places : List BitPlace) (st : Store) :
    (flippedStore b places st).health = st.health := by
  unfold flippedStore
  induction places generalizing st with
  | nil => rfl
  | cons p ps ih => rw [List.foldl_cons, ih]; rfl

/-- A bit error changes a byte of its block, if it is a data bit, and no byte outside the block. -/
theorem read_flipStored_off {b : Fin 256} (p : BitPlace) {st : Store} {a : Nat} (hwf : Memory.wf st.mem = true)
    (ha : a < blockBase b ∨ blockBase b + 32 ≤ a) :
    Memory.read (flipStored b p st).mem a = Memory.read st.mem a := by
  unfold flipStored
  cases p with
  | data byte bit =>
    simp only
    rw [Memory.read_write _ _ _ hwf, if_neg]
    have := byte.isLt
    omega
  | check n => rfl

theorem read_flippedStore_off {b : Fin 256} (places : List BitPlace) {st : Store} {a : Nat}
    (hwf : Memory.wf st.mem = true) (ha : a < blockBase b ∨ blockBase b + 32 ≤ a) :
    Memory.read (flippedStore b places st).mem a = Memory.read st.mem a := by
  unfold flippedStore
  induction places generalizing st with
  | nil => rfl
  | cons p ps ih => rw [List.foldl_cons, ih (flipStored_wf b p hwf), read_flipStored_off p hwf ha]

theorem exec_bitError {b : Fin 256} {places : List BitPlace} {s : State} (hp : s.phase = .running) :
    exec (.bitError b places) s = .next { s with store := flippedStore b places s.store } := by
  show Host.Outcome.next (bitErrors b places s) = _
  unfold bitErrors
  rw [hp]
  rfl

/-- Settles O5, bit by bit. -/
theorem bitErrorsChangeTheirBlock : Obligations.BitErrorsChangeTheirBlock := by
  intro b places s hp
  refine ⟨flippedStore b places s.store, exec_bitError hp, (foldl_flipStored b places s.store).1,
    flippedStore_health _ _ _, fun d hd => wrongBits_flippedStore_ne places _ hd, fun hnone p hplaces => ?_,
    fun hnone p q hne hplaces => ?_, fun hwf => ⟨fun a ha => read_flippedStore_off places hwf ha, fun d hd => ?_,
    fun byte bit hplaces => ?_⟩⟩
  · subst hplaces
    refine classOf_of_one (p := p) ?_
    show wrongBits (flipStored b p s.store) b = [p]
    rw [wrongBits_flipStored_self, hnone]
    rfl
  · subst hplaces
    refine classOf_of_two (p := p) (q := q) ?_
    show wrongBits (flipStored b q (flipStored b p s.store)) b = [p, q]
    rw [wrongBits_flipStored_self, wrongBits_flipStored_self, hnone]
    simp [Ne.symm hne]
  · exact classOf_congr (wrongBits_flippedStore_ne places _ hd)
      (blockBytesOf_congr fun i hi => read_flippedStore_off places hwf (blockAddress_off hi hd))
  · subst hplaces
    have hread : ∀ a, Memory.read (flippedStore b [.data byte bit] s.store).mem a = _ :=
      fun a => Memory.read_write (blockBase b + byte.val) a _ hwf
    refine ⟨(hread _).trans (if_pos rfl), fun a ha => (hread a).trans (if_neg ha)⟩

end Sys2Proof.Machine
end

section
/-!
PROOFS. The step of an empty queue: the events that are due inside the part, and a millisecond of its timers (R49, R50,
R78, R90, R100, R101, R128, R130, R140, R144, R145, R150).
-/

namespace Sys2Proof.Machine

/-! ### The events that are due -/

theorem mem_dueTake {x : Station} {s : State} {i : Instr} :
    i ∈ dueTake x s ↔ ∃ f rest, (linkOf x s).inQueue = f :: rest ∧ (unitOf x s).draw = none ∧
      (linkOf x s).tx.length ≤ 1 ∧ i = requestCommand x f.kind f.tag f.payload := by
  unfold dueTake
  split
  · rename_i hq
    simp [hq]
  · rename_i f rest hq
    split <;> rename_i hm <;> simp [mayTake, hq] at hm ⊢
    · tauto
    · exact fun hd hl => absurd hl (by have := hm hd; omega)

theorem mem_dueTransmission {x : Station} {s : State} {i : Instr} :
    i ∈ dueTransmission x s ↔ ∃ first rest, (linkOf x s).tx = first :: rest ∧ (linkOf x s).txClocks = 0 ∧
      i = if first.drawItem = true then .itemBoundary x else .transmissionEnd x := by
  unfold dueTransmission sendingItem
  cases htx : (linkOf x s).tx with
  | nil => simp
  | cons first rest =>
    by_cases hc : (linkOf x s).txClocks = 0 <;> simp [hc]

theorem mem_dueGap {x : Station} {s : State} {i : Instr} :
    i ∈ dueGap x s ↔ (linkOf x s).rx.state ≠ .hunt ∧ (linkOf x s).rx.inBreak = false ∧
      (linkOf x s).rx.lastCharacter ≠ s.timeBase ∧ i = .gapLimitExpiry x := by
  unfold dueGap
  simp only
  split
  · rename_i h
    simp at h
    simp [h]
  · rename_i h
    simp at h
    simp only [List.not_mem_nil, false_iff, not_and]
    intro h1 h2 h3
    exact absurd (h h1 h2) h3

theorem mem_dueSpacing {x : Station} {s : State} {i : Instr} :
    i ∈ dueSpacing x s ↔ ∃ d, (unitOf x s).draw = some d ∧ d.phase = .spacing 0 ∧ i = .spacingExpiry x := by
  unfold dueSpacing
  cases hd : (unitOf x s).draw with
  | none => simp
  | some d => by_cases hp : d.phase = .spacing 0 <;> simp [hp]

theorem mem_dueSegments {x : Station} {s : State} {i : Instr} :
    i ∈ dueSegments x s ↔ ∃ r ∈ (unitOf x s).staging, r.timer = 0 ∧ i = .segmentTimeout x r.channel := by
  simp only [dueSegments, List.mem_map, List.mem_filter, beq_iff_eq]
  constructor
  · rintro ⟨r, ⟨hr, ht⟩, rfl⟩
    exact ⟨r, hr, ht, rfl⟩
  · rintro ⟨r, hr, ht, rfl⟩
    exact ⟨r, ⟨hr, ht⟩, rfl⟩

theorem mem_dueKeepalive {x : Station} {s : State} {i : Instr} :
    i ∈ dueKeepalive x s ↔ (unitOf x s).record.keepaliveTimer = some 0 ∧ i = .keepaliveLapse x := by
  unfold dueKeepalive
  split <;> simp [*]

theorem mem_dueHold {e : Fin 16} {s : State} {i : Instr} :
    i ∈ dueHold s e ↔ ∃ h, (leaseOf e s).hold = some h ∧ h.remaining = 0 ∧ i = .holdLapse e := by
  unfold dueHold
  cases hh : (leaseOf e s).hold with
  | none => simp
  | some h => by_cases hr : h.remaining = 0 <;> simp [hr]

theorem mem_dueWaits {e : Fin 16} {s : State} {i : Instr} :
    i ∈ dueWaits s e ↔
      ∃ w ∈ (leaseOf e s).waiters, w.wait = 0 ∧ i = .waitExpiry e w.station w.client := by
  simp only [dueWaits, List.mem_map, List.mem_filter, beq_iff_eq]
  constructor
  · rintro ⟨w, ⟨hw, ht⟩, rfl⟩
    exact ⟨w, hw, ht, rfl⟩
  · rintro ⟨w, hw, ht, rfl⟩
    exact ⟨w, ⟨hw, ht⟩, rfl⟩

theorem mem_bothStations (x : Station) : x ∈ bothStations := by cases x <;> decide

/-- The events of a running part that are due are those of each station's link and unit and of each lease entry. -/
theorem mem_dueEvents_running {s : State} {i : Instr} (hp : s.phase = .running) :
    i ∈ dueEvents s ↔ (∃ x, i ∈ dueAt s x) ∨ (∃ e, i ∈ dueHold s e) ∨ ∃ e, i ∈ dueWaits s e := by
  unfold dueEvents
  rw [hp]
  simp only [List.mem_append, List.mem_flatMap, mem_bothStations, mem_allEntries, true_and, or_assoc]

theorem mem_dueAt {x : Station} {s : State} {i : Instr} :
    i ∈ dueAt s x ↔ i ∈ dueTake x s ∨ i ∈ dueTransmission x s ∨ i ∈ dueGap x s ∨ i ∈ dueSpacing x s ∨
      i ∈ dueSegments x s ∨ i ∈ dueKeepalive x s := by
  simp only [dueAt, List.mem_append, or_assoc]

/-! ### The step of an empty queue -/

theorem step_idle {s : State} (h : s.pending = []) : step s = idle s := by
  unfold step
  rw [h]

theorem idle_of_none {s : State} (h : dueEvents s = []) : idle s = .next (tick s) := by
  unfold idle
  rw [h]

theorem idle_of_one {s : State} {i : Instr} (h : dueEvents s = [i]) : idle s = exec i s := by
  unfold idle
  rw [h]

/-- Where several events are due, one of them is taken. -/
theorem idle_of_several {s : State} (h : 2 ≤ (dueEvents s).length) :
    ∃ i ∈ dueEvents s, idle s = exec i { s with freeTick := s.freeTick + 1 } := by
  unfold idle
  split
  · rename_i hd
    rw [hd] at h
    exact absurd h (by decide)
  · rename_i c hd
    rw [hd] at h
    exact absurd h (Nat.lt_irrefl 1)
  · rename_i c d rest hd
    exact ⟨_, by rw [hd]; exact chooseEvent_mem c d rest s.freeTick, rfl⟩

theorem tick_running {s : State} (hp : s.phase = .running) : tick s = tickedState s := by
  cases s
  cases hp
  rfl

theorem linkOf_tickedState (x : Station) (s : State) : linkOf x (tickedState s) = tickLink (linkOf x s) := by
  cases x
  · exact congrArg tickLink (Eq.refl s.links.a)
  · exact congrArg tickLink (Eq.refl s.links.b)

/-- R35: before the store initialisation has completed, its end is due or a millisecond passes. -/
theorem idle_initialising {s : State} (hp : s.phase = .initialising) :
    idle s = exec .storeInitComplete s ∨
      (s.timeBase.toNat < 2 ∧ idle s = .next { s with timeBase := s.timeBase + 1, freeTick := s.freeTick + 1 }) := by
  have hdue : dueEvents s = dueInit s := by
    unfold dueEvents
    rw [hp]
  by_cases hd : (decide (Config.initLimit ≤ s.timeBase.toNat) || Config.initCompletes s.freeTick) = true
  · exact .inl (idle_of_one (by rw [hdue, dueInit, if_pos hd]))
  · refine .inr ⟨?_, ?_⟩
    · rw [Bool.or_eq_true, not_or, decide_eq_true_eq] at hd
      exact Nat.lt_of_not_le hd.1
    · rw [idle_of_none (by rw [hdue, dueInit, if_neg hd])]
      unfold tick
      rw [hp]

/-- Settles O6: with nothing due the step is tickedState; the due events are told apart by their lists. -/
theorem millisecondLowersEveryTimer : Obligations.MillisecondLowersEveryTimer := by
  refine ⟨fun s hpend hp hd => ?_, fun s hpend => ⟨fun i hi => ?_, fun hlen => ?_, fun hp => ?_, fun hp => ?_⟩,
    fun s i hp => ?_⟩
  · refine ⟨tickedState s, by rw [step_idle hpend, idle_of_none hd, tick_running hp], rfl, rfl, hpend, rfl, rfl, rfl,
      rfl, rfl, rfl, fun x => linkOf_tickedState x s, fun x => ?_, fun x hx => ?_, fun x d hx hs => ?_,
      fun x d n hx hs => ?_, fun e => leaseOf_tickedState e s⟩ <;> rw [unitOf_tickedState]
    · rfl
    · rw [tickUnit, hx]; rfl
    · rw [tickUnit, hx]
      cases d
      cases hs
      rfl
    · rw [tickUnit, hx, Option.map_some, hs]
  · rw [step_idle hpend, idle_of_one hi]
  · rw [step_idle hpend]
    exact idle_of_several hlen
  · have hdue : dueEvents s = [] := by
      unfold dueEvents
      rw [hp]
    rw [step_idle hpend, idle_of_none hdue]
    unfold tick
    rw [hp]
  · rw [step_idle hpend]
    exact idle_initialising hp
  · simp only [mem_dueEvents_running hp, mem_dueAt, mem_dueTake, mem_dueTransmission, mem_dueGap, mem_dueSpacing,
      mem_dueSegments, mem_dueKeepalive, mem_dueHold, mem_dueWaits, exists_or, or_assoc]

end Sys2Proof.Machine
end

section
/-!
PROOFS. The bytes of a message in its blocks: allocation, writing and the merge read of a segment (R24, R25, R27, R28).
-/

namespace Sys2Proof.Machine

/-! ### Writing a message's blocks -/

/-- R27: one block of a message is written whole where a byte of the data falls into it. -/
def writtenBlock (base off : Nat) (data : List Byte) (b : Fin 256) (st : Store) : Store :=
  if off < base + 32 ∧ base < off + data.length then writeBlock b (placeBytes (blockBytesOf st b) base off data) st
  else st

theorem writeMessage_cons (base off : Nat) (data : List Byte) (b : Fin 256) (bs : List (Fin 256)) (st : Store) :
    writeMessage base off data (b :: bs) st =
      writeMessage (base + 32) off data bs (writtenBlock base off data b st) := rfl

theorem writtenBlock_wf (base off : Nat) (data : List Byte) (b : Fin 256) {st : Store}
    (h : Memory.wf st.mem = true) : Memory.wf (writtenBlock base off data b st).mem = true := by
  unfold writtenBlock
  split
  · exact writeBlock_wf _ _ h
  · exact h

theorem placeBytes_getD (old : List Byte) (base off : Nat) (data : List Byte) {i : Nat} (hi : i < 32) :
    (placeBytes old base off data).getD i 0x00 =
      if off ≤ base + i ∧ base + i < off + data.length then data.getD (base + i - off) 0x00 else old.getD i 0x00 := by
  simp [placeBytes, hi]

/-- R24, R27: the data's bytes are placed and the others of the block kept; other blocks are not touched. -/
theorem read_writtenBlock {base off : Nat} {data : List Byte} {b d : Fin 256} {st : Store} {i : Nat}
    (hwf : Memory.wf st.mem = true) (hi : i < 32) :
    Memory.read (writtenBlock base off data b st).mem (blockBase d + i) =
      if d = b ∧ off ≤ base + i ∧ base + i < off + data.length then data.getD (base + i - off) 0x00
      else Memory.read st.mem (blockBase d + i) := by
  unfold writtenBlock
  split
  · rw [read_writeBlock hwf (by simp [placeBytes]) hi]
    by_cases hd : d = b
    · subst d
      simp only [if_true, true_and, placeBytes_getD _ _ _ _ hi, blockBytesOf_getD _ _ hi]
    · simp only [hd, false_and, if_false]
  · rw [if_neg]
    omega

theorem wrongBits_writtenBlock (base off : Nat) (data : List Byte) (b d : Fin 256) (st : Store) :
    wrongBits (writtenBlock base off data b st) d =
      if d = b ∧ off < base + 32 ∧ base < off + data.length then [] else wrongBits st d := by
  unfold writtenBlock
  split
  · rename_i h
    rw [wrongBits_writeBlock]
    simp only [h, and_true]
  · rename_i h
    rw [if_neg fun hc => h hc.2]

/-- R27: a block that is no block of the message is not touched. -/
theorem read_writeMessage_off {base off : Nat} {data : List Byte} {bs : List (Fin 256)} {d : Fin 256} {st : Store}
    {i : Nat} (hwf : Memory.wf st.mem = true) (hd : d ∉ bs) (hi : i < 32) :
    Memory.read (writeMessage base off data bs st).mem (blockBase d + i) = Memory.read st.mem (blockBase d + i) := by
  induction bs generalizing base st with
  | nil => rfl
  | cons b bs ih =>
    rw [List.mem_cons, not_or] at hd
    rw [writeMessage_cons, ih (writtenBlock_wf _ _ _ _ hwf) hd.2, read_writtenBlock hwf hi, if_neg fun h => hd.1 h.1]

theorem wrongBits_writeMessage_off {base off : Nat} {data : List Byte} {bs : List (Fin 256)} {d : Fin 256} {st : Store}
    (hd : d ∉ bs) : wrongBits (writeMessage base off data bs st) d = wrongBits st d := by
  induction bs generalizing base st with
  | nil => rfl
  | cons b bs ih =>
    rw [List.mem_cons, not_or] at hd
    rw [writeMessage_cons, ih hd.2, wrongBits_writtenBlock, if_neg fun h => hd.1 h.1]

/-- R24: position `i` of the `j`-th block of a message is the message's byte `32 * j + i`, counted from `base`. -/
theorem read_writeMessage {base off : Nat} {data : List Byte} {bs : List (Fin 256)} {d : Fin 256} {st : Store}
    {i j : Nat} (hwf : Memory.wf st.mem = true) (hn : bs.Nodup) (hj : bs[j]? = some d) (hi : i < 32) :
    Memory.read (writeMessage base off data bs st).mem (blockBase d + i) =
      if off ≤ base + 32 * j + i ∧ base + 32 * j + i < off + data.length then data.getD (base + 32 * j + i - off) 0x00
      else Memory.read st.mem (blockBase d + i) := by
  induction bs generalizing base st j with
  | nil => cases hj
  | cons b bs ih =>
    rw [List.nodup_cons] at hn
    rw [writeMessage_cons]
    cases j with
    | zero =>
      rw [List.getElem?_cons_zero, Option.some.injEq] at hj
      subst d
      rw [read_writeMessage_off (writtenBlock_wf _ _ _ _ hwf) hn.1 hi, read_writtenBlock hwf hi]
      simp only [true_and, Nat.mul_zero, Nat.add_zero]
    | succ j =>
      rw [List.getElem?_cons_succ] at hj
      have hne : d ≠ b := ne_of_mem_of_not_mem (List.mem_of_getElem? hj) hn.1
      rw [ih (writtenBlock_wf _ _ _ _ hwf) hn.2 hj, read_writtenBlock hwf hi,
        if_neg (fun h => hne h.1 : ¬(d = b ∧ _)), show base + 32 + 32 * j + i = base + 32 * (j + 1) + i by omega]

/-- R27: a block into which a byte falls is written whole; the others keep their wrong bits. -/
theorem wrongBits_writeMessage {base off : Nat} {data : List Byte} {bs : List (Fin 256)} {d : Fin 256} {st : Store}
    {j : Nat} (hn : bs.Nodup) (hj : bs[j]? = some d) :
    wrongBits (writeMessage base off data bs st) d =
      if off < base + 32 * (j + 1) ∧ base + 32 * j < off + data.length then [] else wrongBits st d := by
  induction bs generalizing base st j with
  | nil => cases hj
  | cons b bs ih =>
    rw [List.nodup_cons] at hn
    rw [writeMessage_cons]
    cases j with
    | zero =>
      rw [List.getElem?_cons_zero, Option.some.injEq] at hj
      subst d
      rw [wrongBits_writeMessage_off hn.1, wrongBits_writtenBlock]
      simp only [true_and, Nat.mul_zero, Nat.add_zero, Nat.zero_add, Nat.mul_one]
    | succ j =>
      rw [List.getElem?_cons_succ] at hj
      have hne : d ≠ b := ne_of_mem_of_not_mem (List.mem_of_getElem? hj) hn.1
      rw [ih hn.2 hj, wrongBits_writtenBlock, if_neg (fun h => hne h.1 : ¬(d = b ∧ _)),
        show base + 32 + 32 * (j + 1) = base + 32 * (j + 1 + 1) by omega,
        show base + 32 + 32 * j = base + 32 * (j + 1) by omega]

/-! ### Allocation -/

/-- R25, R27: the store with the blocks of a list written with 00H. -/
theorem read_foldl_writeBlock {bs : List (Fin 256)} {d : Fin 256} {st : Store} {i : Nat}
    (hwf : Memory.wf st.mem = true) (hi : i < 32) :
    Memory.read (bs.foldl (fun st b => writeBlock b (List.replicate 32 0x00) st) st).mem (blockBase d + i) =
      if d ∈ bs then 0x00 else Memory.read st.mem (blockBase d + i) := by
  induction bs generalizing st with
  | nil => rfl
  | cons b bs ih =>
    rw [List.foldl_cons, ih (writeBlock_wf _ _ hwf), read_writeBlock hwf List.length_replicate hi]
    have hzero : (List.replicate 32 (0x00 : Byte)).getD i 0x00 = 0x00 := List.getD_replicate _ hi
    by_cases hb : d = b
    · rw [if_pos hb, hzero, ite_self, if_pos (hb ▸ List.mem_cons_self)]
    · simp [hb]

theorem wrongBits_foldl_writeBlock (bytes : List Byte) {bs : List (Fin 256)} {d : Fin 256} {st : Store} :
    wrongBits (bs.foldl (fun st b => writeBlock b bytes st) st) d = if d ∈ bs then [] else wrongBits st d := by
  induction bs generalizing st with
  | nil => rfl
  | cons b bs ih =>
    rw [List.foldl_cons, ih, wrongBits_writeBlock]
    by_cases hb : d = b
    · simp [hb]
    · simp [hb]

/-- R25, R27: the allocated blocks read 00H, the others as before. -/
theorem read_allocate {k : Nat} {d : Fin 256} {st : Store} {i : Nat} (hwf : Memory.wf st.mem = true) (hi : i < 32) :
    Memory.read (allocate k st).2.mem (blockBase d + i) =
      if d ∈ st.freePool.take k then 0x00 else Memory.read st.mem (blockBase d + i) :=
  read_foldl_writeBlock (st := { st with freePool := st.freePool.drop k }) hwf hi

theorem wrongBits_allocate {k : Nat} {d : Fin 256} {st : Store} (hd : d ∈ st.freePool.take k) :
    wrongBits (allocate k st).2 d = [] :=
  (wrongBits_foldl_writeBlock _ (st := { st with freePool := st.freePool.drop k })).trans (if_pos hd)

/-- R25: the blocks of an admitted message are all different. -/
theorem nodup_take_of_sorted {pool : List (Fin 256)} (h : pool.Pairwise (· < ·)) (k : Nat) : (pool.take k).Nodup :=
  (h.sublist (List.take_sublist k pool)).imp ne_of_lt

/-! ### Bytes as a reading gives them -/

/-- R28, R30, R31: the bytes that reading a block with at most two wrong bits gives: one wrong bit is corrected. -/
def soundBytes (st : Store) (b : Fin 256) : List Byte :=
  match wrongBits st b with
  | [p] => flipBit (blockBytesOf st b) p
  | _ => blockBytesOf st b

theorem length_flipBit (bytes : List Byte) (p : BitPlace) : (flipBit bytes p).length = bytes.length := by
  cases p
  · exact List.length_modify _ _ _
  · rfl

theorem length_soundBytes (st : Store) (b : Fin 256) : (soundBytes st b).length = 32 := by
  unfold soundBytes
  split
  · rw [length_flipBit, blockBytesOf_length]
  · exact blockBytesOf_length st b

theorem soundBytes_of_one {st : Store} {b : Fin 256} {p : BitPlace} (h : wrongBits st b = [p]) :
    soundBytes st b = flipBit (blockBytesOf st b) p := by
  unfold soundBytes
  rw [h]

theorem soundBytes_of_length {st : Store} {b : Fin 256} (h : (wrongBits st b).length ≠ 1) :
    soundBytes st b = blockBytesOf st b := by
  unfold soundBytes
  split
  · rename_i p hp
    rw [hp] at h
    exact absurd rfl h
  · rfl

theorem soundBytes_congr {st st' : Store} {b : Fin 256} (hbits : wrongBits st' b = wrongBits st b)
    (hbytes : blockBytesOf st' b = blockBytesOf st b) : soundBytes st' b = soundBytes st b := by
  unfold soundBytes
  rw [hbits, hbytes]

theorem correctedBytes_of_one {st : Store} {b : Fin 256} {p : BitPlace} (h : wrongBits st b = [p]) :
    correctedBytes st b = soundBytes st b := by
  rw [soundBytes_of_one h]
  unfold correctedBytes
  rw [h]

/-- At most two wrong bits. -/
theorem wrongBits_cases {st : Store} {b : Fin 256} (h : (wrongBits st b).length ≤ 2) :
    wrongBits st b = [] ∨ (∃ p, wrongBits st b = [p]) ∨ ∃ p q, wrongBits st b = [p, q] := by
  match hw : wrongBits st b with
  | [] => exact .inl rfl
  | [p] => exact .inr (.inl ⟨p, rfl⟩)
  | [p, q] => exact .inr (.inr ⟨p, q, rfl⟩)
  | _ :: _ :: _ :: _ =>
    rw [hw] at h
    exact absurd h (by simp)

/-! ### The merge read (R28) -/

theorem mergeRead_of_none {c : Fin 8} {b : Fin 256} {st : Store} (h : wrongBits st b = []) :
    mergeRead c b st = (st, blockBytesOf st b, false) := by
  unfold mergeRead
  rw [classOf_of_none h]

theorem mergeRead_of_one {c : Fin 8} {b : Fin 256} {st : Store} {p : BitPlace} (h : wrongBits st b = [p]) :
    mergeRead c b st = (countCorrected st, soundBytes st b, false) := by
  unfold mergeRead
  rw [classOf_of_one h, ← correctedBytes_of_one h]

theorem mergeRead_of_two {c : Fin 8} {b : Fin 256} {st : Store} {p q : BitPlace} (h : wrongBits st b = [p, q]) :
    mergeRead c b st =
      (countUncorrectable { block := b, channel := c, staged := true, seq := 0 } st, blockBytesOf st b, true) := by
  unfold mergeRead
  rw [classOf_of_two h]

/-- R28: the merge read changes the health record alone and gives the block's bytes, one wrong bit corrected. -/
theorem mergeRead_spec {c : Fin 8} {b : Fin 256} {st : Store} (h : (wrongBits st b).length ≤ 2) :
    (mergeRead c b st).1.mem = st.mem ∧ (mergeRead c b st).1.flips = st.flips ∧
      (mergeRead c b st).2.1 = soundBytes st b := by
  rcases wrongBits_cases h with hw | ⟨p, hw⟩ | ⟨p, q, hw⟩
  · rw [mergeRead_of_none hw]
    exact ⟨rfl, rfl, (soundBytes_of_length (by simp [hw])).symm⟩
  · rw [mergeRead_of_one hw]
    exact ⟨rfl, rfl, rfl⟩
  · rw [mergeRead_of_two hw]
    exact ⟨rfl, rfl, (soundBytes_of_length (by simp [hw])).symm⟩

/-- R28: the store whose entered block has been merge-read and is rewritten. -/
def enteredStore (c : Fin 8) (b : Fin 256) (st : Store) : Store :=
  writeBlock b (mergeRead c b st).2.1 (mergeRead c b st).1

theorem enteredStore_wf {c : Fin 8} {b : Fin 256} {st : Store} (h : Memory.wf st.mem = true) :
    Memory.wf (enteredStore c b st).mem = true := writeBlock_wf _ _ (mergeRead_wf c b h)

theorem read_enteredStore {c : Fin 8} {b d : Fin 256} {st : Store} {i : Nat} (hwf : Memory.wf st.mem = true)
    (hb : (wrongBits st b).length ≤ 2) (hi : i < 32) :
    Memory.read (enteredStore c b st).mem (blockBase d + i) =
      if d = b then (soundBytes st b).getD i 0x00 else Memory.read st.mem (blockBase d + i) := by
  obtain ⟨hmem, -, hbytes⟩ := mergeRead_spec (c := c) hb
  rw [enteredStore, read_writeBlock (mergeRead_wf c b hwf) (by rw [hbytes, length_soundBytes]) hi, hbytes, hmem]

theorem wrongBits_enteredStore {c : Fin 8} {b d : Fin 256} {st : Store} (hb : (wrongBits st b).length ≤ 2) :
    wrongBits (enteredStore c b st) d = if d = b then [] else wrongBits st d := by
  obtain ⟨-, hflips, -⟩ := mergeRead_spec (c := c) hb
  rw [enteredStore, wrongBits_writeBlock, wrongBits, hflips, ← wrongBits]

theorem writeSegment_whole {c : Fin 8} {blocks : List (Fin 256)} {off : Nat} {data : List Byte} {st : Store}
    (h : off % 32 = 0) : writeSegment c blocks off data st = (writeMessage 0 off data blocks st, false) := by
  unfold writeSegment
  rw [if_pos h]

theorem writeSegment_entered {c : Fin 8} {blocks : List (Fin 256)} {off : Nat} {data : List Byte} {st : Store}
    {b : Fin 256} (h : off % 32 ≠ 0) (hb : blocks[off / 32]? = some b) :
    writeSegment c blocks off data st =
      (writeMessage 0 off data blocks (enteredStore c b st), (mergeRead c b st).2.2) := by
  unfold writeSegment
  rw [if_neg h]
  simp only [hb]
  rfl

/-- R28: the store that a segment's bytes are written into. -/
def segmentStore (c : Fin 8) (off : Nat) (b : Fin 256) (st : Store) : Store :=
  if off % 32 = 0 then st else enteredStore c b st

theorem writeSegment_store {c : Fin 8} {blocks : List (Fin 256)} {off : Nat} {data : List Byte} {st : Store}
    {b : Fin 256} (hb : blocks[off / 32]? = some b) :
    (writeSegment c blocks off data st).1 = writeMessage 0 off data blocks (segmentStore c off b st) := by
  unfold segmentStore
  split
  · rename_i h
    rw [writeSegment_whole h]
  · rename_i h
    rw [writeSegment_entered h hb]

theorem segmentStore_wf {c : Fin 8} {off : Nat} {b : Fin 256} {st : Store} (h : Memory.wf st.mem = true) :
    Memory.wf (segmentStore c off b st).mem = true := by
  unfold segmentStore
  split
  · exact h
  · exact enteredStore_wf h

theorem read_segmentStore {c : Fin 8} {off : Nat} {b d : Fin 256} {st : Store} {i : Nat}
    (hwf : Memory.wf st.mem = true) (hb : (wrongBits st b).length ≤ 2) (hi : i < 32) :
    Memory.read (segmentStore c off b st).mem (blockBase d + i) =
      if off % 32 ≠ 0 ∧ d = b then (soundBytes st b).getD i 0x00 else Memory.read st.mem (blockBase d + i) := by
  unfold segmentStore
  split
  · rename_i h
    rw [if_neg fun hc => hc.1 h]
  · rename_i h
    rw [read_enteredStore hwf hb hi]
    simp only [ne_eq, h, not_false_eq_true, true_and]

theorem wrongBits_segmentStore {c : Fin 8} {off : Nat} {b d : Fin 256} {st : Store}
    (hb : (wrongBits st b).length ≤ 2) :
    wrongBits (segmentStore c off b st) d = if off % 32 ≠ 0 ∧ d = b then [] else wrongBits st d := by
  unfold segmentStore
  split
  · rename_i h
    rw [if_neg fun hc => hc.1 h]
  · rename_i h
    rw [wrongBits_enteredStore hb]
    simp only [ne_eq, h, not_false_eq_true, true_and]

section Outcome

variable {c : Fin 8} {blocks : List (Fin 256)} {off : Nat} {data : List Byte} {st : Store} {b : Fin 256}

/-- R28: without a merge read no error is found. -/
theorem writeSegment_outcome_whole (h : off % 32 = 0) :
    (writeSegment c blocks off data st).2 = false ∧ (writeSegment c blocks off data st).1.health = st.health := by
  rw [writeSegment_whole h]
  exact ⟨rfl, writeMessage_health _ _ _ _ _⟩

theorem writeSegment_outcome_correct (h : off % 32 ≠ 0) (hb : blocks[off / 32]? = some b)
    (hbits : wrongBits st b = []) :
    (writeSegment c blocks off data st).2 = false ∧ (writeSegment c blocks off data st).1.health = st.health := by
  rw [writeSegment_entered h hb, writeMessage_health, enteredStore, writeBlock_health, mergeRead_of_none hbits]
  exact ⟨rfl, rfl⟩

theorem writeSegment_outcome_single {p : BitPlace} (h : off % 32 ≠ 0) (hb : blocks[off / 32]? = some b)
    (hbits : wrongBits st b = [p]) :
    (writeSegment c blocks off data st).2 = false ∧
      (writeSegment c blocks off data st).1.health =
        { st.health with corrected := min 65535 (st.health.corrected + 1) } := by
  rw [writeSegment_entered h hb, writeMessage_health, enteredStore, writeBlock_health, mergeRead_of_one hbits]
  exact ⟨rfl, rfl⟩

theorem writeSegment_outcome_double {p q : BitPlace} (h : off % 32 ≠ 0) (hb : blocks[off / 32]? = some b)
    (hbits : wrongBits st b = [p, q]) :
    (writeSegment c blocks off data st).2 = true ∧
      (writeSegment c blocks off data st).1.health =
        { st.health with
          uncorrectable := min 65535 (st.health.uncorrectable + 1)
          last := some { block := b, channel := c, staged := true, seq := 0 } } := by
  rw [writeSegment_entered h hb, writeMessage_health, enteredStore, writeBlock_health, mergeRead_of_two hbits]
  exact ⟨rfl, rfl⟩

end Outcome

/-- The blocks of a message are told apart by their places. -/
theorem getElem?_of_getD {blocks : List (Fin 256)} {j : Nat} (hj : j < blocks.length) :
    blocks[j]? = some (blocks.getD j 0) := by
  rw [List.getD_eq_getElem?_getD, List.getElem?_eq_getElem hj]
  rfl

theorem getD_inj {blocks : List (Fin 256)} (hn : blocks.Nodup) {j k : Nat} (hj : j < blocks.length)
    (hk : k < blocks.length) : blocks.getD j 0 = blocks.getD k 0 ↔ j = k := by
  rw [List.getD_eq_getElem _ _ hj, List.getD_eq_getElem _ _ hk]
  exact hn.getElem_inj_iff

/-- R24, R25, R27: after allocation and writing the blocks hold the data, then 00H; other blocks are as before. -/
theorem allocateAndWrite_bytes {data : List Byte} {s : State} {k : Nat} (hwf : MemoryCanonical s)
    (hpool : k ≤ s.store.freePool.length)
    (hsorted : s.store.freePool.Pairwise (· < ·)) :
    (∀ i < 32 * k, ∃ b, (allocateAndWrite k data s).2[i / 32]? = some b ∧
        Memory.read (allocateAndWrite k data s).1.store.mem (blockBase b + i % 32) = data.getD i 0x00) ∧
      (∀ b ∈ (allocateAndWrite k data s).2, classOf (allocateAndWrite k data s).1.store b = .correct) ∧
      (∀ b, b ∉ (allocateAndWrite k data s).2 → ∀ i < 32,
        Memory.read (allocateAndWrite k data s).1.store.mem (blockBase b + i) =
          Memory.read s.store.mem (blockBase b + i)) := by
  rw [allocateAndWrite_frame]
  simp only [setStore_store]
  have hn := nodup_take_of_sorted hsorted k
  have hwf1 := allocate_wf k hwf
  refine ⟨fun i hi => ?_, fun b hb => classOf_of_none ?_, fun b hb i hi => ?_⟩
  · have hj : i / 32 < (s.store.freePool.take k).length := by
      rw [List.length_take_of_le hpool]
      omega
    have hb := List.getElem?_eq_getElem hj
    refine ⟨_, hb, ?_⟩
    have hmod : i % 32 < 32 := Nat.mod_lt _ (by decide)
    rw [read_writeMessage hwf1 hn hb hmod, read_allocate hwf hmod, if_pos (List.getElem_mem hj),
      show 0 + 32 * (i / 32) + i % 32 = i by omega]
    split
    · rfl
    · rw [List.getD_eq_default _ _ (by omega)]
  · obtain ⟨j, hj⟩ := List.mem_iff_getElem?.mp hb
    rw [wrongBits_writeMessage hn hj]
    split
    · rfl
    · exact wrongBits_allocate hb
  · rw [read_writeMessage_off hwf1 hb hi, read_allocate hwf hi, if_neg hb]

/-- Settles O28: what is written is read back position by position, and a segment is written into the store whose
entered block has been merge-read. -/
theorem messageBytesAreReadBack : Obligations.MessageBytesAreReadBack := by
  refine ⟨?_, ?_⟩
  · intro n data s hwf _ _ k hpool hsorted r
    obtain ⟨hread, hclass, hoff⟩ := allocateAndWrite_bytes (data := data) hwf hpool hsorted
    refine ⟨rfl, ?_, rfl, hread, hclass, hoff, ?_⟩
    · exact (writeMessage_freePool _ _ _ _ _).trans (allocate_freePool _ _)
    · exact (writeMessage_health _ _ _ _ _).trans (allocate_health _ _)
  · intro c blocks off data st hwf hn hdata hfit at_ entered stored w hb
    have hpos : 0 < data.length := List.length_pos_of_ne_nil hdata
    have hin : off / 32 < blocks.length := by omega
    have hentered : blocks[off / 32]? = some entered := getElem?_of_getD hin
    have hstore : w.1 = writeMessage 0 off data blocks (segmentStore c off entered st) := writeSegment_store hentered
    have hwf0 : Memory.wf (segmentStore c off entered st).mem = true := segmentStore_wf hwf
    refine ⟨fun i hi => ?_, fun j hj => ?_, fun b hbn => ?_, writeSegment_freePool _ _ _ _ _, fun h => ?_,
      fun p hoff hp => ?_, fun p q hoff hpq => ?_⟩
    · have hj : i / 32 < blocks.length := by omega
      have hmod : i % 32 < 32 := Nat.mod_lt _ (by decide)
      have hat : blocks.getD (i / 32) 0 = entered ↔ i / 32 = off / 32 := getD_inj hn hj hin
      rw [hstore, read_writeMessage hwf0 hn (getElem?_of_getD hj) hmod, read_segmentStore hwf hb hmod,
        show 0 + 32 * (i / 32) + i % 32 = i by omega]
      simp only [hat]
      rw [← blockBytesOf_getD st _ hmod]
      rfl
    · have hat : at_ j = entered ↔ j = off / 32 := getD_inj hn hj hin
      have hbits := wrongBits_writeMessage (base := 0) (off := off) (data := data)
        (st := segmentStore c off entered st) hn (getElem?_of_getD hj)
      rw [Nat.zero_add, Nat.zero_add] at hbits
      rw [hstore]
      split
      · rename_i h
        exact classOf_of_none (hbits.trans (if_pos h))
      · rename_i h
        rw [hbits, if_neg h, wrongBits_segmentStore hb, if_neg]
        rintro ⟨-, he⟩
        have := hat.mp he
        omega
    · have hne : b ≠ entered := fun e => hbn (e ▸ List.mem_of_getElem? hentered)
      refine ⟨?_, fun i hi => ?_⟩
      · rw [hstore, wrongBits_writeMessage_off hbn, wrongBits_segmentStore hb, if_neg fun h => hne h.2]
      · rw [hstore, read_writeMessage_off hwf0 hbn hi, read_segmentStore hwf hb hi, if_neg fun h => hne h.2]
    · by_cases hoff : off % 32 = 0
      · exact writeSegment_outcome_whole hoff
      · exact writeSegment_outcome_correct hoff hentered (h.resolve_left hoff)
    · exact writeSegment_outcome_single hoff hentered hp
    · exact writeSegment_outcome_double hoff hentered hpq

end Sys2Proof.Machine
end

section
/-!
PROOFS. Reading blocks for a delivery (R24, R29 to R31, R33).
-/

namespace Sys2Proof.Machine

/-! ### One block -/

section Read

variable {c : Fin 8} {seq : Half} {b d : Fin 256} {st : Store}

/-- R29: a correct block is delivered as stored. -/
theorem readBlock_of_none (h : wrongBits st b = []) : readBlock c seq b st = (st, blockBytesOf st b, false) := by
  unfold readBlock
  rw [classOf_of_none h]

/-- R30: a block with one wrong bit is delivered corrected, rewritten and counted. -/
theorem readBlock_of_one {p : BitPlace} (h : wrongBits st b = [p]) :
    readBlock c seq b st = (countCorrected (writeBlock b (soundBytes st b) st), soundBytes st b, false) := by
  unfold readBlock
  rw [classOf_of_one h, ← correctedBytes_of_one h]

/-- R31: a block with two wrong bits is delivered as stored and counted. -/
theorem readBlock_of_two {p q : BitPlace} (h : wrongBits st b = [p, q]) :
    readBlock c seq b st =
      (countUncorrectable { block := b, channel := c, staged := false, seq := seq } st, blockBytesOf st b, true) := by
  unfold readBlock
  rw [classOf_of_two h]

theorem readBlock_bytes (h : (wrongBits st b).length ≤ 2) : (readBlock c seq b st).2.1 = soundBytes st b := by
  rcases wrongBits_cases h with hw | ⟨p, hw⟩ | ⟨p, q, hw⟩
  · rw [readBlock_of_none hw, soundBytes_of_length (by simp [hw])]
  · rw [readBlock_of_one hw]
  · rw [readBlock_of_two hw, soundBytes_of_length (by simp [hw])]

theorem readBlock_bad (h : (wrongBits st b).length ≤ 2) :
    (readBlock c seq b st).2.2 = ((wrongBits st b).length == 2) := by
  rcases wrongBits_cases h with hw | ⟨p, hw⟩ | ⟨p, q, hw⟩
  · rw [readBlock_of_none hw, hw]; rfl
  · rw [readBlock_of_one hw, hw]; rfl
  · rw [readBlock_of_two hw, hw]; rfl

/-- R30: the rewritten block has no wrong bit; no other block changes its wrong bits. -/
theorem wrongBits_readBlock (h : (wrongBits st b).length ≤ 2) :
    wrongBits (readBlock c seq b st).1 d = if d = b ∧ (wrongBits st b).length = 1 then [] else wrongBits st d := by
  rcases wrongBits_cases h with hw | ⟨p, hw⟩ | ⟨p, q, hw⟩
  · rw [readBlock_of_none hw, hw]; simp
  · rw [readBlock_of_one hw, hw]
    have hcount : wrongBits (countCorrected (writeBlock b (soundBytes st b) st)) d =
      wrongBits (writeBlock b (soundBytes st b) st) d := rfl
    rw [hcount, wrongBits_writeBlock]
    simp
  · rw [readBlock_of_two hw, hw]
    simp [wrongBits]

/-- R30: the rewritten block holds its corrected bytes; no other byte changes. -/
theorem read_readBlock (hwf : Memory.wf st.mem = true) (h : (wrongBits st b).length ≤ 2) {i : Nat} (hi : i < 32) :
    Memory.read (readBlock c seq b st).1.mem (blockBase d + i) =
      if d = b ∧ (wrongBits st b).length = 1 then (soundBytes st b).getD i 0x00
      else Memory.read st.mem (blockBase d + i) := by
  rcases wrongBits_cases h with hw | ⟨p, hw⟩ | ⟨p, q, hw⟩
  · rw [readBlock_of_none hw, hw]; simp
  · rw [readBlock_of_one hw, hw, countCorrected_mem, read_writeBlock hwf (length_soundBytes st b) hi]
    simp
  · rw [readBlock_of_two hw, hw, countUncorrectable_mem]
    simp

/-- Reading another block leaves what reading this one gives. -/
theorem soundBytes_readBlock (hwf : Memory.wf st.mem = true) (h : (wrongBits st b).length ≤ 2) (hd : d ≠ b) :
    soundBytes (readBlock c seq b st).1 d = soundBytes st d :=
  soundBytes_congr (by rw [wrongBits_readBlock h, if_neg fun hc => hd hc.1])
    (blockBytesOf_congr fun i hi => by rw [read_readBlock hwf h hi, if_neg fun hc => hd hc.1])

end Read

/-! ### Several blocks -/

/-- The blocks of a list with one wrong bit. -/
def singleBlocks (st : Store) (bs : List (Fin 256)) : List (Fin 256) :=
  bs.filter fun b => (wrongBits st b).length == 1

/-- The blocks of a list with two wrong bits. -/
def doubleBlocks (st : Store) (bs : List (Fin 256)) : List (Fin 256) :=
  bs.filter fun b => (wrongBits st b).length == 2

/-- R30, R31, R33: the health record after `single` corrected blocks and the uncorrectable ones of a list. -/
def healthAfter (c : Fin 8) (seq : Half) (single double : List (Fin 256)) (h : Health) : Health :=
  { corrected := if single = [] then h.corrected else min 65535 (h.corrected + single.length)
    uncorrectable := if double = [] then h.uncorrectable else min 65535 (h.uncorrectable + double.length)
    last :=
      match double.getLast? with
      | none => h.last
      | some b => some { block := b, channel := c, staged := false, seq := seq } }

theorem healthAfter_nil (c : Fin 8) (seq : Half) (h : Health) : healthAfter c seq [] [] h = h := rfl

/-- R33: a corrected block before the others. -/
theorem healthAfter_single (c : Fin 8) (seq : Half) (b : Fin 256) (single double : List (Fin 256)) (h : Health) :
    healthAfter c seq (b :: single) double h =
      healthAfter c seq single double { h with corrected := min 65535 (h.corrected + 1) } := by
  simp only [healthAfter, Health.mk.injEq, and_true]
  cases single with
  | nil => simp
  | cons d l => simp; omega

/-- R33: an uncorrectable block before the others; the last of them is remembered. -/
theorem healthAfter_double (c : Fin 8) (seq : Half) (b : Fin 256) (single double : List (Fin 256)) (h : Health) :
    healthAfter c seq single (b :: double) h =
      healthAfter c seq single double
        { h with
          uncorrectable := min 65535 (h.uncorrectable + 1)
          last := some { block := b, channel := c, staged := false, seq := seq } } := by
  simp only [healthAfter, Health.mk.injEq, true_and]
  cases double with
  | nil => simp
  | cons d l => simp [List.getLast?_cons]; omega

section Blocks

variable {c : Fin 8} {seq : Half}

theorem readBlocks_cons (b : Fin 256) (bs : List (Fin 256)) (st : Store) :
    readBlocks c seq (b :: bs) st =
      ((readBlocks c seq bs (readBlock c seq b st).1).1,
        (readBlock c seq b st).2.1 ++ (readBlocks c seq bs (readBlock c seq b st).1).2.1,
        (readBlock c seq b st).2.2 || (readBlocks c seq bs (readBlock c seq b st).1).2.2) := rfl

/-- R29: correct blocks are read as stored and nothing changes. -/
theorem readBlocks_correct {bs : List (Fin 256)} {st : Store} (h : ∀ b ∈ bs, wrongBits st b = []) :
    readBlocks c seq bs st = (st, bs.flatMap (blockBytesOf st), false) := by
  induction bs with
  | nil => rfl
  | cons b bs ih =>
    rw [readBlocks_cons, readBlock_of_none (h b (.head _))]
    simp only [ih fun d hd => h d (.tail _ hd)]
    rfl

/-- Blocks of a list that do not hold `b` keep their wrong bits when `b` is read. -/
theorem wrongBits_readBlock_rest {b : Fin 256} {bs : List (Fin 256)} {st : Store}
    (hb : (wrongBits st b).length ≤ 2) (hn : b ∉ bs) :
    ∀ d ∈ bs, wrongBits (readBlock c seq b st).1 d = wrongBits st d := fun d hd => by
  have hne := ne_of_mem_of_not_mem hd hn
  rw [wrongBits_readBlock hb, if_neg fun hc => hne hc.1]

theorem filter_length_readBlock {b : Fin 256} {bs : List (Fin 256)} {st : Store} (n : Nat)
    (hb : (wrongBits st b).length ≤ 2) (hn : b ∉ bs) :
    (bs.filter fun d => (wrongBits (readBlock c seq b st).1 d).length == n) =
      bs.filter fun d => (wrongBits st d).length == n :=
  List.filter_congr fun d hd => by rw [wrongBits_readBlock_rest hb hn d hd]

/-- R29 to R31, R33: blocks with at most two wrong bits each, read one after the other. -/
theorem readBlocks_spec {bs : List (Fin 256)} {st : Store} (hwf : Memory.wf st.mem = true) (hn : bs.Nodup)
    (hb : ∀ b ∈ bs, (wrongBits st b).length ≤ 2) :
    (readBlocks c seq bs st).2.1 = bs.flatMap (soundBytes st) ∧
      (readBlocks c seq bs st).2.2 = !(doubleBlocks st bs).isEmpty ∧
      (readBlocks c seq bs st).1.health =
        healthAfter c seq (singleBlocks st bs) (doubleBlocks st bs) st.health ∧
      (∀ d, wrongBits (readBlocks c seq bs st).1 d = if d ∈ singleBlocks st bs then [] else wrongBits st d) ∧
      ∀ d, ∀ i < 32, Memory.read (readBlocks c seq bs st).1.mem (blockBase d + i) =
        if d ∈ singleBlocks st bs then (soundBytes st d).getD i 0x00
        else Memory.read st.mem (blockBase d + i) := by
  induction bs generalizing st with
  | nil => exact ⟨rfl, rfl, rfl, fun _ => rfl, fun _ _ _ => rfl⟩
  | cons b bs ih =>
    rw [List.nodup_cons] at hn
    have hfirst := hb b (.head _)
    have hrest := wrongBits_readBlock_rest (c := c) (seq := seq) hfirst hn.1
    obtain ⟨hbytes, hbad, hhealth, hbits, hread⟩ := ih (readBlock_wf c seq b hwf) hn.2
      fun d hd => by rw [hrest d hd]; exact hb d (.tail _ hd)
    have hsingle : singleBlocks (readBlock c seq b st).1 bs = singleBlocks st bs :=
      filter_length_readBlock 1 hfirst hn.1
    have hdouble : doubleBlocks (readBlock c seq b st).1 bs = doubleBlocks st bs :=
      filter_length_readBlock 2 hfirst hn.1
    rw [hsingle] at hhealth hbits hread
    rw [hdouble] at hbad hhealth
    have hnot : b ∉ singleBlocks st bs := fun h => hn.1 (List.mem_of_mem_filter h)
    have hmem : ∀ d, d ∈ singleBlocks st (b :: bs) ↔
        (d = b ∧ (wrongBits st b).length = 1) ∨ d ∈ singleBlocks st bs := fun d => by
      simp only [singleBlocks, List.mem_filter, List.mem_cons, beq_iff_eq]
      constructor
      · rintro ⟨rfl | hd, hl⟩
        · exact .inl ⟨rfl, hl⟩
        · exact .inr ⟨hd, hl⟩
      · rintro (⟨rfl, hl⟩ | ⟨hd, hl⟩)
        · exact ⟨.inl rfl, hl⟩
        · exact ⟨.inr hd, hl⟩
    rw [readBlocks_cons]
    refine ⟨?_, ?_, ?_, fun d => ?_, fun d i hi => ?_⟩
    · simp only
      rw [readBlock_bytes hfirst, hbytes, List.flatMap_cons]
      congr 1
      exact List.flatMap_congr fun d hd => soundBytes_readBlock hwf hfirst (ne_of_mem_of_not_mem hd hn.1)
    · simp only
      rw [readBlock_bad hfirst, hbad, doubleBlocks, doubleBlocks]
      by_cases h2 : (wrongBits st b).length = 2 <;> simp [h2]
    · simp only
      rw [hhealth, singleBlocks, singleBlocks, doubleBlocks, doubleBlocks]
      rcases wrongBits_cases hfirst with hw | ⟨p, hw⟩ | ⟨p, q, hw⟩
      · rw [readBlock_of_none hw, List.filter_cons_of_neg (by simp [hw]), List.filter_cons_of_neg (by simp [hw])]
      · rw [readBlock_of_one hw, List.filter_cons_of_pos (by simp [hw]), List.filter_cons_of_neg (by simp [hw]),
          healthAfter_single]
        rfl
      · rw [readBlock_of_two hw, List.filter_cons_of_neg (by simp [hw]), List.filter_cons_of_pos (by simp [hw]),
          healthAfter_double]
        rfl
    · simp only
      rw [hbits, wrongBits_readBlock hfirst]
      simp only [hmem]
      by_cases h1 : d ∈ singleBlocks st bs <;> simp [h1]
    · simp only
      rw [hread d i hi, read_readBlock hwf hfirst hi]
      simp only [hmem]
      by_cases h1 : d ∈ singleBlocks st bs
      · have hd : d ≠ b := ne_of_mem_of_not_mem h1 hnot
        simp only [h1, if_true, or_true]
        rw [soundBytes_readBlock hwf hfirst hd]
      · by_cases hd : d = b
        · subst hd; simp [h1]
        · simp [h1, hd]

end Blocks

/-! ### The blocks that a delivery spans -/

/-- Lists of 32 bytes each, one after the other. -/
theorem getElem?_flatMap_blocks {g : Fin 256 → List Byte} (hg : ∀ b, (g b).length = 32) (bs : List (Fin 256))
    (k : Nat) : (bs.flatMap g)[k]? = (bs[k / 32]?).bind fun b => (g b)[k % 32]? := by
  induction bs generalizing k with
  | nil => simp
  | cons b bs ih =>
    rw [List.flatMap_cons]
    by_cases hk : k < 32
    · rw [List.getElem?_append_left (by rw [hg]; exact hk), Nat.div_eq_of_lt hk, Nat.mod_eq_of_lt hk]
      rfl
    · rw [List.getElem?_append_right (by rw [hg]; omega), hg, ih, show k / 32 = (k - 32) / 32 + 1 by omega,
        show k % 32 = (k - 32) % 32 by omega]
      rfl

/-- The places of the blocks that hold one of the bytes, in ascending order. -/
theorem filter_range_between {a cnt len : Nat} (h : a + cnt ≤ len) {p : Nat → Bool}
    (hp : ∀ j < len, p j = true ↔ a ≤ j ∧ j < a + cnt) : (List.range len).filter p = List.range' a cnt := by
  have hsplit : List.range len = List.range' 0 a ++ (List.range' a cnt ++ List.range' (a + cnt) (len - (a + cnt))) := by
    have hfirst := List.range'_append_1 (s := 0) (m := a) (n := cnt + (len - (a + cnt)))
    rw [Nat.zero_add] at hfirst
    rw [List.range_eq_range', List.range'_append_1, hfirst]
    congr 1
    omega
  have hpre : (List.range' 0 a).filter p = [] := List.filter_eq_nil_iff.mpr fun j hj hc => by
    rw [List.mem_range'_1] at hj
    have := (hp j (by omega)).mp hc
    omega
  have hmid : (List.range' a cnt).filter p = List.range' a cnt := List.filter_eq_self.mpr fun j hj => by
    rw [List.mem_range'_1] at hj
    exact (hp j (by omega)).mpr hj
  have hpost : (List.range' (a + cnt) (len - (a + cnt))).filter p = [] := List.filter_eq_nil_iff.mpr fun j hj hc => by
    rw [List.mem_range'_1] at hj
    have := (hp j (by omega)).mp hc
    omega
  rw [hsplit, List.filter_append, List.filter_append, hpre, hmid, hpost, List.nil_append, List.append_nil]

theorem map_getD_range' {bs : List (Fin 256)} {a cnt : Nat} (h : a + cnt ≤ bs.length) :
    (List.range' a cnt).map (fun j => bs.getD j 0) = (bs.drop a).take cnt := by
  refine List.ext_getElem (by simp; omega) fun j h1 h2 => ?_
  rw [List.length_map, List.length_range'] at h1
  simp only [List.getElem_map, List.getElem_range', List.getElem_take, List.getElem_drop, Nat.one_mul]
  exact List.getD_eq_getElem _ _ (by omega)

section Spanned

variable {blocks : List (Fin 256)} {off n : Nat}

theorem blocksSpanned_of_ne (hn : n ≠ 0) :
    blocksSpanned blocks off n = (blocks.drop (off / 32)).take ((off + n - 1) / 32 - off / 32 + 1) :=
  if_neg hn

/-- R29: the blocks spanned are those that hold a byte of the delivery, in byte order. -/
theorem blocksSpanned_eq (h : n ≠ 0 → (off + n - 1) / 32 < blocks.length) :
    ((List.range blocks.length).filter fun j =>
      decide (max off (32 * j) < min (off + n) (32 * (j + 1)))).map (fun j => blocks.getD j 0) =
        blocksSpanned blocks off n := by
  by_cases hn : n = 0
  · subst hn
    have hnone : blocksSpanned blocks off 0 = [] := rfl
    rw [hnone, List.map_eq_nil_iff, List.filter_eq_nil_iff]
    intro j _ hj
    have := of_decide_eq_true hj
    omega
  · have hlast := h hn
    have hle : off / 32 ≤ (off + n - 1) / 32 := by omega
    rw [blocksSpanned_of_ne hn,
      filter_range_between (a := off / 32) (cnt := (off + n - 1) / 32 - off / 32 + 1) (by omega),
      map_getD_range' (by omega)]
    intro j _
    rw [decide_eq_true_iff]
    omega

/-- R24: the bytes handed out are the message's bytes from the offset on. -/
theorem spanned_bytes {g : Fin 256 → List Byte} (hg : ∀ b, (g b).length = 32)
    (h : n ≠ 0 → (off + n - 1) / 32 < blocks.length) :
    (((blocksSpanned blocks off n).flatMap g).drop (off % 32)).take n =
      (List.range n).map fun i => (g (blocks.getD ((off + i) / 32) 0)).getD ((off + i) % 32) 0x00 := by
  refine List.ext_getElem? fun i => ?_
  by_cases hi : i < n
  · have hn : n ≠ 0 := by omega
    have hlast := h hn
    have hj : (off + i) / 32 < blocks.length := by omega
    rw [List.getElem?_take_of_lt hi, List.getElem?_drop, getElem?_flatMap_blocks hg, blocksSpanned_of_ne hn,
      List.getElem?_take_of_lt (by omega), List.getElem?_drop,
      show off / 32 + (off % 32 + i) / 32 = (off + i) / 32 by omega,
      show (off % 32 + i) % 32 = (off + i) % 32 by omega, getElem?_of_getD hj, List.getElem?_map,
      List.getElem?_range hi]
    have hlen : (off + i) % 32 < (g (blocks.getD ((off + i) / 32) 0)).length := by
      rw [hg]; exact Nat.mod_lt _ (by decide)
    simp only [Option.bind_some, Option.map_some]
    rw [List.getElem?_eq_getElem hlen, List.getD_eq_getElem _ _ hlen]
  · rw [List.getElem?_eq_none (by rw [List.length_take]; omega),
      List.getElem?_eq_none (by rw [List.length_map, List.length_range]; omega)]

theorem spanned_sublist (blocks : List (Fin 256)) (off n : Nat) : (blocksSpanned blocks off n).Sublist blocks := by
  unfold blocksSpanned
  split
  · exact List.nil_sublist _
  · exact (List.take_sublist _ _).trans (List.drop_sublist _ _)

/-- R24: a delivery within a message reaches into its blocks alone. -/
theorem last_block_lt {m : Message} (hlen : m.blocks.length = max 1 ((m.length + 31) / 32))
    (hfit : off + n ≤ m.length) (hn : n ≠ 0) : (off + n - 1) / 32 < m.blocks.length := by
  omega

end Spanned

/-! ### A delivery -/

theorem deliver_eq (c : Fin 8) (m : Message) (off n : Nat) (s : State) :
    deliver c m off n s =
      (if (readBlocks c m.seq (blocksSpanned m.blocks off n) s.store).2.2 = true then
          setChan c (markDamaged m.seq (chanOf c s))
            (setStore (readBlocks c m.seq (blocksSpanned m.blocks off n) s.store).1 s)
        else setStore (readBlocks c m.seq (blocksSpanned m.blocks off n) s.store).1 s,
        ((readBlocks c m.seq (blocksSpanned m.blocks off n) s.store).2.1.drop (off % 32)).take n,
        (readBlocks c m.seq (blocksSpanned m.blocks off n) s.store).2.2) := rfl

theorem deliver_store (c : Fin 8) (m : Message) (off n : Nat) (s : State) :
    (deliver c m off n s).1.store = (readBlocks c m.seq (blocksSpanned m.blocks off n) s.store).1 := by
  rw [deliver_eq]
  simp only
  split <;> rfl

theorem deliver_frame (c : Fin 8) (m : Message) (off n : Nat) (s : State) :
    (deliver c m off n s).1 =
      { s with store := (deliver c m off n s).1.store, channels := (deliver c m off n s).1.channels } := by
  rw [deliver_eq]
  simp only
  split <;> rfl

/-- R31: the damaged flag is set in the message record of that number alone. -/
theorem chanOf_deliver (c d : Fin 8) (m : Message) (off n : Nat) (s : State) :
    chanOf d (deliver c m off n s).1 =
      if d = c ∧ (deliver c m off n s).2.2 = true then markDamaged m.seq (chanOf c s) else chanOf d s := by
  rw [deliver_eq]
  simp only
  split
  · rename_i h
    rw [chanOf_setChan, chanOf_setStore]
    simp only [h, and_true]
  · rename_i h
    rw [if_neg fun hc => h hc.2, chanOf_setStore]

/-- Settles O29, one block first and then the blocks that a delivery spans. -/
theorem deliveryReadsTheBlocks : Obligations.DeliveryReadsTheBlocks := by
  refine ⟨?_, ?_, ?_⟩
  · intro c seq b st bytes
    refine ⟨fun h => readBlock_of_none h, fun p hwf h => ?_, fun p q h => readBlock_of_two h⟩
    have hle : (wrongBits st b).length ≤ 2 := by simp [h]
    refine ⟨_, _, readBlock_of_one h, soundBytes_of_one h, classOf_of_none ?_, fun i hi => ?_, fun d hd i hi => ?_,
      rfl, rfl⟩
    · exact (wrongBits_writeBlock b b (soundBytes st b) st).trans (if_pos rfl)
    · exact (read_writeBlock hwf (length_soundBytes st b) hi).trans (if_pos rfl)
    · exact (read_writeBlock hwf (length_soundBytes st b) hi).trans (if_neg hd)
  · intro c m off n s hlen hfit hcorrect
    have hspan := last_block_lt hlen hfit
    have hblocks : ∀ b ∈ blocksSpanned m.blocks off n, wrongBits s.store b = [] :=
      fun b hb => hcorrect b ((spanned_sublist _ _ _).subset hb)
    rw [deliver_eq, readBlocks_correct hblocks]
    simp only
    rw [spanned_bytes (blockBytesOf_length s.store) hspan]
    refine Prod.ext rfl (Prod.ext (List.map_congr_left fun i _ => ?_) rfl)
    exact blockBytesOf_getD _ _ (Nat.mod_lt _ (by decide))
  · intro c m off n s hlen hwf hn hfit hbits at_ stored good spanned single double h d
    have hspan := last_block_lt hlen hfit
    have hspanned : spanned = blocksSpanned m.blocks off n := blocksSpanned_eq hspan
    have hsub := spanned_sublist m.blocks off n
    obtain ⟨hbytes, hbad, hhealth, hwrong, hread⟩ := readBlocks_spec (c := c) (seq := m.seq) hwf (hn.sublist hsub)
      fun b hb => hbits b (hsub.subset hb)
    have hsingle : singleBlocks s.store (blocksSpanned m.blocks off n) = single := by rw [← hspanned]; rfl
    have hdouble : doubleBlocks s.store (blocksSpanned m.blocks off n) = double := by rw [← hspanned]; rfl
    rw [hsingle] at hhealth hwrong hread
    rw [hdouble] at hbad hhealth
    have hstore : d.1.store = (readBlocks c m.seq (blocksSpanned m.blocks off n) s.store).1 :=
      deliver_store c m off n s
    have hfound : d.2.2 = !double.isEmpty := hbad
    refine ⟨?_, hfound, deliver_frame c m off n s, fun e he => ?_, ?_, ?_, ?_, fun b hb => classOf_of_none ?_,
      fun b hb => ?_, fun b i hi => ?_⟩
    · have hout : d.2.1 = ((readBlocks c m.seq (blocksSpanned m.blocks off n) s.store).2.1.drop (off % 32)).take n :=
        rfl
      rw [hout, hbytes, spanned_bytes (length_soundBytes s.store) hspan]
      rfl
    · exact (chanOf_deliver c e m off n s).trans (if_neg fun hc => he hc.1)
    · refine (chanOf_deliver c c m off n s).trans ?_
      by_cases hd : double = []
      · rw [if_neg (by rw [hfound, hd]; simp), if_pos hd]
      · rw [if_pos ⟨rfl, by rw [hfound]; simpa using hd⟩, if_neg hd]
        rfl
    · rw [hstore, readBlocks_freePool]
    · rw [hstore, hhealth]
      rfl
    · rw [hstore, hwrong, if_pos hb]
    · rw [hstore, hwrong, if_neg hb]
    · rw [hstore, hread b i hi]
      split
      · rfl
      · exact (blockBytesOf_getD _ _ hi).symm

end Sys2Proof.Machine
end

section
/-!
PROOFS. The end of a staging record: ABANDON, the segment timeout, and the segments that follow a FIRST (R28, R44 to
R48, R50).
-/

namespace Sys2Proof.Machine

/-! ### Payloads -/

theorem channelCheck_bytes (c : Fin 8) : channelCheck [byteOf c.val] = .ok c := by
  simp [channelCheck, channelField_byteOf, fields]

theorem segmentCheck_middle (c : Fin 8) {data : List Byte} (h1 : 1 ≤ data.length) (h62 : data.length ≤ 62) :
    segmentCheck ([byteOf c.val, 0x02] ++ data) = .ok (.middle c data) := by
  have hlen : 1 ≤ data.length ∧ data.length ≤ 62 := ⟨h1, h62⟩
  simp [segmentCheck, channelField_byteOf, fields, hlen]

theorem segmentCheck_last (c : Fin 8) {data : List Byte} (h1 : 1 ≤ data.length) (h62 : data.length ≤ 62) :
    segmentCheck ([byteOf c.val, 0x03] ++ data) = .ok (.last c data) := by
  have hlen : 1 ≤ data.length ∧ data.length ≤ 62 := ⟨h1, h62⟩
  simp [segmentCheck, channelField_byteOf, fields, hlen]

/-! ### Dropping a staging record -/

section Dropped

variable {x : Station} {r : Staging} {s : State}

theorem advisory_dropStaging (h : Advisory s) : Advisory (dropStaging x r s) := by
  rw [dropStaging_frame]
  exact Advisory.of_setUnit rfl (Advisory.of_units rfl h)

theorem dropStaging_severe (x : Station) (r : Staging) (s : State) : (dropStaging x r s).severe = s.severe := by
  rw [dropStaging_frame]
  simp

theorem isPresent_dropStaging (x : Station) (r : Staging) (s : State) :
    isPresent x (dropStaging x r s) = isPresent x s := by
  rw [dropStaging_frame, isPresent_setUnit _ _ _ _ (by simp), isPresent_setChan, isPresent_setStore]

theorem advisory_abandonStaging (h : Advisory s) : Advisory (abandonStaging x r s) :=
  (advisory_dropStaging h).evalCongestion

theorem abandonStaging_severe (h : Advisory s) : (abandonStaging x r s).severe = s.severe := by
  rw [abandonStaging, evalCongestion_severe (advisory_dropStaging h), dropStaging_severe]

theorem isPresent_abandonStaging (x : Station) (r : Staging) (s : State) :
    isPresent x (abandonStaging x r s) = isPresent x s := by
  rw [abandonStaging, isPresent_evalCongestion, isPresent_dropStaging]

end Dropped

/-! ### A request answered after its record has been abandoned -/

/-- R47: a request whose owner abandons the station's record and answers. -/
theorem runRequest_abandoned {α : Type} {x : Station} {f : Frame} {handler : Frame → State → State}
    {check : List Byte → Except Status α} {owner : α → State → Handled} {s : State} {a : α} {status : Status}
    {fieldBytes : List Byte} {r : Staging} (hr : Ready x f s) (hp : isPresent x s = true) (ha : Advisory s)
    (hh : ∀ t, handler f t = handleKnown x f check owner t) (hc : check f.payload = .ok a)
    (ho : owner a (restartKeepalive x s) = .reply (abandonStaging x r (restartKeepalive x s)) status fieldBytes) :
    runRequest x f handler s = answered x f status fieldBytes (abandonStaging x r (restartKeepalive x s)) :=
  runRequest_answered hr hp hh hc ho
    (by rw [abandonStaging_severe ha.restartKeepalive, restartKeepalive_severe, hr.severe])
    (by rw [isPresent_abandonStaging, isPresent_restartKeepalive, hp])

/-- R50: the expiry of a record whose timer is at zero. -/
theorem expireStaging_of_zero {x : Station} {c : Fin 8} {r : Staging} {s : State} (h : stagingOn x c s = some r)
    (h0 : r.timer = 0) :
    expireStaging x c s =
      recordFault x .stagingExpired (.staging c r.received r.total)
        (offer x (.stagingExpired c r.received r.total) (abandonStaging x r s)) := by
  simp only [expireStaging, h, if_pos h0]

/-- R51: no expiry without a record whose timer is at zero. -/
theorem expireStaging_of_running {x : Station} {c : Fin 8} {s : State}
    (h : ∀ r, stagingOn x c s = some r → r.timer ≠ 0) : expireStaging x c s = s := by
  cases hst : stagingOn x c s with
  | none => simp only [expireStaging, hst]
  | some r => simp only [expireStaging, hst, if_neg (h r hst)]

/-- Settles O34: ABANDON with and without a record, then the timeout with the timer at zero and running. -/
theorem stagingRecordIsAbandoned : Obligations.StagingRecordIsAbandoned := by
  intro x tag c s f abandoned
  have habandoned : ∀ r t, r.channel = c → abandonStaging x r t = abandoned r t := by
    rintro r t rfl
    rfl
  refine ⟨fun hr hp hheld hnone => ?_, fun r hr hp hheld ha hsome => ?_, fun r hrun ha hsome h0 => ?_,
    fun hrun h => ?_⟩
  · refine congrArg Host.Outcome.next
      (runRequest_unchanged (check := channelCheck) (owner := ownerAbandon x) hr hp (fun _ => rfl)
        (channelCheck_bytes c) ?_)
    simp [ownerAbandon, hheld, hnone]
  · rw [← habandoned r _ (Kept.stagingOn_channel hsome)]
    refine congrArg Host.Outcome.next
      (runRequest_abandoned (check := channelCheck) (owner := ownerAbandon x) hr hp ha (fun _ => rfl)
        (channelCheck_bytes c) ?_)
    simp [ownerAbandon, hheld, hsome]
  · have hexpire := expireStaging_of_zero hsome h0
    have hadvisory : Advisory (abandonStaging x r s) := advisory_abandonStaging ha
    have hsevere : (expireStaging x c s).severe = [] := by
      rw [hexpire, recordFault_severe (hadvisory.offer.at x), offer_severe (hadvisory.at x), abandonStaging_severe ha,
        hrun.2]
    rw [← habandoned r s (Kept.stagingOn_channel hsome), ← hexpire]
    exact congrArg Host.Outcome.next (runEvent_running hrun.1 hsevere)
  · have hsame := expireStaging_of_running h
    refine congrArg Host.Outcome.next ?_
    rw [runEvent_running hrun.1 (by rw [hsame, hrun.2]), hsame]

/-! ### MIDDLE and LAST -/

section Segment

variable {x : Station} {c : Fin 8} {data : List Byte} {s : State} {r : Staging}

theorem ownerSegmentMiddle_none (h : stagingOn x c s = none) :
    ownerSegmentMiddle x c data s = .reply s .noStaging [] := by
  simp only [ownerSegmentMiddle, h]

theorem ownerSegmentMiddle_long (h : stagingOn x c s = some r) (hlong : r.total < r.received + data.length) :
    ownerSegmentMiddle x c data s =
      .reply (abandonStaging x r s) .overlength (natBytes2 r.received ++ natBytes2 r.total) := by
  simp only [ownerSegmentMiddle, h, if_pos hlong]

theorem ownerSegmentLast_none (h : stagingOn x c s = none) :
    ownerSegmentLast x c data s = .reply s .noStaging [] := by
  simp only [ownerSegmentLast, h]

theorem ownerSegmentLast_long (h : stagingOn x c s = some r) (hlong : r.total < r.received + data.length) :
    ownerSegmentLast x c data s =
      .reply (abandonStaging x r s) .overlength (natBytes2 r.received ++ natBytes2 r.total) := by
  simp only [ownerSegmentLast, h, if_pos hlong]

theorem ownerSegmentLast_short (h : stagingOn x c s = some r) (hshort : r.received + data.length < r.total) :
    ownerSegmentLast x c data s =
      .reply (abandonStaging x r s) .short (natBytes2 (r.received + data.length) ++ natBytes2 r.total) := by
  simp only [ownerSegmentLast, h, if_neg (Nat.not_lt.mpr hshort.le), if_pos hshort]

/-- R28, R44: the record after a segment. -/
def extendedStaging (r : Staging) (data : List Byte) (s : State) : Staging :=
  { r with
    received := r.received + data.length
    damaged := r.damaged || (writeSegment r.channel r.blocks r.received data s.store).2 }

theorem addSegment_eq (x : Station) (r : Staging) (data : List Byte) (s : State) :
    addSegment x r data s =
      (replaceStaging x (extendedStaging r data s)
        (setStore (writeSegment r.channel r.blocks r.received data s.store).1 s), extendedStaging r data s) := rfl

/-- Of two replacements on one channel the second counts. -/
theorem replaceStaging_replaceStaging {r1 r2 : Staging} (h : r1.channel = r2.channel) (s : State) :
    replaceStaging x r2 (replaceStaging x r1 s) = replaceStaging x r2 s := by
  have hmap : ∀ t : Staging, (if (if t.channel = r1.channel then r1 else t).channel = r2.channel then r2
      else if t.channel = r1.channel then r1 else t) = if t.channel = r2.channel then r2 else t := by
    intro t
    by_cases ht : t.channel = r1.channel
    · rw [if_pos ht, if_pos h, if_pos (ht.trans h)]
    · rw [if_neg ht]
  simp only [replaceStaging, unitOf_setUnit_self, setUnit_setUnit, List.map_map]
  congr 2
  exact List.map_congr_left fun t _ => hmap t

theorem ownerSegmentMiddle_fit (h : stagingOn x c s = some r) (hfit : r.received + data.length ≤ r.total) :
    ownerSegmentMiddle x c data s =
      .reply
        (replaceStaging x { extendedStaging r data s with timer := 250 }
          (setStore (writeSegment r.channel r.blocks r.received data s.store).1 s))
        .ok (natBytes2 (r.received + data.length) ++ natBytes2 r.total) := by
  simp only [ownerSegmentMiddle, h, if_neg (Nat.not_lt.mpr hfit), addSegment_eq]
  exact congrArg (fun t => Handled.reply t .ok (natBytes2 (r.received + data.length) ++ natBytes2 r.total))
    (replaceStaging_replaceStaging (r1 := extendedStaging r data s)
      (r2 := { extendedStaging r data s with timer := 250 }) rfl _)

/-- Where the record on a channel goes, its replacement leaves no trace. -/
theorem filter_replaced (r1 : Staging) (l : List Staging) :
    ((l.map fun t => if t.channel = r1.channel then r1 else t).filter fun t => t.channel != r1.channel) =
      l.filter fun t => t.channel != r1.channel := by
  induction l with
  | nil => rfl
  | cons t ts ih =>
    rw [List.map_cons]
    by_cases ht : t.channel = r1.channel
    · rw [if_pos ht, List.filter_cons_of_neg (by simp), List.filter_cons_of_neg (by simp [ht]), ih]
    · rw [if_neg ht, List.filter_cons_of_pos (by simpa using ht), List.filter_cons_of_pos (by simpa using ht), ih]

/-- R46: the state in which the completed message stands, before ARRIVAL is offered. -/
def completedSegment (x : Station) (r : Staging) (st : Store) (damaged : Bool) (s : State) : State :=
  setUnit x { unitOf x s with staging := (unitOf x s).staging.filter fun t => t.channel != r.channel }
    (setChan r.channel
      { chanOf r.channel s with
        queue := (chanOf r.channel s).queue ++
          [{ seq := (chanOf r.channel s).nextSeq, length := r.total, blocks := r.blocks, state := .queued,
             redelivered := false, damaged := damaged, epoch := (unitOf x s).record.epoch }]
        nextSeq := (chanOf r.channel s).nextSeq + 1
        reserved := 0 }
      (setStore st s))

theorem completeStaging_addSegment (x : Station) (r : Staging) (data : List Byte) (s : State) :
    completeStaging x (addSegment x r data s).2 (addSegment x r data s).1 =
      offerArrival r.channel
        (completedSegment x r (writeSegment r.channel r.blocks r.received data s.store).1
          (extendedStaging r data s).damaged s) := by
  have hstaging := filter_replaced (extendedStaging r data s) (unitOf x s).staging
  have setChan_setUnit : ∀ ch u t, setChan r.channel ch (setUnit x u t) = setUnit x u (setChan r.channel ch t) :=
    fun _ _ _ => rfl
  have hchannel : (extendedStaging r data s).channel = r.channel := rfl
  rw [hchannel] at hstaging
  simp only [addSegment_eq, completeStaging, replaceStaging, completedSegment, appendMessage, hchannel, chanOf_setUnit,
    chanOf_setStore, unitOf_setUnit_self, unitOf_setStore, setChan_setUnit, setUnit_setUnit, hstaging]
  rfl

/-! ### The segments as requests -/

theorem ownerSegment_middle (h : holdsActive x (chanOf c s).sender = true) :
    ownerSegment x (.middle c data) s = ownerSegmentMiddle x c data s := if_pos h

theorem ownerSegment_last (h : holdsActive x (chanOf c s).sender = true) :
    ownerSegment x (.last c data) s = ownerSegmentLast x c data s := if_pos h

theorem ownerSegmentLast_fit (h : stagingOn x c s = some r) (hfit : r.received + data.length = r.total) :
    ownerSegmentLast x c data s =
      .reply
        (offerArrival c
          (completedSegment x r (writeSegment r.channel r.blocks r.received data s.store).1
            (extendedStaging r data s).damaged s))
        .ok (halfBytes (chanOf c s).nextSeq ++ [byteOf ((chanOf c s).queue.length + 1)]) := by
  have hc : r.channel = c := Kept.stagingOn_channel h
  subst hc
  simp only [ownerSegmentLast, h, if_neg (Nat.not_lt.mpr hfit.le), if_neg (Nat.not_lt.mpr hfit.ge)]
  rw [completeStaging_addSegment]
  simp [completedSegment, occupancy]

end Segment

/-- Settles O33: the cases of the model's owner of a MIDDLE, then those of a LAST. -/
theorem segmentMiddleAndLast : Obligations.SegmentMiddleAndLast := by
  refine ⟨?_, ?_⟩
  · intro x tag c data s payload f s0 hr hp hheld h1 h62
    have hown : ∀ t st fieldBytes, ownerSegmentMiddle x c data s0 = .reply t st fieldBytes →
        ownerSegment x (.middle c data) s0 = .reply t st fieldBytes := fun t st fieldBytes h =>
      (ownerSegment_middle (by rw [chanOf_restartKeepalive]; exact hheld)).trans h
    have hstaging : stagingOn x c s0 = stagingOn x c s := stagingOn_restartKeepalive x x c s
    have hcheck := segmentCheck_middle c h1 h62
    refine ⟨fun h => ?_, fun r h hlong ha => ?_, fun r h hfit => ?_⟩
    · exact congrArg Host.Outcome.next (runRequest_unchanged hr hp (fun _ => rfl) hcheck
        (hown _ _ _ (ownerSegmentMiddle_none (hstaging.trans h))))
    · exact congrArg Host.Outcome.next (runRequest_abandoned hr hp ha (fun _ => rfl) hcheck
        (hown _ _ _ (ownerSegmentMiddle_long (hstaging.trans h) hlong)))
    · have hc : r.channel = c := Kept.stagingOn_channel h
      subst hc
      have hstore : s0.store = s.store := restartKeepalive_store x s
      intro w
      have howner := ownerSegmentMiddle_fit (data := data) (hstaging.trans h) hfit
      rw [hstore] at howner
      refine congrArg Host.Outcome.next ((runRequest_answered hr hp (fun _ => rfl) hcheck (hown _ _ _ howner) ?_
        ?_).trans ?_)
      · rw [replaceStaging, setUnit_severe, setStore_severe, restartKeepalive_severe, hr.severe]
      · rw [replaceStaging, isPresent_setUnit _ _ _ _ (by rfl), isPresent_setStore, isPresent_restartKeepalive, hp]
      · rw [extendedStaging, hstore]
  · intro x tag c data s payload f s0 u0 ch hr hp hheld h1 h62
    have hown : ∀ t st fieldBytes, ownerSegmentLast x c data s0 = .reply t st fieldBytes →
        ownerSegment x (.last c data) s0 = .reply t st fieldBytes := fun t st fieldBytes h =>
      (ownerSegment_last (by rw [chanOf_restartKeepalive]; exact hheld)).trans h
    have hstaging : stagingOn x c s0 = stagingOn x c s := stagingOn_restartKeepalive x x c s
    have hcheck := segmentCheck_last c h1 h62
    refine ⟨fun h => ?_, fun r h hlong ha => ?_, fun r h hshort ha => ?_, fun r h hfit ha => ?_⟩
    · exact congrArg Host.Outcome.next (runRequest_unchanged hr hp (fun _ => rfl) hcheck
        (hown _ _ _ (ownerSegmentLast_none (hstaging.trans h))))
    · exact congrArg Host.Outcome.next (runRequest_abandoned hr hp ha (fun _ => rfl) hcheck
        (hown _ _ _ (ownerSegmentLast_long (hstaging.trans h) hlong)))
    · exact congrArg Host.Outcome.next (runRequest_abandoned hr hp ha (fun _ => rfl) hcheck
        (hown _ _ _ (ownerSegmentLast_short (hstaging.trans h) hshort)))
    · have hc : r.channel = c := Kept.stagingOn_channel h
      subst hc
      have hstore : s0.store = s.store := restartKeepalive_store x s
      intro w
      have howner := ownerSegmentLast_fit (data := data) (hstaging.trans h) hfit
      rw [hstore, chanOf_restartKeepalive] at howner
      have hadvisory : ∀ st b, Advisory (completedSegment x r st b s0) := fun st b =>
        Advisory.of_setUnit rfl (Advisory.of_units rfl ha.restartKeepalive)
      refine congrArg Host.Outcome.next ((runRequest_answered hr hp (fun _ => rfl) hcheck (hown _ _ _ howner) ?_
        ?_).trans ?_)
      · rw [offerArrival_severe (hadvisory _ _), completedSegment, setUnit_severe, setChan_severe, setStore_severe,
          restartKeepalive_severe, hr.severe]
      · rw [isPresent_offerArrival, completedSegment, isPresent_setUnit _ _ _ _ (by rfl), isPresent_setChan,
          isPresent_setStore, isPresent_restartKeepalive, hp]
      · rw [completedSegment, extendedStaging, hstore, chanOf_restartKeepalive, restartKeepalive_epoch]

end Sys2Proof.Machine
end

section
/-!
PROOFS. FETCH: the state after a delivery from byte 0 and its lend, and the request (R55 to R59).
-/

namespace Sys2Proof.Machine

/-! ### The lend of a delivered message -/

/-- R58: the QUEUED messages that a delivery leaves. -/
def queuedAfter (mode : DeliveryMode) (ch : Channel) : Nat :=
  match mode with
  | .lend => queuedCount ch - 1
  | .peek => queuedCount ch

section Lend

variable {x : Station} {c : Fin 8} {mode : DeliveryMode} {s : State}

theorem holder_of_holdsActive {e : End} (h : holdsActive x e = true) : e.holder = some x :=
  holdsEnd_iff.mp (Bool.and_eq_true_iff.mp h).1

/-- R56, R59: in LEND mode the oldest QUEUED message becomes LENT; ARRIVAL is withdrawn from `x` when no QUEUED message
is left. In PEEK mode nothing changes. -/
def lentState (x : Station) (c : Fin 8) (mode : DeliveryMode) (s : State) : State :=
  match mode with
  | .peek => s
  | .lend =>
    if (lendFirst (chanOf c s).queue).any isQueued = true then
      setChan c { chanOf c s with queue := lendFirst (chanOf c s).queue } s
    else withdraw x (.arrival c) (setChan c { chanOf c s with queue := lendFirst (chanOf c s).queue } s)

/-- R59: ARRIVAL is withdrawn from the holder of the receiver end. -/
theorem lend_eq (h : (chanOf c s).receiver.holder = some x) : lend c s = lentState x c .lend s := by
  have hholder : (chanOf c (setChan c { chanOf c s with queue := lendFirst (chanOf c s).queue } s)).receiver.holder =
      some x := by rw [chanOf_setChan_self]; exact h
  simp only [lend, lentState, withdrawArrival, hholder]
  rw [chanOf_setChan_self]

theorem deliveredState_eq (m : Message) (h : holdsActive x (chanOf c s).receiver = true) :
    deliveredState c mode m s = lentState x c mode (deliver c m 0 (min 56 m.length) s).1 := by
  cases mode with
  | lend => exact lend_eq (by rw [receiver_deliver]; exact holder_of_holdsActive h)
  | peek => rfl

theorem lentState_severe : (lentState x c mode s).severe = s.severe := by
  cases mode with
  | peek => rfl
  | lend => rw [lentState]; split <;> simp

theorem faults_lentState (y : Station) : (unitOf y (lentState x c mode s)).faults = (unitOf y s).faults := by
  cases mode with
  | peek => rfl
  | lend => rw [lentState]; split <;> simp

theorem isPresent_lentState (y : Station) : isPresent y (lentState x c mode s) = isPresent y s := by
  cases mode with
  | peek => rfl
  | lend => rw [lentState]; split <;> simp

theorem advisory_lentState (h : Advisory s) : Advisory (lentState x c mode s) :=
  Advisory.of_at fun y => AdvisoryAt.of_eq (by rw [faults_lentState]) (h.at y)

/-- R56: the lend takes one message from those QUEUED. -/
theorem countP_isQueued_lendFirst (q : List Message) : (lendFirst q).countP isQueued = q.countP isQueued - 1 := by
  induction q with
  | nil => rfl
  | cons m ms ih =>
    rw [lendFirst]
    by_cases hm : isQueued m = true
    · rw [if_pos hm, List.countP_cons_of_neg (by simp [isQueued]), List.countP_cons_of_pos hm, Nat.add_sub_cancel]
    · rw [if_neg hm, List.countP_cons_of_neg hm, List.countP_cons_of_neg hm, ih]

theorem queuedCount_lentState :
    queuedCount (chanOf c (lentState x c mode s)) = queuedAfter mode (chanOf c s) := by
  cases mode with
  | peek => rfl
  | lend =>
    have hqueue : (chanOf c (lentState x c .lend s)).queue = lendFirst (chanOf c s).queue := by
      rw [lentState]; split <;> simp
    rw [queuedCount, hqueue, countP_isQueued_lendFirst]
    rfl

end Lend

/-! ### What a delivery leaves -/

section Delivered

variable {c : Fin 8} {m : Message} {off n : Nat} {s : State}

theorem queuedCount_deliver : queuedCount (chanOf c (deliver c m off n s).1) = queuedCount (chanOf c s) := by
  rw [chanOf_deliver]
  split
  · simp only [queuedCount, markDamaged, List.countP_map]
    refine congrArg (fun p => (chanOf c s).queue.countP p) (funext fun t => ?_)
    simp only [Function.comp]
    split <;> rfl
  · rfl

theorem deliver_severe : (deliver c m off n s).1.severe = s.severe := by rw [deliver_frame]

theorem isPresent_deliver (y : Station) : isPresent y (deliver c m off n s).1 = isPresent y s := by
  rw [isPresent, unitOf_deliver, isPresent]

theorem advisory_deliver (h : Advisory s) : Advisory (deliver c m off n s).1 :=
  Advisory.of_at fun y => AdvisoryAt.of_eq (by rw [unitOf_deliver]) (h.at y)

theorem recordDamage_severe {x : Station} {seq : Half} {bad : Bool} (h : AdvisoryAt x s) :
    (recordDamage x c seq bad s).severe = s.severe := by
  unfold recordDamage
  split
  · exact recordFault_severe h
  · rfl

theorem isPresent_recordDamage (x y : Station) (seq : Half) (bad : Bool) :
    isPresent y (recordDamage x c seq bad s) = isPresent y s := by
  unfold recordDamage
  split
  · exact isPresent_recordFault y x _ _ s
  · rfl

end Delivered

/-! ### FETCH -/

/-- R55: the mode byte of a FETCH or a DRAW. -/
def modeByte : DeliveryMode → Byte
  | .lend => 0x01
  | .peek => 0x02

theorem modeField_modeByte (mode : DeliveryMode) : modeField (modeByte mode) = some mode := by cases mode <;> rfl

theorem fetchCheck_bytes (c : Fin 8) (mode : DeliveryMode) :
    fetchCheck [byteOf c.val, modeByte mode] = .ok (c, mode) := by
  simp [fetchCheck, channelField_byteOf, modeField_modeByte, fields]

/-- R55: a FETCH without a QUEUED message. -/
theorem ownerFetch_of_empty {x : Station} {c : Fin 8} {mode : DeliveryMode} {s : State}
    (h : holdsActive x (chanOf c s).receiver = true) (hnone : (chanOf c s).queue.find? isQueued = none) :
    ownerFetch x c mode s = .reply s .empty [byteOf (lentCount (chanOf c s))] := by
  simp only [ownerFetch, if_pos h, hnone]

/-- R57: a FETCH in LEND mode with the window full. -/
theorem ownerFetch_of_full {x : Station} {c : Fin 8} {s : State} {first : Message}
    (h : holdsActive x (chanOf c s).receiver = true) (hsome : (chanOf c s).queue.find? isQueued ≠ none)
    (hfull : 8 ≤ lentCount (chanOf c s)) (hfirst : (chanOf c s).queue.find? isLent = some first) :
    ownerFetch x c .lend s = .reply s .window (halfBytes first.seq) := by
  obtain ⟨m, hm⟩ := Option.ne_none_iff_exists'.mp hsome
  have hwindow : Config.lendWindow ≤ lentCount (chanOf c s) := hfull
  simp only [ownerFetch, if_pos h, hm, true_and, if_pos hwindow, hfirst, Option.map_some, Option.getD_some]

/-- R56 to R58: the reply to a FETCH that delivers, with the fault of a double-bit error last. -/
theorem ownerFetch_of_queued {x : Station} {c : Fin 8} {mode : DeliveryMode} {m : Message} {s : State}
    (h : holdsActive x (chanOf c s).receiver = true) (hm : (chanOf c s).queue.find? isQueued = some m)
    (hw : mode = .peek ∨ lentCount (chanOf c s) < 8) :
    ownerFetch x c mode s =
      .reply
        (recordDamage x c m.seq (deliver c m 0 (min 56 m.length) s).2.2
          (lentState x c mode (deliver c m 0 (min 56 m.length) s).1))
        .ok
        (halfBytes m.seq ++ natBytes2 m.length ++
          [messageFlags m.redelivered (m.damaged || (deliver c m 0 (min 56 m.length) s).2.2) false,
            byteOf (queuedAfter mode (chanOf c s))] ++ (deliver c m 0 (min 56 m.length) s).2.1) := by
  have hopen : ¬(mode = .lend ∧ Config.lendWindow ≤ lentCount (chanOf c s)) := by
    rintro ⟨rfl, hfull⟩
    rcases hw with hw | hw
    · cases hw
    · exact absurd hfull (Nat.not_le.mpr hw)
  have hfetch : ownerFetch x c mode s = fetchMessage x c mode m s := by
    simp only [ownerFetch, if_pos h, hm, if_neg hopen]
  have hqueued := queuedCount_lentState (x := x) (c := c) (mode := mode) (s := (deliver c m 0 (min 56 m.length) s).1)
  have hcount : queuedAfter mode (chanOf c (deliver c m 0 (min 56 m.length) s).1) = queuedAfter mode (chanOf c s) := by
    cases mode
    · exact congrArg (· - 1) queuedCount_deliver
    · exact queuedCount_deliver
  rw [hcount, ← deliveredState_eq m h] at hqueued
  rw [hfetch, ← deliveredState_eq m h, ← hqueued]
  rfl

/-- Settles O35: without a QUEUED message, with the window full, and the delivery. -/
theorem fetchDeliversTheOldestQueued : Obligations.FetchDeliversTheOldestQueued := by
  intro x tag c mode s payload i f ch s0 hr hp hheld
  have hpayload : payload = [byteOf c.val, modeByte mode] := by cases mode <;> rfl
  have hexec : exec i s = .next (runRequest x f (handleFetch x) s) := by cases mode <;> rfl
  have hcheck : fetchCheck f.payload = .ok (c, mode) := by
    have hf : f.payload = payload := rfl
    rw [hf, hpayload]
    exact fetchCheck_bytes c mode
  have hchan : chanOf c s0 = ch := chanOf_restartKeepalive c x s
  have hheld0 : holdsActive x (chanOf c s0).receiver = true := by rw [hchan]; exact hheld
  refine ⟨fun hnone => ?_, fun first hsome hmode hfull hfirst => ?_, fun m hm hw ha => ?_⟩
  · rw [hexec]
    refine congrArg Host.Outcome.next (runRequest_unchanged (check := fetchCheck)
      (owner := fun a t => ownerFetch x a.1 a.2 t) hr hp (fun _ => rfl) hcheck ?_)
    rw [← hchan] at hnone ⊢
    exact ownerFetch_of_empty hheld0 hnone
  · rw [hexec]
    subst hmode
    rw [← hchan] at hsome hfull hfirst
    refine congrArg Host.Outcome.next (runRequest_unchanged (check := fetchCheck)
      (owner := fun a t => ownerFetch x a.1 a.2 t) hr hp (fun _ => rfl) hcheck ?_)
    exact ownerFetch_of_full hheld0 hsome hfull hfirst
  · rw [hexec]
    intro d lent
    have hlent : lent = lentState x c mode d.1 := by
      cases mode with
      | peek => rfl
      | lend =>
        simp only [lent, lentState, chanOf_setChan_self]
    have howner := ownerFetch_of_queued (mode := mode) hheld0 (by rw [hchan]; exact hm) (by rw [hchan]; exact hw)
    have hadvisory : Advisory (lentState x c mode d.1) := advisory_lentState (advisory_deliver ha.restartKeepalive)
    have hsevere : (lentState x c mode d.1).severe = [] := by
      rw [lentState_severe, deliver_severe, restartKeepalive_severe, hr.severe]
    have hpresent : isPresent x (lentState x c mode d.1) = true := by
      rw [isPresent_lentState, isPresent_deliver, isPresent_restartKeepalive, hp]
    rw [hlent]
    rw [hchan] at howner
    refine congrArg Host.Outcome.next (runRequest_answered (check := fetchCheck)
      (owner := fun a t => ownerFetch x a.1 a.2 t) hr hp (fun _ => rfl) hcheck howner ?_ ?_)
    · exact (recordDamage_severe (c := c) (seq := m.seq) (hadvisory.at x)).trans hsevere
    · exact (isPresent_recordDamage x x m.seq d.2.2).trans hpresent

end Sys2Proof.Machine
end

section
/-!
PROOFS. A station with a SEVERE, reported fault kind whose peer has none: what an event's parts leave of that, and the
departure that ends the event (R132, R133, R152).
-/

namespace Sys2Proof.Machine

/-! ### A fault and the marks it leaves -/

/-- R152: a fault changes no report flag. -/
theorem recordFault_reported (y x : Station) (k j : FaultKind) (i : CaptureInfo) (s : State) :
    (KindRecords.get (unitOf y (recordFault x k i s)).faults.kinds j).reported =
      (KindRecords.get (unitOf y s).faults.kinds j).reported := by
  by_cases h : y = x
  · subst h
    have key : ∀ c, (KindRecords.get (KindRecords.set (unitOf y s).faults.kinds k
        { (KindRecords.get (unitOf y s).faults.kinds k) with count := c }) j).reported =
          (KindRecords.get (unitOf y s).faults.kinds j).reported := by
      intro c
      rw [KindRecords.get_set]
      split
      · subst j; rfl
      · rfl
    unfold recordFault
    simp only
    split
    · split
      · unfold markSevere
        split <;> simp [key]
      · simp [key]
    · simp [key]
  · rw [Station.eq_peer_of_ne h, unitOf_recordFault_peer]

theorem markSevere_severe (x : Station) (s : State) :
    (markSevere x s).severe = if s.severe.contains x then s.severe else s.severe ++ [x] := by
  unfold markSevere
  split <;> rfl

/-- R152 step 5: a fault marks its station or leaves the marks. -/
theorem recordFault_severe_cases (x : Station) (k : FaultKind) (i : CaptureInfo) (s : State) :
    (recordFault x k i s).severe = s.severe ∨ (recordFault x k i s).severe = (markSevere x s).severe := by
  unfold recordFault
  simp only
  split
  · split
    · exact .inr (by rw [markSevere_severe, markSevere_severe, offerFault_severe, setUnit_severe])
    · exact .inl (by rw [offerFault_severe, setUnit_severe])
  · exact .inl rfl

/-- R152 step 5: a reported, SEVERE fault of a PRESENT station marks it. -/
theorem recordFault_severe_marked {x : Station} {k : FaultKind} {s : State} (i : CaptureInfo)
    (hp : isPresent x s = true) (hr : (KindRecords.get (unitOf x s).faults.kinds k).reported = true)
    (hs : (KindRecords.get (unitOf x s).faults.kinds k).severity = .severe) :
    (recordFault x k i s).severe = (markSevere x s).severe := by
  unfold recordFault
  simp only [hr, hs, if_true]
  rw [isPresent_offerFault, isPresent_setUnit _ _ _ _ (by rfl), hp, if_pos (by rfl), markSevere_severe,
    markSevere_severe, offerFault_severe, setUnit_severe]

/-! ### The notice queue does not shrink -/

theorem length_le_countDrop (q : List Notice) : q.length ≤ (countDrop q).length := by
  unfold countDrop
  split
  · rw [List.length_map]
  · rw [List.length_append]; exact Nat.le_add_right _ _

theorem length_le_offerFate (n : Notice) (q : List Notice) : q.length ≤ (offerFate n q).queue.length := by
  unfold offerFate
  split
  · rw [OfferFate.queue, List.length_map]
  · split
    · exact length_le_countDrop q
    · rw [OfferFate.queue, List.length_append]; exact Nat.le_add_right _ _

theorem notices_setNotices (x : Station) (q : List Notice) (s : State) : (unitOf x (setNotices x q s)).notices = q := by
  rw [setNotices, unitOf_setUnit_self]

theorem length_notices_offerFault (x : Station) (k : FaultKind) (n : Nat) (s : State) :
    (unitOf x s).notices.length ≤ (unitOf x (offerFault x k n s)).notices.length := by
  unfold offerFault
  split
  · rw [notices_setNotices]; exact length_le_offerFate _ _
  · exact le_rfl

theorem length_notices_recordFault (x : Station) (k : FaultKind) (i : CaptureInfo) (s : State) :
    (unitOf x s).notices.length ≤ (unitOf x (recordFault x k i s)).notices.length := by
  have hmark : ∀ t, unitOf x (markSevere x t) = unitOf x t := fun t => by unfold markSevere; split <;> rfl
  have hset : ∀ u : StationUnit, u.notices = (unitOf x s).notices →
      (unitOf x s).notices.length ≤ (unitOf x (setUnit x u s)).notices.length := fun u hu => by
    rw [unitOf_setUnit_self, hu]
  unfold recordFault
  simp only
  split
  · split
    · rw [hmark]
      exact (hset _ (by rfl)).trans (length_notices_offerFault _ _ _ _)
    · exact (hset _ (by rfl)).trans (length_notices_offerFault _ _ _ _)
  · exact hset _ (by rfl)

/-! ### The station on the alert -/

/-- Station `x` is PRESENT, its fault kind `k` is reported and SEVERE, no kind of its peer is SEVERE, no station but `x`
is marked to depart, and `n` notices or more are pending. -/
structure Alert (x : Station) (k : FaultKind) (n : Nat) (s : State) : Prop where
  present : isPresent x s = true
  reported : (KindRecords.get (unitOf x s).faults.kinds k).reported = true
  severity : (KindRecords.get (unitOf x s).faults.kinds k).severity = .severe
  pending : n ≤ (unitOf x s).notices.length
  peer : AdvisoryAt x.peer s
  marks : s.severe = [] ∨ s.severe = [x]

namespace Alert

variable {x : Station} {k : FaultKind} {n : Nat} {s t : State}

/-- The station units and the marks alone count. -/
theorem of_units (h : Alert x k n s) (hu : t.units = s.units) (hs : t.severe = s.severe) : Alert x k n t := by
  have hunit : ∀ y, unitOf y t = unitOf y s := fun y => by rw [unitOf, hu, unitOf]
  exact ⟨by rw [isPresent, hunit]; exact h.present, by rw [hunit]; exact h.reported, by rw [hunit]; exact h.severity,
    by rw [hunit]; exact h.pending, AdvisoryAt.of_eq (by rw [hunit]) h.peer, by rw [hs]; exact h.marks⟩

/-- A unit with the same presence, the same fault record and as many notices. -/
theorem setUnit {y : Station} {u : StationUnit} (h : Alert x k n s)
    (hp : u.record.presence = (unitOf y s).record.presence) (hf : u.faults = (unitOf y s).faults)
    (hn : (unitOf y s).notices.length ≤ u.notices.length) : Alert x k n (setUnit y u s) := by
  have hfaults : ∀ z, (unitOf z (Machine.setUnit y u s)).faults = (unitOf z s).faults := fun z => by
    rw [unitOf_setUnit]
    split
    · subst z; exact hf
    · rfl
  refine ⟨by rw [isPresent_setUnit _ _ _ _ hp, h.present], by rw [hfaults, h.reported],
    by rw [hfaults, h.severity], ?_, AdvisoryAt.of_eq (by rw [hfaults]) h.peer, h.marks⟩
  rw [unitOf_setUnit]
  split
  · subst x; exact h.pending.trans hn
  · exact h.pending

/-- The peer's unit may change, but for its fault record. -/
theorem setPeer {u : StationUnit} (h : Alert x k n s) (hf : u.faults = (unitOf x.peer s).faults) :
    Alert x k n (Machine.setUnit x.peer u s) :=
  ⟨by rw [isPresent, unitOf_setUnit_of_peer]; exact h.present, by rw [unitOf_setUnit_of_peer]; exact h.reported,
    by rw [unitOf_setUnit_of_peer]; exact h.severity, by rw [unitOf_setUnit_of_peer]; exact h.pending,
    AdvisoryAt.of_eq (by rw [unitOf_setUnit_self, hf]) h.peer, h.marks⟩

/-- The station is marked, once. -/
theorem severe_markSevere (h : Alert x k n s) : (markSevere x s).severe = [x] := by
  rw [markSevere_severe]
  rcases h.marks with hm | hm <;> simp [hm]

theorem recordFault (h : Alert x k n s) (y : Station) (j : FaultKind) (i : CaptureInfo) :
    Alert x k n (recordFault y j i s) := by
  refine ⟨by rw [isPresent_recordFault, h.present], by rw [recordFault_reported, h.reported],
    by rw [recordFault_severity, h.severity], ?_,
    AdvisoryAt.of_severity fun j => by rw [recordFault_severity, h.peer.severity], ?_⟩
  · by_cases hy : x = y
    · subst hy; exact h.pending.trans (length_notices_recordFault _ _ _ _)
    · rw [Station.eq_peer_of_ne hy, unitOf_recordFault_peer, ← Station.eq_peer_of_ne hy]; exact h.pending
  · by_cases hy : y = x
    · subst hy
      rcases recordFault_severe_cases y j i s with hs | hs
      · rw [hs]; exact h.marks
      · exact .inr (hs.trans h.severe_markSevere)
    · rw [recordFault_severe (by rw [Station.eq_peer_of_ne hy]; exact h.peer)]; exact h.marks

/-- R152 step 5: a fault of this kind marks the station. -/
theorem severe_recordFault (h : Alert x k n s) (i : CaptureInfo) : (Machine.recordFault x k i s).severe = [x] :=
  (recordFault_severe_marked i h.present h.reported h.severity).trans h.severe_markSevere

theorem setNotices {q : List Notice} (y : Station) (h : Alert x k n s) (hq : (unitOf y s).notices.length ≤ q.length) :
    Alert x k n (setNotices y q s) := h.setUnit (by rfl) (by rfl) hq

theorem offer (h : Alert x k n s) (y : Station) (m : Notice) : Alert x k n (offer y m s) := by
  have hset := h.setNotices y (length_le_offerFate m (unitOf y s).notices)
  unfold Machine.offer
  simp only
  split
  · split
    · exact hset.recordFault _ _ _
    · exact hset
  · exact h

/-- R110: with 23 entries pending, none of which an offer joins, the offer is dropped, and the NOTICE_LOSS fault marks
the station. -/
theorem severe_offer {m : Notice} (h : Alert x .noticeLoss 23 s)
    (hm : ∀ p ∈ (unitOf x s).notices, Notice.coalesces m p = false) : (Machine.offer x m s).severe = [x] := by
  have hany : (unitOf x s).notices.any (Notice.coalesces m) = false := by
    rw [List.any_eq_false]
    exact fun p hp => by rw [hm p hp]; exact Bool.false_ne_true
  have hfate : offerFate m (unitOf x s).notices = .dropped (countDrop (unitOf x s).notices) := by
    have hfull : Config.regularPlaces ≤ (unitOf x s).notices.length := h.pending
    simp only [offerFate, hany, Bool.false_eq_true, if_false, decide_eq_true hfull, Bool.or_true, if_true]
  unfold Machine.offer
  simp only [h.present, if_true, hfate, OfferFate.isDropped, OfferFate.queue]
  exact (h.setNotices x (length_le_countDrop _)).severe_recordFault _

/-! ### A departure's steps -/

theorem evalCongestion (h : Alert x k n s) (c : Fin 8) : Alert x k n (evalCongestion c s) := by
  rcases evalCongestion_cases c s with hc | ⟨v, hc | ⟨y, hc⟩⟩ <;> rw [hc]
  · exact h
  · exact h.of_units (by rfl) (by rfl)
  · exact (h.of_units (t := setChan c _ s) (by rfl) (by rfl)).offer y _

theorem dropStaging (h : Alert x k n s) (y : Station) (r : Staging) : Alert x k n (dropStaging y r s) := by
  rw [dropStaging_frame]
  exact (h.of_units (t := setChan r.channel _ (setStore _ s)) (by rfl) (by rfl)).setUnit (by rfl) (by rfl) le_rfl

theorem abandonStaging (h : Alert x k n s) (y : Station) (r : Staging) : Alert x k n (abandonStaging y r s) :=
  (h.dropStaging y r).evalCongestion r.channel

theorem departStaging (h : Alert x k n s) (y : Station) : Alert x k n (departStaging y s) :=
  departStaging_induction y s (fun r _ _ ht => ht.abandonStaging y r) (fun h => h.of_units (by rfl) (by rfl)) h

/-- R17 with a cause other than LEFT: the ends become dormant and no offer is made. -/
theorem departEnds (h : Alert x k n s) (y : Station) {cause : Cause} (hc : cause ≠ .left) :
    Alert x k n (departEnds y cause s) := by
  unfold Machine.departEnds
  split
  · exact absurd rfl hc
  · exact foldl_keeps _ (fun c _ t ht => ht.of_units (by rfl) (by rfl)) h

theorem expireWaiter (h : Alert x k n s) (e : Fin 16) (w : Waiter) : Alert x k n (expireWaiter e w s) :=
  (h.of_units (t := lowerWaitCount w.station s) (by rfl) (by rfl)).offer _ _

theorem setLease (h : Alert x k n s) (e : Fin 16) (l : LeaseEntry) : Alert x k n (setLease e l s) :=
  h.of_units (by rfl) (by rfl)

theorem handOn (h : Alert x k n s) (e : Fin 16) : Alert x k n (handOn e s) := by
  unfold Machine.handOn
  simp only
  split
  · exact h.setLease e _
  · split
    · exact foldl_keeps _ (fun w _ _ ht => ht.expireWaiter e w) (h.setLease e _)
    · exact (h.of_units (t := lowerWaitCount _ (Machine.setLease e _ s)) (by rfl) (by rfl)).offer _ _

theorem revokeOn (h : Alert x k n s) (y : Station) (e : Fin 16) : Alert x k n (revokeOn y e s) := by
  unfold Machine.revokeOn
  split
  · exact (h.setLease e _).handOn e
  · exact h

theorem departLeases (h : Alert x k n s) (y : Station) : Alert x k n (departLeases y s) := by
  have removed : Alert x k n (allEntries.foldl (fun t e => removeWaits y e t) s) :=
    foldl_keeps _ (fun e _ t ht => ht.setLease e _) h
  exact foldl_keeps _ (fun e _ t ht => ht.revokeOn y e)
    (removed.of_units (t := setWaitCount y 0 (allEntries.foldl (fun t e => removeWaits y e t) s)) (by rfl) (by rfl))

theorem setLink (h : Alert x k n s) (y : Station) (l : LinkInterface) : Alert x k n (setLink y l s) :=
  h.of_units (by rfl) (by rfl)

theorem stopDraw (h : Alert x k n s) (y : Station) : Alert x k n (stopDraw y s) :=
  (h.setLink y _).setUnit (by rfl) (by rfl) le_rfl

theorem setSevere {l : List Station} (h : Alert x k n s) (hl : l = [] ∨ l = [x]) : Alert x k n (setSevere l s) :=
  ⟨h.present, h.reported, h.severity, h.pending, h.peer, hl⟩

theorem departOwners (h : Alert x k n s) (y : Station) {cause : Cause} (hc : cause ≠ .left) :
    Alert x k n (departOwners y cause s) :=
  (((h.stopDraw y).departStaging y).departEnds y hc).departLeases y

/-- R132: the departure of the marked station leaves none to depart. -/
theorem severe_depart (h : Alert x k n s) {cause : Cause} (hc : cause ≠ .left) : (depart x cause s).severe = [] := by
  have owners := h.departOwners x hc
  have hpeer : AdvisoryAt x.peer (departed x cause s) :=
    AdvisoryAt.of_eq (s := Machine.departOwners x cause s) (by
      rw [departed, clearedState, unitOf_setSevere, unitOf_setUnit_peer]) owners.peer
  rw [depart_eq_offer, offer_severe hpeer, departed, clearedState, setSevere_severe]
  rcases owners.marks with hm | hm <;> simp [hm]

/-- R133: the departure of the peer reaches the station as its PEER_DEPARTED offer. -/
theorem departedPeer (h : Alert x k n s) {cause : Cause} (hc : cause ≠ .left) :
    Alert x k n (departed x.peer cause s) := by
  have owners := h.departOwners x.peer hc
  have cleared : Alert x k n (Machine.setUnit x.peer
      (clearUnit cause (unitOf x.peer (Machine.departOwners x.peer cause s))) (Machine.departOwners x.peer cause s)) := owners.setPeer (by rfl)
  rw [departed, clearedState]
  refine cleared.setSevere ?_
  rcases owners.marks with hm | hm
  · exact .inl (by rw [hm]; rfl)
  · exact .inr (by rw [hm]; cases x <;> rfl)

/-! ### The event's end -/

/-- R132: the marked station departs with cause FAULT and no other does. -/
theorem settle_marked (h : Alert x k n s) (hm : s.severe = [x]) : settle s = depart x .fault s :=
  settle_one hm h.present (h.severe_depart (by decide))

theorem runEvent_marked {event : State → State} (hs : s.phase = .running) (h : Alert x k n (event s))
    (hm : (event s).severe = [x]) : runEvent event s = depart x .fault (event s) := by
  unfold runEvent isRunning
  rw [hs, h.settle_marked hm]
  rfl

end Alert

end Sys2Proof.Machine
end

section
/-!
PROOFS. SEVERE faults of a frame, of an unknown kind, of a staging record and of the notice queue (R110, R132, R139 to
R142, R152).
-/

namespace Sys2Proof.Machine

/-- R146, R152: the reply to a request whose handling marks the station is handed over and not cached. -/
theorem finishReply_marked {x : Station} {s : State} (hm : s.severe = [x]) (f : Frame) (r : OutFrame) :
    finishReply x f r s = transmit x r false s := by
  simp [finishReply, hm]

namespace Alert

variable {x : Station} {k : FaultKind} {n : Nat} {s t : State}

/-- Where no pending notice counts, presence, fault records and marks are all that does. -/
theorem of_faults (h : Alert x k n s) (hp : isPresent x t = isPresent x s)
    (hf : ∀ y, (unitOf y t).faults = (unitOf y s).faults) (hs : t.severe = s.severe) : Alert x k 0 t :=
  ⟨hp.trans h.present, by rw [hf, h.reported], by rw [hf, h.severity], Nat.zero_le _,
    AdvisoryAt.of_eq (by rw [hf]) h.peer, by rw [hs]; exact h.marks⟩

theorem restartKeepalive (h : Alert x k n s) (y : Station) : Alert x k n (restartKeepalive y s) := by
  rw [restartKeepalive_frame]
  exact h.setUnit (by rw [← restartKeepalive_presence y y s, restartKeepalive_frame]) (by rfl) le_rfl

theorem transmit (h : Alert x k n s) (y : Station) (f : OutFrame) (d : Bool) : Alert x k n (transmit y f d s) :=
  h.setLink y _

/-- R132, R148: a request whose owner's answer marks the station. -/
theorem runRequest_marked {α : Type} {f : Frame} {handler : Frame → State → State}
    {check : List Byte → Except Status α} {owner : α → State → Handled} {a : α} {status : Status}
    {fieldBytes : List Byte} (hr : Ready x f s) (hp : isPresent x s = true)
    (hh : ∀ t, handler f t = handleKnown x f check owner t) (hc : check f.payload = .ok a)
    (ho : owner a (Machine.restartKeepalive x s) = .reply t status fieldBytes) (ht : Alert x k n t)
    (hm : t.severe = [x]) :
    runRequest x f handler s = depart x .fault (Machine.transmit x (replyFrame f status fieldBytes) false t) := by
  have handled : handler f (Machine.restartKeepalive x s) =
      Machine.transmit x (replyFrame f status fieldBytes) false t := by
    rw [hh]
    unfold handleKnown dispatch
    simp [hr.2, hp, hc, ho, finishReply_marked hm]
  rw [runRequest_taken hr.1, handled, (ht.transmit x _ false).settle_marked hm]

end Alert

/-! ### Frames -/

section Frames

variable {x : Station} {s : State}

/-- R128: the timer of a PRESENT station with K above 0. -/
theorem restartKeepalive_of_timed (h : (isPresent x s && (unitOf x s).record.period != 0) = true) :
    restartKeepalive x s =
      setUnit x { unitOf x s with
        record := { (unitOf x s).record with keepaliveTimer := some (unitOf x s).record.period } } s := if_pos h

theorem restartKeepalive_of_untimed (h : ¬((isPresent x s && (unitOf x s).record.period != 0) = true)) :
    restartKeepalive x s = s := if_neg h

theorem restartKeepalive_setLink (x y : Station) (l : LinkInterface) (s : State) :
    restartKeepalive x (setLink y l s) = setLink y l (restartKeepalive x s) := by
  by_cases h : (isPresent x s && (unitOf x s).record.period != 0) = true
  · have hl : (isPresent x (setLink y l s) && (unitOf x (setLink y l s)).record.period != 0) = true := h
    rw [restartKeepalive_of_timed hl, restartKeepalive_of_timed h]
    rfl
  · have hl : ¬((isPresent x (setLink y l s) && (unitOf x (setLink y l s)).record.period != 0) = true) := h
    rw [restartKeepalive_of_untimed hl, restartKeepalive_of_untimed h]

/-- R141: the receiver after a complete frame. -/
def receivedFrame (x : Station) (rx : LinkInterface) (time : Word) (s : State) : State :=
  setLink x { rx with rx := { state := .hunt, lastCharacter := time, inBreak := false } } s

theorem enterState_setRx (hb : (linkOf x s).rx.inBreak = false) :
    enterState x .hunt (setRx x { (linkOf x s).rx with lastCharacter := s.timeBase } s) =
      receivedFrame x (linkOf x s) s.timeBase s := by
  simp [enterState, setRx, receivedFrame, hb]

/-- R141: a frame that arrives whole. -/
theorem frameArrives_eq {kind tag : Byte} {payload : List Byte} {crc : Half} (hb : (linkOf x s).rx.inBreak = false)
    (hlen : payload.length ≤ 64) :
    frameArrives x (kind :: tag :: payload) crc s =
      if crc = crc16 (byteOf (payload.length + 2) :: kind :: tag :: payload) then
        goodFrame x { kind := kind, tag := tag, payload := payload, crc := crc }
          (receivedFrame x (linkOf x s) s.timeBase s)
      else
        recordFault x .crc (.header (byteOf (payload.length + 2) :: kind :: tag :: payload.take 4))
          (receivedFrame x (linkOf x s) s.timeBase s) := by
  have hfit : 2 ≤ (kind :: tag :: payload).length ∧ (kind :: tag :: payload).length ≤ 66 := by
    simp only [List.length_cons]
    omega
  have hopen : ¬((linkOf x s).rx.inBreak = true) := by rw [hb]; exact Bool.false_ne_true
  rw [frameArrives, if_neg hopen]
  simp only
  rw [if_pos hfit]
  simp only [completeFrame, enterState_setRx hb]
  rfl

/-- R142: a good frame that finds the input queue full and stops no draw. -/
theorem goodFrame_overrun {f : Frame} (hq : 4 ≤ (linkOf x s).inQueue.length) (hn : ¬HaltActs x f s) :
    goodFrame x f (receivedFrame x (linkOf x s) s.timeBase s) =
      recordFault x .overrun (.header (headerBytes f))
        (receivedFrame x (linkOf x s) s.timeBase (restartKeepalive x s)) := by
  have hrestart : restartKeepalive x (receivedFrame x (linkOf x s) s.timeBase s) =
      receivedFrame x (linkOf x s) s.timeBase (restartKeepalive x s) := restartKeepalive_setLink x x _ s
  have hhalt : haltTarget x f (receivedFrame x (linkOf x s) s.timeBase (restartKeepalive x s)) = none := by
    have hdraw : (unitOf x (receivedFrame x (linkOf x s) s.timeBase (restartKeepalive x s))).draw = (unitOf x s).draw :=
      restartKeepalive_draw x x s
    have hcache : cacheMatch x f (receivedFrame x (linkOf x s) s.timeBase (restartKeepalive x s)) = cacheMatch x f s :=
      cacheMatch_restartKeepalive x x f s
    rw [haltTarget_eq_none, HaltActs, hdraw, hcache]
    exact hn
  have hfull : ¬((linkOf x (receivedFrame x (linkOf x s) s.timeBase (restartKeepalive x s))).inQueue.length <
      Config.inputFrames) := by
    rw [receivedFrame, linkOf_setLink_self]
    exact Nat.not_lt.mpr hq
  simp only [goodFrame, hrestart, hhalt, joinQueue, if_neg hfull]

/-- R138, R140: a frame in reception is dropped. -/
theorem abortFrame_of_frame (hb : (linkOf x s).rx.inBreak = false) (hs : (linkOf x s).rx.state ≠ .hunt) :
    abortFrame x s = dropFrame x (receivedHeader (linkOf x s).rx.state) s := by
  simp only [abortFrame, hb, Bool.false_eq_true, if_false, if_neg hs]

theorem Alert.dropFrame_marked {n : Nat} (h : Alert x .framing n s) (hs : s.phase = .running) {header : List Byte}
    (hd : abortFrame x s = dropFrame x header s) :
    runEvent (abortFrame x) s = depart x .fault (dropFrame x header s) := by
  have hset : Alert x .framing n (enterState x .hunt s) := h.setLink x _
  rw [← hd]
  refine Alert.runEvent_marked (k := .framing) (n := n) hs ?_ ?_
  · rw [hd]; exact hset.recordFault _ _ _
  · rw [hd]; exact hset.severe_recordFault _

end Frames

/-! ### Unknown kinds -/

theorem handleFrame_unknown {x : Station} {f : Frame} {s : State} (hk : knownKind f.kind = false) :
    handleFrame x f s = handleUnknown x f s := by
  have hn : ∀ k ∈ requestKinds, f.kind ≠ k := fun k hmem he => by
    rw [knownKind, he, List.contains_iff_mem.mpr hmem] at hk
    exact Bool.noConfusion hk
  simp only [requestKinds, List.mem_cons, List.not_mem_nil, or_false, forall_eq_or_imp, forall_eq] at hn
  simp only [handleFrame, hn, if_false]

/-- R148 step 2: the fault of an unknown kind marks the station; the reply is handed over and not cached. -/
theorem Alert.unknownKind_marked {x : Station} {n : Nat} {f : Frame} {s : State} (h : Alert x .unknownKind n s)
    (hr : Ready x f s) (hk : knownKind f.kind = false) :
    runRequest x f (handleFrame x) s =
      depart x .fault
        (Machine.transmit x { kind := 0xFE, tag := f.tag, payload := [0x03, f.kind] } false
          (Machine.recordFault x .unknownKind (.header (headerBytes f)) (Machine.restartKeepalive x s))) := by
  have hrestart := h.restartKeepalive x
  have hfault := hrestart.recordFault x .unknownKind (.header (headerBytes f))
  have hmark := hrestart.severe_recordFault (.header (headerBytes f))
  have hmiss : cacheMatch x f (Machine.restartKeepalive x s) = none := by
    rw [cacheMatch_restartKeepalive]; exact hr.2
  have handled : handleFrame x f (Machine.restartKeepalive x s) =
      Machine.transmit x { kind := 0xFE, tag := f.tag, payload := [0x03, f.kind] } false
        (Machine.recordFault x .unknownKind (.header (headerBytes f)) (Machine.restartKeepalive x s)) := by
    rw [handleFrame_unknown hk]
    simp only [handleUnknown, hmiss, refuseRequest, finishReply_marked hmark]
    rfl
  rw [runRequest_taken hr.1, handled, (hfault.transmit x _ false).settle_marked hmark]

/-! ### Staging records -/

/-- R50: the fault of an expired staging record marks the station. -/
theorem Alert.expireStaging_marked {x : Station} {n : Nat} {c : Fin 8} {v : Staging} {s : State}
    (h : Alert x .stagingExpired n s) (hs : s.phase = .running) (hv : stagingOn x c s = some v) (h0 : v.timer = 0) :
    runEvent (expireStaging x c) s =
      depart x .fault
        (Machine.recordFault x .stagingExpired (.staging c v.received v.total)
          (Machine.offer x (.stagingExpired c v.received v.total) (Machine.abandonStaging x v s))) := by
  have hoffer := (h.abandonStaging x v).offer x (.stagingExpired c v.received v.total)
  have hexpire := expireStaging_of_zero hv h0
  rw [← hexpire]
  refine Alert.runEvent_marked (k := .stagingExpired) (n := n) hs ?_ ?_
  · rw [hexpire]; exact hoffer.recordFault _ _ _
  · rw [hexpire]; exact hoffer.severe_recordFault _

/-! ### Dropped notices -/

section Loss

variable {x : Station} {s : State}

/-- R101: the expiry of the wait of one waiter. -/
theorem expireWait_of_zero {e : Fin 16} {client : Fin 8} {before after : List Waiter} {w : Waiter}
    (hw : (leaseOf e s).waiters = before ++ w :: after) (hone : (before ++ after).any (isWaiter x client) = false)
    (hx : w.station = x) (hc : w.client = client) (h0 : w.wait = 0) :
    expireWait e x client s =
      offer x (.leaseWaitExpired e client)
        (setWaitCount x (s.waitCounts.get x - 1)
          (setLease e { leaseOf e s with waiters := before ++ after } s)) := by
  have hself : isWaiter x client w = true := by simp [isWaiter, hx, hc]
  have hdue : ((leaseOf e s).waiters.any fun v => isWaiter x client v && v.wait == 0) = true := by
    rw [hw, List.any_append, List.any_cons, hself, h0]
    simp
  have hkeep : ∀ l : List Waiter, l.any (isWaiter x client) = false →
      (l.filter fun v => !(isWaiter x client v)) = l := fun l hl => by
    rw [List.filter_eq_self]
    intro v hv
    rw [List.any_eq_false] at hl
    simpa using hl v hv
  have hrest : ((leaseOf e s).waiters.filter fun v => !(isWaiter x client v)) = before ++ after := by
    rw [List.any_append, Bool.or_eq_false_iff] at hone
    rw [hw, List.filter_append, List.filter_cons_of_neg (by rw [hself]; exact Bool.false_ne_true), hkeep _ hone.1,
      hkeep _ hone.2]
  simp only [expireWait, hdue, if_true, removeWaiter, hrest]
  rfl

theorem coalesces_leaseWaitExpired (e : Fin 16) (client : Fin 8) (p : Notice) :
    Notice.coalesces (.leaseWaitExpired e client) p = false := by cases p <;> rfl

theorem coalesces_peerDeparted (cause : Cause) (epoch : Half) (p : Notice) :
    Notice.coalesces (.peerDeparted cause epoch) p = false := by cases p <;> rfl

/-- R109: SIGNALS_PENDING joins itself alone. -/
theorem coalesces_signalsPending {p : Notice} (h : p ≠ .signalsPending) :
    Notice.coalesces .signalsPending p = false := by
  cases p with
  | signalsPending => exact absurd rfl h
  | _ => rfl

/-- R109: a FLOW joins the FLOW of its channel alone. -/
theorem coalesces_flow {c : Fin 8} {v : Bool} {o : Nat} {p : Notice} (h : ∀ w m, p ≠ .flow c w m) :
    Notice.coalesces (.flow c v o) p = false := by
  cases p with
  | flow d w m =>
    rw [Notice.coalesces, beq_eq_false_iff_ne]
    exact fun he => h w m (by rw [he])
  | _ => rfl

/-- R130: the lapse of the peer, whose PEER_DEPARTED offer is dropped. -/
theorem Alert.lapse_marked (h : Alert x .noticeLoss 23 s) (hs : s.phase = .running)
    (hp : isPresent x.peer s = true) (h0 : (unitOf x.peer s).record.keepaliveTimer = some 0) :
    runEvent (lapseKeepalive x.peer) s = depart x .fault (depart x.peer .lapsed s) := by
  have hlapse : lapseKeepalive x.peer s = depart x.peer .lapsed s := by simp [lapseKeepalive, hp, h0]
  have hpeer : x.peer.peer = x := by cases x <;> rfl
  have hdeparted := h.departedPeer (cause := .lapsed) (by decide)
  have hdepart : depart x.peer .lapsed s =
      Machine.offer x (.peerDeparted .lapsed (unitOf x.peer s).record.epoch) (departed x.peer .lapsed s) := by
    rw [depart_eq_offer, hpeer]
  rw [← hlapse]
  refine Alert.runEvent_marked (k := .noticeLoss) (n := 23) hs ?_ ?_
  · rw [hlapse, hdepart]; exact hdeparted.offer _ _
  · rw [hlapse, hdepart]; exact hdeparted.severe_offer fun p _ => coalesces_peerDeparted _ _ p

/-- R101: the expiry of a wait, whose LEASE_WAIT_EXPIRED offer is dropped. -/
theorem Alert.expireWait_marked (h : Alert x .noticeLoss 23 s) (hs : s.phase = .running) {e : Fin 16} {client : Fin 8}
    {t : State} (ht : t.units = s.units) (hm : t.severe = s.severe)
    (he : expireWait e x client s = Machine.offer x (.leaseWaitExpired e client) t) :
    runEvent (expireWait e x client) s = depart x .fault (Machine.offer x (.leaseWaitExpired e client) t) := by
  have alert := h.of_units ht hm
  rw [← he]
  refine Alert.runEvent_marked (k := .noticeLoss) (n := 23) hs ?_ ?_
  · rw [he]; exact alert.offer _ _
  · rw [he]; exact alert.severe_offer fun p _ => coalesces_leaseWaitExpired _ _ p

end Loss

/-! ### A dropped SIGNALS_PENDING -/

section Mask

variable {x : Station} {s : State} {flags : Half} {g : SignalSet}

theorem getLsbD_foldl_flags (test : Nat → Bool) (l : List Nat) (hl : ∀ f ∈ l, f < 16) (w : Half) (i : Nat) :
    (l.foldl (fun w f => if test f then w ||| (1#16 <<< f) else w) w).getLsbD i =
      (w.getLsbD i || (l.contains i && test i)) := by
  induction l generalizing w with
  | nil => simp
  | cons f l ih =>
    have hf : f < 16 := hl f (.head _)
    have hbit : (1#16 <<< f).getLsbD i = decide (i = f) := by
      rw [← BitVec.twoPow_eq, BitVec.getLsbD_twoPow]
      by_cases hi : i = f
      · simp [hi, hf]
      · simp [hi, Ne.symm hi]
    rw [List.foldl_cons, ih fun g hg => hl g (.tail _ hg)]
    by_cases ht : test f = true
    · rw [if_pos ht, BitVec.getLsbD_or, hbit, List.contains_cons]
      by_cases hi : i = f
      · subst hi; simp [ht]
      · rw [decide_eq_false hi, beq_eq_false_iff_ne.mpr hi, Bool.or_false, Bool.false_or]
    · rw [if_neg ht, List.contains_cons]
      by_cases hi : i = f
      · subst hi; simp [ht]
      · rw [beq_eq_false_iff_ne.mpr hi, Bool.false_or]

/-- The flags of a flag set are those that the test holds for. -/
theorem getLsbD_flagSet (test : Nat → Bool) {i : Nat} (hi : i < 16) : (flagSet test).getLsbD i = test i := by
  have hmem : (List.range 16).contains i = true := List.contains_iff_mem.mpr (List.mem_range.mpr hi)
  rw [flagSet, getLsbD_foldl_flags test _ (fun f hf => List.mem_range.mp hf), hmem, Bool.true_and]
  exact congrArg (· || test i) BitVec.getLsbD_zero

theorem signalCount_eq (g : SignalSet) (i : Fin 16) : signalCount g i.val = g.counts[i] := by
  rw [signalCount, List.getD_eq_getElem _ _ (by simp)]
  simp

theorem flagsCheck_halfBytes (w : Half) : flagsCheck (halfBytes w) = .ok w := congrArg Except.ok (halfOf_extract w)

/-- R121: a flag whose mask bit falls has a non-zero count. -/
theorem newlyPending_of_flag {i : Fin 16} (hm : g.mask.getLsbD i.val = true) (hf : flags.getLsbD i.val = false)
    (hc : g.counts[i] ≠ 0) : newlyPending flags g = true := by
  rw [newlyPending, List.any_eq_true]
  refine ⟨i.val, List.mem_range.mpr i.isLt, ?_⟩
  rw [signalCount_eq, named, named, hm, hf]
  simpa using hc

/-- R110, R121: a MASK whose SIGNALS_PENDING offer is dropped. -/
theorem Alert.mask_marked {tag : Byte} (h : Alert x .noticeLoss 23 s)
    (hr : Ready x (requestFrame 0x15 tag (halfBytes flags)) s) (hq : .signalsPending ∉ (unitOf x s).notices)
    (hn : newlyPending flags (unitOf x s).signals = true) :
    exec (.mask x tag (halfBytes flags)) s =
      .next (depart x .fault
        (Machine.transmit x
          (replyFrame (requestFrame 0x15 tag (halfBytes flags)) .ok
            (halfBytes flags ++ halfBytes (nonZeroFlags (unitOf x s).signals))) false
          (Machine.offer x .signalsPending
            (Machine.setUnit x
              { unitOf x (Machine.restartKeepalive x s) with signals := { (unitOf x s).signals with mask := flags } }
              (Machine.restartKeepalive x s))))) := by
  have masked : Alert x .noticeLoss 23 (Machine.setUnit x
      { unitOf x (Machine.restartKeepalive x s) with signals := { (unitOf x s).signals with mask := flags } }
      (Machine.restartKeepalive x s)) := (h.restartKeepalive x).setUnit (by rfl) (by rfl) le_rfl
  have hnotices : ∀ p ∈ (unitOf x (Machine.setUnit x
      { unitOf x (Machine.restartKeepalive x s) with signals := { (unitOf x s).signals with mask := flags } }
      (Machine.restartKeepalive x s))).notices, p ∈ (unitOf x s).notices := fun p hp => by
    rw [unitOf_setUnit_self] at hp
    rwa [← restartKeepalive_notices x x s]
  refine congrArg Host.Outcome.next (Alert.runRequest_marked (check := flagsCheck) (owner := ownerMask x) hr h.present
    (fun _ => rfl) (flagsCheck_halfBytes flags) ?_ (masked.offer x .signalsPending)
    (masked.severe_offer fun p hp => coalesces_signalsPending fun he => hq (he ▸ hnotices p hp)))
  simp only [ownerMask, applyMask, restartKeepalive_signals, hn, if_true, setSignals]

end Mask

/-! ### A dropped FLOW -/

theorem offerFlow_of_active {y : Station} {c : Fin 8} {v : Bool} {s : State}
    (h : activeHolder (chanOf c s).sender = some y) :
    offerFlow c v s = offer y (.flow c v (occupancy (chanOf c s))) s := by
  simp only [offerFlow, h]

/-- R20, R47: an abandonment that ends congestion, whose FLOW offer is dropped. -/
theorem Alert.severe_abandonStaging {x : Station} {s : State} {v : Staging} {p : Params} (h : Alert x .noticeLoss 23 s)
    (hheld : holdsActive x (chanOf v.channel s).sender = true) (hp : (chanOf v.channel s).params = some p)
    (hc : (chanOf v.channel s).congested = true) (hlow : (chanOf v.channel s).queue.length ≤ p.low)
    (hq : ∀ w o, .flow v.channel w o ∉ (unitOf x s).notices) : (Machine.abandonStaging x v s).severe = [x] := by
  have hchan : chanOf v.channel (Machine.dropStaging x v s) = withoutStaging (some v) (chanOf v.channel s) := by
    rw [dropStaging_frame, chanOf_setUnit, chanOf_setChan_self]
  have hflip : congestionFlip p (occupancy (chanOf v.channel (Machine.dropStaging x v s)))
      (chanOf v.channel (Machine.dropStaging x v s)).congested = some false := by
    rw [hchan]
    simp [congestionFlip, occupancy, hc, hlow]
  have hactive : activeHolder (chanOf v.channel s).sender = some x := by
    have hdormant := (Bool.and_eq_true_iff.mp hheld).2
    rw [Bool.not_eq_true'] at hdormant
    rw [activeHolder, hdormant, holder_of_holdsActive hheld]
    rfl
  rw [Machine.abandonStaging, evalCongestion_of_flip (by rw [hchan]; exact hp) hflip,
    offerFlow_of_active (y := x) (by rw [chanOf_setChan_self, hchan]; exact hactive)]
  have flipped : ∀ ch, Alert x .noticeLoss 23 (setChan v.channel ch (Machine.dropStaging x v s)) := fun ch =>
    (h.dropStaging x v).of_units (by rfl) (by rfl)
  refine (flipped _).severe_offer fun n hn => coalesces_flow ?_
  rw [unitOf_setChan, dropStaging_frame, unitOf_setUnit_self] at hn
  exact fun w m he => hq w m (he ▸ hn)

end Sys2Proof.Machine
end

section
/-!
PROOFS. SEVERE faults of a delivery: FETCH, READ and the items of a draw (R32, R77, R78, R132), and the statement about
SEVERE faults settled.
-/

namespace Sys2Proof.Machine

/-! ### A delivery with a double-bit error -/

section Delivery

variable {x : Station} {c : Fin 8} {mode : DeliveryMode} {s : State}

/-- R32, R56: the state after a delivery that found a double-bit error, from the state after its reads. -/
def handedState (x : Station) (c : Fin 8) (mode : DeliveryMode) (seq : Half) (t : State) : State :=
  recordFault x .damagedDelivery (.delivery c seq) (lentState x c mode t)

theorem Alert.deliver {k : FaultKind} {n : Nat} (h : Alert x k n s) (c : Fin 8) (m : Message) (off len : Nat) :
    Alert x k 0 (deliver c m off len s).1 :=
  h.of_faults (isPresent_deliver x) (fun y => by rw [unitOf_deliver]) deliver_severe

theorem Alert.lentState {k : FaultKind} {n : Nat} (h : Alert x k n s) (c : Fin 8) (mode : DeliveryMode) :
    Alert x k 0 (lentState x c mode s) :=
  h.of_faults (isPresent_lentState x) faults_lentState lentState_severe

theorem Alert.handed {n : Nat} (h : Alert x .damagedDelivery n s) (c : Fin 8) (mode : DeliveryMode) (seq : Half) :
    Alert x .damagedDelivery 0 (handedState x c mode seq s) := (h.lentState c mode).recordFault _ _ _

theorem Alert.severe_handed {n : Nat} (h : Alert x .damagedDelivery n s) (c : Fin 8) (mode : DeliveryMode)
    (seq : Half) : (handedState x c mode seq s).severe = [x] := (h.lentState c mode).severe_recordFault _

/-- R32, R58: a FETCH that finds a double-bit error. -/
theorem ownerFetch_of_damaged {m : Message} (h : holdsActive x (chanOf c s).receiver = true)
    (hm : (chanOf c s).queue.find? isQueued = some m) (hw : mode = .peek ∨ lentCount (chanOf c s) < 8)
    (hd : (deliver c m 0 (min 56 m.length) s).2.2 = true) :
    ownerFetch x c mode s =
      .reply (handedState x c mode m.seq (deliver c m 0 (min 56 m.length) s).1) .ok
        (halfBytes m.seq ++ natBytes2 m.length ++
          [messageFlags m.redelivered true false, byteOf (queuedAfter mode (chanOf c s))] ++
            (deliver c m 0 (min 56 m.length) s).2.1) := by
  rw [ownerFetch_of_queued h hm hw, hd, Bool.or_true]
  rfl

/-! ### READ -/

theorem readCheck_bytes (c : Fin 8) (seq : Half) {offset : Half} (h : offset.toNat ≤ 512) :
    readCheck ([byteOf c.val] ++ halfBytes seq ++ halfBytes offset) =
      .ok { channel := c, seq := seq, offset := offset.toNat } := by
  have hoffset : offset.toNat ≤ Config.maxMessage := h
  simp [readCheck, halfBytes, channelField_byteOf, halfOf_extract, fields, hoffset]

/-- R32, R62: a READ that finds a double-bit error. -/
theorem ownerRead_of_damaged {seq : Half} {offset : Nat} {m : Message} (h : holdsActive x (chanOf c s).receiver = true)
    (hm : (chanOf c s).queue.find? (fun m => isLent m && m.seq == seq) = some m) (hfit : offset ≤ m.length)
    (hd : (deliver c m offset (min 58 (m.length - offset)) s).2.2 = true) :
    ownerRead x { channel := c, seq := seq, offset := offset } s =
      .reply
        (recordFault x .damagedDelivery (.delivery c seq) (deliver c m offset (min 58 (m.length - offset)) s).1) .ok
        (halfBytes seq ++ natBytes2 offset ++ [messageFlags m.redelivered true false] ++
          (deliver c m offset (min 58 (m.length - offset)) s).2.1) := by
  have hseq : m.seq = seq := by
    have hfound := (Bool.and_eq_true_iff.mp (List.find?_some (p := fun m => isLent m && m.seq == seq) hm)).2
    exact beq_iff_eq.mp hfound
  have hlent : lentMessage seq (chanOf c s) = some m := hm
  have hread : ownerRead x { channel := c, seq := seq, offset := offset } s =
      readMessage x { channel := c, seq := seq, offset := offset } m s := by
    simp only [ownerRead, if_pos h, hlent, if_neg (Nat.not_lt.mpr hfit)]
  have hflag : ∀ b, b = true → recordDamage x c m.seq b (deliver c m offset (min 58 (m.length - offset)) s).1 =
      recordFault x .damagedDelivery (.delivery c m.seq) (deliver c m offset (min 58 (m.length - offset)) s).1 :=
    fun b hb => if_pos hb
  rw [hread, ← hseq, ← hflag _ hd]
  conv_rhs => rw [← Bool.or_true m.damaged, ← hd]
  rfl

/-! ### The items of a draw -/

/-- R76: the messages among which a pick looks. -/
def pickQueue (d : Draw) (ch : Channel) : List Message :=
  match d.mode, d.cursor with
  | .peek, some n => (ch.queue.dropWhile fun m => m.seq != n).drop 1
  | _, _ => ch.queue

/-- R76: the candidate of a pick. -/
theorem candidate_of_find {d : Draw} {ch : Channel} {m : Message} (hm : (pickQueue d ch).find? isQueued = some m)
    (hw : d.mode = .peek ∨ lentCount ch < 8) : candidate d ch = .ok m := by
  obtain ⟨_, _, _, mode, _, _, cursor, _, _, _⟩ := d
  cases mode with
  | lend =>
    have hopen : ¬(Config.lendWindow ≤ lentCount ch) := by
      rcases hw with hw | hw
      · cases hw
      · exact Nat.not_le.mpr hw
    simp only [candidate, pickQueue] at hm ⊢
    rw [hm]
    exact if_neg hopen
  | peek =>
    cases cursor with
    | none =>
      simp only [candidate, pickQueue, afterCursor] at hm ⊢
      rw [hm]
    | some n =>
      simp only [candidate, pickQueue, afterCursor] at hm ⊢
      rw [hm]

/-- R77: an item whose delivery finds a double-bit error: the station departs before the item frame is handed over. -/
theorem Alert.pick_marked {n : Nat} {d : Draw} {m : Message} (h : Alert x .damagedDelivery n s)
    (hheld : holdsActive x (chanOf d.channel s).receiver = true) (hc : candidate d (chanOf d.channel s) = .ok m)
    (hd : (Machine.deliver d.channel m 0 (min 56 m.length) s).2.2 = true) :
    pick x d s =
      depart x .fault
        (handedState x d.channel d.mode m.seq (Machine.deliver d.channel m 0 (min 56 m.length) s).1) := by
  have hitem : (takeItem x d m s).1 =
      handedState x d.channel d.mode m.seq (Machine.deliver d.channel m 0 (min 56 m.length) s).1 := by
    have hbad : (Machine.deliver d.channel m 0 (min Config.fetchBytes m.length) s).2.2 = true := hd
    rw [takeItem_state, deliveredState_eq m hheld, hbad]
    rfl
  have alert := h.deliver d.channel m 0 (min 56 m.length)
  have hpresent : isPresent x (takeItem x d m s).1 = true := by rw [hitem]; exact (alert.handed _ _ _).present
  have hmarked : (takeItem x d m s).1.severe.contains x = true := by
    rw [hitem, alert.severe_handed]
    simp
  simp only [pick, hc, buildItem, hmarked, if_true]
  rw [departFault_present hpresent, hitem]

/-- R132: the departure that ends a pick leaves no station to depart. -/
theorem Alert.severe_pick_marked {n : Nat} (h : Alert x .damagedDelivery n s) (m : Message) (seq : Half)
    (off len : Nat) : (depart x .fault (handedState x c mode seq (Machine.deliver c m off len s).1)).severe = [] :=
  ((h.deliver c m off len).handed c mode seq).severe_depart (by decide)

end Delivery

/-! ### A draw in flight does not show after a departure -/

section WithDraw

variable {x : Station} {o : Option Draw} {s : State}

/-- The state with another draw of the station. -/
def withDraw (x : Station) (o : Option Draw) (s : State) : State := setUnit x { unitOf x s with draw := o } s

theorem unitOf_withDraw : unitOf x (withDraw x o s) = { unitOf x s with draw := o } := by
  rw [withDraw, unitOf_setUnit_self]

theorem chanOf_withDraw (c : Fin 8) : chanOf c (withDraw x o s) = chanOf c s := rfl

theorem isPresent_withDraw : isPresent x (withDraw x o s) = isPresent x s := by
  rw [isPresent, unitOf_withDraw, isPresent]

theorem deliver_withDraw (c : Fin 8) (m : Message) (off n : Nat) :
    deliver c m off n (withDraw x o s) =
      (withDraw x o (deliver c m off n s).1, (deliver c m off n s).2.1, (deliver c m off n s).2.2) := by
  have hstore : (withDraw x o s).store = s.store := rfl
  rw [deliver_eq, deliver_eq, hstore, chanOf_withDraw]
  simp only
  split <;> rfl

theorem setNotices_withDraw (q : List Notice) : setNotices x q (withDraw x o s) = withDraw x o (setNotices x q s) := by
  simp only [setNotices, withDraw, unitOf_setUnit_self, setUnit_setUnit]

theorem lentState_withDraw (c : Fin 8) (mode : DeliveryMode) :
    lentState x c mode (withDraw x o s) = withDraw x o (lentState x c mode s) := by
  have hchan : ∀ ch t, setChan c ch (withDraw x o t) = withDraw x o (setChan c ch t) := fun _ _ => rfl
  cases mode with
  | peek => rfl
  | lend =>
    simp only [lentState, chanOf_withDraw, hchan]
    split
    · rfl
    · rw [withdraw, setNotices_withDraw, unitOf_withDraw, withdraw]

theorem offerFault_withDraw (k : FaultKind) (n : Nat) :
    offerFault x k n (withDraw x o s) = withDraw x o (offerFault x k n s) := by
  unfold offerFault
  rw [isPresent_withDraw, setNotices_withDraw, unitOf_withDraw]
  split <;> rfl

theorem markSevere_withDraw : markSevere x (withDraw x o s) = withDraw x o (markSevere x s) := by
  have hsevere : (withDraw x o s).severe = s.severe := rfl
  unfold markSevere
  rw [hsevere]
  split <;> rfl

/-- A fault neither sees nor changes a draw. -/
theorem recordFault_withDraw (k : FaultKind) (i : CaptureInfo) :
    recordFault x k i (withDraw x o s) = withDraw x o (recordFault x k i s) := by
  have hset : ∀ r : FaultRecord, setUnit x { unitOf x (withDraw x o s) with faults := r } (withDraw x o s) =
      withDraw x o (setUnit x { unitOf x s with faults := r } s) := fun r => by
    simp only [withDraw, unitOf_setUnit_self, setUnit_setUnit]
  have htime : (withDraw x o s).timeBase = s.timeBase := rfl
  have hfaults : (unitOf x (withDraw x o s)).faults = (unitOf x s).faults := by rw [unitOf_withDraw]
  unfold recordFault
  simp only [hset, htime, hfaults, offerFault_withDraw, isPresent_withDraw, markSevere_withDraw,
    apply_ite (withDraw x o)]

theorem handedState_withDraw (c : Fin 8) (mode : DeliveryMode) (seq : Half) :
    handedState x c mode seq (withDraw x o s) = withDraw x o (handedState x c mode seq s) := by
  rw [handedState, lentState_withDraw, recordFault_withDraw, handedState]

/-- R85: the departure stops the draw first. -/
theorem depart_withDraw (cause : Cause) : depart x cause (withDraw x o s) = depart x cause s := by
  have hstop : stopDraw x (withDraw x o s) = stopDraw x s := by
    have hlink : ∀ l, setLink x l (withDraw x o s) = withDraw x o (setLink x l s) := fun _ => rfl
    have hlinkOf : linkOf x (withDraw x o s) = linkOf x s := rfl
    rw [stopDraw_frame, stopDraw_frame, hlink, hlinkOf, unitOf_withDraw]
    simp only [withDraw, setUnit_setUnit, unitOf_setLink]
  rw [depart, departOwners, departFirst, hstop, depart, departOwners, departFirst]

theorem Alert.withDraw {k : FaultKind} {n : Nat} (h : Alert x k n s) (o : Option Draw) :
    Alert x k n (withDraw x o s) := h.setUnit (by rfl) (by rfl) le_rfl

end WithDraw

/-! ### DRAW -/

section DrawRequest

variable {x : Station} {c : Fin 8} {mode : DeliveryMode} {s : State}

theorem drawCheck_bytes (c : Fin 8) (mode : DeliveryMode) {count spacing : Nat} (h1 : 1 ≤ count) (h8 : count ≤ 8)
    (h15 : spacing ≤ 15) :
    drawCheck [byteOf c.val, byteOf count, modeByte mode, byteOf spacing] =
      .ok { channel := c, count := count, mode := mode, spacing := spacing } := by
  have hcount : (byteOf count).toNat = count := byteOf_toNat (by omega)
  have hspacing : (byteOf spacing).toNat = spacing := byteOf_toNat (by omega)
  simp [drawCheck, channelField_byteOf, modeField_modeByte, fields, hcount, hspacing, h1, h8, h15]

/-- R75, R77: a DRAW whose first item finds a double-bit error. -/
theorem Alert.ownerDraw_marked {n : Nat} {f : Frame} {d : DrawFields} {m : Message}
    (h : Alert x .damagedDelivery n s) (hheld : holdsActive x (chanOf d.channel s).receiver = true)
    (hm : (chanOf d.channel s).queue.find? isQueued = some m)
    (hw : d.mode = .peek ∨ lentCount (chanOf d.channel s) < 8)
    (hd : (Machine.deliver d.channel m 0 (min 56 m.length) s).2.2 = true) :
    ownerDraw x f d s =
      .finished (depart x .fault
        (handedState x d.channel d.mode m.seq (Machine.deliver d.channel m 0 (min 56 m.length) s).1)) := by
  have hqueue : pickQueue (newDraw f d) (chanOf d.channel s) = (chanOf d.channel s).queue := by
    obtain ⟨_, _, mode, _⟩ := d
    cases mode <;> rfl
  have hcandidate : candidate (newDraw f d) (chanOf d.channel s) = .ok m :=
    candidate_of_find (by rw [hqueue]; exact hm) hw
  have hpick := (h.withDraw (some (newDraw f d))).pick_marked (d := newDraw f d) hheld hcandidate
    (by rw [deliver_withDraw]; exact hd)
  have hdraw : ownerDraw x f d s =
      .finished (pick x (newDraw f d) (Machine.withDraw x (some (newDraw f d)) s)) := if_pos hheld
  rw [hdraw, hpick, deliver_withDraw, handedState_withDraw, depart_withDraw]
  rfl

end DrawRequest

/-! ### The events of a station on the alert -/

section Events

variable {x : Station} {s : State} {n : Nat}

/-- R141: a complete frame with a wrong CRC is dropped. -/
theorem Alert.frame_crc {kind tag : Byte} {payload : List Byte} {crc : Half} (h : Alert x .crc n s)
    (hs : s.phase = .running) (hb : (linkOf x s).rx.inBreak = false) (hlen : payload.length ≤ 64)
    (hcrc : crc ≠ crc16 (byteOf (payload.length + 2) :: kind :: tag :: payload)) :
    runEvent (frameArrives x (kind :: tag :: payload) crc) s =
      depart x .fault
        (Machine.recordFault x .crc (.header (byteOf (payload.length + 2) :: kind :: tag :: payload.take 4))
          (receivedFrame x (linkOf x s) s.timeBase s)) := by
  have harrives := frameArrives_eq (kind := kind) (tag := tag) (crc := crc) hb hlen
  rw [if_neg hcrc] at harrives
  have received : Alert x .crc n (receivedFrame x (linkOf x s) s.timeBase s) := h.setLink x _
  rw [← harrives]
  refine Alert.runEvent_marked (k := .crc) (n := n) hs ?_ ?_
  · rw [harrives]; exact received.recordFault _ _ _
  · rw [harrives]; exact received.severe_recordFault _

/-- R142: a good frame that finds the input queue full is dropped. -/
theorem Alert.frame_overrun {kind tag : Byte} {payload : List Byte} {crc : Half} (h : Alert x .overrun n s)
    (hs : s.phase = .running) (hb : (linkOf x s).rx.inBreak = false) (hlen : payload.length ≤ 64)
    (hcrc : crc = crc16 (byteOf (payload.length + 2) :: kind :: tag :: payload))
    (hfull : 4 ≤ (linkOf x s).inQueue.length)
    (hhalt : ¬HaltActs x { kind := kind, tag := tag, payload := payload, crc := crc } s) :
    runEvent (frameArrives x (kind :: tag :: payload) crc) s =
      depart x .fault
        (Machine.recordFault x .overrun (.header (byteOf (payload.length + 2) :: kind :: tag :: payload.take 4))
          (receivedFrame x (linkOf x s) s.timeBase (Machine.restartKeepalive x s))) := by
  have harrives := frameArrives_eq (kind := kind) (tag := tag) (crc := crc) hb hlen
  rw [if_pos hcrc, goodFrame_overrun hfull hhalt] at harrives
  have received : Alert x .overrun n
      (receivedFrame x (linkOf x s) s.timeBase (Machine.restartKeepalive x s)) := (h.restartKeepalive x).setLink x _
  refine (Alert.runEvent_marked (k := .overrun) (n := n) hs ?_ ?_).trans (congrArg (depart x .fault) harrives)
  · rw [harrives]; exact received.recordFault _ _ _
  · rw [harrives]; exact received.severe_recordFault _

/-- R20, R48: an ABANDON that ends congestion, whose FLOW offer is dropped. -/
theorem Alert.exec_abandon {tag : Byte} {v : Staging} {p : Params} (h : Alert x .noticeLoss 23 s)
    (hr : Ready x (requestFrame 0x22 tag [byteOf v.channel.val]) s)
    (hheld : holdsActive x (chanOf v.channel s).sender = true) (hv : stagingOn x v.channel s = some v)
    (hp : (chanOf v.channel s).params = some p) (hc : (chanOf v.channel s).congested = true)
    (hlow : (chanOf v.channel s).queue.length ≤ p.low) (hno : ∀ w o, .flow v.channel w o ∉ (unitOf x s).notices) :
    exec (.abandon x tag [byteOf v.channel.val]) s =
      .next (depart x .fault
        (Machine.transmit x
          (replyFrame (requestFrame 0x22 tag [byteOf v.channel.val]) .ok (natBytes2 v.received ++ natBytes2 v.total))
          false (Machine.abandonStaging x v (Machine.restartKeepalive x s)))) := by
  have restarted := h.restartKeepalive x
  have hchan := chanOf_restartKeepalive v.channel x s
  have hmarked := restarted.severe_abandonStaging (v := v) (p := p) (by rw [hchan]; exact hheld)
    (by rw [hchan]; exact hp) (by rw [hchan]; exact hc) (by rw [hchan]; exact hlow)
    (by rw [restartKeepalive_notices]; exact hno)
  refine congrArg Host.Outcome.next (Alert.runRequest_marked (check := channelCheck) (owner := ownerAbandon x) hr
    h.present (fun _ => rfl) (channelCheck_bytes v.channel) ?_ (restarted.abandonStaging x v) hmarked)
  simp [ownerAbandon, hheld, hv]

/-- R78: the pick after a spacing finds a double-bit error. -/
theorem Alert.spacing_marked {d : Draw} {m : Message} (h : Alert x .damagedDelivery n s) (hs : s.phase = .running)
    (hdraw : (unitOf x s).draw = some d) (hphase : d.phase = .spacing 0)
    (hheld : holdsActive x (chanOf d.channel s).receiver = true)
    (hm : (pickQueue d (chanOf d.channel s)).find? isQueued = some m)
    (hw : d.mode = .peek ∨ lentCount (chanOf d.channel s) < 8)
    (hd : (Machine.deliver d.channel m 0 (min 56 m.length) s).2.2 = true) :
    runEvent (expireSpacing x) s =
      depart x .fault
        (handedState x d.channel d.mode m.seq (Machine.deliver d.channel m 0 (min 56 m.length) s).1) := by
  have hpick : expireSpacing x s = pick x d s := by
    simp only [expireSpacing, hdraw, hphase, if_true]
  have hevent := hpick.trans (h.pick_marked hheld (candidate_of_find hm hw) hd)
  rw [runEvent_running hs (by rw [hevent]; exact h.severe_pick_marked m m.seq 0 (min 56 m.length)), hevent]

/-- R78: an item boundary with spacing 0 is the pick in the state after the transmitter's shift. -/
theorem itemBoundary_of_item {d : Draw} {first : TxEntry} {rest : List TxEntry}
    (htx : (linkOf x s).tx = first :: rest) (hitem : first.drawItem = true) (hdraw : (unitOf x s).draw = some d)
    (hremaining : d.remaining ≠ 0) (hhalt : d.haltTag = none) (hspacing : d.spacing = 0) :
    itemBoundary x s = pick x d (shiftTransmitter x s) := by
  have hdraw1 : (unitOf x (shiftTransmitter x s)).draw = some d := hdraw
  simp only [itemBoundary, sendingItem, endTransmission, htx, hitem, if_true, hdraw1, atBoundary,
    if_neg hremaining, hhalt, Option.isSome_none, Bool.false_eq_true, if_false, if_pos hspacing]

end Events

/-! ### The statement -/

/-- Settles O13: the station is on the alert before the event, each event's own rule marks it, and the departure ends
the event. -/
theorem severeFaultsMakeTheStationDepart : Obligations.SevereFaultsMakeTheStationDepart := by
  intro x k s hrun hp hpeer r hreported hsevere departs s0 q received dropped handed
  have alert : Alert x k 0 s := ⟨hp, hreported, hsevere, Nat.zero_le _, hpeer, .inl hrun.2⟩
  have hhanded : ∀ d c mode seq, handed d c mode seq = handedState x c mode seq d.1 := by
    intro d c mode seq
    cases mode with
    | peek => rfl
    | lend => simp only [handed, handedState, lentState, chanOf_setChan_self]
  have hchan : ∀ c, chanOf c s0 = chanOf c s := fun c => chanOf_restartKeepalive c x s
  refine ⟨fun hb => ⟨?_, ?_, ?_⟩, ?_, ?_, ?_, ?_, ?_, ?_, ?_⟩
  · intro kind tag payload crc hlen good header
    refine ⟨fun hk hcrc => ?_, fun hk hcrc hfull hhalt => ?_⟩
    · subst hk
      exact congrArg Host.Outcome.next (alert.frame_crc hrun.1 hb hlen hcrc)
    · subst hk
      exact congrArg Host.Outcome.next (alert.frame_overrun hrun.1 hb hlen hcrc hfull hhalt)
  · intro hk hstate
    subst hk
    have habort := abortFrame_of_frame hb (by rw [hstate]; exact RxState.noConfusion)
    rw [hstate] at habort
    exact ⟨congrArg Host.Outcome.next (alert.dropFrame_marked hrun.1 habort),
      congrArg Host.Outcome.next (alert.dropFrame_marked hrun.1 habort)⟩
  · intro len kept hk hstate
    subst hk
    have habort : abortFrame x s = dropFrame x ((len :: kept).take 7) s := by
      rcases hstate with hstate | ⟨high, hstate⟩
      · rw [abortFrame_of_frame hb (by rw [hstate]; exact RxState.noConfusion), hstate]; rfl
      · rw [abortFrame_of_frame hb (by rw [hstate]; exact RxState.noConfusion), hstate]; rfl
    exact ⟨congrArg Host.Outcome.next (alert.dropFrame_marked hrun.1 habort),
      congrArg Host.Outcome.next (alert.dropFrame_marked hrun.1 habort)⟩
  · intro kind tag payload f hk hr hunknown
    subst hk
    exact congrArg Host.Outcome.next (alert.unknownKind_marked hr hunknown)
  · intro c v hk hv h0
    subst hk
    exact congrArg Host.Outcome.next (alert.expireStaging_marked hrun.1 hv h0)
  · intro hk _ hq
    subst hk
    have full : Alert x .noticeLoss 23 s := ⟨hp, hreported, hsevere, hq, hpeer, .inl hrun.2⟩
    refine ⟨?_, ?_, ?_, ?_⟩
    · intro e client before after w hw hone hx hc h0
      exact congrArg Host.Outcome.next
        (full.expireWait_marked hrun.1 (by rfl) (by rfl) (expireWait_of_zero hw hone hx hc h0))
    · intro hpresent h0
      exact congrArg Host.Outcome.next (full.lapse_marked hrun.1 hpresent h0)
    · intro tag flags f g hr hno hflag
      obtain ⟨i, hm, hf, hc⟩ := hflag
      refine ⟨nonZeroFlags g, fun j => ?_, full.mask_marked hr hno (newlyPending_of_flag hm hf hc)⟩
      rw [nonZeroFlags, getLsbD_flagSet _ j.isLt, signalCount_eq]
    · intro tag c v p f hr hheld hv hparams hcongested hlow hno
      have hc : v.channel = c := Kept.stagingOn_channel hv
      subst hc
      exact full.exec_abandon hr hheld hv hparams hcongested hlow hno
  · intro tag c mode m ch modeCode fetch i d hk hheld hm hw hd
    subst hk
    have restarted := alert.restartKeepalive x
    have hcode : modeCode = modeByte mode := by cases mode <;> rfl
    have hheld0 : holdsActive x (chanOf c s0).receiver = true := by rw [hchan]; exact hheld
    have hm0 : (chanOf c s0).queue.find? isQueued = some m := by rw [hchan]; exact hm
    have hw0 : mode = .peek ∨ lentCount (chanOf c s0) < 8 := by rw [hchan]; exact hw
    refine ⟨fun hr => ?_, ?_⟩
    · have hexec : exec i s = .next (runRequest x (requestFrame 0x28 tag fetch) (handleFetch x) s) := by
        cases mode <;> rfl
      have hfetch : fetch = [byteOf c.val, modeByte mode] := by rw [← hcode]
      have howner := ownerFetch_of_damaged hheld0 hm0 hw0 hd
      have delivered := restarted.deliver c m 0 (min 56 m.length)
      rw [hchan] at howner
      rw [hhanded]
      refine hexec.trans (congrArg Host.Outcome.next (Alert.runRequest_marked (check := fetchCheck)
        (owner := fun a t => ownerFetch x a.1 a.2 t) (a := (c, mode)) hr hp (fun _ => rfl)
        ((congrArg fetchCheck hfetch).trans (fetchCheck_bytes c mode)) howner (delivered.handed c mode m.seq)
        (delivered.severe_handed c mode m.seq)))
    · intro count spacing draw h1 h8 h15 hr
      have hdraw : draw = [byteOf c.val, byteOf count, modeByte mode, byteOf spacing] := by rw [← hcode]
      rw [hhanded]
      exact congrArg Host.Outcome.next (runRequest_finished (check := drawCheck)
        (owner := ownerDraw x (requestFrame 0x2D tag draw)) hr hp (fun _ => rfl)
        ((congrArg drawCheck hdraw).trans (drawCheck_bytes c mode h1 h8 h15))
        (restarted.ownerDraw_marked (d := { channel := c, count := count, mode := mode, spacing := spacing }) hheld0 hm0
          hw0 hd)
        (restarted.severe_pick_marked m m.seq 0 (min 56 m.length)))
  · intro tag c seq offset m payload f d hk hr hheld hfit h512 hm hd
    subst hk
    have delivered := (alert.restartKeepalive x).deliver c m offset.toNat (min 58 (m.length - offset.toNat))
    have howner := ownerRead_of_damaged (seq := seq) (by rw [hchan]; exact hheld) (by rw [hchan]; exact hm) hfit hd
    have hoffset : natBytes2 offset.toNat = halfBytes offset := by
      rw [natBytes2, BitVec.ofNat_toNat, BitVec.setWidth_eq]
    rw [hoffset] at howner
    exact congrArg Host.Outcome.next (Alert.runRequest_marked (check := readCheck) (owner := ownerRead x) hr hp
      (fun _ => rfl) (readCheck_bytes c seq h512) howner (delivered.recordFault _ _ _)
      (delivered.severe_recordFault _))
  · intro d m ch after g hk hdraw hphase hheld hm hw hd
    subst hk
    rw [hhanded]
    exact congrArg Host.Outcome.next (alert.spacing_marked hrun.1 hdraw hphase hheld hm hw hd)
  · intro d m first rest ch after shifted g hk htx hitem hdraw hremaining hhalt hspacing hheld hm hw hd
    subst hk
    have alertShifted : Alert x .damagedDelivery 0 shifted := alert.setLink x _
    have hshift : shiftTransmitter x s = shifted := by
      simp only [shiftTransmitter, htx, List.tail_cons, shifted]
      cases rest <;> rfl
    have hboundary := itemBoundary_of_item htx hitem hdraw hremaining hhalt hspacing
    rw [hshift] at hboundary
    have hmarked := alertShifted.pick_marked (d := d) hheld (candidate_of_find hm hw) hd
    rw [hhanded]
    refine congrArg Host.Outcome.next ?_
    have hevent := hboundary.trans hmarked
    rw [runEvent_running hrun.1 (by rw [hevent]; exact alertShifted.severe_pick_marked m m.seq 0 (min 56 m.length)),
      hevent]

end Sys2Proof.Machine
end

section
/-!
PROOFS. Posting: the admission test, POST and SEGMENT FIRST (R36 to R38, R42, R43).
-/

namespace Sys2Proof.Machine

/-! ### The payloads of POST and FIRST -/

/-- R160: the payload of a POST. -/
abbrev postBytes (c : Fin 8) (data : List Byte) : List Byte := [byteOf c.val, 0x00] ++ data

/-- R160: the payload of a SEGMENT FIRST. -/
abbrev firstBytes (c : Fin 8) (total : Half) (data : List Byte) : List Byte :=
  [byteOf c.val, 0x01] ++ halfBytes total ++ data

theorem postCheck_bytes (c : Fin 8) {data : List Byte} (h : data.length ≤ 62) :
    postCheck (postBytes c data) = .ok (c, data) := by
  simp [postCheck, channelField_byteOf, fields, h]

theorem segmentCheck_first (c : Fin 8) {total : Half} {data : List Byte} (h : data.length ≤ 60)
    (ht : total.toNat ≤ Config.maxMessage) :
    segmentCheck (firstBytes c total data) = .ok (.first c total.toNat data) := by
  simp [segmentCheck, halfBytes, channelField_byteOf, halfOf_extract, fields, h, ht]

theorem natBytes2_toNat (w : Half) : natBytes2 w.toNat = halfBytes w := by
  rw [natBytes2, BitVec.ofNat_toNat, BitVec.setWidth_eq]

/-! ### The admission test (R37) -/

section Admission

variable {ch : Channel} {p : Params} {k : Nat} {s : State}

/-- R37: FULL is for want of a place, or for the distance of next_seq from the oldest message. -/
theorem channelFull_iff :
    channelFull p ch = true ↔
      p.depth ≤ occupancy ch ∨ ∃ m ∈ ch.queue.head?, 32768 ≤ (ch.nextSeq - m.seq).toNat := by
  rw [channelFull, Bool.or_eq_true, decide_eq_true_iff]
  cases ch.queue with
  | nil => simp
  | cons m rest =>
    show _ ∨ decide (Config.seqDistanceLimit ≤ seqDistance m.seq ch.nextSeq) = true ↔ _
    rw [decide_eq_true_iff]
    exact or_congr_right ⟨fun h => ⟨m, rfl, h⟩, fun ⟨_, rfl, h⟩ => h⟩

theorem channelFull_eq_false (hroom : occupancy ch < p.depth)
    (hseq : ∀ m ∈ ch.queue.head?, (ch.nextSeq - m.seq).toNat < 32768) : channelFull p ch = false := by
  rw [← Bool.not_eq_true, channelFull_iff]
  rintro (hfull | ⟨m, hm, hfar⟩)
  · exact absurd hroom (Nat.not_lt.mpr hfull)
  · exact absurd (hseq m hm) (Nat.not_lt.mpr hfar)

theorem admission_full (hp : ch.params = some p) (h : channelFull p ch = true) :
    admission ch k s = some (.full, [byteOf (occupancy ch), byteOf p.depth]) := by
  simp only [admission, hp, if_pos h]

theorem admission_quota (hp : ch.params = some p) (h : channelFull p ch = false) (hq : p.quota < ch.charged + k) :
    admission ch k s = some (.quota, natBytes2 ch.charged ++ [byteOf k] ++ natBytes2 p.quota) := by
  simp only [admission, hp, h, Bool.false_eq_true, if_false, if_pos hq]

theorem admission_noBlocks (hp : ch.params = some p) (h : channelFull p ch = false) (hq : ch.charged + k ≤ p.quota)
    (hk : s.store.freePool.length < k) :
    admission ch k s = some (.noBlocks, natBytes2 s.store.freePool.length ++ [byteOf k]) := by
  have hfree : freeBlockCount s < k := hk
  simp only [admission, hp, h, Bool.false_eq_true, if_false, if_neg (Nat.not_lt.mpr hq), if_pos hfree]
  rfl

theorem admission_admits (hp : ch.params = some p) (h : channelFull p ch = false) (hq : ch.charged + k ≤ p.quota)
    (hk : k ≤ s.store.freePool.length) : admission ch k s = none := by
  have hfree : ¬ freeBlockCount s < k := Nat.not_lt.mpr hk
  simp only [admission, hp, h, Bool.false_eq_true, if_false, if_neg (Nat.not_lt.mpr hq), if_neg hfree]

/-- The test reads the channel and the free pool, not the keepalive timer. -/
theorem admission_restartKeepalive (x : Station) (ch : Channel) (k : Nat) (s : State) :
    admission ch k (restartKeepalive x s) = admission ch k s := by
  have hfree : freeBlockCount (restartKeepalive x s) = freeBlockCount s :=
    congrArg (fun st : Store => st.freePool.length) (restartKeepalive_store x s)
  simp only [admission, hfree]

end Admission

/-! ### The owners of POST and FIRST -/

section Owner

variable {x : Station} {c : Fin 8} {total : Nat} {data : List Byte} {s : State} {status : Status}
  {fieldBytes : List Byte}

/-- R25: the blocks taken from the free pool do not depend on the keepalive timer. -/
theorem blocks_allocateAndWrite_restartKeepalive (x : Station) (k : Nat) (data : List Byte) (s : State) :
    (allocateAndWrite k data (restartKeepalive x s)).2 = s.store.freePool.take k := by
  rw [allocateAndWrite_frame, restartKeepalive_store]

/-- R38: the state of an admitted POST before congestion is evaluated. -/
def appendedPost (x : Station) (c : Fin 8) (data : List Byte) (s : State) : State :=
  setChan c
    { appendMessage (postedMessage x c data s) (chanOf c s) with
      charged := (chanOf c s).charged + blocksNeeded data.length }
    (allocateAndWrite (blocksNeeded data.length) data s).1

theorem postMessage_frame (x : Station) (c : Fin 8) (data : List Byte) (s : State) :
    postMessage x c data s = offerArrival c (evalCongestion c (appendedPost x c data s)) := rfl

theorem advisory_appendedPost (h : Advisory s) : Advisory (appendedPost x c data s) :=
  Advisory.of_units rfl h

theorem occupancy_postMessage (x : Station) (c : Fin 8) (data : List Byte) (s : State) :
    occupancy (chanOf c (postMessage x c data s)) = occupancy (chanOf c s) + 1 := by
  rw [postMessage_frame, chanOf_offerArrival, occupancy_evalCongestion, appendedPost, chanOf_setChan_self]
  simp only [occupancy, appendMessage, List.length_append, List.length_singleton]
  omega

/-- R43: the state of an admitted FIRST before congestion is evaluated. -/
def stagedFirst (x : Station) (c : Fin 8) (total : Nat) (data : List Byte) (s : State) : State :=
  setChan c { chanOf c s with reserved := 1, charged := (chanOf c s).charged + blocksNeeded total }
    (setUnit x { unitOf x s with staging := (unitOf x s).staging ++ [newStaging c total data s] }
      (allocateAndWrite (blocksNeeded total) data s).1)

theorem startStaging_frame (x : Station) (c : Fin 8) (total : Nat) (data : List Byte) (s : State) :
    startStaging x c total data s = evalCongestion c (stagedFirst x c total data s) := rfl

theorem advisory_stagedFirst (h : Advisory s) : Advisory (stagedFirst x c total data s) :=
  Advisory.setChan (Advisory.of_setUnit rfl (Advisory.of_units rfl h))

theorem isPresent_stagedFirst (y x : Station) (c : Fin 8) (total : Nat) (data : List Byte) (s : State) :
    isPresent y (stagedFirst x c total data s) = isPresent y s := by
  rw [stagedFirst, isPresent_setChan, isPresent_setUnit _ _ _ _ (by rfl), allocateAndWrite_frame, isPresent_setStore]

theorem ownerPost_refused (hx : holdsActive x (chanOf c s).sender = true)
    (h : admission (chanOf c s) (blocksNeeded data.length) s = some (status, fieldBytes)) :
    ownerPost x c data s = .reply s status fieldBytes := by
  simp only [ownerPost, if_pos hx, h]

theorem ownerPost_admitted (hx : holdsActive x (chanOf c s).sender = true)
    (h : admission (chanOf c s) (blocksNeeded data.length) s = none) :
    ownerPost x c data s =
      .reply (postMessage x c data s) .ok
        (halfBytes (chanOf c s).nextSeq ++ [byteOf (occupancy (chanOf c s) + 1)]) := by
  simp only [ownerPost, if_pos hx, h, occupancy_postMessage]

theorem ownerSegment_first (h : holdsActive x (chanOf c s).sender = true) :
    ownerSegment x (.first c total data) s = ownerSegmentFirst x c total data s := if_pos h

theorem ownerSegmentFirst_busy (h : stagingOn x c s ≠ none) :
    ownerSegmentFirst x c total data s = .reply s .stagingBusy [] :=
  if_pos (Option.isSome_iff_ne_none.mpr h)

theorem ownerSegmentFirst_limit (h : stagingOn x c s = none)
    (hlimit : Config.maxStaging ≤ (unitOf x s).staging.length) :
    ownerSegmentFirst x c total data s = .reply s .stagingLimit [] := by
  simp [ownerSegmentFirst, h, hlimit]

/-- R42: with no record on the channel and room for one, the lengths are compared. -/
theorem ownerSegmentFirst_overlength (h : stagingOn x c s = none)
    (hroom : (unitOf x s).staging.length < Config.maxStaging) (hlong : total < data.length) :
    ownerSegmentFirst x c total data s = .reply s .overlength (natBytes2 data.length ++ natBytes2 total) := by
  simp [ownerSegmentFirst, h, Nat.not_le.mpr hroom, hlong]

theorem ownerSegmentFirst_refused (h : stagingOn x c s = none)
    (hroom : (unitOf x s).staging.length < Config.maxStaging) (hfit : data.length ≤ total)
    (ha : admission (chanOf c s) (blocksNeeded total) s = some (status, fieldBytes)) :
    ownerSegmentFirst x c total data s = .reply s status fieldBytes := by
  simp [ownerSegmentFirst, h, Nat.not_le.mpr hroom, Nat.not_lt.mpr hfit, ha]

theorem ownerSegmentFirst_admitted (h : stagingOn x c s = none)
    (hroom : (unitOf x s).staging.length < Config.maxStaging) (hfit : data.length ≤ total)
    (ha : admission (chanOf c s) (blocksNeeded total) s = none) :
    ownerSegmentFirst x c total data s =
      .reply (startStaging x c total data s) .ok (natBytes2 data.length ++ natBytes2 total) := by
  simp [ownerSegmentFirst, h, Nat.not_le.mpr hroom, Nat.not_lt.mpr hfit, ha]

end Owner

/-! ### POST and FIRST as requests -/

section Request

variable {x : Station} {tag : Byte} {c : Fin 8} {total : Half} {data : List Byte} {s : State}
  {status : Status} {fieldBytes : List Byte}

/-- R37: a POST that the admission test refuses. -/
theorem exec_post_refused (hr : Ready x (requestFrame 0x20 tag (postBytes c data)) s) (hp : isPresent x s = true)
    (hx : holdsActive x (chanOf c s).sender = true) (hlen : data.length ≤ 62)
    (ha : admission (chanOf c s) (blocksNeeded data.length) s = some (status, fieldBytes)) :
    exec (.post x tag (postBytes c data)) s =
      .next (answered x (requestFrame 0x20 tag (postBytes c data)) status fieldBytes (restartKeepalive x s)) :=
  congrArg Host.Outcome.next
    (runRequest_unchanged (check := postCheck) (owner := fun a t => ownerPost x a.1 a.2 t) hr hp (fun _ => rfl)
      (postCheck_bytes c hlen)
      (ownerPost_refused (by rw [chanOf_restartKeepalive]; exact hx)
        (by rw [chanOf_restartKeepalive, admission_restartKeepalive]; exact ha)))

/-- R42: a FIRST that its owner refuses. -/
theorem exec_segmentFirst_refused (hr : Ready x (requestFrame 0x21 tag (firstBytes c total data)) s)
    (hp : isPresent x s = true) (hx : holdsActive x (chanOf c s).sender = true) (hlen : data.length ≤ 60)
    (ht : total.toNat ≤ 512)
    (ho : ownerSegmentFirst x c total.toNat data (restartKeepalive x s) =
      .reply (restartKeepalive x s) status fieldBytes) :
    exec (.segmentFirst x tag (firstBytes c total data)) s =
      .next (answered x (requestFrame 0x21 tag (firstBytes c total data)) status fieldBytes (restartKeepalive x s)) :=
  congrArg Host.Outcome.next
    (runRequest_unchanged (check := segmentCheck) (owner := ownerSegment x) hr hp (fun _ => rfl)
      (segmentCheck_first c hlen ht)
      ((ownerSegment_first (by rw [chanOf_restartKeepalive]; exact hx)).trans ho))

/-- R38: a POST that the admission test admits. -/
theorem exec_post_admitted (hr : Ready x (requestFrame 0x20 tag (postBytes c data)) s) (hadv : Advisory s)
    (hp : isPresent x s = true) (hx : holdsActive x (chanOf c s).sender = true) (hlen : data.length ≤ 62)
    (ha : admission (chanOf c s) (blocksNeeded data.length) s = none) :
    exec (.post x tag (postBytes c data)) s =
      .next (answered x (requestFrame 0x20 tag (postBytes c data)) .ok
        (halfBytes (chanOf c s).nextSeq ++ [byteOf (occupancy (chanOf c s) + 1)])
        (postMessage x c data (restartKeepalive x s))) := by
  have happended : Advisory (appendedPost x c data (restartKeepalive x s)) :=
    advisory_appendedPost hadv.restartKeepalive
  have howner := ownerPost_admitted (x := x) (c := c) (data := data) (s := restartKeepalive x s)
    (by rw [chanOf_restartKeepalive]; exact hx)
    (by rw [chanOf_restartKeepalive, admission_restartKeepalive]; exact ha)
  rw [chanOf_restartKeepalive] at howner
  refine congrArg Host.Outcome.next
    (runRequest_answered (check := postCheck) (owner := fun a t => ownerPost x a.1 a.2 t) hr hp (fun _ => rfl)
      (postCheck_bytes c hlen) howner ?_ ?_)
  · rw [postMessage_frame, offerArrival_severe happended.evalCongestion, evalCongestion_severe happended,
      appendedPost, setChan_severe, allocateAndWrite_frame, setStore_severe, restartKeepalive_severe, hr.severe]
  · rw [postMessage_frame, isPresent_offerArrival, isPresent_evalCongestion, appendedPost, isPresent_setChan,
      allocateAndWrite_frame, isPresent_setStore, isPresent_restartKeepalive, hp]

/-- R43: a FIRST that the tests of R42 and the admission test let through. -/
theorem exec_segmentFirst_admitted (hr : Ready x (requestFrame 0x21 tag (firstBytes c total data)) s)
    (hadv : Advisory s) (hp : isPresent x s = true) (hx : holdsActive x (chanOf c s).sender = true)
    (hlen : data.length ≤ 60) (ht : total.toNat ≤ 512) (hnone : stagingOn x c s = none)
    (hroom : (unitOf x s).staging.length < 2) (hfit : data.length ≤ total.toNat)
    (ha : admission (chanOf c s) (blocksNeeded total.toNat) s = none) :
    exec (.segmentFirst x tag (firstBytes c total data)) s =
      .next (answered x (requestFrame 0x21 tag (firstBytes c total data)) .ok
        (natBytes2 data.length ++ halfBytes total)
        (startStaging x c total.toNat data (restartKeepalive x s))) := by
  have hstaged : Advisory (stagedFirst x c total.toNat data (restartKeepalive x s)) :=
    advisory_stagedFirst hadv.restartKeepalive
  have howner := ownerSegmentFirst_admitted (x := x) (c := c) (total := total.toNat) (data := data)
    (s := restartKeepalive x s) ((stagingOn_restartKeepalive x x c s).trans hnone)
    (by rw [restartKeepalive_staging]; exact hroom) hfit
    (by rw [chanOf_restartKeepalive, admission_restartKeepalive]; exact ha)
  rw [natBytes2_toNat] at howner
  refine congrArg Host.Outcome.next
    (runRequest_answered (check := segmentCheck) (owner := ownerSegment x) hr hp (fun _ => rfl)
      (segmentCheck_first c hlen ht)
      ((ownerSegment_first (by rw [chanOf_restartKeepalive]; exact hx)).trans howner) ?_ ?_)
  · rw [startStaging_frame, evalCongestion_severe hstaged, stagedFirst, setChan_severe, setUnit_severe,
      allocateAndWrite_frame, setStore_severe, restartKeepalive_severe, hr.severe]
  · rw [startStaging_frame, isPresent_evalCongestion, isPresent_stagedFirst, isPresent_restartKeepalive, hp]

end Request

/-- Settles O30: the request admitted, and the record that it appends read back through the keepalive restart. -/
theorem postAppendsAMessage : Obligations.PostAppendsAMessage := by
  intro x tag c data p s payload f ch k hr hadv hp hx hlen hparams hroom hseq hquota hfree
  have ha : admission ch k s = none := admission_admits hparams (channelFull_eq_false hroom hseq) hquota hfree
  rw [exec_post_admitted hr hadv hp hx hlen ha, postMessage_frame, appendedPost, postedMessage,
    blocks_allocateAndWrite_restartKeepalive, restartKeepalive_epoch, chanOf_restartKeepalive]
  rfl

/-- Settles O31: what the admission test refuses, either request answers without a change. -/
theorem admissionIsRefusedInOrder : Obligations.AdmissionIsRefusedInOrder := by
  intro x tag c total data p s ch first post hp hx hparams n i f hform hr k full refused
  have hrefused : ∀ status fieldBytes, admission ch k s = some (status, fieldBytes) →
      exec i s = refused status fieldBytes := by
    intro status fieldBytes ha
    rcases hform with ⟨hlen, rfl, rfl, rfl⟩ | ⟨hlen, hfit, ht, hnone, hroom, rfl, rfl, rfl⟩
    · exact exec_post_refused hr hp hx hlen ha
    · refine exec_segmentFirst_refused hr hp hx hlen ht (ownerSegmentFirst_refused ?_ ?_ hfit ?_)
      · rw [stagingOn_restartKeepalive, hnone]
      · rw [restartKeepalive_staging]
        exact hroom
      · rw [chanOf_restartKeepalive, admission_restartKeepalive]
        exact ha
  have hroom : ¬ full → channelFull p ch = false := fun h => (Bool.not_eq_true _).mp (mt channelFull_iff.mp h)
  exact ⟨fun h => hrefused _ _ (admission_full hparams (channelFull_iff.mpr h)),
    fun h hquota => hrefused _ _ (admission_quota hparams (hroom h) hquota),
    fun h hquota hfree => hrefused _ _ (admission_noBlocks hparams (hroom h) hquota hfree)⟩

/-- Settles O32: the tests of R42 in their order, then the admitted FIRST. -/
theorem segmentFirstStagesAMessage : Obligations.SegmentFirstStagesAMessage := by
  intro x tag c total data p s payload f ch u k a u0 hr hp hx hlen ht
  have hstaging : stagingOn x c (restartKeepalive x s) = stagingOn x c s := stagingOn_restartKeepalive x x c s
  have hcount : (unitOf x (restartKeepalive x s)).staging = u.staging := restartKeepalive_staging x x s
  refine ⟨fun hbusy => ?_, fun hnone hlimit => ?_, fun hnone hroom hlong => ?_,
    fun hnone hroom hfit hadv hparams hplace hseq hquota hfree => ?_⟩
  · exact exec_segmentFirst_refused hr hp hx hlen ht (ownerSegmentFirst_busy (by rw [hstaging]; exact hbusy))
  · exact exec_segmentFirst_refused hr hp hx hlen ht
      (ownerSegmentFirst_limit (hstaging.trans hnone) (by rw [hcount]; exact hlimit))
  · rw [← natBytes2_toNat]
    exact exec_segmentFirst_refused hr hp hx hlen ht
      (ownerSegmentFirst_overlength (hstaging.trans hnone) (by rw [hcount]; exact hroom) hlong)
  · have ha : admission ch k s = none := admission_admits hparams (channelFull_eq_false hplace hseq) hquota hfree
    rw [exec_segmentFirst_admitted hr hadv hp hx hlen ht hnone hroom hfit ha, startStaging_frame, stagedFirst,
      newStaging, blocks_allocateAndWrite_restartKeepalive, hcount, chanOf_restartKeepalive]
    rfl

end Sys2Proof.Machine
end

section
/-!
PROOFS. READ, RETIRE, RETURN and PURGE (R59, R61 to R64, R66).
-/

namespace Sys2Proof.Machine

/-! ### The LENT message with a number (R61, R63) -/

/-- A LENT message with the sequence number `seq`. -/
abbrev lentAs (seq : Half) (m : Message) : Bool := isLent m && m.seq == seq

theorem lentMessage_eq_find (seq : Half) (ch : Channel) : lentMessage seq ch = ch.queue.find? (lentAs seq) := rfl

theorem retireCount_eq_findIdx (seq : Half) (q : List Message) : retireCount seq q = q.findIdx (lentAs seq) + 1 := rfl

section Named

variable {seq : Half} {ch : Channel} {m : Message} {before after : List Message}

theorem lentMessage_eq_none (h : ch.queue.any (lentAs seq) = false) : lentMessage seq ch = none :=
  List.find?_eq_none.mpr (List.any_eq_false.mp h)

theorem seq_of_lentMessage (h : lentMessage seq ch = some m) : m.seq = seq :=
  beq_iff_eq.mp (Bool.and_eq_true_iff.mp (List.find?_some (p := lentAs seq) h)).2

theorem lentMessage_append (hq : ch.queue = before ++ m :: after) (hb : before.any (lentAs seq) = false)
    (hm : lentAs seq m = true) : lentMessage seq ch = some m := by
  have hnone : before.find? (lentAs seq) = none := List.find?_eq_none.mpr (List.any_eq_false.mp hb)
  rw [lentMessage_eq_find, hq, List.find?_append, hnone, Option.none_or]
  exact List.find?_cons_of_pos hm

/-- R63: the message named stands behind those older than it. -/
theorem retireCount_append (hb : before.any (lentAs seq) = false) (hm : lentAs seq m = true) :
    retireCount seq (before ++ m :: after) = before.length + 1 := by
  have hplace : before.findIdx (lentAs seq) = before.length :=
    List.findIdx_eq_length_of_false fun t ht => (Bool.not_eq_true _).mp (List.any_eq_false.mp hb t ht)
  rw [retireCount_eq_findIdx, List.findIdx_append, hplace, if_neg (Nat.lt_irrefl _), List.findIdx_cons, hm, cond_true,
    Nat.zero_add]

end Named

/-! ### READ -/

section Read

variable {x : Station} {c : Fin 8} {seq : Half} {offset : Nat} {m : Message} {s : State}

theorem ownerRead_notLent (h : holdsActive x (chanOf c s).receiver = true)
    (hnone : lentMessage seq (chanOf c s) = none) :
    ownerRead x { channel := c, seq := seq, offset := offset } s = .reply s .notLent [] := by
  simp only [ownerRead, if_pos h, hnone]

/-- R61: an offset beyond the message. -/
theorem ownerRead_beyond (h : holdsActive x (chanOf c s).receiver = true)
    (hm : lentMessage seq (chanOf c s) = some m) (hlong : m.length < offset) :
    ownerRead x { channel := c, seq := seq, offset := offset } s = .reply s .badField (natBytes2 m.length) := by
  simp only [ownerRead, if_pos h, hm, if_pos hlong]

/-- R62: the bytes handed out, with the fault of a double-bit error. -/
theorem ownerRead_within (h : holdsActive x (chanOf c s).receiver = true)
    (hm : lentMessage seq (chanOf c s) = some m) (hfit : offset ≤ m.length) :
    ownerRead x { channel := c, seq := seq, offset := offset } s =
      .reply
        (recordDamage x c seq (deliver c m offset (min 58 (m.length - offset)) s).2.2
          (deliver c m offset (min 58 (m.length - offset)) s).1)
        .ok
        (halfBytes seq ++ natBytes2 offset ++
          [messageFlags m.redelivered (m.damaged || (deliver c m offset (min 58 (m.length - offset)) s).2.2) false] ++
            (deliver c m offset (min 58 (m.length - offset)) s).2.1) := by
  obtain rfl := seq_of_lentMessage hm
  simp only [ownerRead, if_pos h, hm, if_neg (Nat.not_lt.mpr hfit)]
  rfl

end Read

/-- Settles O36: no LENT message of that number, an offset beyond the message, and the bytes handed out. -/
theorem readHandsOutLentBytes : Obligations.ReadHandsOutLentBytes := by
  intro x tag c seq offset s payload f ch s0 named hr hp hheld hoffset
  have hcheck : readCheck f.payload = .ok { channel := c, seq := seq, offset := offset.toNat } :=
    readCheck_bytes c seq hoffset
  have hchan : chanOf c s0 = ch := chanOf_restartKeepalive c x s
  have hheld0 : holdsActive x (chanOf c s0).receiver = true := by rw [hchan]; exact hheld
  refine ⟨fun hnone => ?_, fun m hm hlong => ?_, fun m hm hfit ha => ?_⟩
  · have hlent : lentMessage seq (chanOf c s0) = none := by rw [hchan]; exact lentMessage_eq_none hnone
    exact congrArg Host.Outcome.next (runRequest_unchanged (owner := ownerRead x) hr hp (fun _ => rfl) hcheck
      (ownerRead_notLent hheld0 hlent))
  · have hlent : lentMessage seq (chanOf c s0) = some m := by rw [hchan]; exact hm
    exact congrArg Host.Outcome.next (runRequest_unchanged (owner := ownerRead x) hr hp (fun _ => rfl) hcheck
      (ownerRead_beyond hheld0 hlent hlong))
  · intro d
    have hlent : lentMessage seq (chanOf c s0) = some m := by rw [hchan]; exact hm
    have howner := ownerRead_within hheld0 hlent hfit
    have hadvisory : AdvisoryAt x d.1 :=
      AdvisoryAt.of_eq (congrArg (·.faults.kinds) (unitOf_deliver ..))
        (AdvisoryAt.of_eq (congrArg (·.kinds) (restartKeepalive_faults ..)) ha)
    rw [natBytes2_toNat] at howner
    have hrun := runRequest_answered (handler := handleRead x) (owner := ownerRead x) hr hp (fun _ => rfl) hcheck howner
      (by rw [recordDamage_severe hadvisory, deliver_severe, restartKeepalive_severe, hr.severe])
      (by rw [isPresent_recordDamage, isPresent_deliver, isPresent_restartKeepalive, hp])
    exact congrArg Host.Outcome.next hrun

/-! ### Messages removed from a queue (R63, R66) -/

section Removed

variable {c : Fin 8} {gone kept : List Message} {s : State}

/-- R63, R66: the state without the messages `gone`, whose blocks are free and no longer charged. -/
theorem removeMessages_frame (c : Fin 8) (gone kept : List Message) (s : State) :
    removeMessages c gone kept s =
      setChan c
        { chanOf c s with queue := kept, charged := (chanOf c s).charged - (gone.flatMap (·.blocks)).length }
        (setStore { s.store with freePool := (gone.flatMap (·.blocks)).foldr insertBlock s.store.freePool } s) := rfl

theorem chanOf_removeMessages :
    chanOf c (removeMessages c gone kept s) =
      { chanOf c s with queue := kept, charged := (chanOf c s).charged - (gone.flatMap (·.blocks)).length } := by
  rw [removeMessages_frame, chanOf_setChan_self]

theorem occupancy_removeMessages :
    occupancy (chanOf c (removeMessages c gone kept s)) = kept.length + (chanOf c s).reserved := by
  rw [chanOf_removeMessages, occupancy]

theorem advisory_removeMessages (h : Advisory s) : Advisory (removeMessages c gone kept s) := Advisory.of_units rfl h

theorem removeMessages_severe : (removeMessages c gone kept s).severe = s.severe := rfl

theorem isPresent_removeMessages (y : Station) : isPresent y (removeMessages c gone kept s) = isPresent y s := by
  rw [removeMessages_frame, isPresent_setChan, isPresent_setStore]

end Removed

/-! ### RETIRE -/

theorem retireCheck_bytes (c : Fin 8) (seq : Half) :
    retireCheck ([byteOf c.val] ++ halfBytes seq) = .ok (c, seq) := by
  simp [retireCheck, halfBytes, channelField_byteOf, halfOf_extract, fields]

section Retire

variable {x : Station} {c : Fin 8} {seq : Half} {m : Message} {before after : List Message} {s : State}

theorem ownerRetire_notLent (h : holdsActive x (chanOf c s).receiver = true)
    (hnone : lentMessage seq (chanOf c s) = none) : ownerRetire x c seq s = .reply s .notLent [] := by
  simp only [ownerRetire, if_pos h, hnone]

/-- R63: the queue is cut behind the message named. -/
theorem ownerRetire_lent (h : holdsActive x (chanOf c s).receiver = true)
    (hq : (chanOf c s).queue = before ++ m :: after)
    (hb : before.any (lentAs seq) = false) (hm : lentAs seq m = true) :
    ownerRetire x c seq s =
      .reply (evalCongestion c (removeMessages c (before ++ [m]) after s)) .ok
        [byteOf (before.length + 1), byteOf (after.length + (chanOf c s).reserved)] := by
  have hsplit : before ++ m :: after = (before ++ [m]) ++ after := by simp
  have hlen : before.length + 1 = (before ++ [m]).length := by simp
  have htake : (before ++ m :: after).take (before.length + 1) = before ++ [m] := by
    rw [hsplit, hlen, List.take_left]
  have hdrop : (before ++ m :: after).drop (before.length + 1) = after := by
    rw [hsplit, hlen, List.drop_left]
  simp only [ownerRetire, if_pos h, lentMessage_append hq hb hm, hq, retireCount_append hb hm, htake, hdrop,
    occupancy_evalCongestion, occupancy_removeMessages]

end Retire

/-- Settles O37: no LENT message of that number, then the queue split at the message named. -/
theorem retireRemovesTheLentPrefix : Obligations.RetireRemovesTheLentPrefix := by
  intro x tag c seq s payload f ch s0 named hr hp hheld
  have hcheck : retireCheck f.payload = .ok (c, seq) := retireCheck_bytes c seq
  have hchan : chanOf c s0 = ch := chanOf_restartKeepalive c x s
  have hheld0 : holdsActive x (chanOf c s0).receiver = true := by rw [hchan]; exact hheld
  refine ⟨fun hnone => ?_, fun before m after hq hb hm ha => ?_⟩
  · have hlent : lentMessage seq (chanOf c s0) = none := by rw [hchan]; exact lentMessage_eq_none hnone
    exact congrArg Host.Outcome.next (runRequest_unchanged (owner := fun a t => ownerRetire x a.1 a.2 t) hr hp
      (fun _ => rfl) hcheck (ownerRetire_notLent hheld0 hlent))
  · intro blocks
    have howner := ownerRetire_lent hheld0 (by rw [hchan]; exact hq) hb hm
    have hadvisory : Advisory (removeMessages c (before ++ [m]) after s0) :=
      advisory_removeMessages ha.restartKeepalive
    have hrun := runRequest_answered (handler := handleRetire x) (check := retireCheck)
      (owner := fun a t => ownerRetire x a.1 a.2 t) hr hp (fun _ => rfl) hcheck howner
      (by rw [evalCongestion_severe hadvisory, removeMessages_severe, restartKeepalive_severe, hr.severe])
      (by rw [isPresent_evalCongestion, isPresent_removeMessages, isPresent_restartKeepalive, hp])
    rw [removeMessages_frame, hchan, restartKeepalive_store] at hrun
    exact congrArg Host.Outcome.next hrun

/-! ### RETURN -/

theorem ownerReturn_of_holder {x : Station} {c : Fin 8} {s : State}
    (h : holdsActive x (chanOf c s).receiver = true) :
    ownerReturn x c s = .reply (setChan c (returnLent (chanOf c s)) s) .ok [byteOf (lentCount (chanOf c s))] :=
  if_pos h

/-! ### PURGE -/

section Purge

variable {x : Station} {c : Fin 8} {s : State}

/-- R8: a message is QUEUED or LENT. -/
theorem not_isQueued_eq_isLent (m : Message) : (!isQueued m) = isLent m := by
  obtain ⟨_, _, _, st, _, _, _⟩ := m
  cases st <;> rfl

/-- R66: the queue of channel `c` without its QUEUED messages. -/
def purgedState (c : Fin 8) (s : State) : State :=
  removeMessages c ((chanOf c s).queue.filter isQueued) ((chanOf c s).queue.filter isLent) s

/-- R66: congestion is evaluated when a message was removed. -/
def evaluatedPurge (c : Fin 8) (s : State) : State :=
  if (chanOf c s).queue.filter isQueued = [] then purgedState c s else evalCongestion c (purgedState c s)

theorem receiver_evaluatedPurge : (chanOf c (evaluatedPurge c s)).receiver = (chanOf c s).receiver := by
  have hpurged : (chanOf c (purgedState c s)).receiver = (chanOf c s).receiver := by
    rw [purgedState, chanOf_removeMessages]
  unfold evaluatedPurge
  split
  · exact hpurged
  · rw [evalCongestion_receiver, hpurged]

theorem occupancy_evaluatedPurge :
    occupancy (chanOf c (evaluatedPurge c s)) =
      ((chanOf c s).queue.filter isLent).length + (chanOf c s).reserved := by
  unfold evaluatedPurge
  split
  · exact occupancy_removeMessages
  · rw [occupancy_evalCongestion]
    exact occupancy_removeMessages

theorem evaluatedPurge_severe (h : Advisory s) : (evaluatedPurge c s).severe = s.severe := by
  unfold evaluatedPurge
  split
  · rfl
  · exact evalCongestion_severe (advisory_removeMessages h)

theorem isPresent_evaluatedPurge (y : Station) : isPresent y (evaluatedPurge c s) = isPresent y s := by
  unfold evaluatedPurge
  split
  · exact isPresent_removeMessages y
  · rw [isPresent_evalCongestion]
    exact isPresent_removeMessages y

/-- R59, R66: ARRIVAL is withdrawn from the holder of the receiver end, last. -/
theorem purgeChannel_eq (h : (chanOf c s).receiver.holder = some x) :
    purgeChannel c s = withdraw x (.arrival c) (evaluatedPurge c s) := by
  have hholder : (chanOf c (evaluatedPurge c s)).receiver.holder = some x := by rw [receiver_evaluatedPurge, h]
  have hpurge : purgeChannel c s = withdrawArrival c (evaluatedPurge c s) := by
    simp only [purgeChannel, evaluatedPurge, purgedState, not_isQueued_eq_isLent, List.isEmpty_iff]
  simp only [hpurge, withdrawArrival, hholder]

theorem ownerPurge_of_holder (h : holdsActive x (chanOf c s).receiver = true) :
    ownerPurge x c s =
      .reply (withdraw x (.arrival c) (evaluatedPurge c s)) .ok
        [byteOf ((chanOf c s).queue.filter isQueued).length,
          byteOf (((chanOf c s).queue.filter isLent).length + (chanOf c s).reserved)] := by
  simp only [ownerPurge, if_pos h, purgeChannel_eq (holder_of_holdsActive h), chanOf_withdraw,
    occupancy_evaluatedPurge, queuedCount, List.countP_eq_length_filter]

end Purge

/-- Settles O38: RETURN, then PURGE. -/
theorem returnAndPurge : Obligations.ReturnAndPurge := by
  refine ⟨fun x tag c s => ?_, fun x tag c s => ?_⟩
  · intro f ch hr hp hheld
    have howner := ownerReturn_of_holder (x := x) (c := c) (s := restartKeepalive x s)
      (by rw [chanOf_restartKeepalive]; exact hheld)
    rw [chanOf_restartKeepalive, returnLent, returnMessage_fun] at howner
    refine congrArg Host.Outcome.next
      (runRequest_answered (owner := ownerReturn x) hr hp (fun _ => rfl) (channelCheck_bytes c) howner ?_ ?_)
    · rw [setChan_severe, restartKeepalive_severe, hr.severe]
    · rw [isPresent_setChan, isPresent_restartKeepalive, hp]
  · intro f ch s0 gone kept blocks removed hr hp hheld ha
    have hchan : chanOf c s0 = ch := chanOf_restartKeepalive c x s
    have howner := ownerPurge_of_holder (x := x) (c := c) (s := s0) (by rw [hchan]; exact hheld)
    have hremoved : purgedState c s0 = removed := by
      rw [purgedState, removeMessages_frame, hchan, restartKeepalive_store]
      rfl
    have hrun := runRequest_answered (handler := handlePurge x) (owner := ownerPurge x) hr hp (fun _ => rfl)
      (channelCheck_bytes c) howner
      (by rw [withdraw_severe, evaluatedPurge_severe ha.restartKeepalive, restartKeepalive_severe, hr.severe])
      (by rw [isPresent_withdraw, isPresent_evaluatedPurge, isPresent_restartKeepalive, hp])
    rw [evaluatedPurge, hremoved, hchan] at hrun
    exact congrArg Host.Outcome.next hrun

end Sys2Proof.Machine
end

section
/-!
PROOFS. The draw engine: how a draw ends, what a pick finds and the item it builds (R75 to R79, R86); the frames of the
transmitter (R137, R144); and the statements on the first item, the item boundary and the spacing expiry settled.
-/

namespace Sys2Proof.Machine

/-! ### The end of a draw (R79) -/

section DrawEnd

variable {x : Station} {d : Draw} {reason : DrawReason} {s : State}

/-- R79 steps 1 to 4: the end frame is entered in the cache and handed over, and no draw is in flight. -/
def endedDraw (x : Station) (d : Draw) (reason : DrawReason) (s : State) : State :=
  transmit x (endFrame d reason) false
    (withDraw x none
      (enterCache x { tag := d.tag, kind := 0x2D, crc := d.requestCrc, reply := endFrame d reason } s))

/-- R79 step 5: the HALT with tag `tag` is answered, and its reply cached. -/
def haltAnswered (x : Station) (tag : Byte) (s : State) : State :=
  transmit x (haltReply tag) false
    (enterCache x { tag := tag, kind := 0x2E, crc := frameCrc 0x2E tag [], reply := haltReply tag } s)

theorem endDraw_of_noHalt (h : d.haltTag = none) : endDraw x d reason s = endedDraw x d reason s := by
  simp only [endDraw, h]
  rfl

theorem endDraw_of_halt {tag : Byte} (h : d.haltTag = some tag) :
    endDraw x d reason s = haltAnswered x tag (endedDraw x d reason s) := by
  simp only [endDraw, h]
  rfl

theorem endDraw_severe : (endDraw x d reason s).severe = s.severe := by
  cases h : d.haltTag with
  | none => rw [endDraw_of_noHalt h]; rfl
  | some tag => rw [endDraw_of_halt h]; rfl

end DrawEnd

/-! ### The candidate of a pick (R76) -/

section Candidate

variable {d : Draw} {ch : Channel} {reason : DrawReason}

theorem pickQueue_of_lend (h : d.mode = .lend) : pickQueue d ch = ch.queue := by
  simp only [pickQueue, h]

theorem pickQueue_of_peek (h : d.mode = .peek) : pickQueue d ch = afterCursor d.cursor ch.queue := by
  simp only [pickQueue, h]
  cases d.cursor <;> rfl

theorem candidate_of_none (h : (pickQueue d ch).find? isQueued = none) : candidate d ch = .error .queueEmpty := by
  cases hmode : d.mode with
  | lend =>
    rw [pickQueue_of_lend hmode] at h
    simp only [candidate, hmode, h]
  | peek =>
    rw [pickQueue_of_peek hmode] at h
    simp only [candidate, hmode, h]

theorem candidate_of_full (hmode : d.mode = .lend) (h : (pickQueue d ch).find? isQueued ≠ none)
    (hfull : 8 ≤ lentCount ch) : candidate d ch = .error .window := by
  obtain ⟨m, hm⟩ := Option.ne_none_iff_exists'.mp h
  have hwindow : Config.lendWindow ≤ lentCount ch := hfull
  rw [pickQueue_of_lend hmode] at hm
  simp only [candidate, hmode, hm, if_pos hwindow]

/-- R76: the two reasons for which a pick finds no candidate. -/
theorem candidate_of_reason
    (h : (reason = .queueEmpty ∧ (pickQueue d ch).find? isQueued = none) ∨
      (reason = .window ∧ d.mode = .lend ∧ (pickQueue d ch).find? isQueued ≠ none ∧ 8 ≤ lentCount ch)) :
    candidate d ch = .error reason := by
  rcases h with ⟨rfl, hnone⟩ | ⟨rfl, hmode, hsome, hfull⟩
  · exact candidate_of_none hnone
  · exact candidate_of_full hmode hsome hfull

/-- R76: a new draw has no cursor, so its first pick looks at the whole queue. -/
theorem pickQueue_newDraw (f : Frame) (a : DrawFields) : pickQueue (newDraw f a) ch = ch.queue := by
  obtain ⟨_, _, mode, _⟩ := a
  cases mode <;> rfl

end Candidate

/-! ### The item of a pick (R77) -/

section Item

variable {x : Station} {c : Fin 8} {mode : DeliveryMode} {d : Draw} {m : Message} {s : State}

theorem severe_withdrawArrival : (withdrawArrival c s).severe = s.severe := by
  unfold withdrawArrival
  split
  · rfl
  · exact withdraw_severe _ _ _

theorem faults_withdrawArrival (y : Station) : (unitOf y (withdrawArrival c s)).faults = (unitOf y s).faults := by
  unfold withdrawArrival
  split
  · rfl
  · exact withdraw_faults _ _ _ _

theorem severe_deliveredState : (deliveredState c mode m s).severe = s.severe := by
  cases mode with
  | peek => exact deliver_severe
  | lend =>
    simp only [deliveredState, lend]
    split
    · exact deliver_severe
    · rw [severe_withdrawArrival, setChan_severe, deliver_severe]

theorem faults_deliveredState (y : Station) : (unitOf y (deliveredState c mode m s)).faults = (unitOf y s).faults := by
  cases mode with
  | peek => exact congrArg (·.faults) (unitOf_deliver ..)
  | lend =>
    simp only [deliveredState, lend]
    split
    · exact congrArg (·.faults) (unitOf_deliver ..)
    · rw [faults_withdrawArrival, unitOf_setChan, unitOf_deliver]

/-- R77 steps 1 to 3: the state after the delivery of an item, its lend and its fault. -/
def takenState (x : Station) (c : Fin 8) (mode : DeliveryMode) (m : Message) (s : State) : State :=
  recordDamage x c m.seq (deliver c m 0 (min 56 m.length) s).2.2 (deliveredState c mode m s)

/-- R152: while no kind of the station is SEVERE, an item makes no station depart. -/
theorem takenState_severe (ha : AdvisoryAt x s) : (takenState x c mode m s).severe = s.severe := by
  have hadvisory : AdvisoryAt x (deliveredState c mode m s) :=
    AdvisoryAt.of_eq (congrArg (·.kinds) (faults_deliveredState x)) ha
  rw [takenState, recordDamage_severe hadvisory, severe_deliveredState]

/-- R77: the state after the item of message `m`, whose frame is handed over. -/
def itemSent (x : Station) (d : Draw) (m : Message) (s : State) : State :=
  transmit x
    (itemFrame (afterItem d m) m (m.damaged || (deliver d.channel m 0 (min 56 m.length) s).2.2)
      (deliver d.channel m 0 (min 56 m.length) s).2.1) true
    (withDraw x (some (afterItem d m)) (takenState x d.channel d.mode m s))

theorem pick_of_reason {reason : DrawReason} (h : candidate d (chanOf d.channel s) = .error reason) :
    pick x d s = endDraw x d reason s := by
  simp only [pick, h]

theorem pick_of_candidate (ha : AdvisoryAt x s) (hs : s.severe = [])
    (h : candidate d (chanOf d.channel s) = .ok m) : pick x d s = itemSent x d m s := by
  have hstate : (takeItem x d m s).1 = takenState x d.channel d.mode m s := takeItem_state x d m s
  have hunmarked : ¬((takeItem x d m s).1.severe.contains x = true) := by
    rw [hstate, takenState_severe ha, hs]
    simp
  simp only [pick, h, buildItem, if_neg hunmarked]
  rfl

theorem itemSent_severe (ha : AdvisoryAt x s) : (itemSent x d m s).severe = s.severe := takenState_severe ha

end Item

/-! ### The draw in flight does not show in what a pick does -/

section WithDraw

variable {x : Station} {o : Option Draw} {s : State}

theorem withDraw_withDraw (p : Option Draw) : withDraw x p (withDraw x o s) = withDraw x p s := by
  simp only [withDraw, unitOf_setUnit_self, setUnit_setUnit]

theorem enterCache_withDraw (e : CacheEntry) : enterCache x e (withDraw x o s) = withDraw x o (enterCache x e s) := by
  simp only [enterCache, withDraw, unitOf_setUnit_self, setUnit_setUnit]

theorem endedDraw_withDraw {d : Draw} {reason : DrawReason} :
    endedDraw x d reason (withDraw x o s) = endedDraw x d reason s := by
  simp only [endedDraw, enterCache_withDraw, withDraw_withDraw]

theorem withDraw_of_draw (h : (unitOf x s).draw = o) : withDraw x o s = s := by
  rw [withDraw, ← h]
  exact setUnit_unitOf x s

/-- R79: with no draw in flight, the end of one caches the end frame and hands it over. -/
theorem endedDraw_of_noDraw {d : Draw} {reason : DrawReason} (h : (unitOf x s).draw = none) :
    endedDraw x d reason s =
      transmit x (endFrame d reason) false
        (enterCache x { tag := d.tag, kind := 0x2D, crc := d.requestCrc, reply := endFrame d reason } s) := by
  rw [endedDraw, withDraw_of_draw (by rw [enterCache_draw, h])]

theorem takenState_withDraw {c : Fin 8} {mode : DeliveryMode} {m : Message}
    (h : holdsActive x (chanOf c s).receiver = true) :
    takenState x c mode m (withDraw x o s) = withDraw x o (takenState x c mode m s) := by
  have hw : holdsActive x (chanOf c (withDraw x o s)).receiver = true := h
  simp only [takenState, deliveredState_eq m h, deliveredState_eq m hw, deliver_withDraw, lentState_withDraw,
    recordDamage, recordFault_withDraw, apply_ite (withDraw x o)]

theorem itemSent_withDraw {d : Draw} {m : Message} (h : holdsActive x (chanOf d.channel s).receiver = true) :
    itemSent x d m (withDraw x o s) = itemSent x d m s := by
  simp only [itemSent, takenState_withDraw h, deliver_withDraw, withDraw_withDraw]

end WithDraw

/-! ### DRAW -/

section DrawRequest

variable {x : Station} {f : Frame} {a : DrawFields} {s : State}

theorem ownerDraw_of_holder (h : holdsActive x (chanOf a.channel s).receiver = true) :
    ownerDraw x f a s = .finished (pick x (newDraw f a) (withDraw x (some (newDraw f a)) s)) := if_pos h

/-- R79: the first pick finds no candidate. -/
theorem ownerDraw_ends {reason : DrawReason} (h : holdsActive x (chanOf a.channel s).receiver = true)
    (hc : candidate (newDraw f a) (chanOf a.channel s) = .error reason) :
    ownerDraw x f a s = .finished (endedDraw x (newDraw f a) reason s) := by
  rw [ownerDraw_of_holder h, pick_of_reason (s := withDraw x _ s) hc, endDraw_of_noHalt rfl, endedDraw_withDraw]

/-- R77: the first pick finds a candidate. -/
theorem ownerDraw_sends {m : Message} (h : holdsActive x (chanOf a.channel s).receiver = true) (ha : AdvisoryAt x s)
    (hs : s.severe = []) (hc : candidate (newDraw f a) (chanOf a.channel s) = .ok m) :
    ownerDraw x f a s = .finished (itemSent x (newDraw f a) m s) := by
  have hadvisory : AdvisoryAt x (withDraw x (some (newDraw f a)) s) :=
    AdvisoryAt.of_eq (s := s) (by rw [unitOf_withDraw]) ha
  rw [ownerDraw_of_holder h, pick_of_candidate (s := withDraw x _ s) hadvisory hs hc,
    itemSent_withDraw (d := newDraw f a) h]

end DrawRequest

theorem AdvisoryAt.restartKeepalive {x y : Station} {s : State} (h : AdvisoryAt x s) :
    AdvisoryAt x (restartKeepalive y s) :=
  AdvisoryAt.of_eq (congrArg (·.kinds) (restartKeepalive_faults ..)) h

/-- Settles O39: the first pick of the new draw, with no candidate and with one. -/
theorem drawBeginsWithItsFirstItem : Obligations.DrawBeginsWithItsFirstItem := by
  intro x tag c count spacing mode s payload f ch s0 h1 h8 h15 hr hp hheld
  have hpayload : payload = [byteOf c.val, byteOf count, modeByte mode, byteOf spacing] := by cases mode <;> rfl
  have hcheck : drawCheck f.payload = .ok { channel := c, count := count, mode := mode, spacing := spacing } :=
    (congrArg drawCheck hpayload).trans (drawCheck_bytes c mode h1 h8 h15)
  have hchan : chanOf c s0 = ch := chanOf_restartKeepalive c x s
  have hheld0 : holdsActive x (chanOf c s0).receiver = true := by rw [hchan]; exact hheld
  have hsevere : s0.severe = [] := by rw [restartKeepalive_severe, hr.severe]
  have hnone : (unitOf x s0).draw = none := by
    obtain ⟨⟨_, _, _, hdraw, _, _⟩, _⟩ := hr
    rw [restartKeepalive_draw, hdraw]
  have hqueue : pickQueue (newDraw f { channel := c, count := count, mode := mode, spacing := spacing })
      (chanOf c s0) = ch.queue := by rw [pickQueue_newDraw, hchan]
  refine ⟨fun reason hreason => ?_, fun m hm hw ha => ?_⟩
  · intro last
    rw [← hqueue, ← hchan] at hreason
    have hrun := runRequest_finished (handler := handleDraw x) (check := drawCheck) (owner := ownerDraw x f) hr hp
      (fun _ => rfl) hcheck (ownerDraw_ends hheld0 (candidate_of_reason hreason)) hsevere
    rw [endedDraw_of_noDraw hnone] at hrun
    exact congrArg Host.Outcome.next hrun
  · intro d lent taken context item
    rw [← hqueue] at hm
    rw [← hchan] at hw
    have hlent : lent = deliveredState c mode m s0 := by
      rw [deliveredState_eq m hheld0]
      cases mode with
      | peek => rfl
      | lend => simp only [lent, lentState, chanOf_setChan_self]; rfl
    have htaken : taken = takenState x c mode m s0 := by
      simp only [taken, hlent]
      rfl
    have hrun := runRequest_finished (handler := handleDraw x) (check := drawCheck) (owner := ownerDraw x f) hr hp
      (fun _ => rfl) hcheck (ownerDraw_sends hheld0 ha.restartKeepalive hsevere (candidate_of_find hm hw))
      ((itemSent_severe ha.restartKeepalive).trans hsevere)
    rw [htaken]
    refine congrArg Host.Outcome.next (hrun.trans ?_)
    cases mode <;> rfl

/-! ### The transmitter (R137, R144) -/

section Transmitter

variable {x : Station} {f : OutFrame} {item : Bool} {s : State}

theorem transmit_idle (h : (linkOf x s).tx = []) :
    transmit x f item s =
      setLink x { linkOf x s with
        tx := [{ frame := f, drawItem := item }], txClocks := frameClocks (s.straps.get x) f } s := by
  simp [transmit, h]

theorem transmit_busy (h : (linkOf x s).tx ≠ []) :
    transmit x f item s =
      setLink x { linkOf x s with tx := (linkOf x s).tx ++ [{ frame := f, drawItem := item }] } s := by
  simp [transmit, h]

/-- R137: 10 bits for each character of the frame. -/
theorem frameClocks_of_bit {r : Straps} {bit : Nat} (h : bitClocks r = bit) :
    frameClocks r f = 10 * (f.payload.length + 6) * bit := by
  rw [frameClocks, h, Nat.mul_comm (f.payload.length + 6) 10]

theorem bitClocks_of_levels {r : Straps} {r1 r0 : Bool} (h1 : r.rate1 = r1) (h0 : r.rate0 = r0) :
    bitClocks r = bitClocks { rate1 := r1, rate0 := r0 } := by
  rw [← h1, ← h0]

/-- R144: the transmission of the first frame ends and the next one begins. -/
theorem shiftTransmitter_of_cons {first : TxEntry} {rest : List TxEntry} (h : (linkOf x s).tx = first :: rest) :
    shiftTransmitter x s =
      setLink x { linkOf x s with tx := rest, txClocks := clocksOfFirst (s.straps.get x) rest } s := by
  simp only [shiftTransmitter, h, List.tail_cons]

end Transmitter

/-! ### The end of a transmission (R78) -/

/-- R132: an event that makes no station depart. -/
theorem runEvent_of_eq {event : State → State} {s t : State} (hrun : Running s) (he : event s = t)
    (ht : t.severe = []) : runEvent event s = t := (runEvent_running hrun.1 (he ▸ ht)).trans he

section Boundary

variable {x : Station} {d : Draw} {first : TxEntry} {rest : List TxEntry} {s : State}

theorem endTransmission_of_other (htx : (linkOf x s).tx = first :: rest)
    (h : first.drawItem = false ∨ (unitOf x s).draw = none) : endTransmission x s = shiftTransmitter x s := by
  have hdraw : (unitOf x (shiftTransmitter x s)).draw = (unitOf x s).draw := rfl
  simp only [endTransmission, htx, hdraw]
  rcases h with h | h
  · rw [h]
  · rw [h]
    cases first.drawItem <;> rfl

theorem itemBoundary_of_other (htx : (linkOf x s).tx = first :: rest) (h : first.drawItem = false) :
    itemBoundary x s = s := by
  simp [itemBoundary, sendingItem, htx, h]

theorem itemBoundary_eq_atBoundary (htx : (linkOf x s).tx = first :: rest) (hitem : first.drawItem = true)
    (hdraw : (unitOf x s).draw = some d) : itemBoundary x s = atBoundary x d (shiftTransmitter x s) := by
  have hshifted : (unitOf x (shiftTransmitter x s)).draw = some d := hdraw
  simp only [itemBoundary, sendingItem, endTransmission, htx, hitem, if_true, hshifted]

theorem atBoundary_of_last (h : d.remaining = 0) : atBoundary x d s = endDraw x d .count s := if_pos h

theorem atBoundary_of_halt {halt : Byte} (h : d.remaining ≠ 0) (hh : d.haltTag = some halt) :
    atBoundary x d s = endDraw x d .halted s := by
  simp [atBoundary, h, hh]

theorem atBoundary_of_spacing (h : d.remaining ≠ 0) (hh : d.haltTag = none) (hs : d.spacing ≠ 0) :
    atBoundary x d s = withDraw x (some { d with phase := .spacing d.spacing }) s := by
  simp [atBoundary, h, hh, hs, withDraw]

end Boundary

/-- Settles O40: the branches of the item boundary in the state after the transmitter's shift, then the transmitter. -/
theorem itemBoundaryDecidesTheDraw : Obligations.ItemBoundaryDecidesTheDraw := by
  refine ⟨fun x first rest s hrun htx => ?_, fun x f item s => ?_⟩
  · intro shifted
    have hshift : shiftTransmitter x s = shifted := by
      rw [shiftTransmitter_of_cons htx]
      cases rest <;> rfl
    have hsevere : shifted.severe = [] := hrun.2
    refine ⟨fun hother => ?_, fun hother => ?_, fun d hitem hdraw => ?_⟩
    · exact congrArg Host.Outcome.next
        (runEvent_of_eq hrun ((endTransmission_of_other htx hother).trans hshift) hsevere)
    · exact congrArg Host.Outcome.next (runEvent_of_eq hrun (itemBoundary_of_other htx hother) hrun.2)
    · intro last ended halted
      have hboundary : itemBoundary x s = atBoundary x d shifted := by
        rw [itemBoundary_eq_atBoundary htx hitem hdraw, hshift]
      refine ⟨fun hlast hhalt => ?_, fun halt hlast hhalt => ?_, fun halt hmore hhalt => ?_,
        fun hmore hhalt hspacing => ?_, fun hmore hhalt hspacing => ?_⟩
      · rw [atBoundary_of_last hlast, endDraw_of_noHalt hhalt] at hboundary
        exact congrArg Host.Outcome.next (runEvent_of_eq hrun hboundary hsevere)
      · rw [atBoundary_of_last hlast, endDraw_of_halt hhalt] at hboundary
        exact congrArg Host.Outcome.next (runEvent_of_eq hrun hboundary hsevere)
      · rw [atBoundary_of_halt hmore hhalt, endDraw_of_halt hhalt] at hboundary
        exact congrArg Host.Outcome.next (runEvent_of_eq hrun hboundary hsevere)
      · rw [atBoundary_of_spacing hmore hhalt hspacing] at hboundary
        exact congrArg Host.Outcome.next (runEvent_of_eq hrun hboundary hsevere)
      · have hpick := itemBoundary_of_item htx hitem hdraw hmore hhalt hspacing
        rw [hshift] at hpick
        have hrunning : isRunning s = true := by rw [isRunning, hrun.1]; rfl
        exact congrArg Host.Outcome.next ((if_pos hrunning).trans (congrArg settle hpick))
  · intro entry clocks
    have hclocks : ∀ {bit}, bitClocks (s.straps.get x) = bit → clocks bit := fun h =>
      ⟨frameClocks_of_bit h, fun hidle => by rw [transmit_idle hidle, frameClocks_of_bit h]⟩
    exact ⟨fun h1 h0 => hclocks (bitClocks_of_levels h1 h0), fun h1 h0 => hclocks (bitClocks_of_levels h1 h0),
      fun h1 h0 => hclocks (bitClocks_of_levels h1 h0), fun h1 h0 => hclocks (bitClocks_of_levels h1 h0),
      fun hbusy => transmit_busy hbusy⟩

/-! ### The spacing expiry (R78) -/

section Spacing

variable {x : Station} {d : Draw} {s : State}

theorem expireSpacing_of_due (hdraw : (unitOf x s).draw = some d) (h : d.phase = .spacing 0) :
    expireSpacing x s = pick x d s := by
  simp only [expireSpacing, hdraw, h, if_true]

theorem expireSpacing_of_not_due (hdraw : (unitOf x s).draw = some d) (h : d.phase ≠ .spacing 0) :
    expireSpacing x s = s := by
  simp only [expireSpacing, hdraw]
  cases hphase : d.phase with
  | sending => rfl
  | spacing left => exact if_neg fun hleft => h (by rw [hphase, hleft])

end Spacing

/-- Settles O41: the pick of the spacing expiry, with no candidate and with one. -/
theorem spacingExpiryPicksTheNextItem : Obligations.SpacingExpiryPicksTheNextItem := by
  intro x d s hrun hdraw ch after
  refine ⟨fun hwaits => ?_, fun hdue hhalt => ⟨fun reason hreason => ?_, fun m hm hw ha => ?_⟩⟩
  · exact congrArg Host.Outcome.next (runEvent_of_eq hrun (expireSpacing_of_not_due hdraw hwaits) hrun.2)
  · intro last t
    have hpick := (expireSpacing_of_due hdraw hdue).trans
      ((pick_of_reason (candidate_of_reason hreason)).trans (endDraw_of_noHalt hhalt))
    exact congrArg Host.Outcome.next (runEvent_of_eq hrun hpick hrun.2)
  · intro g lent taken context item
    have hlent : lent = deliveredState d.channel d.mode m s := by
      cases hmode : d.mode with
      | peek => simp only [lent, hmode]; rfl
      | lend =>
        simp only [lent, hmode, deliveredState, lend, withdrawArrival]
        rw [chanOf_setChan_self, receiver_deliver] <;> rfl
    have htaken : taken = takenState x d.channel d.mode m s := by
      simp only [taken, hlent]
      rfl
    have hpick := (expireSpacing_of_due hdraw hdue).trans (pick_of_candidate ha hrun.2 (candidate_of_find hm hw))
    rw [htaken]
    exact congrArg Host.Outcome.next (runEvent_of_eq hrun hpick ((itemSent_severe ha).trans hrun.2))

end Sys2Proof.Machine
end

section
/-!
PROOFS. The arrival of a request frame and its taking (R81, R82, R128, R134, R139, R141, R142, R145): what a good frame
does to the draw in flight and to the input queue, which frames wait, and the statements on HALT and on complete frames
settled.
-/

namespace Sys2Proof.Machine

/-! ### The taking of the oldest frame (R145) -/

section Taking

variable {x : Station} {f : Frame} {handler : Frame → State → State} {s : State}

theorem mayTake_iff : mayTake x s = true ↔ (unitOf x s).draw = none ∧ (linkOf x s).tx.length ≤ 1 := by
  rw [mayTake, Bool.and_eq_true, Option.isNone_iff_eq_none, decide_eq_true_iff]

theorem takeHead_of_head {rest : List Frame} (h : (linkOf x s).inQueue = f :: rest) (ht : mayTake x s = true) :
    takeHead x f handler s = handler f (setLink x { linkOf x s with inQueue := rest } s) := by
  simp only [takeHead, h, ht, and_self, if_true]

/-- R145: a frame that is not the oldest, or may not be taken yet, waits. -/
theorem takeHead_waits (h : mayTake x s = true → (linkOf x s).inQueue.head? ≠ some f) :
    takeHead x f handler s = s := by
  cases hq : (linkOf x s).inQueue with
  | nil => simp only [takeHead, hq]
  | cons g rest =>
    rw [hq, List.head?_cons] at h
    have hkept : ¬(g = f ∧ mayTake x s = true) := fun ⟨he, ht⟩ => h ht (congrArg some he)
    simp only [takeHead, hq, if_neg hkept]

theorem takeHead_of_not_mem (h : f ∉ (linkOf x s).inQueue) : takeHead x f handler s = s :=
  takeHead_waits fun _ hhead => h (List.mem_of_head? hhead)

/-- A request command whose frame waits is the frame's taking. -/
theorem runRequest_of_mem (hs : s.phase = .running) (hf : f ∈ (linkOf x s).inQueue) :
    runRequest x f handler s = settle (takeHead x f handler s) := by
  have hmem : (linkOf x s).inQueue.contains f = true := List.contains_iff_mem.mpr hf
  simp only [runRequest, isRunning, hs, beq_self_eq_true, if_true, hmem]

/-- A request command whose frame does not wait begins with the frame's arrival. -/
theorem runRequest_of_not_mem (hs : s.phase = .running) (hb : (linkOf x s).rx.inBreak = false)
    (hf : f ∉ (linkOf x s).inQueue) :
    runRequest x f handler s = settle (takeHead x f handler (goodFrame x f s)) := by
  have hmem : (linkOf x s).inQueue.contains f = false :=
    (Bool.not_eq_true _).mp fun h => hf (List.contains_iff_mem.mp h)
  simp only [runRequest, isRunning, hs, beq_self_eq_true, if_true, hmem, hb, Bool.false_eq_true, if_false]

end Taking

/-! ### A good frame (R81, R128, R142) -/

section GoodFrame

variable {x : Station} {f : Frame} {s : State}

theorem haltTarget_restartKeepalive : haltTarget x f (restartKeepalive x s) = haltTarget x f s := by
  simp only [haltTarget, restartKeepalive_draw, cacheMatch_restartKeepalive]

/-- R81: a HALT that acts on the draw in flight. -/
theorem goodFrame_of_halt {d : Draw} (h : haltTarget x f s = some d) :
    goodFrame x f s = haltDraw x d f.tag (restartKeepalive x s) := by
  simp only [goodFrame, haltTarget_restartKeepalive, h]

theorem goodFrame_of_queued (h : ¬HaltActs x f s) : goodFrame x f s = joinQueue x f (restartKeepalive x s) := by
  have htarget : haltTarget x f s = none := (haltTarget_eq_none x f s).mpr h
  simp only [goodFrame, haltTarget_restartKeepalive, htarget]

theorem joinQueue_of_room (h : (linkOf x s).inQueue.length < 4) :
    joinQueue x f s = setLink x { linkOf x s with inQueue := (linkOf x s).inQueue ++ [f] } s := if_pos h

theorem joinQueue_of_full (h : 4 ≤ (linkOf x s).inQueue.length) :
    joinQueue x f s = recordFault x .overrun (.header (headerBytes f)) s := if_neg (Nat.not_lt.mpr h)

/-- R142: a good frame that acts on no draw and finds room. -/
theorem goodFrame_of_room (hn : ¬HaltActs x f s) (h : (linkOf x s).inQueue.length < 4) :
    goodFrame x f s =
      setLink x { linkOf x s with inQueue := (linkOf x s).inQueue ++ [f] } (restartKeepalive x s) := by
  rw [goodFrame_of_queued hn, joinQueue_of_room (by rw [linkOf_restartKeepalive]; exact h), linkOf_restartKeepalive]

theorem goodFrame_of_full (hn : ¬HaltActs x f s) (h : 4 ≤ (linkOf x s).inQueue.length) :
    goodFrame x f s = recordFault x .overrun (.header (headerBytes f)) (restartKeepalive x s) := by
  rw [goodFrame_of_queued hn, joinQueue_of_full (by rw [linkOf_restartKeepalive]; exact h)]

/-- R145: a frame that has just joined the queue waits behind those before it, or until it may be taken. -/
theorem takeHead_of_joined {handler : Frame → State → State} (hf : f ∉ (linkOf x s).inQueue)
    (h : mayTake x s = true → (linkOf x s).inQueue ≠ []) :
    takeHead x f handler
        (setLink x { linkOf x s with inQueue := (linkOf x s).inQueue ++ [f] } (restartKeepalive x s)) =
      setLink x { linkOf x s with inQueue := (linkOf x s).inQueue ++ [f] } (restartKeepalive x s) := by
  refine takeHead_waits fun ht => ?_
  rw [mayTake_iff, unitOf_setLink, restartKeepalive_draw, linkOf_setLink_self, ← mayTake_iff] at ht
  rw [linkOf_setLink_self, List.head?_append_of_ne_nil _ (h ht)]
  exact fun hhead => hf (List.mem_of_head? hhead)

end GoodFrame

/-! ### HALT -/

section Halt

variable {x : Station} {tag : Byte} {d : Draw} {s : State}

theorem haltTarget_of_halt (hd : (unitOf x s).draw = some d) (hh : d.haltTag = none)
    (hc : cacheMatch x (requestFrame 0x2E tag []) s = none) : haltTarget x (requestFrame 0x2E tag []) s = some d := by
  simp only [haltTarget, hd]
  exact if_pos ⟨rfl, hh, rfl, hc⟩

theorem haltDraw_of_sending (h : d.phase = .sending) :
    haltDraw x d tag s = withDraw x (some { d with haltTag := some tag }) s := by
  simp only [haltDraw, h]
  rfl

/-- R81: in phase SPACING the draw ends, and the HALT is answered after the end frame. -/
theorem haltDraw_of_spacing {left : Nat} (h : d.phase = .spacing left) :
    haltDraw x d tag s =
      haltAnswered x tag (endedDraw x { d with haltTag := some tag } .halted s) := by
  simp only [haltDraw, h]
  exact endDraw_of_halt rfl

theorem haltDraw_severe : (haltDraw x d tag s).severe = s.severe := by
  unfold haltDraw
  simp only
  split
  · rfl
  · exact endDraw_severe

theorem haltDraw_inQueue : (linkOf x (haltDraw x d tag s)).inQueue = (linkOf x s).inQueue := by
  cases h : d.phase with
  | sending => rw [haltDraw_of_sending h]; rfl
  | spacing left =>
    rw [haltDraw_of_spacing h, haltAnswered, transmit_inQueue, linkOf_enterCache, endedDraw, transmit_inQueue]
    rfl

/-- R81: a HALT that acts at its arrival joins no queue. -/
theorem runRequest_halt {handler : Frame → State → State} (hrun : Running s) (hb : (linkOf x s).rx.inBreak = false)
    (hq : requestFrame 0x2E tag [] ∉ (linkOf x s).inQueue)
    (hc : cacheMatch x (requestFrame 0x2E tag []) s = none) (hd : (unitOf x s).draw = some d)
    (hh : d.haltTag = none) :
    runRequest x (requestFrame 0x2E tag []) handler s = haltDraw x d tag (restartKeepalive x s) := by
  have hgood : goodFrame x (requestFrame 0x2E tag []) s = haltDraw x d tag (restartKeepalive x s) :=
    goodFrame_of_halt (haltTarget_of_halt hd hh hc)
  rw [runRequest_of_not_mem hrun.1 hb hq, hgood, takeHead_of_not_mem, settle_nil]
  · rw [haltDraw_severe, restartKeepalive_severe, hrun.2]
  · rw [haltDraw_inQueue, linkOf_restartKeepalive]
    exact hq

end Halt

/-- Settles O42: the HALT taken with no draw in flight, then the two phases of the draw on which one acts. -/
theorem haltStopsTheDraw : Obligations.HaltStopsTheDraw := by
  intro x tag s f s0
  refine ⟨fun hr hp => ?_, fun d hrun hb hq hc hd hh => ⟨fun hphase => ?_, fun left hphase => ?_⟩⟩
  · exact congrArg Host.Outcome.next (runRequest_unchanged (check := emptyCheck) (owner := fun _ t => ownerHalt t)
      hr hp (fun _ => rfl) rfl rfl)
  · have hrequest := runRequest_halt (handler := handleHalt x) hrun hb hq hc hd hh
    rw [haltDraw_of_sending hphase] at hrequest
    exact congrArg Host.Outcome.next hrequest
  · have hrequest := runRequest_halt (handler := handleHalt x) hrun hb hq hc hd hh
    rw [haltDraw_of_spacing hphase] at hrequest
    exact congrArg Host.Outcome.next hrequest

/-! ### A frame that arrives whole (R141) -/

section Complete

variable {x : Station} {f : Frame} {s : State}

/-- R128: the restart, with the statement's test of K. -/
theorem restartKeepalive_eq_ite :
    restartKeepalive x s =
      if isPresent x s = true ∧ 0 < (unitOf x s).record.period then
        setUnit x { unitOf x s with
          record := { (unitOf x s).record with keepaliveTimer := some (unitOf x s).record.period } } s
      else s := by
  have htimed : (isPresent x s && (unitOf x s).record.period != 0) = true ↔
      isPresent x s = true ∧ 0 < (unitOf x s).record.period := by
    rw [Bool.and_eq_true, bne_iff_ne, Nat.pos_iff_ne_zero]
  split
  · exact restartKeepalive_of_timed (htimed.mpr ‹_›)
  · exact restartKeepalive_of_untimed (mt htimed.mp ‹_›)

/-- R142: a good frame that arrives whole, acts on no draw and finds room. -/
theorem goodFrame_received_of_room (hn : ¬HaltActs x f s) (h : (linkOf x s).inQueue.length < 4) :
    goodFrame x f (receivedFrame x (linkOf x s) s.timeBase s) =
      setLink x { linkOf x s with
        rx := { state := .hunt, lastCharacter := s.timeBase, inBreak := false }
        inQueue := (linkOf x s).inQueue ++ [f] } (restartKeepalive x s) := by
  have hlink : linkOf x (receivedFrame x (linkOf x s) s.timeBase s) =
      { linkOf x s with rx := { state := .hunt, lastCharacter := s.timeBase, inBreak := false } } :=
    linkOf_setLink_self _ _ _
  have hactive : ¬HaltActs x f (receivedFrame x (linkOf x s) s.timeBase s) := hn
  rw [goodFrame_of_room hactive (by rw [hlink]; exact h), hlink, receivedFrame, restartKeepalive_setLink,
    setLink_setLink]

end Complete

/-! ### A frame that waits, taken from an ABSENT station (R134) -/

section NotJoined

variable {x : Station} {f : Frame} {s : State}

/-- R134: the answer to a request of an ABSENT station. -/
def notJoined (x : Station) (f : Frame) (s : State) : State :=
  transmit x (replyFrame f .notJoined (notJoinedFields x s)) false
    (recordFault x .notJoined (.header (headerBytes f)) s)

theorem notJoined_severe (hp : isPresent x s = false) : (notJoined x f s).severe = s.severe := by
  rw [notJoined, transmit_severe, recordFault_severe_absent hp]

theorem handleKnown_of_absent {α : Type} {check : List Byte → Except Status α} {owner : α → State → Handled}
    (hp : isPresent x s = false) (hc : cacheMatch x f s = none) (ha : kindForAbsent f.kind = false) :
    handleKnown x f check owner s = notJoined x f s := by
  simp only [handleKnown, hc, dispatch, hp, ha, Bool.not_false, Bool.and_self, if_true, refuseRequest]
  exact finishReply_absent (by rw [isPresent_recordFault, hp])

/-- R134: a frame of a known kind from an ABSENT station is answered NOT_JOINED, but for a JOIN, an IDENTIFY and a
FAULTS. -/
theorem handleFrame_of_absent (hp : isPresent x s = false) (hc : cacheMatch x f s = none)
    (hk : knownKind f.kind = true) (ha : kindForAbsent f.kind = false) : handleFrame x f s = notJoined x f s := by
  have hm : f.kind ∈ requestKinds := List.contains_iff_mem.mp hk
  simp only [requestKinds, List.mem_cons, List.not_mem_nil, or_false] at hm
  rcases hm with h | h | h | h | h | h | h | h | h | h | h | h | h | h | h | h | h | h | h | h | h | h | h | h | h | h |
    h | h
  all_goals
    simp (decide := true) only [handleFrame, h, if_true, if_false]
    exact handleKnown_of_absent hp hc ha

theorem kindForAbsent_eq_false {kind : Byte} (hj : kind ≠ 0x01) (hi : kind ≠ 0x04) (hf : kind ≠ 0x38) :
    kindForAbsent kind = false := by
  simp only [kindForAbsent, beq_eq_false_iff_ne.mpr hj, beq_eq_false_iff_ne.mpr hi, beq_eq_false_iff_ne.mpr hf,
    Bool.or_self]

end NotJoined

/-- Settles O8: a frame that arrives whole, then the request command as the arrival or the taking of its frame. -/
theorem completeFrameIsCheckedAndQueued : Obligations.CompleteFrameIsCheckedAndQueued := by
  refine ⟨fun x kind tag payload crc s hrun ha hb hlen => ?_, fun x kind tag payload s hrun => ?_⟩
  · intro f received timed good
    have htimed : timed = restartKeepalive x s := restartKeepalive_eq_ite.symm
    have harrives := frameArrives_eq (kind := kind) (tag := tag) (crc := crc) hb hlen
    have event : ∀ {t : State}, frameArrives x (kind :: tag :: payload) crc s = t → t.severe = [] →
        exec (.frameComplete x (kind :: tag :: payload) crc) s = .next t :=
      fun he ht => congrArg Host.Outcome.next (runEvent_of_eq hrun he ht)
    refine ⟨fun hcrc hn hroom => ?_, fun hcrc hn hfull => ?_, fun hcrc => ?_⟩
    · rw [if_pos hcrc, goodFrame_received_of_room hn hroom] at harrives
      rw [htimed]
      exact event harrives (by rw [setLink_severe, restartKeepalive_severe, hrun.2])
    · rw [if_pos hcrc, goodFrame_overrun hfull hn] at harrives
      rw [htimed]
      refine event harrives ?_
      have hadvisory : AdvisoryAt x (receivedFrame x (linkOf x s) s.timeBase (restartKeepalive x s)) :=
        ha.restartKeepalive (y := x)
      exact (recordFault_severe hadvisory).trans ((restartKeepalive_severe x s).trans hrun.2)
    · rw [if_neg hcrc] at harrives
      refine event harrives ?_
      have hadvisory : AdvisoryAt x (receivedFrame x (linkOf x s) s.timeBase s) := ha
      exact (recordFault_severe hadvisory).trans hrun.2
  · intro f i l s0 mayBeTaken left
    have hexec : exec i s = .next (runRequest x f (handleFrame x) s) := exec_requestCommand x kind tag payload s
    have hsevere0 : s0.severe = [] := by rw [restartKeepalive_severe, hrun.2]
    have hmay : mayTake x s = true ↔ mayBeTaken := mayTake_iff
    refine ⟨fun rest hq ht => ?_, fun hq hb ht => ?_, fun hf hwait => ?_, fun hf hb hwait hn => ⟨fun hroom => ?_,
      fun hfull ha => ?_⟩⟩
    · have hmem : f ∈ (linkOf x s).inQueue := by rw [hq]; exact List.mem_cons_self
      have hrequest : exec i s = .next (settle (handleFrame x f (left rest))) := by
        rw [hexec, runRequest_of_mem hrun.1 hmem, takeHead_of_head hq (hmay.mpr ht)]
      refine ⟨hrequest, fun hp hc hk hj hi hf => ?_⟩
      have habsent := handleFrame_of_absent (s := left rest) (f := f) hp hc hk (kindForAbsent_eq_false hj hi hf)
      rw [hrequest, habsent, settle_nil ((notJoined_severe (s := left rest) hp).trans hrun.2)]
      rfl
    · rw [hexec, runRequest_taken ⟨hrun.1, hb, hq, ht.1, ht.2, hrun.2⟩]
    · rw [hexec, runRequest_of_mem hrun.1 hf, takeHead_waits, settle_nil hrun.2]
      exact fun ht => hwait.resolve_left (not_not_intro (hmay.mp ht))
    · have hbehind : mayTake x s = true → l.inQueue ≠ [] := fun ht =>
        hwait.resolve_left (not_not_intro (hmay.mp ht))
      rw [hexec, runRequest_of_not_mem hrun.1 hb hf, goodFrame_of_room hn hroom, takeHead_of_joined hf hbehind,
        settle_nil]
      exact hsevere0
    · rw [hexec, runRequest_of_not_mem hrun.1 hb hf, goodFrame_of_full hn hfull, takeHead_of_not_mem, settle_nil]
      · rw [recordFault_severe ha.restartKeepalive, hsevere0]
      · rw [linkOf_recordFault, linkOf_restartKeepalive]
        exact hf

end Sys2Proof.Machine
end

section
/-!
PROOFS. The entries of the lease table: every step keeps their law, and no step but a device reset lowers a fence (R88,
R89).
-/

namespace Sys2Proof.Machine

/-- A property of the lease entries alone is kept where the changes of one entry and a millisecond keep it. -/
theorem kept_of_leases {P : State → Prop} (same : ∀ s t : State, t.leases = s.leases → P s → P t)
    (lease : ∀ e l s, (LeaseOk (leaseOf e s) → LeaseOk l) → (leaseOf e s).fence ≤ l.fence → P s → P (setLease e l s))
    (ticked : ∀ s, P s → P (tickedState s)) : Kept P where
  other s t _ _ _ hl _ := same s t hl
  unitSame _ _ _ _ _ := same _ _ rfl
  offered _ _ _ := same _ _ rfl
  dropped _ _ _ _ _ _ := same _ _ rfl
  withdrawn _ _ _ := same _ _ rfl
  chanSame _ _ _ _ := same _ _ rfl
  returned _ _ _ _ := same _ _ rfl
  damaged _ _ _ := same _ _ rfl
  lent _ _ _ := same _ _ rfl
  storeSame _ _ _ _ := same _ _ rfl
  appended _ _ _ _ _ _ _ _ _ _ _ := same _ _ rfl
  staged _ _ _ _ _ _ _ _ _ _ _ _ := same _ _ rfl
  replaced _ _ _ _ _ _ _ := same _ _ rfl
  completed x _ r s _ _ _ := same _ _ (by rw [completeStaging_eq, offerArrival_leases]; rfl)
  unstaged _ _ _ _ := same _ _ rfl
  allUnstaged x s := same _ _ (leasesSame_departStaging x s).1
  removed _ _ _ _ _ _ := same _ _ rfl
  closed _ _ := same _ _ rfl
  lease := lease
  ticked s h := by
    unfold tick
    split
    · exact h
    · exact same s _ rfl h
    · exact ticked s h
  released p s := same _ _ (by unfold releaseReset; split <;> rfl)
  initialised s := same _ _ (by unfold completeInit; split <;> rfl)

theorem leaseOf_of_leases {s t : State} (h : t.leases = s.leases) (e : Fin 16) : leaseOf e t = leaseOf e s := by
  rw [leaseOf, h, leaseOf]

/-! ### The law of the entries -/

theorem holdsLease_tickLease (x : Station) (client : Fin 8) (l : LeaseEntry) :
    holdsLease x client (tickLease l) = holdsLease x client l := by
  unfold holdsLease tickLease
  cases l.hold <;> rfl

/-- A millisecond leaves the claimants of an entry. -/
theorem leaseOk_tickLease {l : LeaseEntry} (h : LeaseOk l) : LeaseOk (tickLease l) := by
  obtain ⟨hlen, hapart, hholder, hfree⟩ := h
  refine ⟨by simpa [tickLease] using hlen, List.pairwise_map.mpr hapart, ?_, fun hn => ?_⟩
  · have hticked : (tickLease l).waiters = l.waiters.map fun w => { w with wait := w.wait - 1 } := rfl
    simpa only [hticked, List.all_map, Function.comp_def, holdsLease_tickLease] using hholder
  · have hnone : l.hold = none := Option.map_eq_none_iff.mp hn
    simp only [tickLease, hfree hnone, List.map_nil]

theorem leaseLaw_kept : Kept LeaseLaw :=
  kept_of_leases (fun _ _ hl h e => by rw [leaseOf_of_leases hl]; exact h e)
    (fun e l s hl _ h f => by
      rw [leaseOf_setLease]
      split
      · exact hl (h e)
      · exact h f)
    (fun s h e => by rw [leaseOf_tickedState]; exact leaseOk_tickLease (h e))

theorem step_keeps_leaseLaw (s t : State) (h : LeaseLaw s) (he : step s = .next t) : LeaseLaw t :=
  step_keeps resetState_lease leaseLaw_kept s t h he

/-! ### The fences -/

/-- R89: a fence that has reached a value stays at or above it. -/
theorem fence_kept (e : Fin 16) (n : Nat) : Kept fun s => n ≤ (leaseOf e s).fence.toNat :=
  kept_of_leases (fun _ _ hl h => by rw [leaseOf_of_leases hl]; exact h)
    (fun f l s _ hle h => by
      rw [leaseOf_setLease]
      split
      · subst e; exact h.trans (BitVec.le_def.mp hle)
      · exact h)
    (fun s h => by rw [leaseOf_tickedState]; exact h)

/-- Settles O59: every elementary change keeps the fence at or above the value it had before the step. -/
theorem fencesNeverFall : Obligations.FencesNeverFall := by
  intro s t e hstep hreset
  exact (fence_kept e (leaseOf e s).fence.toNat).step_kept hreset (le_refl _) hstep

end Sys2Proof.Machine
end

section
/-!
PROOFS. The wait counts: the number of a station's waiters on all entries together, and what the operations on the lease
table make of it (R90, R98, R99, R101, R103).
-/

namespace Sys2Proof.Machine

/-! ### Counting waiters -/

/-- R90: a station's waiters on one entry. -/
def waitsOf (x : Station) (l : LeaseEntry) : Nat := l.waiters.countP fun w => w.station == x

theorem waitCountOk_iff {x : Station} {s : State} :
    WaitCountOk x s ↔ s.waitCounts.get x = ∑ e : Fin 16, waitsOf x (leaseOf e s) := by
  have hcount : (allEntries.flatMap fun e => (leaseOf e s).waiters.filter fun w => w.station == x).length =
      ∑ e : Fin 16, waitsOf x (leaseOf e s) := by
    rw [allEntries_eq, List.length_flatMap, Fin.sum_univ_def]
    simp only [waitsOf, List.countP_eq_length_filter]
  rw [WaitCountOk, hcount]

/-- Where one entry alone has changed, the sum has changed by that entry's waiters. -/
theorem sum_waitsOf_of_entry {e : Fin 16} {s t : State} (x : Station)
    (hne : ∀ f, f ≠ e → leaseOf f t = leaseOf f s) :
    (∑ f : Fin 16, waitsOf x (leaseOf f t)) + waitsOf x (leaseOf e s) =
      (∑ f : Fin 16, waitsOf x (leaseOf f s)) + waitsOf x (leaseOf e t) := by
  have hrest : ∑ f ∈ Finset.univ.erase e, waitsOf x (leaseOf f t) =
      ∑ f ∈ Finset.univ.erase e, waitsOf x (leaseOf f s) :=
    Finset.sum_congr rfl fun f hf => by rw [hne f (Finset.ne_of_mem_erase hf)]
  rw [← Finset.add_sum_erase _ _ (Finset.mem_univ e), hrest,
    ← Finset.add_sum_erase _ (fun f => waitsOf x (leaseOf f s)) (Finset.mem_univ e)]
  omega

/-! ### The law with the counts -/

/-- R88 for every entry and R90 for every station. -/
structure WaitsCounted (s : State) : Prop where
  law : LeaseLaw s
  counts : ∀ x, s.waitCounts.get x = ∑ e : Fin 16, waitsOf x (leaseOf e s)

theorem waitsCounted_iff {s : State} : WaitsCounted s ↔ LeaseLaw s ∧ WaitCountLaw s :=
  ⟨fun h => ⟨h.law, waitCountOk_iff.mpr (h.counts .a), waitCountOk_iff.mpr (h.counts .b)⟩,
    fun ⟨hlaw, ha, hb⟩ => ⟨hlaw, fun x => by cases x <;> rw [← waitCountOk_iff] <;> assumption⟩⟩

namespace WaitsCounted

variable {s t : State}

theorem same (h : WaitsCounted s) (hst : LeasesSame s t) : WaitsCounted t :=
  ⟨fun e => by rw [hst.leaseOf]; exact h.law e, fun x => by simp only [hst.leaseOf, hst.2, h.counts]⟩

/-- R90: no more of a station's waiters wait for an entry than its count says. -/
theorem waitsOf_le (h : WaitsCounted s) (x : Station) (e : Fin 16) : waitsOf x (leaseOf e s) ≤ s.waitCounts.get x := by
  rw [h.counts]
  exact Finset.single_le_sum (f := fun f => waitsOf x (leaseOf f s)) (fun _ _ => Nat.zero_le _) (Finset.mem_univ e)

/-- One entry changes, and each station's count with its waiters there. -/
theorem of_entry {e : Fin 16} (h : WaitsCounted s) (hlaw : LeaseLaw t) (hne : ∀ f, f ≠ e → leaseOf f t = leaseOf f s)
    (hn : ∀ x, t.waitCounts.get x + waitsOf x (leaseOf e s) = s.waitCounts.get x + waitsOf x (leaseOf e t)) :
    WaitsCounted t := by
  refine ⟨hlaw, fun x => ?_⟩
  have hsum := sum_waitsOf_of_entry x hne
  have hcount := h.counts x
  have := hn x
  omega

/-- An entry changes and keeps its waiters. -/
theorem setLease {e : Fin 16} {l : LeaseEntry} (h : WaitsCounted s) (hl : LeaseOk (leaseOf e s) → LeaseOk l)
    (hw : l.waiters = (leaseOf e s).waiters) : WaitsCounted (setLease e l s) := by
  refine h.of_entry (e := e) (fun f => ?_) (fun f hf => leaseOf_setLease_ne _ _ hf) fun x => ?_
  · rw [leaseOf_setLease]
    split
    · exact hl (h.law e)
    · exact h.law f
  · rw [leaseOf_setLease_self, setLease_waitCounts, waitsOf, waitsOf, hw]

end WaitsCounted

/-! ### The hand-on -/

/-- R99: the waiters that leave the list of an entry that is handed on. -/
theorem waitsOf_handedOn (x : Station) (l : LeaseEntry) :
    waitsOf x (handedOn l) + (leavingWaiters l).countP (fun w => w.station == x) = waitsOf x l := by
  unfold handedOn leavingWaiters waitsOf
  cases hw : l.waiters with
  | nil => simp
  | cons w ws =>
    by_cases hx : exhausted l = true
    · simp [hx]
    · simp only [hx, grantLease, List.take_succ_cons, List.take_zero, List.countP_cons]
      simp

/-- R99: a fall of the wait count for each waiter that is told of its expiry. -/
theorem waitCounts_foldl_expire (x : Station) (e : Fin 16) (ws : List Waiter) (s : State) :
    (ws.foldl (fun t w => expireWaiter e w t) s).waitCounts.get x =
      s.waitCounts.get x - ws.countP fun w => w.station == x := by
  induction ws generalizing s with
  | nil => rfl
  | cons w ws ih =>
    rw [List.foldl_cons, ih, expireWaiter, offer_waitCounts, lowerWaitCount, waitCounts_setWaitCount,
      List.countP_cons]
    by_cases hx : x = w.station
    · subst hx
      simp only [if_true, beq_self_eq_true]
      omega
    · have hne : ¬((w.station == x) = true) := fun h => hx (beq_iff_eq.mp h).symm
      rw [if_neg hx, if_neg hne, Nat.add_zero]

/-- R99: the wait counts after a hand-on. -/
theorem waitCounts_handOn (x : Station) (e : Fin 16) (s : State) :
    (handOn e s).waitCounts.get x =
      s.waitCounts.get x - (leavingWaiters (leaseOf e s)).countP fun w => w.station == x := by
  unfold handOn leavingWaiters
  cases hw : (leaseOf e s).waiters with
  | nil => simp [hw]
  | cons w ws =>
    by_cases hx : exhausted (leaseOf e s) = true
    · simp only [hw, if_pos hx, waitCounts_foldl_expire, setLease_waitCounts]
    · simp only [hw, if_neg hx, offer_waitCounts, lowerWaitCount, waitCounts_setWaitCount, setLease_waitCounts,
        List.take_succ_cons, List.take_zero, List.countP_singleton]
      by_cases hs : x = w.station
      · subst hs; simp
      · have hne : ¬((w.station == x) = true) := fun h => hs (beq_iff_eq.mp h).symm
        rw [if_neg hs, if_neg hne, Nat.sub_zero]

/-! ### A claimant that leaves the wait list -/

theorem isWaiter_iff {x : Station} {client : Fin 8} {w : Waiter} :
    isWaiter x client w = true ↔ w.station = x ∧ w.client = client := by
  simp [isWaiter]

/-- R98, R101: the waiters before and behind the one that leaves. -/
theorem filter_not_isWaiter {x : Station} {client : Fin 8} {before after : List Waiter} {w : Waiter}
    (hothers : (before ++ after).any (isWaiter x client) = false) (hw : isWaiter x client w = true) :
    (before ++ w :: after).filter (fun v => !(isWaiter x client v)) = before ++ after := by
  rw [List.any_append, Bool.or_eq_false_iff, List.any_eq_false, List.any_eq_false] at hothers
  obtain ⟨hbefore, hafter⟩ := hothers
  rw [List.filter_append, List.filter_cons_of_neg (by simp [hw]), List.filter_eq_self.mpr, List.filter_eq_self.mpr]
  · exact fun v hv => by simpa using hafter v hv
  · exact fun v hv => by simpa using hbefore v hv

/-- R88: a claimant that waits for an entry stands in its list once. -/
theorem LeaseOk.split {x : Station} {client : Fin 8} {l : LeaseEntry} (h : LeaseOk l)
    (hany : l.waiters.any (isWaiter x client) = true) :
    ∃ before w after, l.waiters = before ++ w :: after ∧ (before ++ after).any (isWaiter x client) = false ∧
      isWaiter x client w = true := by
  obtain ⟨w, hmem, hw⟩ := List.any_eq_true.mp hany
  obtain ⟨before, after, hl⟩ := List.append_of_mem hmem
  refine ⟨before, w, after, hl, ?_, hw⟩
  obtain ⟨-, hapart, -, -⟩ := h
  rw [hl, List.pairwise_append, List.pairwise_cons] at hapart
  obtain ⟨-, ⟨hafter, -⟩, hbefore⟩ := hapart
  obtain ⟨hstation, hclient⟩ := isWaiter_iff.mp hw
  rw [List.any_append, Bool.or_eq_false_iff, List.any_eq_false, List.any_eq_false]
  refine ⟨fun v hv hc => ?_, fun v hv hc => ?_⟩
  · obtain ⟨hs, hcl⟩ := isWaiter_iff.mp hc
    exact hbefore v hv w List.mem_cons_self ⟨hs.trans hstation.symm, hcl.trans hclient.symm⟩
  · obtain ⟨hs, hcl⟩ := isWaiter_iff.mp hc
    exact hafter v hv ⟨hstation.trans hs.symm, hclient.trans hcl.symm⟩

/-- R98, R101: the entry and the wait count without the waiter. -/
theorem removeWaiter_eq {x : Station} {client : Fin 8} {e : Fin 16} {before after : List Waiter} {w : Waiter}
    {s : State} (hl : (leaseOf e s).waiters = before ++ w :: after)
    (hothers : (before ++ after).any (isWaiter x client) = false) (hw : isWaiter x client w = true) :
    removeWaiter e x client s =
      setWaitCount x (s.waitCounts.get x - 1) (setLease e { leaseOf e s with waiters := before ++ after } s) := by
  unfold removeWaiter lowerWaitCount
  simp only [hl, filter_not_isWaiter hothers hw, setLease_waitCounts]

/-- R92: what an ACQUIRE can make of the state. -/
theorem ownerAcquire_cases (x : Station) (a : AcquireFields) (s : State) :
    (ownerAcquire x a s).state = s ∨
      (ownerAcquire x a s).state = setLease a.entry (grantLease x a.client a.duration (leaseOf a.entry s)) s ∨
      (ownerAcquire x a s).state = appendWaiter x a s := by
  unfold ownerAcquire
  simp only
  split
  · split
    · exact .inl rfl
    · exact .inr (.inl rfl)
  · unfold acquireHeld
    split
    · exact .inl rfl
    · split
      · exact .inl rfl
      · split
        · exact .inl rfl
        · split
          · exact .inl rfl
          · split
            · exact .inl rfl
            · split
              · exact .inl rfl
              · exact .inr (.inr rfl)

/-! ### The operations on the lease table -/

namespace WaitsCounted

variable {s : State}

theorem handOn (h : WaitsCounted s) (e : Fin 16) : WaitsCounted (handOn e s) := by
  refine h.of_entry (e := e) (leaseLaw_kept.ofHandOn h.law) (fun f hf => leaseOf_handOn_ne s hf) fun x => ?_
  have hleft := waitsOf_handedOn x (leaseOf e s)
  have hle := h.waitsOf_le x e
  rw [waitCounts_handOn, leaseOf_handOn_self]
  omega

theorem recordEnding (h : WaitsCounted s) (e : Fin 16) (ending : Ending) :
    WaitsCounted (Machine.setLease e (recordEnding ending (leaseOf e s)) s) :=
  h.setLease Kept.leaseOk_recordEnding.mpr (recordEnding_waiters _ _)

theorem endHold (h : WaitsCounted s) (e : Fin 16) (ending : Ending) : WaitsCounted (endHold e ending s) :=
  (h.recordEnding e ending).handOn e

theorem removeWaiter (h : WaitsCounted s) {e : Fin 16} {x : Station} {client : Fin 8}
    (hany : (leaseOf e s).waiters.any (isWaiter x client) = true) : WaitsCounted (removeWaiter e x client s) := by
  obtain ⟨before, w, after, hl, hothers, hw⟩ := (h.law e).split hany
  refine h.of_entry (e := e) (leaseLaw_kept.ofRemoveWaiter h.law) (fun f hf => ?_) fun y => ?_
  · exact leaseOf_setLease_ne _ _ hf
  · have hle := h.waitsOf_le y e
    have hcount : waitsOf y (leaseOf e s) =
        (before ++ after).countP (fun v => v.station == y) + if y = x then 1 else 0 := by
      rw [waitsOf, hl, List.countP_append, List.countP_cons, List.countP_append, (isWaiter_iff.mp hw).1]
      by_cases hy : y = x
      · subst hy; simp; omega
      · have hne : ¬((x == y) = true) := fun hc => hy (beq_iff_eq.mp hc).symm
        rw [if_neg hy, if_neg hne]; omega
    rw [removeWaiter_eq hl hothers hw, leaseOf_setWaitCount, leaseOf_setLease_self, waitCounts_setWaitCount,
      setLease_waitCounts]
    have hafter : waitsOf y { leaseOf e s with waiters := before ++ after } =
        (before ++ after).countP fun v => v.station == y := rfl
    split
    · subst y
      rw [if_pos rfl] at hcount
      omega
    · rw [if_neg ‹_›] at hcount
      omega

/-- R94: the claimant joins the wait list. -/
theorem appendWaiter (h : WaitsCounted s) {x : Station} {a : AcquireFields}
    (hlaw : LeaseLaw (appendWaiter x a s)) : WaitsCounted (appendWaiter x a s) := by
  refine h.of_entry (e := a.entry) hlaw (fun f hf => leaseOf_setLease_ne _ _ hf) fun y => ?_
  unfold Machine.appendWaiter raiseWaitCount
  rw [leaseOf_setWaitCount, leaseOf_setLease_self, waitCounts_setWaitCount, setLease_waitCounts, waitsOf, waitsOf,
    List.countP_append, List.countP_singleton]
  by_cases hy : y = x
  · subst hy; simp; omega
  · have hne : ¬((x == y) = true) := fun hc => hy (beq_iff_eq.mp hc).symm
    rw [if_neg hy, if_neg hne]; omega

theorem ownerAcquire (h : WaitsCounted s) (x : Station) (a : AcquireFields) :
    WaitsCounted (ownerAcquire x a s).state := by
  have hlaw : LeaseLaw (Machine.ownerAcquire x a s).state := leaseLaw_kept.ofOwnerAcquire h.law
  rcases ownerAcquire_cases x a s with hs | hs | hs <;> rw [hs] at hlaw ⊢
  · exact h
  · refine h.setLease (fun _ => ?_) rfl
    have := hlaw a.entry
    rwa [leaseOf_setLease_self] at this
  · exact h.appendWaiter hlaw

theorem ownerRenew (h : WaitsCounted s) (x : Station) (r : RenewFields) : WaitsCounted (ownerRenew x r s).state := by
  have hlaw : LeaseLaw (Machine.ownerRenew x r s).state := leaseLaw_kept.ofOwnerRenew h.law
  unfold Machine.ownerRenew at hlaw ⊢
  simp only at hlaw ⊢
  split at hlaw
  · exact h
  · exact h
  · refine h.setLease (fun _ => ?_) rfl
    have := hlaw r.entry
    rwa [Handled.state, leaseOf_setLease_self] at this

theorem ownerRelease (h : WaitsCounted s) (x : Station) (r : ReleaseFields) :
    WaitsCounted (ownerRelease x r s).state := by
  unfold Machine.ownerRelease
  simp only
  split
  · exact h
  · exact h
  · exact h.endHold _ _

theorem ownerCancel (h : WaitsCounted s) (x : Station) (e : Fin 16) (client : Fin 8) :
    WaitsCounted (ownerCancel x e client s).state := by
  unfold Machine.ownerCancel
  simp only
  split
  · rename_i hany
    exact h.removeWaiter hany
  · exact h

theorem offer (h : WaitsCounted s) (x : Station) (n : Notice) : WaitsCounted (offer x n s) :=
  h.same ⟨offer_leases _ _ _, offer_waitCounts _ _ _⟩

theorem lapseHold (h : WaitsCounted s) (e : Fin 16) : WaitsCounted (lapseHold e s) := by
  unfold Machine.lapseHold
  simp only
  split
  · exact h
  · split
    · exact ((h.recordEnding e .lapsed).offer _ _).handOn e
    · exact h

theorem expireWait (h : WaitsCounted s) (e : Fin 16) (x : Station) (client : Fin 8) :
    WaitsCounted (expireWait e x client s) := by
  unfold Machine.expireWait
  split
  · rename_i hany
    refine (h.removeWaiter ?_).offer _ _
    obtain ⟨w, hmem, hw⟩ := List.any_eq_true.mp hany
    exact List.any_eq_true.mpr ⟨w, hmem, (Bool.and_eq_true _ _ ▸ hw).1⟩
  · exact h

theorem tick (h : WaitsCounted s) : WaitsCounted (tick s) := by
  refine ⟨leaseLaw_kept.ticked s h.law, fun x => ?_⟩
  unfold Machine.tick
  split
  · exact h.counts x
  · exact h.counts x
  · show s.waitCounts.get x = ∑ e, waitsOf x (leaseOf e (tickedState s))
    have hwaits : ∀ l, waitsOf x (tickLease l) = waitsOf x l := fun l => List.countP_map
    simp only [leaseOf_tickedState, hwaits, h.counts]

/-! ### Departures -/

/-- R103 step 1: the departing station waits for no entry, and its peer as before. -/
theorem waitsRemoved (h : WaitsCounted s) (x : Station) : WaitsCounted (waitsRemoved x s) := by
  refine ⟨leaseLaw_kept.ofWaitCount (leaseLaw_kept.ofFold (fun _ _ ht => leaseLaw_kept.ofRemoveWaits ht) _ h.law),
    fun y => ?_⟩
  simp only [leaseOf_waitsRemoved, waitsOf, withoutWaits, List.countP_filter]
  by_cases hy : y = x
  · subst hy
    have hnone : ∀ w : Waiter, (w.station == y && w.station != y) = false := fun w => Bool.and_not_self _
    simp [Machine.waitsRemoved, hnone]
  · have hsame : ∀ w : Waiter, (w.station == y && w.station != x) = (w.station == y) := fun w => by
      by_cases hw : w.station = y
      · simp [hw, hy]
      · simp [hw]
    obtain rfl := Station.eq_peer_of_ne hy
    simp only [hsame, waitCount_waitsRemoved]
    exact h.counts _

theorem revokeOn (h : WaitsCounted s) (x : Station) (e : Fin 16) : WaitsCounted (revokeOn x e s) := by
  unfold Machine.revokeOn
  split
  · exact h.endHold e .revoked
  · exact h

theorem departLeases (h : WaitsCounted s) (x : Station) : WaitsCounted (departLeases x s) := by
  rw [departLeases_eq]
  exact foldl_keeps _ (fun e _ _ ht => ht.revokeOn x e) (h.waitsRemoved x)

theorem depart (h : WaitsCounted s) (x : Station) (cause : Cause) : WaitsCounted (depart x cause s) := by
  have hends : LeasesSame s (departEnds x cause (departFirst x s)) :=
    LeasesSame.trans (t := stopDraw x s) ⟨rfl, rfl⟩
      ((leasesSame_departStaging x _).trans (leasesSame_departEnds x cause _))
  have howners : WaitsCounted (departOwners x cause s) := (h.same hends).departLeases x
  have hcleared : LeasesSame (departOwners x cause s) (departed x cause s) :=
    ⟨by rw [departed, clearedState, setSevere_leases, setUnit_leases],
      by rw [departed, clearedState, setSevere_waitCounts, setUnit_waitCounts]⟩
  rw [depart_eq_offer]
  exact (howners.same hcleared).offer _ _

theorem departFault (h : WaitsCounted s) (x : Station) : WaitsCounted (departFault x s) := by
  unfold Machine.departFault
  split
  · exact h.depart x .fault
  · exact h.same ⟨rfl, rfl⟩

theorem settleSecond (h : WaitsCounted s) : WaitsCounted (settleSecond s) := by
  unfold Machine.settleSecond
  split
  · exact h
  · exact h.departFault _

theorem settle (h : WaitsCounted s) : WaitsCounted (settle s) := by
  unfold Machine.settle
  split
  · exact h
  · exact (h.departFault _).settleSecond
  · exact ((h.same (t := { s with freeTick := s.freeTick + 1 }) ⟨rfl, rfl⟩).departFault _).settleSecond

theorem joinStation (h : WaitsCounted s) (x : Station) (j : JoinFields) : WaitsCounted (joinStation x j s) := by
  rw [joinStation_eq]
  exact (h.same ((LeasesSame.trans (t := joinedUnit x j s) ⟨rfl, rfl⟩) (leasesSame_joinEnds x j.mode _))).offer _ _

theorem departForRejoin (h : WaitsCounted s) (x : Station) : WaitsCounted (departForRejoin x s) := by
  unfold Machine.departForRejoin settlePeerOfRejoin
  simp only
  split
  · have hgone := h.depart x .rejoin
    have hticked := hgone.same (t := { Machine.depart x .rejoin s with
      freeTick := (Machine.depart x .rejoin s).freeTick + 1 }) ⟨rfl, rfl⟩
    split
    · split
      · exact hticked.departFault _
      · exact hticked
    · exact hgone
  · exact h

theorem ownerJoin (h : WaitsCounted s) (x : Station) (j : JoinFields) : WaitsCounted (ownerJoin x j s).state :=
  (h.departForRejoin x).joinStation x j

theorem ownerLeave (h : WaitsCounted s) (x : Station) (f : Frame) : WaitsCounted (ownerLeave x f s).state := by
  rw [ownerLeave_eq]
  exact (h.depart x .left).same ⟨rfl, rfl⟩

end WaitsCounted

end Sys2Proof.Machine
end

section
/-!
PROOFS. What the operations outside the lease table leave of it, and the law with the counts along every request, event
and step (R88, R90).
-/

namespace Sys2Proof.Machine

/-! ### Offers, faults and the transmitter -/

theorem LeasesSame.refl (s : State) : LeasesSame s s := ⟨rfl, rfl⟩

theorem leasesSame_setUnit (x : Station) (u : StationUnit) (s : State) : LeasesSame s (setUnit x u s) := ⟨rfl, rfl⟩

theorem leasesSame_setLink (x : Station) (l : LinkInterface) (s : State) : LeasesSame s (setLink x l s) := ⟨rfl, rfl⟩

theorem leasesSame_setChan (c : Fin 8) (ch : Channel) (s : State) : LeasesSame s (setChan c ch s) := ⟨rfl, rfl⟩

theorem leasesSame_transmit (x : Station) (f : OutFrame) (d : Bool) (s : State) : LeasesSame s (transmit x f d s) :=
  ⟨rfl, rfl⟩

theorem leasesSame_offer (x : Station) (n : Notice) (s : State) : LeasesSame s (offer x n s) :=
  ⟨offer_leases _ _ _, offer_waitCounts _ _ _⟩

theorem leasesSame_recordFault (x : Station) (k : FaultKind) (i : CaptureInfo) (s : State) :
    LeasesSame s (recordFault x k i s) := ⟨recordFault_leases _ _ _ _, recordFault_waitCounts _ _ _ _⟩

theorem leasesSame_evalCongestion (c : Fin 8) (s : State) : LeasesSame s (evalCongestion c s) :=
  ⟨evalCongestion_leases _ _, evalCongestion_waitCounts _ _⟩

theorem leasesSame_offerArrival (c : Fin 8) (s : State) : LeasesSame s (offerArrival c s) :=
  ⟨offerArrival_leases _ _, offerArrival_waitCounts _ _⟩

theorem leasesSame_finishReply (x : Station) (f : Frame) (r : OutFrame) (s : State) :
    LeasesSame s (finishReply x f r s) := by
  unfold finishReply
  simp only
  split <;> exact ⟨rfl, rfl⟩

theorem leasesSame_refuseRequest (x : Station) (f : Frame) (r : OutFrame) (k : FaultKind) (s : State) :
    LeasesSame s (refuseRequest x f r k s) := (leasesSame_recordFault _ _ _ _).trans (leasesSame_finishReply _ _ _ _)

/-! ### Links -/

theorem leasesSame_dropFrame (x : Station) (header : List Byte) (s : State) : LeasesSame s (dropFrame x header s) :=
  LeasesSame.trans (t := enterState x .hunt s) ⟨rfl, rfl⟩ (leasesSame_recordFault _ _ _ _)

theorem leasesSame_endDraw (x : Station) (d : Draw) (reason : DrawReason) (s : State) :
    LeasesSame s (endDraw x d reason s) := by
  unfold endDraw
  simp only
  split <;> exact ⟨rfl, rfl⟩

theorem leasesSame_goodFrame (x : Station) (f : Frame) (s : State) : LeasesSame s (goodFrame x f s) := by
  refine LeasesSame.trans (t := restartKeepalive x s) ⟨restartKeepalive_leases _ _, restartKeepalive_waitCounts _ _⟩ ?_
  unfold goodFrame
  simp only
  split
  · unfold haltDraw
    simp only
    split
    · exact ⟨rfl, rfl⟩
    · exact leasesSame_endDraw _ _ _ _
  · unfold joinQueue
    simp only
    split
    · exact ⟨rfl, rfl⟩
    · exact leasesSame_recordFault _ _ _ _

theorem leasesSame_completeFrame (x : Station) (len : Byte) (body : List Byte) (crc : Half) (s : State) :
    LeasesSame s (completeFrame x len body crc s) := by
  have hunting : LeasesSame s (enterState x .hunt s) := ⟨rfl, rfl⟩
  unfold completeFrame
  simp only
  split
  · split
    · exact hunting.trans (leasesSame_goodFrame _ _ _)
    · exact hunting.trans (leasesSame_recordFault _ _ _ _)
  · exact leasesSame_dropFrame _ _ _

theorem leasesSame_takeCharacter (x : Station) (b : Byte) (s : State) : LeasesSame s (takeCharacter x b s) := by
  unfold takeCharacter
  simp only
  split
  · exact LeasesSame.refl s
  · refine LeasesSame.trans (t := setRx x { (linkOf x s).rx with lastCharacter := s.timeBase } s) ⟨rfl, rfl⟩ ?_
    split
    · split <;> exact ⟨rfl, rfl⟩
    · unfold takeLength
      split
      · exact ⟨rfl, rfl⟩
      · exact leasesSame_dropFrame _ _ _
    · unfold takeBody
      simp only
      split <;> exact ⟨rfl, rfl⟩
    · unfold takeCheck
      split
      · exact ⟨rfl, rfl⟩
      · exact leasesSame_completeFrame _ _ _ _ _

theorem leasesSame_abortFrame (x : Station) (s : State) : LeasesSame s (abortFrame x s) := by
  unfold abortFrame
  simp only
  split
  · exact LeasesSame.refl s
  · split
    · exact LeasesSame.refl s
    · exact leasesSame_dropFrame _ _ _

theorem leasesSame_frameArrives (x : Station) (body : List Byte) (crc : Half) (s : State) :
    LeasesSame s (frameArrives x body crc s) := by
  unfold frameArrives
  simp only
  split
  · exact LeasesSame.refl s
  · refine LeasesSame.trans (t := setRx x { (linkOf x s).rx with lastCharacter := s.timeBase } s) ⟨rfl, rfl⟩ ?_
    split
    · exact leasesSame_completeFrame _ _ _ _ _
    · exact leasesSame_dropFrame _ _ _

/-! ### Deliveries -/

theorem leasesSame_deliver (c : Fin 8) (m : Message) (off n : Nat) (s : State) :
    LeasesSame s (deliver c m off n s).1 := by
  unfold deliver
  simp only
  split <;> exact ⟨rfl, rfl⟩

theorem leasesSame_withdrawArrival (c : Fin 8) (s : State) : LeasesSame s (withdrawArrival c s) := by
  unfold withdrawArrival
  split <;> exact ⟨rfl, rfl⟩

theorem leasesSame_recordDamage (x : Station) (c : Fin 8) (seq : Half) (bad : Bool) (s : State) :
    LeasesSame s (recordDamage x c seq bad s) := by
  unfold recordDamage
  split
  · exact leasesSame_recordFault _ _ _ _
  · exact LeasesSame.refl s

theorem leasesSame_lend (c : Fin 8) (s : State) : LeasesSame s (lend c s) := by
  unfold lend
  simp only
  split
  · exact leasesSame_setChan _ _ s
  · exact (leasesSame_setChan _ _ s).trans (leasesSame_withdrawArrival _ _)

theorem leasesSame_deliveredState (c : Fin 8) (mode : DeliveryMode) (m : Message) (s : State) :
    LeasesSame s (deliveredState c mode m s) := by
  cases mode with
  | peek => exact leasesSame_deliver _ _ _ _ _
  | lend => exact (leasesSame_deliver c m 0 _ s).trans (leasesSame_lend c _)

theorem leasesSame_takeItem (x : Station) (d : Draw) (m : Message) (s : State) :
    LeasesSame s (takeItem x d m s).1 := by
  rw [takeItem_state]
  exact (leasesSame_deliveredState _ _ _ _).trans (leasesSame_recordDamage _ _ _ _ _)

theorem leasesSame_ownerFetch (x : Station) (c : Fin 8) (mode : DeliveryMode) (s : State) :
    LeasesSame s (ownerFetch x c mode s).state := by
  unfold ownerFetch
  simp only
  split
  · split
    · exact LeasesSame.refl s
    · split
      · exact LeasesSame.refl s
      · rw [fetchMessage_state]
        exact (leasesSame_deliveredState _ _ _ _).trans (leasesSame_recordDamage _ _ _ _ _)
  · exact LeasesSame.refl s

theorem leasesSame_ownerRead (x : Station) (r : ReadFields) (s : State) : LeasesSame s (ownerRead x r s).state := by
  unfold ownerRead
  simp only
  split
  · split
    · exact LeasesSame.refl s
    · split
      · exact LeasesSame.refl s
      · exact (leasesSame_deliver _ _ _ _ _).trans (leasesSame_recordDamage _ _ _ _ _)
  · exact LeasesSame.refl s

theorem leasesSame_ownerRetire (x : Station) (c : Fin 8) (seq : Half) (s : State) :
    LeasesSame s (ownerRetire x c seq s).state := by
  unfold ownerRetire
  simp only
  split
  · split
    · exact LeasesSame.refl s
    · exact LeasesSame.trans (t := removeMessages c _ _ s) ⟨rfl, rfl⟩ (leasesSame_evalCongestion _ _)
  · exact LeasesSame.refl s

theorem leasesSame_ownerReturn (x : Station) (c : Fin 8) (s : State) : LeasesSame s (ownerReturn x c s).state := by
  unfold ownerReturn
  simp only
  split <;> exact ⟨rfl, rfl⟩

theorem leasesSame_ownerPurge (x : Station) (c : Fin 8) (s : State) : LeasesSame s (ownerPurge x c s).state := by
  unfold ownerPurge
  simp only
  split
  · refine LeasesSame.trans ?_ (leasesSame_withdrawArrival _ _)
    split
    · exact ⟨rfl, rfl⟩
    · exact LeasesSame.trans ⟨rfl, rfl⟩ (leasesSame_evalCongestion _ _)
  · exact LeasesSame.refl s

/-! ### Channels and posting -/

theorem leasesSame_ownerOpen (x : Station) (o : OpenFields) (s : State) : LeasesSame s (ownerOpen x o s).state := by
  unfold ownerOpen
  simp only
  split
  · exact LeasesSame.refl s
  · split
    · exact LeasesSame.refl s
    · split
      · exact LeasesSame.refl s
      · split
        · split
          · show LeasesSame s (openSecond x o s)
            unfold openSecond
            simp only
            have opened := (leasesSame_setChan _ _ s).trans
              (leasesSame_offer x.peer (.channelOpened o.channel o.role)
                (setChan o.channel (takeEnd x o.role o.arrival (chanOf o.channel s)) s))
            split
            · exact opened.trans (leasesSame_tellSender _ _ _)
            · exact opened.trans (leasesSame_tellReceiver _ _ _)
          · exact LeasesSame.refl s
        · split
          · exact LeasesSame.refl s
          · exact (leasesSame_setChan _ _ s).trans (leasesSame_offer _ _ _)

theorem leasesSame_ownerClose (x : Station) (c : Fin 8) (role : Role) (s : State) :
    LeasesSame s (ownerClose x c role s).state := by
  unfold ownerClose
  split
  · exact leasesSame_closeEnd _ _ _ _
  · exact LeasesSame.refl s

theorem leasesSame_ownerPost (x : Station) (c : Fin 8) (data : List Byte) (s : State) :
    LeasesSame s (ownerPost x c data s).state := by
  unfold ownerPost
  simp only
  split
  · split
    · exact LeasesSame.refl s
    · rename_i hadmit
      obtain ⟨st, hpost⟩ := postMessage_eq (x := x) hadmit
      show LeasesSame s (postMessage x c data s)
      rw [hpost]
      have posted : LeasesSame s (setStore st (postedState c (postedMessage x c data s) s)) :=
        ⟨rfl, rfl⟩
      exact posted.trans ((leasesSame_evalCongestion _ _).trans (leasesSame_offerArrival _ _))
  · exact LeasesSame.refl s

theorem leasesSame_abandonStaging (x : Station) (r : Staging) (s : State) : LeasesSame s (abandonStaging x r s) :=
  (leasesSame_dropStaging x r s).trans (leasesSame_evalCongestion _ _)

theorem leasesSame_addSegment (x : Station) (r : Staging) (data : List Byte) (s : State) :
    LeasesSame s (addSegment x r data s).1 := by
  unfold addSegment
  exact ⟨rfl, rfl⟩

theorem leasesSame_ownerSegmentFirst (x : Station) (c : Fin 8) (total : Nat) (data : List Byte) (s : State) :
    LeasesSame s (ownerSegmentFirst x c total data s).state := by
  unfold ownerSegmentFirst
  split
  · exact LeasesSame.refl s
  · split
    · exact LeasesSame.refl s
    · split
      · exact LeasesSame.refl s
      · split
        · exact LeasesSame.refl s
        · rename_i hadmit
          obtain ⟨st, hstart⟩ := startStaging_eq (x := x) (data := data) hadmit
          have staged : LeasesSame s (setStore st (stagedState x (newStaging c total data s) s)) := ⟨rfl, rfl⟩
          show LeasesSame s (startStaging x c total data s)
          rw [hstart]
          exact staged.trans (leasesSame_evalCongestion _ _)

theorem leasesSame_ownerSegmentMiddle (x : Station) (c : Fin 8) (data : List Byte) (s : State) :
    LeasesSame s (ownerSegmentMiddle x c data s).state := by
  unfold ownerSegmentMiddle
  split
  · exact LeasesSame.refl s
  · split
    · exact leasesSame_abandonStaging _ _ _
    · exact (leasesSame_addSegment _ _ _ s).trans (leasesSame_setUnit _ _ _)

theorem leasesSame_ownerSegmentLast (x : Station) (c : Fin 8) (data : List Byte) (s : State) :
    LeasesSame s (ownerSegmentLast x c data s).state := by
  unfold ownerSegmentLast
  split
  · exact LeasesSame.refl s
  · rename_i r _
    split
    · exact leasesSame_abandonStaging _ _ _
    · split
      · exact leasesSame_abandonStaging _ _ _
      · have completed : ∀ r1 t, LeasesSame t (completeStaging x r1 t) := fun r1 t => by
          rw [completeStaging_eq]
          exact LeasesSame.trans (t := completedState x r1 (completedMessage x r1 t) t) ⟨rfl, rfl⟩
            (leasesSame_offerArrival _ _)
        exact (leasesSame_addSegment x r data s).trans (completed _ _)

theorem leasesSame_ownerSegment (x : Station) (g : SegmentFields) (s : State) :
    LeasesSame s (ownerSegment x g s).state := by
  unfold ownerSegment
  split
  · cases g with
    | first c total data => exact leasesSame_ownerSegmentFirst x c total data s
    | middle c data => exact leasesSame_ownerSegmentMiddle x c data s
    | last c data => exact leasesSame_ownerSegmentLast x c data s
  · exact LeasesSame.refl s

theorem leasesSame_ownerAbandon (x : Station) (c : Fin 8) (s : State) : LeasesSame s (ownerAbandon x c s).state := by
  unfold ownerAbandon
  split
  · split
    · exact LeasesSame.refl s
    · exact leasesSame_abandonStaging _ _ _
  · exact LeasesSame.refl s

theorem leasesSame_expireStaging (x : Station) (c : Fin 8) (s : State) : LeasesSame s (expireStaging x c s) := by
  unfold expireStaging
  split
  · exact LeasesSame.refl s
  · split
    · exact (leasesSame_abandonStaging _ _ _).trans ((leasesSame_offer _ _ _).trans (leasesSame_recordFault _ _ _ _))
    · exact LeasesSame.refl s

/-! ### Notices and signals -/

theorem leasesSame_withdrawSignals (x : Station) (s : State) : LeasesSame s (withdrawSignals x s) := by
  unfold withdrawSignals
  split <;> exact ⟨rfl, rfl⟩

theorem leasesSame_ownerRaise (x : Station) (flags : Half) (s : State) : LeasesSame s (ownerRaise x flags s).state := by
  unfold ownerRaise
  simp only
  split
  · refine LeasesSame.trans (t := setSignals x.peer (raiseFlags flags (unitOf x.peer s).signals) s) ⟨rfl, rfl⟩ ?_
    show LeasesSame _ (offerSignals _ _)
    unfold offerSignals
    split
    · exact leasesSame_offer _ _ _
    · exact LeasesSame.refl _
  · exact LeasesSame.refl s

theorem leasesSame_ownerAccept (x : Station) (flags : Half) (s : State) : LeasesSame s (ownerAccept x flags s).state :=
  (leasesSame_setUnit _ _ s).trans (leasesSame_withdrawSignals _ _)

theorem leasesSame_ownerMask (x : Station) (mask : Half) (s : State) : LeasesSame s (ownerMask x mask s).state := by
  show LeasesSame s (applyMask x mask s)
  unfold applyMask
  simp only
  split
  · exact (leasesSame_setUnit _ _ s).trans (leasesSame_offer _ _ _)
  · exact (leasesSame_setUnit _ _ s).trans (leasesSame_withdrawSignals _ _)

theorem leasesSame_ownerInquire (x : Station) (q : InquireFields) (s : State) :
    LeasesSame s (ownerInquire x q s).state := by
  cases q <;> exact LeasesSame.refl s

/-! ### Draws -/

namespace WaitsCounted

variable {s t : State}

theorem pick (h : WaitsCounted s) (x : Station) (d : Draw) : WaitsCounted (pick x d s) := by
  unfold Machine.pick
  split
  · exact h.same (leasesSame_endDraw _ _ _ _)
  · rename_i m _
    have htaken := h.same (leasesSame_takeItem x d m s)
    unfold buildItem
    simp only
    split
    · exact htaken.departFault x
    · exact htaken.same ((leasesSame_setUnit _ _ _).trans (leasesSame_transmit _ _ _ _))

theorem atBoundary (h : WaitsCounted s) (x : Station) (d : Draw) : WaitsCounted (atBoundary x d s) := by
  unfold Machine.atBoundary
  split
  · exact h.same (leasesSame_endDraw _ _ _ _)
  · split
    · exact h.same (leasesSame_endDraw _ _ _ _)
    · split
      · exact h.pick x d
      · exact h.same ⟨rfl, rfl⟩

theorem endTransmission (h : WaitsCounted s) (x : Station) : WaitsCounted (endTransmission x s) := by
  unfold Machine.endTransmission
  split
  · exact h
  · have hshifted : WaitsCounted (shiftTransmitter x s) := h.same ⟨rfl, rfl⟩
    simp only
    split
    · exact hshifted.atBoundary x _
    · exact hshifted

theorem itemBoundary (h : WaitsCounted s) (x : Station) : WaitsCounted (itemBoundary x s) := by
  unfold Machine.itemBoundary
  split
  · exact h.endTransmission x
  · exact h

theorem expireSpacing (h : WaitsCounted s) (x : Station) : WaitsCounted (expireSpacing x s) := by
  unfold Machine.expireSpacing
  split
  · exact h
  · split
    · exact h
    · split
      · exact h.pick x _
      · exact h

theorem ownerDraw (h : WaitsCounted s) (x : Station) (f : Frame) (d : DrawFields) :
    WaitsCounted (ownerDraw x f d s).state := by
  unfold Machine.ownerDraw
  split
  · exact (h.same (leasesSame_setUnit _ _ s)).pick x _
  · exact h

/-! ### Departures of events -/

theorem detectBreak (h : WaitsCounted s) (x : Station) : WaitsCounted (detectBreak x s) := by
  unfold Machine.detectBreak
  simp only
  split
  · exact h
  · split
    · exact (h.same (leasesSame_setLink _ _ s)).depart x .lineBreak
    · exact h.same (leasesSame_setLink _ _ s)

theorem lapseKeepalive (h : WaitsCounted s) (x : Station) : WaitsCounted (lapseKeepalive x s) := by
  unfold Machine.lapseKeepalive
  split
  · exact h.depart x .lapsed
  · exact h

/-! ### The path of a request -/

theorem handleKnown (h : WaitsCounted s) {α : Type} {x : Station} {f : Frame} {check : List Byte → Except Status α}
    {owner : α → State → Handled} (howner : ∀ a, WaitsCounted (owner a s).state) :
    WaitsCounted (handleKnown x f check owner s) := by
  unfold Machine.handleKnown
  split
  · exact h.same ⟨rfl, rfl⟩
  · unfold dispatch
    split
    · exact h.same (leasesSame_refuseRequest _ _ _ _ _)
    · split
      · exact h.same (leasesSame_refuseRequest _ _ _ _ _)
      · rename_i a _
        have handled := howner a
        split
        · rename_i he
          rw [he] at handled
          exact WaitsCounted.same handled (leasesSame_finishReply _ _ _ _)
        · rename_i he
          rw [he] at handled
          exact handled

/-- A request whose owner does not touch the lease table. -/
theorem handleOutside (h : WaitsCounted s) {α : Type} {x : Station} {f : Frame} {check : List Byte → Except Status α}
    {owner : α → State → Handled} (howner : ∀ a, LeasesSame s (owner a s).state) :
    WaitsCounted (Machine.handleKnown x f check owner s) := h.handleKnown fun a => h.same (howner a)

theorem handleUnknown (h : WaitsCounted s) (x : Station) (f : Frame) : WaitsCounted (handleUnknown x f s) := by
  unfold Machine.handleUnknown
  split
  · exact h.same ⟨rfl, rfl⟩
  · exact h.same (leasesSame_refuseRequest _ _ _ _ _)

theorem ite {c : Prop} [Decidable c] (hs : WaitsCounted s) (ht : WaitsCounted t) :
    WaitsCounted (if c then s else t) := by
  split
  · exact hs
  · exact ht

theorem handleFrame (h : WaitsCounted s) (x : Station) (f : Frame) : WaitsCounted (handleFrame x f s) := by
  unfold Machine.handleFrame
  refine ite (h.handleKnown fun _ => h.ownerJoin _ _) ?_
  refine ite (h.handleKnown fun _ => h.ownerLeave _ _) ?_
  refine ite (h.handleOutside fun _ => LeasesSame.refl s) ?_
  refine ite (h.handleOutside fun _ => LeasesSame.refl s) ?_
  refine ite (h.handleOutside fun _ => leasesSame_ownerInquire _ _ _) ?_
  refine ite (h.handleOutside fun _ => ⟨rfl, rfl⟩) ?_
  refine ite (h.handleOutside fun _ => leasesSame_ownerRaise _ _ _) ?_
  refine ite (h.handleOutside fun _ => leasesSame_ownerAccept _ _ _) ?_
  refine ite (h.handleOutside fun _ => leasesSame_ownerMask _ _ _) ?_
  refine ite (h.handleOutside fun _ => leasesSame_ownerOpen _ _ _) ?_
  refine ite (h.handleOutside fun _ => leasesSame_ownerClose _ _ _ _) ?_
  refine ite (h.handleOutside fun _ => leasesSame_ownerPost _ _ _ _) ?_
  refine ite (h.handleOutside fun _ => leasesSame_ownerSegment _ _ _) ?_
  refine ite (h.handleOutside fun _ => leasesSame_ownerAbandon _ _ _) ?_
  refine ite (h.handleOutside fun _ => leasesSame_ownerFetch _ _ _ _) ?_
  refine ite (h.handleOutside fun _ => leasesSame_ownerRead _ _ _) ?_
  refine ite (h.handleOutside fun _ => leasesSame_ownerRetire _ _ _ _) ?_
  refine ite (h.handleOutside fun _ => leasesSame_ownerReturn _ _ _) ?_
  refine ite (h.handleOutside fun _ => leasesSame_ownerPurge _ _ _) ?_
  refine ite (h.handleKnown fun _ => h.ownerDraw _ _ _) ?_
  refine ite (h.handleOutside fun _ => LeasesSame.refl s) ?_
  refine ite (h.handleKnown fun _ => h.ownerAcquire _ _) ?_
  refine ite (h.handleKnown fun _ => h.ownerRenew _ _) ?_
  refine ite (h.handleKnown fun _ => h.ownerRelease _ _) ?_
  refine ite (h.handleKnown fun _ => h.ownerCancel _ _ _) ?_
  refine ite (h.handleOutside fun _ => LeasesSame.refl s) ?_
  refine ite (h.handleOutside fun _ => ⟨rfl, rfl⟩) ?_
  refine ite (h.handleOutside fun _ => ⟨rfl, rfl⟩) ?_
  exact h.handleUnknown x f

theorem takeHead (h : WaitsCounted s) (x : Station) (f : Frame) :
    WaitsCounted (takeHead x f (Machine.handleFrame x) s) := by
  unfold Machine.takeHead
  simp only
  split
  · exact h
  · exact ite ((h.same (leasesSame_setLink _ _ s)).handleFrame x f) h

theorem runRequest (h : WaitsCounted s) (x : Station) (f : Frame) :
    WaitsCounted (runRequest x f (Machine.handleFrame x) s) := by
  unfold Machine.runRequest
  exact ite (ite (h.takeHead x f) (ite h ((h.same (leasesSame_goodFrame x f s)).takeHead x f))).settle h

theorem runEvent {event : State → State} (h : WaitsCounted s) (he : WaitsCounted (event s)) :
    WaitsCounted (runEvent event s) := ite he.settle h

/-! ### The commands and the step -/

/-- R88, R90: a command other than RESET_ASSERT. -/
theorem exec {i : Instr} (h : WaitsCounted s) (hi : ∀ p, i ≠ .resetAssert p) (he : exec i s = .next t) :
    WaitsCounted t := by
  have request : ∀ {q}, requestOf i = some q → WaitsCounted t := by
    rintro ⟨x, f⟩ hq
    rw [exec_requestOf hq] at he
    exact Host.Outcome.next.inj he ▸ h.runRequest x f
  cases i with
  | receiveCharacter x b => exact Host.Outcome.next.inj he ▸ h.runEvent (h.same (leasesSame_takeCharacter _ _ _))
  | characterError x => exact Host.Outcome.next.inj he ▸ h.runEvent (h.same (leasesSame_abortFrame _ _))
  | frameComplete x body crc =>
    exact Host.Outcome.next.inj he ▸ h.runEvent (h.same (leasesSame_frameArrives _ _ _ _))
  | gapLimitExpiry x => exact Host.Outcome.next.inj he ▸ h.runEvent (h.same (leasesSame_abortFrame _ _))
  | lineBreak x => exact Host.Outcome.next.inj he ▸ h.runEvent (h.detectBreak x)
  | itemBoundary x => exact Host.Outcome.next.inj he ▸ h.runEvent (h.itemBoundary x)
  | transmissionEnd x => exact Host.Outcome.next.inj he ▸ h.runEvent (h.endTransmission x)
  | spacingExpiry x => exact Host.Outcome.next.inj he ▸ h.runEvent (h.expireSpacing x)
  | segmentTimeout x c => exact Host.Outcome.next.inj he ▸ h.runEvent (h.same (leasesSame_expireStaging _ _ _))
  | keepaliveLapse x => exact Host.Outcome.next.inj he ▸ h.runEvent (h.lapseKeepalive x)
  | holdLapse e => exact Host.Outcome.next.inj he ▸ h.runEvent (h.lapseHold e)
  | waitExpiry e x client => exact Host.Outcome.next.inj he ▸ h.runEvent (h.expireWait e x client)
  | breakEnd x => exact Host.Outcome.next.inj he ▸ h.runEvent (h.same ⟨rfl, rfl⟩)
  | resetAssert p => exact absurd rfl (hi p)
  | resetRelease p =>
    refine Host.Outcome.next.inj he ▸ h.same ?_
    unfold releaseReset
    split <;> exact ⟨rfl, rfl⟩
  | storeInitComplete =>
    refine Host.Outcome.next.inj he ▸ h.same ?_
    unfold completeInit
    split <;> exact ⟨rfl, rfl⟩
  | bitError b places =>
    refine Host.Outcome.next.inj he ▸ h.same ?_
    unfold bitErrors
    split <;> exact ⟨rfl, rfl⟩
  | _ => exact request rfl

/-- A step whose front command is not RESET_ASSERT. -/
theorem step (h : WaitsCounted s) (hi : ∀ p rest, s.pending ≠ Instr.resetAssert p :: rest)
    (he : step s = .next t) : WaitsCounted t := by
  unfold Machine.step at he
  split at he
  · rename_i c rest hp
    have hpopped : WaitsCounted { s with pending := rest } := h.same ⟨rfl, rfl⟩
    exact hpopped.exec (fun p hc => hi p rest (hp.trans (hc ▸ rfl))) he
  · unfold idle at he
    split at he
    · exact Host.Outcome.next.inj he ▸ h.tick
    · rename_i c hd
      exact h.exec (Kept.dueEvents_ne_reset (by rw [hd]; exact List.mem_singleton_self c)) he
    · rename_i c d rest hd
      have hticked : WaitsCounted { s with freeTick := s.freeTick + 1 } := h.same ⟨rfl, rfl⟩
      refine hticked.exec (Kept.dueEvents_ne_reset (s := s) ?_) he
      rw [hd]
      exact chooseEvent_mem _ _ _ _

end WaitsCounted

/-- Settles O58: the law by every elementary change, the counts with it along every command. -/
theorem stepsKeepTheLeaseLaw : Obligations.StepsKeepTheLeaseLaw := by
  refine ⟨step_keeps_leaseLaw, fun s t hlaw hcounts hstep => ?_⟩
  by_cases hreset : ∃ straps rest, s.pending = Instr.resetAssert straps :: rest
  · obtain ⟨straps, rest, hp⟩ := hreset
    rw [step_reset hp hstep]
    exact resetState_waitCount _ _ _ _
  · have hkept := (waitsCounted_iff.mpr ⟨hlaw, hcounts⟩).step (fun p rest hp => hreset ⟨p, rest, hp⟩) hstep
    exact (waitsCounted_iff.mp hkept).2

end Sys2Proof.Machine
end

section
/-!
PROOFS. ACQUIRE, RENEW, RELEASE and CANCEL (R91 to R98).
-/

namespace Sys2Proof.Machine

/-! ### Payloads -/

theorem clientField_byteOf (c : Fin 8) : clientField (byteOf c.val) = some c := channelField_byteOf c

theorem acquireCheck_bytes (e : Fin 16) (client : Fin 8) {duration wait : Half} (hd : 10 ≤ duration.toNat)
    (hw : wait.toNat ≤ 30000) :
    acquireCheck ([byteOf e.val, byteOf client.val] ++ halfBytes duration ++ halfBytes wait) =
      .ok { entry := e, client := client, duration := duration.toNat, wait := wait.toNat } := by
  simp [acquireCheck, halfBytes, entryField_byteOf, clientField_byteOf, durationField, waitField, halfOf_extract, hd, hw,
    fields]

theorem renewCheck_bytes (e : Fin 16) (client : Fin 8) (fence : Word) {duration : Half} (hd : 10 ≤ duration.toNat) :
    renewCheck ([byteOf e.val, byteOf client.val] ++ wordBytes fence ++ halfBytes duration) =
      .ok { entry := e, client := client, fence := fence, duration := duration.toNat } := by
  simp [renewCheck, halfBytes, wordBytes, entryField_byteOf, clientField_byteOf, durationField, halfOf_extract,
    wordOf_extract, hd, fields]

theorem releaseCheck_bytes (e : Fin 16) (client : Fin 8) (fence : Word) :
    releaseCheck ([byteOf e.val, byteOf client.val] ++ wordBytes fence) =
      .ok { entry := e, client := client, fence := fence } := by
  simp [releaseCheck, wordBytes, entryField_byteOf, clientField_byteOf, wordOf_extract, fields]

theorem cancelCheck_bytes (e : Fin 16) (client : Fin 8) :
    cancelCheck [byteOf e.val, byteOf client.val] = .ok (e, client) := by
  simp [cancelCheck, entryField_byteOf, clientField_byteOf, fields]

/-! ### Holders and waiters -/

section Entry

variable {x : Station} {client : Fin 8} {l : LeaseEntry} {h : Hold}

theorem holdsLease_of_hold (hl : l.hold = some h) :
    holdsLease x client l = true ↔ h.station = x ∧ h.client = client := by
  simp [holdsLease, hl]

theorem exhausted_iff : exhausted l = true ↔ l.fence = 0xFFFFFFFF := by simp [exhausted]

theorem exhausted_eq_false (hf : l.fence ≠ 0xFFFFFFFF) : exhausted l = false :=
  (Bool.not_eq_true _).mp fun hx => hf (exhausted_iff.mp hx)

/-- R92, R98: a claimant's place behind the waiters before it. -/
theorem findIdx_isWaiter {before after : List Waiter} {w : Waiter} (hb : before.any (isWaiter x client) = false)
    (hw : isWaiter x client w = true) : (before ++ w :: after).findIdx (isWaiter x client) = before.length := by
  have hplace : before.findIdx (isWaiter x client) = before.length :=
    List.findIdx_eq_length_of_false fun t ht => (Bool.not_eq_true _).mp (List.any_eq_false.mp hb t ht)
  rw [List.findIdx_append, hplace, if_neg (Nat.lt_irrefl _), List.findIdx_cons, hw, cond_true, Nat.zero_add]

theorem find?_isWaiter {before after : List Waiter} {w : Waiter} (hb : before.any (isWaiter x client) = false)
    (hw : isWaiter x client w = true) : (before ++ w :: after).find? (isWaiter x client) = some w := by
  rw [List.find?_append, List.find?_eq_none.mpr (List.any_eq_false.mp hb), Option.none_or, List.find?_cons_of_pos hw]

end Entry

/-! ### The owner of ACQUIRE (R92 to R94) -/

section Acquire

variable {x : Station} {a : AcquireFields} {l : LeaseEntry} {s : State}

theorem ownerAcquire_free (hl : leaseOf a.entry s = l) (hn : l.hold = none) (hf : l.fence ≠ 0xFFFFFFFF) :
    ownerAcquire x a s =
      .reply (setLease a.entry (grantLease x a.client a.duration l) s) .ok
        (wordBytes (l.fence + 1) ++ natBytes2 a.duration) := by
  simp only [ownerAcquire, hl, hn, exhausted_eq_false hf, Bool.false_eq_true, if_false, grantLease]

theorem ownerAcquire_exhausted (hl : leaseOf a.entry s = l) (hn : l.hold = none) (hf : l.fence = 0xFFFFFFFF) :
    ownerAcquire x a s = .reply s .badField (wordBytes l.fence) := by
  simp only [ownerAcquire, hl, hn, exhausted_iff.mpr hf, if_true]

theorem ownerAcquire_held (hl : leaseOf a.entry s = l) (hh : l.hold ≠ none) :
    ownerAcquire x a s = acquireHeld x a l s := by
  obtain ⟨h, hh⟩ := Option.ne_none_iff_exists'.mp hh
  simp only [ownerAcquire, hl, hh]

theorem acquireHeld_holder (hh : holdsLease x a.client l = true) :
    acquireHeld x a l s = .reply s .alreadyHeld (wordBytes l.fence ++ remainingBytes l) := if_pos hh

theorem acquireHeld_waiting {before after : List Waiter} {w : Waiter} (hh : holdsLease x a.client l = false)
    (hl : l.waiters = before ++ w :: after) (hb : before.any (isWaiter x a.client) = false)
    (hw : isWaiter x a.client w = true) :
    acquireHeld x a l s = .reply s .alreadyWaiting (byteOf (before.length + 1) :: natBytes2 w.wait) := by
  simp only [acquireHeld, hh, Bool.false_eq_true, if_false, hl, find?_isWaiter hb hw, findIdx_isWaiter hb hw]

/-- R92 tests 5 to 9: a claimant that neither holds the entry nor waits for it. -/
theorem acquireHeld_newcomer (hh : holdsLease x a.client l = false) (hw : l.waiters.any (isWaiter x a.client) = false) :
    acquireHeld x a l s =
      if a.wait = 0 then .reply s .busy (holderBytes l ++ remainingBytes l)
      else if l.fence = 0xFFFFFFFF then .reply s .badField (wordBytes l.fence)
      else if 4 ≤ l.waiters.length then .reply s .waitFull (holderBytes l ++ remainingBytes l)
      else if 8 ≤ s.waitCounts.get x then .reply s .waitLimit [byteOf (s.waitCounts.get x)]
      else .reply (appendWaiter x a s) .queued
        [byteOf (l.waiters.length + 1), byteOf ((appendWaiter x a s).waitCounts.get x)] := by
  have hnone : l.waiters.find? (isWaiter x a.client) = none := List.find?_eq_none.mpr (List.any_eq_false.mp hw)
  simp only [acquireHeld, hh, Bool.false_eq_true, if_false, hnone, exhausted_iff, Config.maxWaiters, Config.maxWaits]

theorem appendWaiter_eq (x : Station) (a : AcquireFields) (s : State) :
    appendWaiter x a s =
      setWaitCount x (s.waitCounts.get x + 1)
        (setLease a.entry
          { leaseOf a.entry s with
            waiters := (leaseOf a.entry s).waiters ++
              [{ station := x, client := a.client, duration := a.duration, wait := a.wait }] } s) := rfl

end Acquire

/-- Settles O43: a FREE entry, then test 9 of R92. -/
theorem acquireGrantsOrQueues : Obligations.AcquireGrantsOrQueues := by
  refine ⟨fun x tag e client duration wait s => ?_, fun x tag e client duration wait s => ?_⟩
  · intro payload f l hr hp hd hw hn hf
    let a : AcquireFields := { entry := e, client := client, duration := duration.toNat, wait := wait.toNat }
    have hl : leaseOf a.entry (restartKeepalive x s) = l := leaseOf_restartKeepalive e x s
    have howner := ownerAcquire_free (x := x) hl hn hf
    rw [natBytes2_toNat] at howner
    exact congrArg Host.Outcome.next (runRequest_answered (owner := ownerAcquire x) hr hp (fun _ => rfl)
      (acquireCheck_bytes e client hd hw) howner (by rw [setLease_severe, restartKeepalive_severe, hr.severe])
      (by rw [isPresent_setLease, isPresent_restartKeepalive, hp]))
  · intro payload f l hr hp hd hpos hw hh hnot hnew hf hroom hlimit
    let a : AcquireFields := { entry := e, client := client, duration := duration.toNat, wait := wait.toNat }
    have hl : leaseOf a.entry (restartKeepalive x s) = l := leaseOf_restartKeepalive e x s
    have howner := ownerAcquire_held (x := x) hl hh
    rw [acquireHeld_newcomer hnot hnew, if_neg (Nat.ne_of_gt hpos), if_neg hf, if_neg (Nat.not_le.mpr hroom),
      restartKeepalive_waitCounts, if_neg (Nat.not_le.mpr hlimit), appendWaiter_eq, waitCounts_setWaitCount_self, hl,
      restartKeepalive_waitCounts] at howner
    exact congrArg Host.Outcome.next (runRequest_answered (owner := ownerAcquire x) hr hp (fun _ => rfl)
      (acquireCheck_bytes e client hd hw) howner
      (by rw [setWaitCount_severe, setLease_severe, restartKeepalive_severe, hr.severe])
      (by rw [isPresent_setWaitCount, isPresent_setLease, isPresent_restartKeepalive, hp]))

/-- Settles O44: a FREE entry that is exhausted, the holder, a waiter, and the tests of a newcomer. -/
theorem acquireIsRefusedInOrder : Obligations.AcquireIsRefusedInOrder := by
  intro x tag e client duration wait s payload f l refused hr hp hd hw
  let a : AcquireFields := { entry := e, client := client, duration := duration.toNat, wait := wait.toNat }
  have hl : leaseOf a.entry (restartKeepalive x s) = l := leaseOf_restartKeepalive e x s
  have hrefused : ∀ {status fieldBytes},
      ownerAcquire x a (restartKeepalive x s) = .reply (restartKeepalive x s) status fieldBytes →
      refused status fieldBytes := fun howner =>
    congrArg Host.Outcome.next (runRequest_unchanged (owner := ownerAcquire x) hr hp (fun _ => rfl)
      (acquireCheck_bytes e client hd hw) howner)
  refine ⟨fun hn hf => ?_, fun h hh hx hc => ?_, fun h hh hother => ?_⟩
  · exact hrefused (ownerAcquire_exhausted hl hn hf)
  · have hholds : holdsLease x client l = true := (holdsLease_of_hold hh).mpr ⟨hx, hc⟩
    have hremaining : remainingBytes l = natBytes2 h.remaining := by simp only [remainingBytes, hh]
    rw [← hremaining]
    exact hrefused ((ownerAcquire_held hl (by rw [hh]; exact nofun)).trans (acquireHeld_holder hholds))
  · intro holder
    have hnot : holdsLease x client l = false :=
      (Bool.not_eq_true _).mp fun hc => hother ((holdsLease_of_hold hh).mp hc)
    have hholder : holder = holderBytes l ++ remainingBytes l := by simp only [holderBytes, remainingBytes, hh, holder]
    have howner := ownerAcquire_held (x := x) hl (by rw [hh]; exact nofun)
    refine ⟨fun before w after hwaiters hb hself => ?_, fun hnew => ?_⟩
    · exact hrefused (howner.trans (acquireHeld_waiting hnot hwaiters hb hself))
    · rw [acquireHeld_newcomer hnot hnew, restartKeepalive_waitCounts, ← hholder] at howner
      have hzero : a.wait = 0 ↔ wait = 0 := ⟨fun h => BitVec.eq_of_toNat_eq h, fun h => congrArg BitVec.toNat h⟩
      simp only [hzero] at howner
      refine ⟨fun h0 => ?_, fun h0 hf => ?_, fun h0 hf hfull => ?_, fun h0 hf hroom hlimit => ?_⟩
      · rw [if_pos h0] at howner
        exact hrefused howner
      · rw [if_neg h0, if_pos hf] at howner
        exact hrefused howner
      · rw [if_neg h0, if_neg hf, if_pos hfull] at howner
        exact hrefused howner
      · rw [if_neg h0, if_neg hf, if_neg (Nat.not_le.mpr hroom), if_pos hlimit] at howner
        exact hrefused howner

/-! ### The fence of R95 -/

section Fence

variable {x : Station} {client : Fin 8} {fence : Word} {l : LeaseEntry}

theorem fenceTest_neverIssued (h : l.fence.toNat < fence.toNat) : fenceTest x client fence l = .neverIssued :=
  if_pos (BitVec.lt_def.mpr h)

theorem fenceTest_current (h : holdsLease x client l = true) : fenceTest x client l.fence l = .current := by
  simp [fenceTest, h]

theorem fenceTest_stale (hle : fence.toNat ≤ l.fence.toNat) (h : holdsLease x client l = false ∨ fence ≠ l.fence) :
    fenceTest x client fence l = .stale := by
  have hlt : ¬l.fence < fence := fun hc => Nat.not_lt.mpr hle (BitVec.lt_def.mp hc)
  have hmatch : ¬((holdsLease x client l && fence == l.fence) = true) := by
    rw [Bool.and_eq_true, beq_iff_eq]
    rintro ⟨hh, hf⟩
    rcases h with hn | hn
    · exact Bool.false_ne_true (hn.symm.trans hh)
    · exact hn hf
  rw [fenceTest, if_neg hlt, if_neg hmatch]

end Fence

section Owners

variable {x : Station} {r : RenewFields} {q : ReleaseFields} {l : LeaseEntry} {s : State}

theorem ownerRenew_neverIssued (hl : leaseOf r.entry s = l) (h : fenceTest x r.client r.fence l = .neverIssued) :
    ownerRenew x r s = .reply s .badField (wordBytes l.fence) := by simp only [ownerRenew, hl, h]

theorem ownerRenew_stale (hl : leaseOf r.entry s = l) (h : fenceTest x r.client r.fence l = .stale) :
    ownerRenew x r s = .reply s .stale (staleFields l) := by simp only [ownerRenew, hl, h]

theorem ownerRenew_current (hl : leaseOf r.entry s = l) (h : fenceTest x r.client r.fence l = .current) :
    ownerRenew x r s =
      .reply (setLease r.entry (renewHold r.duration l) s) .ok (wordBytes l.fence ++ natBytes2 r.duration) := by
  simp only [ownerRenew, hl, h]

theorem ownerRelease_neverIssued (hl : leaseOf q.entry s = l) (h : fenceTest x q.client q.fence l = .neverIssued) :
    ownerRelease x q s = .reply s .badField (wordBytes l.fence) := by simp only [ownerRelease, hl, h]

theorem ownerRelease_stale (hl : leaseOf q.entry s = l) (h : fenceTest x q.client q.fence l = .stale) :
    ownerRelease x q s = .reply s .stale (staleFields l) := by simp only [ownerRelease, hl, h]

theorem ownerRelease_current (hl : leaseOf q.entry s = l) (h : fenceTest x q.client q.fence l = .current) :
    ownerRelease x q s =
      .reply (endHold q.entry .released s) .ok (releaseFields l.fence (handedOn (recordEnding .released l))) := by
  simp only [ownerRelease, hl, h, endHold, leaseOf_handOn_self, leaseOf_setLease_self]

end Owners

/-- R97, R100: the last-holder record of a hold that ends. -/
theorem recordEnding_of_hold {l : LeaseEntry} {h : Hold} (ending : Ending) (hl : l.hold = some h) :
    recordEnding ending l =
      { l with last := some { station := h.station, client := h.client, fence := l.fence, ending := ending } } := by
  simp only [recordEnding, hl]

/-- R97, R99: the fields of an OK reply to RELEASE, from the wait list before the hand-on. -/
theorem releaseFields_handedOn (fence : Word) (l : LeaseEntry) :
    releaseFields fence (handedOn l) =
      wordBytes fence ++
        (match l.waiters with
          | [] => [0x00, 0x00, 0x00, 0x00, 0x00, 0x00, 0x00]
          | w :: _ =>
            if l.fence = 0xFFFFFFFF then [0x00, 0x00, 0x00, 0x00, 0x00, 0x00, 0x00]
            else [0x01, Station.code w.station, byteOf w.client.val] ++ wordBytes (l.fence + 1)) := by
  cases hw : l.waiters with
  | nil => simp [releaseFields, handedOn, hw, leaseStateByte, holderBytes, flagByte, List.replicate]
  | cons w ws =>
    by_cases hf : l.fence = 0xFFFFFFFF
    · simp [releaseFields, handedOn, hw, exhausted_iff.mpr hf, hf, leaseStateByte, holderBytes, flagByte,
        List.replicate]
    · have hword : l.fence ≠ 4294967295#32 := hf
      simp [releaseFields, handedOn, hw, exhausted_eq_false hf, hword, leaseStateByte, holderBytes, flagByte, grantLease]

/-- Settles O45: RENEW and RELEASE that match, then both that do not. -/
theorem renewAndReleaseNeedTheFence : Obligations.RenewAndReleaseNeedTheFence := by
  refine ⟨fun x tag e client duration h s => ?_, fun x tag e client h s => ?_,
    fun x tag e client fence duration s => ?_⟩
  · intro l payload f hr hp hd hh hx hc
    let r : RenewFields := { entry := e, client := client, fence := l.fence, duration := duration.toNat }
    have hl : leaseOf r.entry (restartKeepalive x s) = l := leaseOf_restartKeepalive e x s
    have howner := ownerRenew_current hl (fenceTest_current ((holdsLease_of_hold hh).mpr ⟨hx, hc⟩))
    have hrenewed : renewHold r.duration l =
        { l with hold := some { station := x, client := client, remaining := duration.toNat,
                                granted := duration.toNat } } := by
      simp only [renewHold, hh, Option.map_some, hx, hc, r]
    rw [hrenewed, natBytes2_toNat] at howner
    exact congrArg Host.Outcome.next (runRequest_answered (owner := ownerRenew x) hr hp (fun _ => rfl)
      (renewCheck_bytes e client l.fence hd) howner (by rw [setLease_severe, restartKeepalive_severe, hr.severe])
      (by rw [isPresent_setLease, isPresent_restartKeepalive, hp]))
  · intro l payload f hr hp ha hh hx hc t
    let q : ReleaseFields := { entry := e, client := client, fence := l.fence }
    have hl : leaseOf q.entry (restartKeepalive x s) = l := leaseOf_restartKeepalive e x s
    have howner := ownerRelease_current hl (fenceTest_current ((holdsLease_of_hold hh).mpr ⟨hx, hc⟩))
    have hended : endHold e .released (restartKeepalive x s) = t := by
      have hlast := recordEnding_of_hold .released hh
      rw [hx, hc] at hlast
      rw [endHold, leaseOf_restartKeepalive, hlast]
    have hsheltered : Sheltered x (restartKeepalive x s) t := hended ▸
      (Sheltered.setLease x e _ _).trans (Sheltered.handOn x e _)
    rw [releaseFields_handedOn, recordEnding_waiters, Kept.recordEnding_fence, show q.entry = e from rfl, hended]
      at howner
    exact congrArg Host.Outcome.next (runRequest_answered (owner := ownerRelease x) hr hp (fun _ => rfl)
      (releaseCheck_bytes e client l.fence) howner
      (by rw [(hsheltered.advisory ha.restartKeepalive).2, restartKeepalive_severe, hr.severe])
      (by rw [hsheltered.present, isPresent_restartKeepalive, hp]))
  · intro l renew release stale hp i f hi hr
    have hl : leaseOf e (restartKeepalive x s) = l := leaseOf_restartKeepalive e x s
    have hstale : staleFields l = stale := by
      simp only [staleFields, leaseStateByte, holderBytes, stale]
      cases l.hold <;> cases l.last <;> rfl
    have refusals :
        (fenceTest x client fence l = .neverIssued →
          exec i s = .next (answered x f .badField (wordBytes l.fence) (restartKeepalive x s))) →
        (fenceTest x client fence l = .stale →
          exec i s = .next (answered x f .stale (staleFields l) (restartKeepalive x s))) → _ :=
      fun hnever hold => And.intro (fun habove => hnever (fenceTest_neverIssued habove))
        fun hle hno => hstale ▸ hold (fenceTest_stale hle hno)
    rcases hi with ⟨hd, rfl, rfl⟩ | ⟨rfl, rfl⟩
    · have answer := fun {status fieldBytes} => runRequest_unchanged (handler := handleRenew x) (owner := ownerRenew x)
        (status := status) (fieldBytes := fieldBytes) hr hp (fun _ => rfl) (renewCheck_bytes e client fence hd)
      exact refusals (fun ht => congrArg Host.Outcome.next (answer (ownerRenew_neverIssued hl ht)))
        fun ht => congrArg Host.Outcome.next (answer (ownerRenew_stale hl ht))
    · have answer := fun {status fieldBytes} => runRequest_unchanged (handler := handleRelease x)
        (owner := ownerRelease x) (status := status) (fieldBytes := fieldBytes) hr hp (fun _ => rfl)
        (releaseCheck_bytes e client fence)
      exact refusals (fun ht => congrArg Host.Outcome.next (answer (ownerRelease_neverIssued hl ht)))
        fun ht => congrArg Host.Outcome.next (answer (ownerRelease_stale hl ht))

/-! ### CANCEL (R98) -/

section Cancel

variable {x : Station} {e : Fin 16} {client : Fin 8} {s : State}

theorem ownerCancel_waiting {before after : List Waiter} {w : Waiter}
    (hl : (leaseOf e s).waiters = before ++ w :: after)
    (hothers : (before ++ after).any (isWaiter x client) = false) (hw : isWaiter x client w = true) :
    ownerCancel x e client s =
      .reply (setWaitCount x (s.waitCounts.get x - 1) (setLease e { leaseOf e s with waiters := before ++ after } s))
        .ok [byteOf (before.length + 1)] := by
  have hbefore : before.any (isWaiter x client) = false := by
    rw [List.any_append, Bool.or_eq_false_iff] at hothers
    exact hothers.1
  have hany : (leaseOf e s).waiters.any (isWaiter x client) = true := by rw [hl, List.any_append, List.any_cons, hw]; simp
  simp only [ownerCancel, if_pos hany, removeWaiter_eq hl hothers hw]
  rw [hl, findIdx_isWaiter hbefore hw]

theorem ownerCancel_notWaiting (h : (leaseOf e s).waiters.any (isWaiter x client) = false) :
    ownerCancel x e client s = .reply s .notWaiting (notWaitingFields x client (leaseOf e s)) := by
  simp only [ownerCancel, h, Bool.false_eq_true, if_false]

end Cancel

/-- Settles O46: a claimant on the wait list, then one that is not. -/
theorem cancelRemovesTheWaiter : Obligations.CancelRemovesTheWaiter := by
  intro x tag e client s payload f l s0 hr hp
  have hl : leaseOf e s0 = l := leaseOf_restartKeepalive e x s
  refine ⟨fun before w after hwaiters hothers hx hc => ?_, fun hnone => ?_⟩
  · have howner := ownerCancel_waiting (s := s0) (by rw [hl]; exact hwaiters) hothers (isWaiter_iff.mpr ⟨hx, hc⟩)
    rw [hl, restartKeepalive_waitCounts] at howner
    exact congrArg Host.Outcome.next (runRequest_answered (handler := handleCancel x) (check := cancelCheck)
      (owner := fun a t => ownerCancel x a.1 a.2 t) hr hp (fun _ => rfl) (cancelCheck_bytes e client) howner
      (by rw [setWaitCount_severe, setLease_severe, restartKeepalive_severe, hr.severe])
      (by rw [isPresent_setWaitCount, isPresent_setLease, isPresent_restartKeepalive, hp]))
  · have howner := ownerCancel_notWaiting (s := s0) (by rw [hl]; exact hnone)
    have hfields : notWaitingFields x client l =
        [flagByte l.hold.isSome] ++
          (if holdsLease x client l = true then 0x01 :: wordBytes l.fence else [0x00, 0x00, 0x00, 0x00, 0x00]) := by
      unfold notWaitingFields leaseStateByte
      cases holdsLease x client l <;> rfl
    rw [hl, hfields] at howner
    exact congrArg Host.Outcome.next (runRequest_unchanged (handler := handleCancel x) (check := cancelCheck)
      (owner := fun a t => ownerCancel x a.1 a.2 t) hr hp (fun _ => rfl) (cancelCheck_bytes e client) howner)

end Sys2Proof.Machine
end


section
/-!
PROOFS. The hand-on of an entry, the lapse of a hold and the expiry of a wait (R99 to R102).
-/

namespace Sys2Proof.Machine

/-! ### The hand-on (R99) -/

section HandOn

variable {e : Fin 16} {s : State}

theorem handOn_of_noWaiter (hw : (leaseOf e s).waiters = []) :
    handOn e s = setLease e { leaseOf e s with hold := none } s := by
  unfold handOn
  simp only [hw]

theorem handOn_of_waiter {w : Waiter} {ws : List Waiter} (hw : (leaseOf e s).waiters = w :: ws)
    (hf : (leaseOf e s).fence ≠ 0xFFFFFFFF) :
    handOn e s =
      offer w.station (.leaseGranted e w.client ((leaseOf e s).fence + 1) w.duration)
        (setWaitCount w.station (s.waitCounts.get w.station - 1)
          (setLease e
            { leaseOf e s with
              waiters := ws
              fence := (leaseOf e s).fence + 1
              hold := some { station := w.station, client := w.client, remaining := w.duration
                             granted := w.duration } } s)) := by
  unfold handOn
  simp only [hw, exhausted_eq_false hf, Bool.false_eq_true, if_false, lowerWaitCount, setLease_waitCounts, grantLease]

theorem handOn_of_exhausted (hf : (leaseOf e s).fence = 0xFFFFFFFF) :
    handOn e s =
      (leaseOf e s).waiters.foldl
        (fun t w =>
          offer w.station (.leaseWaitExpired e w.client)
            (setWaitCount w.station (t.waitCounts.get w.station - 1) t))
        (setLease e { leaseOf e s with hold := none, waiters := [] } s) := by
  cases hw : (leaseOf e s).waiters with
  | nil =>
    have hnone : { leaseOf e s with hold := none } = { leaseOf e s with hold := none, waiters := [] } := by rw [← hw]
    rw [handOn_of_noWaiter hw, hnone, List.foldl_nil]
  | cons w ws =>
    unfold handOn
    simp only [hw, exhausted_iff.mpr hf, if_true]
    rfl

end HandOn

/-! ### The end of a hold and of a wait (R100 to R102) -/

section Timers

variable {e : Fin 16} {x : Station} {client : Fin 8} {s : State}

theorem lapseHold_of_zero {h : Hold} (hh : (leaseOf e s).hold = some h) (h0 : h.remaining = 0) :
    lapseHold e s =
      handOn e (offer h.station (.leaseLapsed e h.client (leaseOf e s).fence)
        (setLease e (recordEnding .lapsed (leaseOf e s)) s)) := by
  simp only [lapseHold, hh, if_pos h0]

theorem lapseHold_of_running (h : ∀ v, (leaseOf e s).hold = some v → v.remaining ≠ 0) : lapseHold e s = s := by
  unfold lapseHold
  cases hh : (leaseOf e s).hold with
  | none => simp only [hh]
  | some v => simp only [hh, if_neg (h v hh)]

theorem expireWait_of_running (h : ∀ w ∈ (leaseOf e s).waiters, w.station = x → w.client = client → w.wait ≠ 0) :
    expireWait e x client s = s := by
  refine if_neg fun hany => ?_
  obtain ⟨w, hmem, hw⟩ := List.any_eq_true.mp hany
  rw [Bool.and_eq_true, beq_iff_eq] at hw
  obtain ⟨hself, h0⟩ := hw
  obtain ⟨hx, hc⟩ := isWaiter_iff.mp hself
  exact h w hmem hx hc h0

end Timers

/-- Settles O47: the three hand-ons, then each timer at zero and running. -/
theorem holdsEndAndAreHandedOn : Obligations.HoldsEndAndAreHandedOn := by
  refine ⟨fun e s => ?_, fun e x client s hrun ha => ?_⟩
  · intro l
    exact ⟨handOn_of_noWaiter, fun _ _ => handOn_of_waiter, handOn_of_exhausted⟩
  · intro l
    have event : ∀ {f : State → State} {t}, f s = t → (Advisory s → Advisory t ∧ t.severe = s.severe) →
        (Host.Outcome.next (runEvent f s) : Host.Outcome State Fault Refusal) = .next t := fun hf ht =>
      congrArg Host.Outcome.next (runEvent_of_eq hrun hf ((ht ha).2.trans hrun.2))
    refine ⟨fun h hh h0 => ?_, fun hruns => ?_, fun before w after hw hothers hx hc h0 => ?_, fun hruns => ?_⟩
    · have hlapse := lapseHold_of_zero hh h0
      rw [recordEnding_of_hold .lapsed hh] at hlapse
      exact event hlapse
        (((Sheltered.setLease x e _ s).trans (Sheltered.offer x h.station _ _)).trans (Sheltered.handOn x e _)).advisory
    · exact event (lapseHold_of_running hruns) fun ha => ⟨ha, rfl⟩
    · exact event (expireWait_of_zero hw hothers hx hc h0)
        (((Sheltered.setLease x e _ s).trans (Sheltered.setWaitCount x x _ _)).trans (Sheltered.offer x x _ _)).advisory
    · exact event (expireWait_of_running hruns) fun ha => ⟨ha, rfl⟩

end Sys2Proof.Machine
end

section
/-!
PROOFS. The notice queue and the fault record: what each fate of an offer makes of the queue (R108 to R110, R116), and
the recording of a fault step by step (R152).
-/

namespace Sys2Proof.Machine

/-! ### The fate of an offer (R108 to R110) -/

section Fate

variable {n : Notice} {q before : List Notice}

theorem isOverflow_iff : Notice.isOverflow n = true ↔ ∃ v, n = .overflow v := by
  cases n <;> simp [Notice.isOverflow]

theorem any_isOverflow_eq_false (h : ∀ v, .overflow v ∉ q) : q.any Notice.isOverflow = false := by
  rw [List.any_eq_false]
  intro m hm ho
  obtain ⟨v, rfl⟩ := isOverflow_iff.mp ho
  exact h v hm

theorem any_isOverflow_concat (before : List Notice) (v : Nat) :
    (before ++ [Notice.overflow v]).any Notice.isOverflow = true := by
  rw [List.any_append, List.any_cons]
  exact Bool.or_true _

theorem map_eq_self {f : Notice → Notice} (h : ∀ m ∈ q, f m = m) : q.map f = q :=
  (List.map_congr_left h).trans (List.map_id' q)

/-- R107: before the last entry there is no OVERFLOW. -/
theorem NoticesOk.no_overflow_before {m : Notice} (h : NoticesOk (before ++ [m])) (v : Nat) :
    .overflow v ∉ before := by
  obtain ⟨_, hlast, _⟩ := h
  rw [List.dropLast_concat, List.all_eq_true] at hlast
  exact fun hv => Bool.false_ne_true (hlast _ hv)

/-- R109: only a FLOW offer changes the entry that it joins. -/
theorem merged_of_not_flow (h : ∀ c v o, n ≠ .flow c v o) (m : Notice) : Notice.merged n m = m := by
  cases n with
  | flow c v o => exact absurd rfl (h c v o)
  | _ => rfl

/-- R109: an absorbed offer leaves the queue. -/
theorem offerFate_of_absorbed (hc : q.any (Notice.coalesces n) = true) (hn : ∀ c v o, n ≠ .flow c v o) :
    offerFate n q = .coalesced q := by
  simp only [offerFate, hc, if_true, merged_of_not_flow hn, ite_self, List.map_id']

/-- R109: a FLOW offer replaces the one FLOW entry of its channel. -/
theorem offerFate_of_flow {c : Fin 8} {v v' : Bool} {o o' : Nat} {after : List Notice}
    (h : NoticesOk (before ++ .flow c v' o' :: after)) :
    offerFate (.flow c v o) (before ++ .flow c v' o' :: after) = .coalesced (before ++ .flow c v o :: after) := by
  have hself : Notice.coalesces (.flow c v o) (.flow c v' o') = true := beq_self_eq_true c
  have hany : (before ++ .flow c v' o' :: after).any (Notice.coalesces (.flow c v o)) = true := by
    rw [List.any_append, List.any_cons, hself, Bool.true_or, Bool.or_true]
  have hkeep : ∀ l : List Notice, (∀ m ∈ l, Notice.coalesces (.flow c v o) m = false) →
      (l.map fun m => if Notice.coalesces (.flow c v o) m then Notice.merged (.flow c v o) m else m) = l :=
    fun l hl => map_eq_self fun m hm => if_neg (by rw [hl m hm]; exact Bool.false_ne_true)
  have hsame : ∀ m, Notice.coalesces (.flow c v o) m = Notice.coalesces (.flow c v' o') m := fun m => by
    cases m <;> rfl
  obtain ⟨_, _, hpair⟩ := h
  obtain ⟨_, hafter, hbefore⟩ := List.pairwise_append.mp hpair
  rw [offerFate, if_pos hany, List.map_append, List.map_cons, if_pos hself,
    hkeep before fun m hm => (hsame m).trans (hbefore m hm _ (.head _)).2,
    hkeep after fun m hm => (hsame m).trans ((List.pairwise_cons.mp hafter).1 m hm).1]
  rfl

/-- R108 step 3: an offer that joins no entry is appended where there is room. -/
theorem offerFate_of_room (hc : q.any (Notice.coalesces n) = false) (ho : ∀ v, .overflow v ∉ q)
    (hlen : q.length < 23) : offerFate n q = .appended (q ++ [n]) := by
  simp [offerFate, hc, any_isOverflow_eq_false ho, hlen]

/-- R110 step 2: the first drop appends OVERFLOW. -/
theorem offerFate_of_full (hc : q.any (Notice.coalesces n) = false) (ho : ∀ v, .overflow v ∉ q)
    (hlen : 23 ≤ q.length) : offerFate n q = .dropped (q ++ [.overflow 1]) := by
  simp [offerFate, countDrop, hc, any_isOverflow_eq_false ho, hlen]

/-- R110 step 2: a later drop is counted in the OVERFLOW entry. -/
theorem countDrop_of_overflow {v : Nat} (ho : ∀ w, .overflow w ∉ before) :
    countDrop (before ++ [.overflow v]) = before ++ [.overflow (min 255 (v + 1))] := by
  rw [countDrop, if_pos (any_isOverflow_concat before v), List.map_append]
  refine congrArg (· ++ [Notice.overflow (min 255 (v + 1))]) (map_eq_self fun m hm => ?_)
  cases m with
  | overflow w => exact absurd hm (ho w)
  | _ => rfl

/-- R110 step 2: an offer that is dropped where OVERFLOW is pending. -/
theorem offerFate_of_overflow {v : Nat} (h : NoticesOk (before ++ [.overflow v]))
    (hc : (before ++ [Notice.overflow v]).any (Notice.coalesces n) = false) :
    offerFate n (before ++ [.overflow v]) = .dropped (before ++ [.overflow (min 255 (v + 1))]) := by
  rw [offerFate, if_neg (by rw [hc]; exact Bool.false_ne_true), any_isOverflow_concat, Bool.true_or, if_pos rfl,
    countDrop_of_overflow h.no_overflow_before]

/-- R108: an offer leaves no queue empty. -/
theorem offerFate_queue_ne_nil (n : Notice) (q : List Notice) : (offerFate n q).queue ≠ [] := by
  cases q with
  | nil => exact List.cons_ne_nil n []
  | cons m q =>
    have := length_le_offerFate n (m :: q)
    exact fun he => by rw [he] at this; exact absurd this (Nat.not_succ_le_zero _)

end Fate

/-! ### An offer to a station (R108, R110, R116) -/

section Offer

variable {x : Station} {n : Notice} {s : State}

theorem offer_of_absent (h : isPresent x s = false) : offer x n s = s := by
  rw [offer, if_neg (by rw [h]; exact Bool.false_ne_true)]

/-- R108, R110: an offer to a PRESENT station, by its fate. -/
theorem offer_of_fate {fate : OfferFate} (hp : isPresent x s = true) (h : offerFate n (unitOf x s).notices = fate) :
    offer x n s =
      if fate.isDropped = true then
        recordFault x .noticeLoss (.lostNotice (Notice.kindCode n) (Notice.subject n)) (setNotices x fate.queue s)
      else setNotices x fate.queue s := by
  rw [offer, if_pos hp, h]

/-- R109: an offer that an entry absorbs changes nothing. -/
theorem offer_of_absorbed (hp : isPresent x s = true) (hc : (unitOf x s).notices.any (Notice.coalesces n) = true)
    (hn : ∀ c v o, n ≠ .flow c v o) : offer x n s = s := by
  rw [offer_of_fate hp (offerFate_of_absorbed hc hn)]
  exact setUnit_unitOf x s

theorem attentionAsserted_iff :
    attentionAsserted x s = true ↔ isPresent x s = true ∧ (unitOf x s).notices ≠ [] := by
  rw [attentionAsserted, Bool.and_eq_true, Bool.not_eq_true', List.isEmpty_eq_false_iff]

/-- R116: the attention line of a PRESENT station is asserted after an offer. -/
theorem attentionAsserted_offer (n : Notice) (hp : isPresent x s = true) :
    attentionAsserted x (offer x n s) = true := by
  refine attentionAsserted_iff.mpr ⟨by rw [isPresent_offer, hp], ?_⟩
  have hne := offerFate_queue_ne_nil n (unitOf x s).notices
  rw [offer_of_fate hp rfl]
  split
  · have hlen := length_notices_recordFault x .noticeLoss (.lostNotice (Notice.kindCode n) (Notice.subject n))
      (setNotices x (offerFate n (unitOf x s).notices).queue s)
    rw [notices_setNotices] at hlen
    exact List.ne_nil_of_length_pos (lt_of_lt_of_le (List.length_pos_of_ne_nil hne) hlen)
  · rw [notices_setNotices]
    exact hne

end Offer

/-- Whether an entry that an offer other than FAULT joins is pending, as the kinds and keys of R109 give it. -/
def hasPartner (n : Notice) (q : List Notice) : Bool :=
  match n with
  | .arrival c => q.contains (.arrival c)
  | .flow c _ _ => q.any fun m => match m with | .flow d _ _ => d == c | _ => false
  | .signalsPending => q.contains .signalsPending
  | _ => false

theorem any_coalesces_eq_hasPartner {n : Notice} (hf : ∀ k v, n ≠ .fault k v) (q : List Notice) :
    q.any (Notice.coalesces n) = hasPartner n q := by
  have arrives : ∀ c m, Notice.coalesces (.arrival c) m = (.arrival c == m) := fun c m => by
    cases m <;> simp [Notice.coalesces, beq_eq_decide]
  have signals : ∀ m, Notice.coalesces .signalsPending m = (.signalsPending == m) := fun m => by
    cases m <;> simp [Notice.coalesces]
  have flows : ∀ c v o m, Notice.coalesces (.flow c v o) m = (match m with | .flow d _ _ => d == c | _ => false) :=
    fun c v o m => by cases m <;> simp [Notice.coalesces, Bool.beq_comm]
  cases n with
  | arrival c => exact (congrArg q.any (funext (arrives c))).trans List.contains_eq_any_beq.symm
  | signalsPending => exact (congrArg q.any (funext signals)).trans List.contains_eq_any_beq.symm
  | flow c v o => exact congrArg q.any (funext (flows c v o))
  | fault k v => exact absurd rfl (hf k v)
  | _ => exact List.any_eq_false.mpr fun m _ => by cases m <;> exact Bool.false_ne_true

/-- Settles O48: the offer by its fates. -/
theorem offerTakesItsFirstStep : Obligations.OfferTakesItsFirstStep := by
  intro x n s hfault _ q put lost hok
  refine ⟨offer_of_absent, fun hp => ⟨attentionAsserted_offer n hp, fun hmem hn => ?_, ?_,
    fun partner hpartner hno => ?_⟩⟩
  · have hself : Notice.coalesces n n = true := by
      rcases hn with ⟨c, rfl⟩ | rfl
      · exact beq_self_eq_true c
      · rfl
    refine offer_of_absorbed hp (List.any_eq_true.mpr ⟨n, hmem, hself⟩) ?_
    rcases hn with ⟨c, rfl⟩ | rfl <;> exact nofun
  · rintro c v o v' o' before after rfl hq
    exact offer_of_fate hp ((congrArg _ hq).trans (offerFate_of_flow (hq ▸ hok)))
  · have hc : q.any (Notice.coalesces n) = false := by
      rw [any_coalesces_eq_hasPartner hfault, ← hno, hpartner]
      cases n <;> rfl
    refine ⟨fun ho hlen => offer_of_fate hp (offerFate_of_room hc ho hlen),
      fun ho hlen => offer_of_fate hp (offerFate_of_full hc ho hlen), fun before v hq => ?_⟩
    exact offer_of_fate hp ((congrArg _ hq).trans (offerFate_of_overflow (hq ▸ hok) (hq ▸ hc)))

/-! ### The recording of a fault (R152) -/

section Fault

variable {x y : Station} {k : FaultKind} {i : CaptureInfo} {s : State}

/-- R152 step 1: the count of a fault kind after one more fault. -/
def raisedCount (x : Station) (k : FaultKind) (s : State) : Nat :=
  min 255 ((KindRecords.get (unitOf x s).faults.kinds k).count + 1)

/-- R152 step 1: the records of the kinds with the count raised. -/
def countedKinds (x : Station) (k : FaultKind) (s : State) : KindRecords :=
  KindRecords.set (unitOf x s).faults.kinds k
    { KindRecords.get (unitOf x s).faults.kinds k with count := raisedCount x k s }

@[simp] theorem unitOf_markSevere (y x : Station) (s : State) : unitOf y (markSevere x s) = unitOf y s := by
  unfold markSevere
  split <;> rfl

theorem mem_severe_markSevere : y ∈ (markSevere x s).severe ↔ y ∈ s.severe ∨ y = x := by
  rw [markSevere_severe]
  split
  · rename_i hx
    exact ⟨.inl, fun h => h.elim id fun he => he ▸ List.contains_iff_mem.mp hx⟩
  · rw [List.mem_append, List.mem_singleton]

/-- R152 step 4: what a FAULT offer makes of the queue. -/
theorem unitOf_offerFault (n : Nat) :
    unitOf x (offerFault x k n s) =
      { unitOf x s with
        notices := if isPresent x s = true then (offerFate (.fault k n) (unitOf x s).notices).queue
          else (unitOf x s).notices } := by
  unfold offerFault
  split
  · rw [setNotices_frame, unitOf_setUnit_self]
  · rfl

/-- R152 step 2: of a kind that is not reported the count alone changes. -/
theorem recordFault_of_unreported (h : (KindRecords.get (unitOf x s).faults.kinds k).reported = false) :
    recordFault x k i s =
      setUnit x { unitOf x s with faults := { (unitOf x s).faults with kinds := countedKinds x k s } } s := by
  rw [recordFault]
  simp only
  rw [if_neg (by rw [h]; exact Bool.false_ne_true)]
  rfl

/-- R152 steps 1, 3 and 4: the unit after a fault of a kind that is reported. -/
theorem unitOf_recordFault_of_reported (h : (KindRecords.get (unitOf x s).faults.kinds k).reported = true) :
    unitOf x (recordFault x k i s) =
      { unitOf x s with
        faults :=
          { kinds := countedKinds x k s, capture := captureFault k s.timeBase i (unitOf x s).faults.capture }
        notices :=
          if isPresent x s = true then (offerFate (.fault k (raisedCount x k s)) (unitOf x s).notices).queue
          else (unitOf x s).notices } := by
  rw [recordFault]
  simp only
  rw [if_pos h, apply_ite (unitOf x), unitOf_markSevere, ite_self, unitOf_offerFault,
    isPresent_setUnit _ _ _ _ (by rfl), unitOf_setUnit_self]
  rfl

theorem recordFault_kinds : (unitOf x (recordFault x k i s)).faults.kinds = countedKinds x k s := by
  cases h : (KindRecords.get (unitOf x s).faults.kinds k).reported with
  | false => rw [recordFault_of_unreported h, unitOf_setUnit_self]
  | true => rw [unitOf_recordFault_of_reported h]

/-- R152 step 5: an ADVISORY fault marks no station. -/
theorem recordFault_severe_of_advisory
    (h : (KindRecords.get (unitOf x s).faults.kinds k).severity = .advisory) :
    (recordFault x k i s).severe = s.severe := by
  rw [recordFault]
  simp only
  rw [h]
  split
  · exact offerFault_severe _ _ _ _
  · rfl

/-- R152 step 5: the marks after a reported fault of a PRESENT station. -/
theorem mem_severe_recordFault (hp : isPresent x s = true)
    (hr : (KindRecords.get (unitOf x s).faults.kinds k).reported = true) :
    y ∈ (recordFault x k i s).severe ↔
      y ∈ s.severe ∨ y = x ∧ (KindRecords.get (unitOf x s).faults.kinds k).severity = .severe := by
  cases hs : (KindRecords.get (unitOf x s).faults.kinds k).severity with
  | advisory => simp [recordFault_severe_of_advisory hs]
  | severe => simp [recordFault_severe_marked i hp hr hs, mem_severe_markSevere]

/-- R109: a FAULT offer joins any FAULT entry. -/
theorem any_coalesces_fault {n : Nat} {q : List Notice} (h : ∀ k' m, .fault k' m ∉ q) :
    q.any (Notice.coalesces (.fault k n)) = false := by
  rw [List.any_eq_false]
  intro m hm
  cases m with
  | fault k' m => exact absurd hm (h k' m)
  | _ => exact Bool.false_ne_true

end Fault

/-- Settles O52: the count, then a kind that is not reported, and a reported one of an ABSENT and a PRESENT station. -/
theorem faultIsRecordedStepByStep : Obligations.FaultIsRecordedStepByStep := by
  intro x k info s hok u r count t v q
  have hkinds : v.faults.kinds = countedKinds x k s := recordFault_kinds
  refine ⟨?_, fun k' hk => ?_, recordFault_frame x k info s, fun hr => ?_, fun hr => ?_⟩
  · rw [hkinds, countedKinds, KindRecords.get_set, if_pos rfl]
    rfl
  · rw [hkinds, countedKinds, KindRecords.get_set, if_neg hk]
  · have ht : t = _ := recordFault_of_unreported hr
    have hv : v = _ := (congrArg (unitOf x) ht).trans (unitOf_setUnit_self _ _ _)
    exact ⟨by rw [hv], by rw [hv], by rw [ht]; rfl⟩
  · have hv : v = _ := unitOf_recordFault_of_reported hr
    refine ⟨?_, fun hp => ⟨?_, recordFault_severe_absent hp⟩, fun hp =>
      ⟨fun _ => mem_severe_recordFault hp hr, ?_⟩⟩
    · rw [hv]
      simp only
      cases u.faults.capture <;> rfl
    · rw [hv]
      simp only [hp, Bool.false_eq_true, if_false]
      rfl
    · have hfate : ∀ {fate}, offerFate (.fault k count) q = fate → v.notices = fate.queue := fun hf => by
        rw [hv]
        simp only [if_pos hp]
        exact congrArg OfferFate.queue hf
      refine ⟨fun ⟨k', n, hmem⟩ => ?_, fun hnone => ?_⟩
      · exact hfate (offerFate_of_absorbed (List.any_eq_true.mpr ⟨_, hmem, rfl⟩) nofun)
      · have hc := any_coalesces_fault (k := k) (n := count) hnone
        refine ⟨fun ho hlen => hfate (offerFate_of_room hc ho hlen),
          fun ho hlen => hfate (offerFate_of_full hc ho hlen), fun before n hq => ?_⟩
        exact hfate ((congrArg _ hq).trans (offerFate_of_overflow (hq ▸ hok) (hq ▸ hc)))

end Sys2Proof.Machine
end

section
/-!
PROOFS. COLLECT (R113, R114) and the requests on the signal sets: RAISE, ACCEPT and MASK (R119 to R121).
-/

namespace Sys2Proof.Machine

/-! ### COLLECT -/

theorem collectCheck_byteOf {m : Nat} (h1 : 1 ≤ m) (h6 : m ≤ 6) : collectCheck [byteOf m] = .ok m := by
  have hm : (byteOf m).toNat = m := byteOf_toNat (by omega)
  rw [collectCheck, hm, if_pos ⟨h1, h6⟩]

/-- R114: the records of the notices taken, each with its number. -/
theorem numberNotices_eq (next : Half) (l : List Notice) :
    numberNotices next l =
      (List.range l.length).flatMap fun i => noticeRecord (next + BitVec.ofNat 16 i) (l.getD i (.overflow 0)) := by
  induction l generalizing next with
  | nil => rfl
  | cons n l ih =>
    have hnumber : ∀ i, next + 1 + BitVec.ofNat 16 i = next + BitVec.ofNat 16 (i + 1) := fun i => by
      rw [BitVec.ofNat_add, BitVec.add_assoc, BitVec.add_comm (1 : Half)]
      rfl
    have hfirst : next + BitVec.ofNat 16 0 = next := BitVec.add_zero next
    rw [numberNotices, ih, List.length_cons, List.range_succ_eq_map, List.flatMap_cons, List.flatMap_map, hfirst]
    refine congrArg (noticeRecord next n ++ ·) (List.flatMap_congr fun i _ => ?_)
    rw [hnumber, List.getD_cons_succ]

/-- R113: the numbered records of the oldest notices, in terms of the whole queue. -/
theorem numberNotices_take (next : Half) (m : Nat) (q : List Notice) :
    numberNotices next (q.take m) =
      (List.range (min m q.length)).flatMap fun i =>
        noticeRecord (next + BitVec.ofNat 16 i) (q.getD i (.overflow 0)) := by
  rw [numberNotices_eq, List.length_take]
  refine List.flatMap_congr fun i hi => ?_
  have him : i < m := lt_of_lt_of_le (List.mem_range.mp hi) (Nat.min_le_left _ _)
  rw [List.getD_eq_getElem?_getD, List.getD_eq_getElem?_getD, List.getElem?_take_of_lt him]

theorem takeNotices_min (m : Nat) (u : StationUnit) :
    takeNotices m u =
      { u with
        notices := u.notices.drop (min m u.notices.length)
        nextNotice := u.nextNotice + BitVec.ofNat 16 (min m u.notices.length) } := by
  have hdrop : u.notices.drop m = u.notices.drop (min m u.notices.length) := by
    rcases Nat.le_total m u.notices.length with h | h
    · rw [Nat.min_eq_left h]
    · rw [Nat.min_eq_right h, List.drop_length, List.drop_eq_nil_of_le h]
  rw [takeNotices, hdrop]

/-- R116: the attention line after COLLECT. -/
theorem attentionAsserted_takeNotices {x : Station} {m : Nat} {s : State} (hp : isPresent x s = true) :
    attentionAsserted x (setUnit x (takeNotices m (unitOf x s)) s) = decide (m < (unitOf x s).notices.length) := by
  rw [attentionAsserted, isPresent_setUnit _ _ _ _ (by rfl), hp, Bool.true_and, unitOf_setUnit_self, takeNotices,
    Bool.eq_iff_iff, Bool.not_eq_true', List.isEmpty_eq_false_iff, decide_eq_true_iff, ne_eq, List.drop_eq_nil_iff,
    Nat.not_le]

/-- Settles O49: the owner's reply with its records, and the line. -/
theorem collectTakesTheOldestNotices : Obligations.CollectTakesTheOldestNotices := by
  intro x tag m s f s0 u t hr hp h1 h6 left
  have hp0 : isPresent x s0 = true := (isPresent_restartKeepalive x x s).trans hp
  have hleft : setUnit x (takeNotices m u) s0 = left := by rw [takeNotices_min]
  have howner : ownerCollect x m s0 =
      .reply left .ok ([byteOf t, byteOf (u.notices.length - t)] ++ numberNotices u.nextNotice (u.notices.take m)) := by
    have hstay : u.notices.length - m = u.notices.length - t := by omega
    rw [← hstay, ← hleft]
    rfl
  rw [numberNotices_take] at howner
  refine ⟨congrArg Host.Outcome.next (runRequest_answered (owner := ownerCollect x) hr hp (fun _ => rfl)
    (collectCheck_byteOf h1 h6) howner ?_ ?_), hleft ▸ attentionAsserted_takeNotices hp0⟩
  · exact (restartKeepalive_severe x s).trans hr.severe
  · exact (isPresent_setUnit _ _ _ _ (by rfl)).trans hp0

/-! ### Signal sets (R118 to R121) -/

section Signals

variable {x : Station} {flags : Half} {g : SignalSet} {s : State}

/-- Some unmasked flag has a non-zero count (R119 to R121). -/
def Pending (g : SignalSet) : Prop := ∃ i : Fin 16, g.mask.getLsbD i.val = false ∧ g.counts[i] ≠ 0

theorem any_range_iff {n : Nat} {p : Nat → Bool} : (List.range n).any p = true ↔ ∃ i : Fin n, p i.val = true := by
  rw [List.any_eq_true]
  exact ⟨fun ⟨i, hi, h⟩ => ⟨⟨i, List.mem_range.mp hi⟩, h⟩,
    fun ⟨i, h⟩ => ⟨i.val, List.mem_range.mpr i.isLt, h⟩⟩

theorem anyUnmasked_iff : anyUnmasked g = true ↔ Pending g := by
  rw [anyUnmasked, any_range_iff]
  refine exists_congr fun i => ?_
  rw [signalCount_eq, named, Bool.and_eq_true, Bool.not_eq_true', bne_iff_ne]

theorem newlyPending_iff : newlyPending flags g = true ↔
    ∃ i : Fin 16, g.mask.getLsbD i.val = true ∧ flags.getLsbD i.val = false ∧ g.counts[i] ≠ 0 := by
  rw [newlyPending, any_range_iff]
  refine exists_congr fun i => ?_
  rw [signalCount_eq, named, named, Bool.and_eq_true, Bool.and_eq_true, Bool.not_eq_true', bne_iff_ne, and_assoc]

theorem counts_raiseFlags (i : Fin 16) :
    (raiseFlags flags g).counts[i] =
      if flags.getLsbD i.val = true then min 15 (g.counts[i] + 1) else g.counts[i] := by
  simp [raiseFlags, named]

theorem counts_acceptFlags (i : Fin 16) :
    (acceptFlags flags g).counts[i] = if flags.getLsbD i.val = true then 0 else g.counts[i] := by
  simp [acceptFlags, named]

theorem getLsbD_fullFlags (i : Fin 16) :
    (fullFlags flags g).getLsbD i.val = (flags.getLsbD i.val && g.counts[i] == 15) := by
  rw [fullFlags, getLsbD_flagSet _ i.isLt, signalCount_eq, named]

theorem getLsbD_nonZeroFlags (i : Fin 16) : (nonZeroFlags g).getLsbD i.val = (g.counts[i] != 0) := by
  rw [nonZeroFlags, getLsbD_flagSet _ i.isLt, signalCount_eq]

theorem raiseCheck_halfBytes (h : flags ≠ 0) : raiseCheck (halfBytes flags) = .ok flags := by
  rw [halfBytes, raiseCheck, halfOf_extract, if_neg h]

/-- R111: SIGNALS_PENDING is withdrawn from the queue. -/
theorem withdraw_signalsPending :
    withdraw x .signalsPending s =
      setNotices x ((unitOf x s).notices.filter fun n => n != .signalsPending) s := by
  have hjoin : ∀ n, (!Notice.coalesces .signalsPending n) = (n != .signalsPending) := fun n => by
    cases n <;> simp [Notice.coalesces, bne, beq_eq_decide]
  rw [withdraw, funext hjoin]

theorem unitOf_setSignals : unitOf x (setSignals x g s) = { unitOf x s with signals := g } := unitOf_setUnit_self _ _ _

theorem offerSignals_setSignals_of_pending (h : Pending g) :
    offerSignals x (setSignals x g s) = offer x .signalsPending (setSignals x g s) := by
  rw [offerSignals, unitOf_setSignals, if_pos (anyUnmasked_iff.mpr h)]

theorem offerSignals_setSignals_of_not_pending (h : ¬ Pending g) :
    offerSignals x (setSignals x g s) = setSignals x g s := by
  rw [offerSignals, unitOf_setSignals, if_neg (mt anyUnmasked_iff.mp h)]

theorem withdrawSignals_setSignals_of_pending (h : Pending g) :
    withdrawSignals x (setSignals x g s) = setSignals x g s := by
  rw [withdrawSignals, unitOf_setSignals, if_pos (anyUnmasked_iff.mpr h)]

theorem withdrawSignals_setSignals_of_not_pending (h : ¬ Pending g) :
    withdrawSignals x (setSignals x g s) =
      setUnit x { unitOf x s with
        signals := g
        notices := (unitOf x s).notices.filter fun n => n != .signalsPending } s := by
  rw [withdrawSignals, unitOf_setSignals, if_neg (mt anyUnmasked_iff.mp h), withdraw_signalsPending, setNotices_frame,
    unitOf_setSignals, setSignals, setUnit_setUnit]

theorem ownerRaise_of_present (h : isPresent x.peer s = true) :
    ownerRaise x flags s =
      .reply (offerSignals x.peer (setSignals x.peer (raiseFlags flags (unitOf x.peer s).signals) s)) .ok
        (halfBytes (unitOf x.peer s).record.epoch ++ halfBytes (fullFlags flags (unitOf x.peer s).signals)) :=
  if_pos h

theorem ownerRaise_of_absent (h : isPresent x.peer s = false) :
    ownerRaise x flags s = .reply s .peerAbsent [] :=
  if_neg (by rw [h]; exact Bool.false_ne_true)

/-- R120: the count of a flag as an ACCEPT reports it: 0 for a flag that is not named. -/
def reportedCount (flags : Half) (g : SignalSet) (f : Nat) : Nat :=
  if flags.getLsbD f = true then g.counts.toList.getD f 0 else 0

/-- R158: the counts that an ACCEPT reports, two flags a byte. -/
theorem countBytes_acceptedCounts (flags : Half) (g : SignalSet) :
    countBytes (acceptedCounts flags g) =
      (List.range 8).map fun j => byteOf (16 * reportedCount flags g (2 * j) + reportedCount flags g (2 * j + 1)) := by
  have hcount : ∀ f, f < 16 → (acceptedCounts flags g).getD f 0 = reportedCount flags g f := fun f hf => by
    rw [acceptedCounts, List.getD_eq_getElem _ _ (by simpa using hf), List.getElem_map, List.getElem_range]
    rfl
  refine List.map_congr_left fun j hj => ?_
  have hj8 : j < 8 := List.mem_range.mp hj
  rw [hcount (2 * j) (by omega), hcount (2 * j + 1) (by omega)]

/-- R121: MASK, by whether a flag is newly pending. -/
theorem applyMask_of_newly (h : newlyPending flags (unitOf x s).signals = true) :
    applyMask x flags s =
      offer x .signalsPending (setSignals x { (unitOf x s).signals with mask := flags } s) :=
  if_pos h

theorem applyMask_of_not_newly (h : ¬ newlyPending flags (unitOf x s).signals = true) :
    applyMask x flags s = withdrawSignals x (setSignals x { (unitOf x s).signals with mask := flags } s) :=
  if_neg h

/-- R121: a newly uncovered flag is pending under the new mask. -/
theorem Pending.of_newly (h : newlyPending flags g = true) : Pending { g with mask := flags } := by
  obtain ⟨i, -, hf, hc⟩ := newlyPending_iff.mp h
  exact ⟨i, hf, hc⟩

theorem isPresent_setSignals (y : Station) : isPresent y (setSignals x g s) = isPresent y s :=
  isPresent_setUnit _ _ _ _ rfl

theorem Advisory.setSignals (h : Advisory s) : Advisory (setSignals x g s) := Advisory.of_setUnit rfl h

end Signals

/-- Settles O50: the peer ABSENT, then the raised set with and without an offer. -/
theorem raiseCountsInThePeersSet : Obligations.RaiseCountsInThePeersSet := by
  intro x tag flags s f s0 p pending hr ha hp hflags
  have hpeer : unitOf x.peer s0 = p := unitOf_restartKeepalive_peer x s
  have hp0 : ∀ y, isPresent y s0 = isPresent y s := fun y => isPresent_restartKeepalive y x s
  have hcheck : raiseCheck f.payload = .ok flags := raiseCheck_halfBytes hflags
  refine ⟨fun habsent => ?_, fun hpresent => ⟨raiseFlags flags p.signals, fullFlags flags p.signals, rfl,
    counts_raiseFlags, getLsbD_fullFlags, rfl, ?_⟩⟩
  · exact congrArg Host.Outcome.next (runRequest_unchanged (owner := ownerRaise x) hr hp (fun _ => rfl) hcheck
      (ownerRaise_of_absent ((hp0 x.peer).trans habsent)))
  · intro raised
    have hset : setSignals x.peer (raiseFlags flags p.signals) s0 = raised := by rw [setSignals, hpeer]
    have howner := ownerRaise_of_present (flags := flags) ((hp0 x.peer).trans hpresent)
    rw [hpeer, hset] at howner
    have hsevere : raised.severe = [] := (restartKeepalive_severe x s).trans hr.severe
    have answer : ∀ {t}, offerSignals x.peer raised = t → t.severe = [] → isPresent x t = true →
        exec (.raise x tag (halfBytes flags)) s =
          .next (answered x f .ok (halfBytes p.record.epoch ++ halfBytes (fullFlags flags p.signals)) t) :=
      fun ht hs hpt => congrArg Host.Outcome.next (runRequest_answered (owner := ownerRaise x) hr hp (fun _ => rfl)
        hcheck (ht ▸ howner) hs hpt)
    have hpx : isPresent x raised = true := by rw [← hset, isPresent_setSignals, hp0, hp]
    have hadvisory : Advisory raised := hset ▸ ha.restartKeepalive.setSignals
    refine ⟨fun hpending => answer ?_ ?_ ?_, fun hnone => answer ?_ hsevere hpx⟩
    · rw [← hset, offerSignals_setSignals_of_pending hpending]
    · rw [offer_severe (hadvisory.at _), hsevere]
    · rw [isPresent_offer, hpx]
    · rw [← hset, offerSignals_setSignals_of_not_pending hnone]

/-- Settles O51: ACCEPT with and without a flag still pending; MASK by whether a flag is newly pending, still pending or
neither. -/
theorem acceptAndMaskActOnTheOwnSet : Obligations.AcceptAndMaskActOnTheOwnSet := by
  intro x tag flags s accept mask s0 u g pending set withdrawn hp
  have hp0 : ∀ h, isPresent x (set h) = true := fun h =>
    (isPresent_setSignals x).trans ((isPresent_restartKeepalive x x s).trans hp)
  have hs0 : ∀ {f}, Ready x f s → s0.severe = [] := fun hr => (restartKeepalive_severe x s).trans hr.severe
  have hpw : ∀ h, isPresent x (withdrawn h) = true := fun h =>
    (isPresent_setUnit _ _ _ _ (by rfl)).trans ((isPresent_restartKeepalive x x s).trans hp)
  refine ⟨fun hr => ⟨acceptFlags flags g, rfl, rfl, counts_acceptFlags, ?_⟩,
    fun hr ha => ⟨nonZeroFlags g, getLsbD_nonZeroFlags, ?_⟩⟩
  · intro report fieldBytes
    have howner : ∀ {t}, withdrawSignals x (setSignals x (acceptFlags flags g) s0) = t →
        ownerAccept x flags s0 = .reply t .ok fieldBytes := fun ht => by
      have hbytes : countBytes (acceptedCounts flags g) ++ [flagByte g.saturated] = fieldBytes :=
        congrArg (· ++ [flagByte g.saturated]) (countBytes_acceptedCounts flags g)
      rw [← ht, ← hbytes]
      rfl
    have answer : ∀ {t}, withdrawSignals x (setSignals x (acceptFlags flags g) s0) = t → t.severe = [] →
        isPresent x t = true →
        exec (.accept x tag (halfBytes flags)) s = .next (answered x accept .ok fieldBytes t) := fun ht hs hpt =>
      congrArg Host.Outcome.next (runRequest_answered (owner := ownerAccept x) hr hp (fun _ => rfl)
        (flagsCheck_halfBytes flags) (howner ht) hs hpt)
    exact ⟨fun hpending => answer (withdrawSignals_setSignals_of_pending hpending) (hs0 hr) (hp0 _),
      fun hnone => answer (withdrawSignals_setSignals_of_not_pending hnone) (hs0 hr) (hpw _)⟩
  · intro h newly fieldBytes
    have answer : ∀ {t}, applyMask x flags s0 = t → t.severe = [] → isPresent x t = true →
        exec (.mask x tag (halfBytes flags)) s = .next (answered x mask .ok fieldBytes t) := fun ht hs hpt =>
      congrArg Host.Outcome.next (runRequest_answered (owner := ownerMask x) hr hp (fun _ => rfl)
        (flagsCheck_halfBytes flags) (ht ▸ rfl) hs hpt)
    have hadvisory : Advisory (set h) := ha.restartKeepalive.setSignals
    refine ⟨fun hnew => ?_, fun hnew hpending => ?_, fun hnone => ?_⟩
    · refine answer (applyMask_of_newly (newlyPending_iff.mpr hnew)) ?_ ?_
      · exact (offer_severe (hadvisory.at x)).trans (hs0 hr)
      · exact (isPresent_offer _ _ _ _).trans (hp0 h)
    · exact answer ((applyMask_of_not_newly (mt newlyPending_iff.mp hnew)).trans
        (withdrawSignals_setSignals_of_pending hpending)) (hs0 hr) (hp0 h)
    · exact answer ((applyMask_of_not_newly (mt Pending.of_newly hnone)).trans
        (withdrawSignals_setSignals_of_not_pending hnone)) (hs0 hr) (hpw h)

end Sys2Proof.Machine
end

section
/-!
PROOFS. The store's bytes stay canonical, and no departure is outstanding after a step (R132).
-/

namespace Sys2Proof.Machine

/-! ### The store's bytes -/

/-- Every elementary change keeps the canonical form of the store's bytes. -/
theorem memoryCanonical_kept : Kept MemoryCanonical where
  other s t _ _ hst _ _ h := by
    rw [MemoryCanonical, hst]
    exact h
  unitSame _ _ _ _ _ h := h
  offered _ _ _ h := h
  dropped _ _ _ _ _ _ h := h
  withdrawn x n s h := by
    rw [MemoryCanonical, withdraw_store]
    exact h
  chanSame _ _ _ _ h := h
  returned _ _ _ _ h := h
  damaged _ _ _ h := h
  lent _ _ _ h := h
  storeSame _ _ _ hmem h := hmem h
  appended _ k data _ _ _ _ _ _ _ _ h := writeMessage_wf 0 0 data _ (allocate_wf k h)
  staged _ k data _ _ _ _ _ _ _ _ _ h := writeMessage_wf 0 0 data _ (allocate_wf k h)
  replaced _ _ _ _ _ _ _ h := h
  completed x r0 r s _ _ _ h := by
    rw [MemoryCanonical, completeStaging_eq, offerArrival_store]
    exact h
  unstaged x r s _ h := by
    rw [MemoryCanonical, dropStaging_frame]
    exact h
  allUnstaged x s h := by
    rw [MemoryCanonical, (Sheltered.departStaging x s).mem]
    exact h
  removed _ _ _ _ _ _ h := h
  closed _ _ h := h
  lease _ _ _ _ _ h := h
  ticked s h := by unfold tick; split <;> exact h
  released p s h := by unfold releaseReset; split <;> exact h
  initialised s h := by
    unfold completeInit
    split
    · rfl
    · exact h
    · exact h

/-! ### What presence and marks alone decide -/

/-- A property of the stations' presence and of their marks to depart that offers keep. -/
structure OfferStable (P : State → Prop) : Prop where
  same : ∀ {s t : State}, P s → (∀ y, isPresent y t = isPresent y s) → t.severe = s.severe → P t
  offer : ∀ {s} (y : Station) (n : Notice), P s → P (offer y n s)

namespace OfferStable

variable {P : State → Prop} {s : State}

theorem evalCongestion (k : OfferStable P) (c : Fin 8) (h : P s) : P (evalCongestion c s) := by
  have flagged : ∀ v, P (setChan c { chanOf c s with congested := v } s) := fun _ => k.same h (fun _ => rfl) rfl
  rcases evalCongestion_cases c s with hc | ⟨v, hc | ⟨y, hc⟩⟩ <;> rw [hc]
  · exact h
  · exact flagged v
  · exact k.offer y _ (flagged v)

theorem setStaging (k : OfferStable P) (x : Station) (l : List Staging) (h : P s) :
    P (setUnit x { unitOf x s with staging := l } s) :=
  k.same h (fun y => isPresent_setUnit x y _ s rfl) rfl

theorem departStaging (k : OfferStable P) (x : Station) (h : P s) : P (departStaging x s) := by
  refine departStaging_induction x s (fun r _ t ht => ?_) (fun h => k.same h (fun _ => rfl) rfl) h
  rw [abandonStaging, dropStaging_frame]
  exact k.evalCongestion _ (k.setStaging x _ (k.same ht (fun _ => rfl) rfl))

theorem closeEnd (k : OfferStable P) (x : Station) (c : Fin 8) (role : Role) (h : P s) :
    P (closeEnd x c role s).1 := by
  have shut : ∀ st, P (setStore st (shutState x c role s)) := fun st =>
    k.same (k.setStaging x (keptStaging c role (unitOf x s).staging) h) (fun _ => rfl) rfl
  obtain ⟨st, hc | hc⟩ := closeEnd_eq x c role s <;> rw [hc]
  · exact shut st
  · exact k.offer _ _ (shut st)

theorem closeEndsOn (k : OfferStable P) (x : Station) (test : End → Bool) (c : Fin 8) (h : P s) :
    P (closeEndsOn x test c s) := by
  have close : ∀ (b : Bool) role t, P t → P (if b then (Machine.closeEnd x c role t).1 else t) := by
    intro b role t ht
    split
    · exact k.closeEnd x c role ht
    · exact ht
  exact close _ .receive _ (close _ .send s h)

theorem makeDormantOn (k : OfferStable P) (x : Station) (c : Fin 8) (h : P s) : P (makeDormantOn x c s) :=
  k.same h (fun _ => rfl) rfl

theorem departEnds (k : OfferStable P) (x : Station) (cause : Cause) (h : P s) : P (departEnds x cause s) := by
  unfold Machine.departEnds
  split
  · exact foldl_keeps _ (fun c _ t ht => k.closeEndsOn x _ c ht) (k.same h (fun _ => rfl) rfl)
  · exact foldl_keeps _ (fun c _ t ht => k.makeDormantOn x c ht) h

theorem setLease (k : OfferStable P) (e : Fin 16) (l : LeaseEntry) (h : P s) : P (setLease e l s) :=
  k.same h (fun _ => rfl) rfl

theorem setWaitCount (k : OfferStable P) (x : Station) (n : Nat) (h : P s) : P (setWaitCount x n s) :=
  k.same h (fun _ => rfl) rfl

theorem expireWaiter (k : OfferStable P) (e : Fin 16) (w : Waiter) (h : P s) : P (expireWaiter e w s) :=
  k.offer _ _ (k.setWaitCount w.station _ h)

theorem handOn (k : OfferStable P) (e : Fin 16) (h : P s) : P (handOn e s) := by
  unfold Machine.handOn
  simp only
  split
  · exact k.setLease e _ h
  · split
    · exact foldl_keeps _ (fun w _ t ht => k.expireWaiter e w ht) (k.setLease e _ h)
    · exact k.offer _ _ (k.setWaitCount _ _ (k.setLease e _ h))

theorem revokeOn (k : OfferStable P) (x : Station) (e : Fin 16) (h : P s) : P (revokeOn x e s) := by
  unfold Machine.revokeOn
  split
  · exact k.handOn e (k.setLease e _ h)
  · exact h

theorem departLeases (k : OfferStable P) (x : Station) (h : P s) : P (departLeases x s) := by
  have removed : P (allEntries.foldl (fun t e => removeWaits x e t) s) :=
    foldl_keeps _ (fun e _ t ht => k.setLease e _ ht) h
  exact foldl_keeps _ (fun e _ t ht => k.revokeOn x e ht) (k.setWaitCount x 0 removed)

theorem departOwners (k : OfferStable P) (x : Station) (cause : Cause) (h : P s) : P (departOwners x cause s) :=
  k.departLeases x (k.departEnds x cause (k.departStaging x
    (k.same h (fun y => isPresent_stopDraw y x s) rfl)))

end OfferStable

/-! ### A station that cannot be marked -/

/-- R132: the station is ABSENT and not marked to depart. -/
def Unmarked (x : Station) (s : State) : Prop := isPresent x s = false ∧ x ∉ s.severe

/-- R152 step 5: a fault marks its own station, and that only where it is PRESENT. -/
theorem Unmarked.recordFault {x : Station} {s : State} (h : Unmarked x s) (y : Station) (k : FaultKind)
    (i : CaptureInfo) : Unmarked x (recordFault y k i s) := by
  obtain ⟨hp, hx⟩ := h
  refine ⟨(isPresent_recordFault ..).trans hp, ?_⟩
  by_cases hy : x = y
  · subst hy
    rwa [recordFault_severe_absent hp]
  · rcases recordFault_severe_cases y k i s with hs | hs <;> rw [hs]
    · exact hx
    · exact fun hm => (mem_severe_markSevere.mp hm).elim hx hy

/-- R108, R110: an offer is made to a PRESENT station alone, and the fault of a drop is that station's. -/
theorem unmarked_stable (x : Station) : OfferStable (Unmarked x) where
  same h hp hs := ⟨(hp x).trans h.1, hs ▸ h.2⟩
  offer {s} y n h := by
    have queued : ∀ q, Unmarked x (setNotices y q s) := fun q => ⟨(isPresent_setUnit _ _ _ _ (by rfl)).trans h.1, h.2⟩
    unfold offer
    simp only
    split
    · split
      · exact (queued _).recordFault y _ _
      · exact queued _
    · exact h

/-! ### The departures that end an event -/

/-- R133 step 9: the station that departs is ABSENT, and R132 has it depart once. -/
theorem unmarked_depart_self (x : Station) (cause : Cause) (s : State) : Unmarked x (depart x cause s) := by
  rw [depart_eq_offer]
  refine (unmarked_stable x).offer _ _ ⟨?_, ?_⟩
  · rw [departed, isPresent, unitOf_clearedState]
    rfl
  · rw [departed, clearedState, setSevere_severe]
    simp

theorem Unmarked.depart {x : Station} {s : State} (h : Unmarked x s) (y : Station) (cause : Cause) :
    Unmarked x (depart y cause s) := by
  by_cases hy : x = y
  · exact hy ▸ unmarked_depart_self x cause s
  · obtain ⟨hp, hx⟩ := (unmarked_stable x).departOwners y cause h
    rw [depart_eq_offer]
    obtain rfl := Station.eq_peer_of_ne hy
    refine (unmarked_stable _).offer _ _ ⟨?_, ?_⟩
    · rw [departed, clearedState, isPresent_setSevere, isPresent, unitOf_setUnit_peer]
      exact hp
    · rw [departed, clearedState, setSevere_severe]
      exact mt List.mem_of_mem_filter hx

theorem unmarked_departFault_self (x : Station) (s : State) : Unmarked x (departFault x s) := by
  unfold departFault
  split
  · exact unmarked_depart_self x .fault s
  · rename_i hp
    exact ⟨(Bool.not_eq_true _).mp hp, by simp⟩

theorem Unmarked.departFault {x : Station} {s : State} (h : Unmarked x s) (y : Station) :
    Unmarked x (departFault y s) := by
  unfold Machine.departFault
  split
  · exact h.depart y .fault
  · exact ⟨h.1, mt List.mem_of_mem_filter h.2⟩

theorem severe_eq_nil_of_unmarked {s : State} (h : ∀ x, Unmarked x s) : s.severe = [] :=
  List.eq_nil_iff_forall_not_mem.mpr fun x => (h x).2

/-- R132: the departure that a first one has caused leaves none to depart, as neither station is left to be marked. -/
theorem settleSecond_severe {x : Station} {s : State} (h : Unmarked x s) : (settleSecond s).severe = [] := by
  unfold settleSecond
  split
  · assumption
  · rename_i y _ hs
    have hne : x ≠ y := fun he => h.2 (by rw [hs, he]; exact .head _)
    refine severe_eq_nil_of_unmarked fun z => ?_
    by_cases hz : z = y
    · exact hz ▸ unmarked_departFault_self z s
    · have hzx : z = x := (Station.eq_peer_of_ne hz).trans (Station.eq_peer_of_ne hne).symm
      exact hzx ▸ h.departFault y

/-- R132: whatever an event has marked, its departures leave none outstanding. -/
theorem settle_severe (s : State) : (settle s).severe = [] := by
  unfold settle
  split
  · assumption
  · exact settleSecond_severe (unmarked_departFault_self _ _)
  · exact settleSecond_severe (unmarked_departFault_self _ _)

/-! ### Commands and steps -/

/-- An event of the running part ends with its departures; nothing happens while the part does not run. -/
theorem settled_of_event {s t : State} (h : Settled s) : Settled (if isRunning s then settle t else s) := by
  split
  · exact settle_severe t
  · exact h

theorem exec_settled {i : Instr} {s t : State} (h : Settled s) (he : exec i s = .next t) : Settled t := by
  cases i with
  | resetAssert straps => exact Host.Outcome.next.inj he ▸ rfl
  | resetRelease straps =>
    refine Host.Outcome.next.inj he ▸ ?_
    unfold releaseReset
    split <;> exact h
  | storeInitComplete =>
    refine Host.Outcome.next.inj he ▸ ?_
    unfold completeInit
    split <;> exact h
  | bitError b places =>
    refine Host.Outcome.next.inj he ▸ ?_
    unfold bitErrors
    split <;> exact h
  | _ => exact Host.Outcome.next.inj he ▸ settled_of_event h

theorem tick_severe (s : State) : (tick s).severe = s.severe := by
  unfold tick
  split <;> rfl

theorem step_settled (s t : State) (h : Settled s) (he : step s = .next t) : Settled t := by
  unfold step at he
  split at he
  · rename_i c rest _
    exact exec_settled (s := { s with pending := rest }) h he
  · unfold idle at he
    split at he
    · exact Host.Outcome.next.inj he ▸ (tick_severe s).trans h
    · exact exec_settled h he
    · exact exec_settled (s := { s with freeTick := s.freeTick + 1 }) h he

/-- Settles O54: the store by its elementary changes, the departures by what ends an event. -/
theorem stepsKeepMemoryCanonicalAndSettled : Obligations.StepsKeepMemoryCanonicalAndSettled :=
  ⟨step_keeps (fun _ _ _ _ => rfl) memoryCanonical_kept, step_settled⟩

end Sys2Proof.Machine
end

section
/-!
PROOFS. A line break and a keepalive lapse (R128, R130, R131, R143).
-/

namespace Sys2Proof.Machine

section BreakAndLapse

variable {x : Station} {s : State}

/-- R143: the link after a break is detected: the frame in reception and the frames that wait are gone. -/
def brokenLink (x : Station) (s : State) : State :=
  setLink x { linkOf x s with rx := { (linkOf x s).rx with state := .hunt, inBreak := true }, inQueue := [] } s

/-- R131: a break in progress is one event however long the line stays low. -/
theorem detectBreak_of_inBreak (hb : (linkOf x s).rx.inBreak = true) : detectBreak x s = s := by
  simp only [detectBreak, hb, if_true]

theorem detectBreak_of_absent (hb : (linkOf x s).rx.inBreak = false) (hp : isPresent x s = false) :
    detectBreak x s = brokenLink x s := by
  simp only [detectBreak, hb, isPresent_setLink, hp, Bool.false_eq_true, if_false]
  rfl

theorem detectBreak_of_present (hb : (linkOf x s).rx.inBreak = false) (hp : isPresent x s = true) :
    detectBreak x s = depart x .lineBreak (brokenLink x s) := by
  simp only [detectBreak, hb, isPresent_setLink, hp, Bool.false_eq_true, if_false, if_true]
  rfl

theorem lapseKeepalive_of_zero (hp : isPresent x s = true) (h0 : (unitOf x s).record.keepaliveTimer = some 0) :
    lapseKeepalive x s = depart x .lapsed s := by
  simp only [lapseKeepalive, hp, h0, beq_self_eq_true, Bool.and_self, if_true]

/-- R128: a timer that runs, and no timer, lapse not. -/
theorem lapseKeepalive_of_ne_zero (h0 : (unitOf x s).record.keepaliveTimer ≠ some 0) : lapseKeepalive x s = s := by
  simp only [lapseKeepalive, beq_eq_false_iff_ne.mpr h0, Bool.and_false, Bool.false_eq_true, if_false]

/-- R132: a command whose event makes no station depart. -/
theorem next_runEvent {event : State → State} {t : State} (hrun : Running s) (he : event s = t) (ht : t.severe = []) :
    (.next (runEvent event s) : Host.Outcome State Fault Refusal) = .next t :=
  congrArg Host.Outcome.next (runEvent_of_eq hrun he ht)

end BreakAndLapse

/-- Settles O10: the break by the line's state and the station's presence, the lapse by the timer. -/
theorem breakAndLapseMakeTheStationDepart : Obligations.BreakAndLapseMakeTheStationDepart := by
  refine ⟨fun x s hrun ha => ?_, fun x s hrun ha => ?_⟩
  · have hbroken : Advisory (brokenLink x s) := Advisory.of_units rfl ha
    exact ⟨fun hb => next_runEvent hrun (detectBreak_of_inBreak hb) hrun.2,
      fun hb hp => next_runEvent hrun (detectBreak_of_absent hb hp) hrun.2,
      fun hb hp => next_runEvent hrun (detectBreak_of_present hb hp) (depart_severe .lineBreak hbroken hrun.2),
      next_runEvent (event := endBreak x) hrun rfl hrun.2⟩
  · exact ⟨fun hp h0 => next_runEvent hrun (lapseKeepalive_of_zero hp h0) (depart_severe .lapsed ha hrun.2),
      fun h0 => next_runEvent hrun (lapseKeepalive_of_ne_zero h0) hrun.2⟩

end Sys2Proof.Machine
end

section
/-!
PROOFS. Requests that are refused before they reach their owner (R132, R134, R148), and the two that report in either
presence state: KEEPALIVE and IDENTIFY (R129, R149).
-/

namespace Sys2Proof.Machine

/-! ### The checks of a known kind (R148 steps 4 and 5) -/

section Checked

variable {x : Station} {f : Frame} {s : State} {status : Status}

/-- R148: a frame of a known kind passes a check of its payload before its owner handles it; payloadRefusal says what
that check answers. -/
theorem handleFrame_checks (x : Station) (hk : knownKind f.kind = true) :
    ∃ (α : Type) (check : List Byte → Except Status α) (owner : α → State → Handled),
      (∀ s, handleFrame x f s = handleKnown x f check owner s) ∧
        ∀ payload status, payloadRefusal f.kind payload = some status → check payload = .error status := by
  have hm : f.kind ∈ requestKinds := List.contains_iff_mem.mp hk
  simp only [requestKinds, List.mem_cons, List.not_mem_nil, or_false] at hm
  rcases hm with h | h | h | h | h | h | h | h | h | h | h | h | h | h | h | h | h | h | h | h | h | h | h | h | h | h |
    h | h
  all_goals
    simp (decide := true) only [handleFrame, payloadRefusal, h, if_true, if_false, true_or, or_true, or_self]
    refine ⟨_, _, _, fun s => rfl, fun payload status hr => ?_⟩
    split at hr
    · exact Option.some.inj hr ▸ ‹_›
    · cases hr

/-- R148 step 3: the test that a NOT_JOINED refusal makes. -/
theorem notJoinedTest_eq_false (hp : isPresent x s = true ∨ kindForAbsent f.kind = true) :
    (!(isPresent x s) && !(kindForAbsent f.kind)) = false := by
  rcases hp with h | h <;> simp [h]

theorem handleKnown_of_refused {α : Type} {check : List Byte → Except Status α} {owner : α → State → Handled}
    (hp : isPresent x s = true ∨ kindForAbsent f.kind = true) (hc : cacheMatch x f s = none)
    (he : check f.payload = .error status) :
    handleKnown x f check owner s = refuseRequest x f (replyFrame f status []) .malformed s := by
  simp only [handleKnown, hc, dispatch, notJoinedTest_eq_false hp, he, Bool.false_eq_true, if_false]

theorem handleKnown_of_reply {α : Type} {check : List Byte → Except Status α} {owner : α → State → Handled} {a : α}
    {fieldBytes : List Byte} {t : State} (hp : isPresent x s = true ∨ kindForAbsent f.kind = true)
    (hc : cacheMatch x f s = none) (ha : check f.payload = .ok a) (ho : owner a s = .reply t status fieldBytes) :
    handleKnown x f check owner s = finishReply x f (replyFrame f status fieldBytes) t := by
  simp only [handleKnown, hc, dispatch, notJoinedTest_eq_false hp, ha, ho, Bool.false_eq_true, if_false]

/-- R148 steps 4 and 5: a frame of a known kind that is refused for its payload. -/
theorem handleFrame_of_refused (hp : isPresent x s = true ∨ kindForAbsent f.kind = true)
    (hc : cacheMatch x f s = none) (hk : knownKind f.kind = true)
    (hr : payloadRefusal f.kind f.payload = some status) :
    handleFrame x f s = refuseRequest x f (replyFrame f status []) .malformed s := by
  obtain ⟨α, check, owner, hhandle, hcheck⟩ := handleFrame_checks x hk
  rw [hhandle, handleKnown_of_refused hp hc (hcheck _ _ hr)]

end Checked

/-- Settles O12: the fault marks the station, so the reply is not cached and the departure ends the event. -/
theorem severeFaultDepartsAfterTheReply : Obligations.SevereFaultDepartsAfterTheReply := by
  intro x kind tag payload status s f r hready hp hk hrefused hreported hseverity hpeer
  have alert : Alert x .malformed 0 (restartKeepalive x s) :=
    Alert.restartKeepalive ⟨hp, hreported, hseverity, Nat.zero_le _, hpeer, .inl hready.severe⟩ x
  have hmark := alert.severe_recordFault (.header (headerBytes f))
  have hmiss : cacheMatch x f (restartKeepalive x s) = none := (cacheMatch_restartKeepalive x x f s).trans hready.2
  have handled : handleFrame x f (restartKeepalive x s) =
      transmit x (replyFrame f status []) false
        (recordFault x .malformed (.header (headerBytes f)) (restartKeepalive x s)) := by
    rw [handleFrame_of_refused (.inl alert.present) hmiss hk hrefused, refuseRequest, finishReply_marked hmark]
  rw [exec_requestCommand, runRequest_taken hready.1, handled,
    ((alert.recordFault x .malformed _).transmit x _ false).settle_marked hmark]

/-! ### An ABSENT station's requests (R134, R148 step 3) -/

section Absent

variable {x : Station} {f : Frame} {handler : Frame → State → State} {s : State}

/-- R128: an ABSENT station has no keepalive timer to restart. -/
theorem restartKeepalive_of_absent (hp : isPresent x s = false) : restartKeepalive x s = s :=
  restartKeepalive_of_untimed (by simp [hp])

/-- A request of an ABSENT station that is taken at once and makes no station depart. -/
theorem runRequest_of_absent {t : State} (hr : Ready x f s) (hp : isPresent x s = false) (hh : handler f s = t)
    (ht : t.severe = []) : runRequest x f handler s = t := by
  rw [runRequest_taken hr.1, restartKeepalive_of_absent hp, hh, settle_nil ht]

theorem runRequest_notJoined (hr : Ready x f s) (hp : isPresent x s = false) (hh : handler f s = notJoined x f s) :
    runRequest x f handler s = notJoined x f s :=
  runRequest_of_absent hr hp hh ((notJoined_severe hp).trans hr.severe)

end Absent

/-! ### Unknown kinds (R148 step 2) -/

section Unknown

variable {x : Station} {f : Frame} {s : State}

/-- R146: the reply to a PRESENT station that does not depart, whatever its frame. -/
theorem finishReply_unmarked {r : OutFrame} (hp : isPresent x s = true) (hs : s.severe = []) :
    finishReply x f r s =
      transmit x r false (enterCache x { tag := f.tag, kind := f.kind, crc := f.crc, reply := r } s) := by
  simp [finishReply, hp, hs]

/-- R148 step 2: a frame of unknown kind that is taken at once and whose fault is ADVISORY. -/
theorem runRequest_unknown (hr : Ready x f s) (ha : AdvisoryAt x s) (hk : knownKind f.kind = false) :
    runRequest x f (handleFrame x) s =
      finishReply x f { kind := 0xFE, tag := f.tag, payload := [0x03, f.kind] }
        (recordFault x .unknownKind (.header (headerBytes f)) (restartKeepalive x s)) := by
  have hmiss : cacheMatch x f (restartKeepalive x s) = none := (cacheMatch_restartKeepalive x x f s).trans hr.2
  have hsevere : (recordFault x .unknownKind (.header (headerBytes f)) (restartKeepalive x s)).severe = [] := by
    rw [recordFault_severe ha.restartKeepalive, restartKeepalive_severe, hr.severe]
  have handled : handleFrame x f (restartKeepalive x s) =
      finishReply x f { kind := 0xFE, tag := f.tag, payload := [0x03, f.kind] }
        (recordFault x .unknownKind (.header (headerBytes f)) (restartKeepalive x s)) := by
    simp only [handleFrame_unknown hk, handleUnknown, hmiss, refuseRequest]
    rfl
  rw [runRequest_taken hr.1, handled, settle_nil]
  unfold finishReply
  simp only
  split
  · exact hsevere
  · exact hsevere

end Unknown

/-- Settles O15: a known kind of an ABSENT station, then an unknown kind in either presence state. -/
theorem absentAndUnknownKindAreRefused : Obligations.AbsentAndUnknownKindAreRefused := by
  refine ⟨fun x kind tag payload s => ?_, fun x kind tag payload s => ?_⟩
  · intro f hr hp hk hj hi hf
    rw [exec_requestCommand,
      runRequest_notJoined hr hp (handleFrame_of_absent hp hr.2 hk (kindForAbsent_eq_false hj hi hf))]
    rfl
  · intro f hr ha hk r t
    have hrequest : exec (.unknownKindRequest x kind tag payload) s = .next (finishReply x f r t) :=
      congrArg Host.Outcome.next (runRequest_unknown hr ha hk)
    have hpresent : isPresent x t = isPresent x s :=
      (isPresent_recordFault ..).trans (isPresent_restartKeepalive x x s)
    have hsevere : t.severe = [] :=
      (recordFault_severe ha.restartKeepalive).trans ((restartKeepalive_severe x s).trans hr.severe)
    exact ⟨fun hp => by rw [hrequest, finishReply_unmarked (hpresent.trans hp) hsevere]; rfl,
      fun hp => by rw [hrequest, finishReply_absent (hpresent.trans hp)]⟩

/-! ### KEEPALIVE and IDENTIFY -/

/-- Settles O20: each request by the presence state of its station. -/
theorem keepaliveAndIdentifyReport : Obligations.KeepaliveAndIdentifyReport := by
  refine ⟨fun x tag s => ?_, fun x tag s => ?_⟩
  · intro f hr u
    refine ⟨fun hp => congrArg Host.Outcome.next ?_, fun hp => congrArg Host.Outcome.next ?_⟩
    · refine runRequest_unchanged (check := emptyCheck) (owner := fun _ t => ownerKeepalive x t) hr hp
        (fun _ => rfl) rfl ?_
      simp only [ownerKeepalive, restartKeepalive_epoch, restartKeepalive_period, restartKeepalive_notices,
        restartKeepalive_presence, u]
    · exact runRequest_notJoined (handler := handleKeepalive x) hr hp (handleKnown_of_absent hp hr.2 rfl)
  · intro f hr strap fieldBytes
    have hstrap : ∀ r, strapByte r = strap r := fun ⟨rate1, rate0⟩ => by cases rate1 <;> cases rate0 <;> rfl
    have hfields : identifyFields s = fieldBytes := by
      rw [identifyFields, hstrap, hstrap]
      rfl
    have howner : ownerIdentify (restartKeepalive x s) = .reply (restartKeepalive x s) .ok fieldBytes := by
      rw [← hfields, ownerIdentify, identifyFields, restartKeepalive_straps]
      rfl
    refine ⟨fun hp => ?_, fun hp => ?_⟩
    · exact congrArg Host.Outcome.next (runRequest_unchanged (check := emptyCheck)
        (owner := fun _ t => ownerIdentify t) hr hp (fun _ => rfl) rfl howner)
    · refine congrArg Host.Outcome.next (runRequest_of_absent (handler := handleIdentify x) hr hp ?_ hr.severe)
      rw [restartKeepalive_of_absent hp] at howner
      have handled : handleIdentify x f s = finishReply x f (replyFrame f .ok fieldBytes) s :=
        handleKnown_of_reply (check := emptyCheck) (owner := fun _ t => ownerIdentify t) (.inr rfl) hr.2 rfl howner
      exact handled.trans (finishReply_absent hp)

end Sys2Proof.Machine
end

section
/-!
PROOFS. The receiver (R138, R139, R140, R143, R144, R151): what a good character does in each of its states, a frame in
reception that is dropped, and the bytes of a frame as the transmitter sends them received one after the other.
-/

namespace Sys2Proof.Machine

/-! ### A good character in each receiver state (R139) -/

/-- R139: the receiver of link `x` has taken a good character and stands in this state. -/
def entered (x : Station) (state : RxState) (s : State) : State :=
  setLink x { linkOf x s with rx := { state := state, lastCharacter := s.timeBase, inBreak := false } } s

section Character

variable {x : Station} {b len : Byte} {kept : List Byte} {s : State}

/-- 9.2: the character's time is kept before the receiver's state changes. -/
theorem enterState_timed (old state : RxState) :
    enterState x state (setRx x { state := old, lastCharacter := s.timeBase, inBreak := false } s) =
      entered x state s := by
  simp [enterState, setRx, entered]

theorem takeCharacter_hunt (hb : (linkOf x s).rx.inBreak = false) (hs : (linkOf x s).rx.state = .hunt) :
    takeCharacter x b s = entered x (if b = 0xC3 then .length else .hunt) s := by
  simp only [takeCharacter, hb, hs, Bool.false_eq_true, if_false, enterState_timed]
  split
  · rfl
  · rfl

theorem takeCharacter_length (hb : (linkOf x s).rx.inBreak = false) (hs : (linkOf x s).rx.state = .length)
    (hlen : 2 ≤ b.toNat ∧ b.toNat ≤ 66) : takeCharacter x b s = entered x (.body b []) s := by
  simp only [takeCharacter, hb, hs, takeLength, if_pos hlen, Bool.false_eq_true, if_false, enterState_timed]

theorem takeCharacter_badLength (hb : (linkOf x s).rx.inBreak = false) (hs : (linkOf x s).rx.state = .length)
    (hlen : ¬(2 ≤ b.toNat ∧ b.toNat ≤ 66)) :
    takeCharacter x b s = recordFault x .framing (.header [b]) (entered x .hunt s) := by
  simp only [takeCharacter, hb, hs, takeLength, if_neg hlen, Bool.false_eq_true, if_false, dropFrame,
    enterState_timed]

theorem takeCharacter_body (hb : (linkOf x s).rx.inBreak = false) (hs : (linkOf x s).rx.state = .body len kept)
    (hmore : kept.length + 1 < len.toNat) : takeCharacter x b s = entered x (.body len (kept ++ [b])) s := by
  have hgoes : ¬len.toNat ≤ (kept ++ [b]).length := by rw [List.length_append]; exact Nat.not_le.mpr hmore
  simp only [takeCharacter, hb, hs, takeBody, if_neg hgoes, Bool.false_eq_true, if_false, enterState_timed]

theorem takeCharacter_bodyEnd (hb : (linkOf x s).rx.inBreak = false) (hs : (linkOf x s).rx.state = .body len kept)
    (hend : kept.length + 1 = len.toNat) : takeCharacter x b s = entered x (.check len (kept ++ [b]) none) s := by
  have hends : len.toNat ≤ (kept ++ [b]).length := by rw [List.length_append]; exact hend.ge
  simp only [takeCharacter, hb, hs, takeBody, if_pos hends, Bool.false_eq_true, if_false, enterState_timed]

theorem takeCharacter_crcHigh (hb : (linkOf x s).rx.inBreak = false)
    (hs : (linkOf x s).rx.state = .check len kept none) :
    takeCharacter x b s = entered x (.check len kept (some b)) s := by
  simp only [takeCharacter, hb, hs, takeCheck, Bool.false_eq_true, if_false, enterState_timed]

/-- R139, R141: the second CRC byte completes the frame. -/
theorem takeCharacter_crcLow {high : Byte} (hb : (linkOf x s).rx.inBreak = false)
    (hs : (linkOf x s).rx.state = .check len kept (some high)) (hlen : kept.length = len.toNat)
    (hfit : 2 ≤ kept.length ∧ kept.length ≤ 66) :
    takeCharacter x b s = frameArrives x kept (halfOf high b) s := by
  have hbyte : byteOf kept.length = len := by rw [hlen, byteOf, BitVec.ofNat_toNat, BitVec.setWidth_eq]
  simp only [takeCharacter, frameArrives, hb, hs, takeCheck, hbyte, if_pos hfit, Bool.false_eq_true, if_false]

/-! ### A frame in reception that is dropped (R138, R140) -/

theorem abortFrame_of_hunt (hs : (linkOf x s).rx.state = .hunt) : abortFrame x s = s := by
  simp only [abortFrame, hs, if_true, ite_self]

/-- R152: an ADVISORY FRAMING fault makes no station depart. -/
theorem framing_severe {info : CaptureInfo} (l : LinkInterface) (hrun : Running s) (ha : AdvisoryAt x s) :
    (recordFault x .framing info (setLink x l s)).severe = [] := by
  have hadvisory : AdvisoryAt x (setLink x l s) := ha
  exact (recordFault_severe hadvisory).trans hrun.2

/-- A character error and a gap above the limit are one event. -/
theorem exec_abort {t : State} (hrun : Running s) (he : abortFrame x s = t) (ht : t.severe = []) :
    exec (.gapLimitExpiry x) s = .next t ∧ exec (.characterError x) s = .next t :=
  ⟨next_runEvent hrun he ht, next_runEvent hrun he ht⟩

end Character

/-- Settles O7: a good character by the receiver's state, then the frame in reception that is dropped. -/
theorem receiverFollowsItsStates : Obligations.ReceiverFollowsItsStates := by
  refine ⟨fun x b s hrun ha hb => ?_, fun x s hrun ha hb => ?_⟩
  · intro entered
    have event : ∀ {t : State}, takeCharacter x b s = t → t.severe = [] →
        exec (.receiveCharacter x b) s = .next t := next_runEvent hrun
    refine ⟨fun hs => event (takeCharacter_hunt hb hs) hrun.2,
      fun hs hlow hhigh => event (takeCharacter_length hb hs ⟨hlow, hhigh⟩) hrun.2,
      fun hs hbad => event (takeCharacter_badLength hb hs (by omega)) (framing_severe _ hrun ha),
      fun len kept hs hmore => event (takeCharacter_body hb hs hmore) hrun.2,
      fun len kept hs hend => event (takeCharacter_bodyEnd hb hs hend) hrun.2,
      fun len kept hs => event (takeCharacter_crcHigh hb hs) hrun.2,
      fun len kept high hs hlen hlow hhigh => ?_⟩
    have hsame := takeCharacter_crcLow (b := b) hb hs hlen ⟨hlow, hhigh⟩
    exact congrArg (fun t => Host.Outcome.next (if isRunning s then settle t else s)) hsame
  · intro dropped
    refine ⟨fun hs => exec_abort hrun (abortFrame_of_hunt hs) hrun.2, fun hs => ?_, fun len kept hs => ?_⟩
    · have habort := abortFrame_of_frame hb (by rw [hs]; exact RxState.noConfusion)
      rw [hs] at habort
      exact exec_abort hrun habort (framing_severe _ hrun ha)
    · have habort : abortFrame x s = dropped ((len :: kept).take 7) := by
        rcases hs with hs | ⟨high, hs⟩ <;>
          rw [abortFrame_of_frame hb (by rw [hs]; exact RxState.noConfusion), hs] <;> rfl
      exact exec_abort hrun habort (framing_severe _ hrun ha)

/-! ### The bytes of a frame, one after the other (R144) -/

section Reception

variable {x : Station} {s t : State}

/-- The state in which these commands wait. -/
def queued (pending : List Instr) (s : State) : State := { s with pending := pending }

/-- Bytes as they arrive on link `x`. -/
abbrev arriving (x : Station) (bytes : List Byte) : List Instr := bytes.map (Instr.receiveCharacter x)

/-- One step of a run takes the first byte. -/
theorem run_arriving {b : Byte} {rest : List Byte} {n : Nat} (hrun : Running s)
    (ht : takeCharacter x b (queued (arriving x rest) s) = t) (hsevere : t.severe = []) :
    core.run (n + 1) (queued (arriving x (b :: rest)) s) = core.run n t := by
  have hstep : core.step (queued (arriving x (b :: rest)) s) = .next t :=
    next_runEvent (s := queued (arriving x rest) s) hrun ht hsevere
  simp only [Host.Core.run, hstep]

theorem entered_entered (state old : RxState) (s : State) :
    entered x state (entered x old s) = entered x state s := by
  simp [entered]

/-- A further byte of a frame in reception, which the receiver's rule takes from one state to another. -/
theorem run_entered {old state : RxState} {b : Byte} {rest : List Byte} {n : Nat} (hrun : Running s)
    (ht : ∀ u, (linkOf x u).rx.inBreak = false → (linkOf x u).rx.state = old →
      takeCharacter x b u = entered x state u) :
    core.run (n + 1) (entered x old (queued (arriving x (b :: rest)) s)) =
      core.run n (entered x state (queued (arriving x rest) s)) := by
  have hlink : (linkOf x (entered x old (queued (arriving x rest) s))).rx =
      { state := old, lastCharacter := s.timeBase, inBreak := false } := congrArg (·.rx) (linkOf_setLink_self _ _ _)
  have htaken := ht (entered x old (queued (arriving x rest) s)) (by rw [hlink]) (by rw [hlink])
  rw [entered_entered] at htaken
  exact run_arriving (s := entered x old s) hrun htaken hrun.2

/-- R139: the body bytes that a length byte announces. -/
theorem run_body {len : Byte} {rest : List Byte} {n : Nat} (hrun : Running s) :
    ∀ (bytes kept : List Byte), bytes ≠ [] → kept.length + bytes.length = len.toNat →
      core.run (bytes.length + n) (entered x (.body len kept) (queued (arriving x (bytes ++ rest)) s)) =
        core.run n (entered x (.check len (kept ++ bytes) none) (queued (arriving x rest) s))
  | [], _, hne, _ => absurd rfl hne
  | [b], kept, _, hlen => by
    rw [List.length_singleton, Nat.add_comm 1 n]
    exact run_entered hrun fun u hb hs => takeCharacter_bodyEnd hb hs hlen
  | b :: c :: bytes, kept, _, hlen => by
    have hmore : kept.length + 1 < len.toNat := by
      simp only [List.length_cons] at hlen
      omega
    have hleft : (kept ++ [b]).length + (c :: bytes).length = len.toNat := by
      simp only [← hlen, List.length_append, List.length_cons, List.length_nil]
      omega
    have htail := run_body (rest := rest) (n := n) hrun (c :: bytes) (kept ++ [b]) (List.cons_ne_nil c bytes) hleft
    rw [List.append_assoc] at htail
    rw [List.length_cons, Nat.add_right_comm, List.cons_append,
      run_entered hrun fun u hb hs => takeCharacter_body hb hs hmore]
    exact htail

/-- R141: the second CRC byte of a frame that is good, acts on no draw and finds room in the input queue. -/
theorem takeCharacter_good {kind tag low high : Byte} {payload : List Byte} (hd : (unitOf x s).draw = none)
    (hb : (linkOf x s).rx.inBreak = false) (hfit : payload.length ≤ 64)
    (hs : (linkOf x s).rx.state = .check (lengthByte payload) (kind :: tag :: payload) (some high))
    (hcrc : halfOf high low = frameCrc kind tag payload) (hroom : (linkOf x s).inQueue.length < 4) :
    takeCharacter x low s =
      setLink x { linkOf x s with
        rx := { state := .hunt, lastCharacter := s.timeBase, inBreak := false }
        inQueue := (linkOf x s).inQueue ++
          [{ kind := kind, tag := tag, payload := payload, crc := frameCrc kind tag payload }] }
        (restartKeepalive x s) := by
  have hlength : (kind :: tag :: payload).length = (lengthByte payload).toNat :=
    (byteOf_toNat (by omega : payload.length + 2 < 256)).symm
  have hbody : 2 ≤ (kind :: tag :: payload).length ∧ (kind :: tag :: payload).length ≤ 66 := by
    simp only [List.length_cons]
    omega
  have hacts : ∀ f, ¬HaltActs x f s := fun f hacts => by simp [HaltActs, hd] at hacts
  rw [takeCharacter_crcLow hb hs hlength hbody, hcrc, frameArrives_eq hb hfit]
  exact (if_pos rfl).trans (goodFrame_received_of_room (hacts _) hroom)

end Reception

/-- Settles O9: sync byte and length byte, the body, and the two CRC bytes. -/
theorem sentFrameIsReceivedGood : Obligations.SentFrameIsReceivedGood := by
  intro x f s hrun hs hb hfit hd hroom
  let high : Byte := (frameCrc f.kind f.tag f.payload).extractLsb' 8 8
  let low : Byte := (frameCrc f.kind f.tag f.payload).extractLsb' 0 8
  let len : Byte := lengthByte f.payload
  let body : List Byte := f.kind :: f.tag :: f.payload
  have hlen : len.toNat = f.payload.length + 2 := byteOf_toNat (by omega)
  have hbody : ([] : List Byte).length + body.length = len.toNat := by rw [hlen]; exact Nat.zero_add _
  have hgood := takeCharacter_good (x := x) (s := entered x (.check len body (some high)) (queued [] s)) (low := low) hd
    (by rw [entered, linkOf_setLink_self]) hfit (by rw [entered, linkOf_setLink_self]) (halfOf_extract _)
    (by rw [entered, linkOf_setLink_self]; exact hroom)
  rw [entered, restartKeepalive_setLink, linkOf_setLink_self, setLink_setLink] at hgood
  calc core.run (f.payload.length + 6) (queued (arriving x (wireBytes f)) s)
    _ = core.run (body.length + 3) (entered x .length (queued (arriving x (len :: (body ++ [high, low]))) s)) :=
      run_arriving hrun (takeCharacter_hunt hb hs) hrun.2
    _ = core.run (body.length + 2) (entered x (.body len []) (queued (arriving x (body ++ [high, low])) s)) :=
      run_entered hrun fun u hb hs => takeCharacter_length hb hs (by omega)
    _ = core.run 2 (entered x (.check len body none) (queued (arriving x [high, low]) s)) :=
      run_body hrun body [] (List.cons_ne_nil _ _) hbody
    _ = core.run 1 (entered x (.check len body (some high)) (queued (arriving x [low]) s)) :=
      run_entered hrun fun u hb hs => takeCharacter_crcHigh hb hs
    _ = _ := run_arriving (s := entered x (.check len body (some high)) s) hrun hgood
      (by rw [setLink_severe, restartKeepalive_severe]; exact hrun.2)

end Sys2Proof.Machine
end

section
/-!
PROOFS. A repeated request, answered from the reply cache (R147), and a request that is refused for its payload (R148
steps 4, 5, 7 and 8).
-/

namespace Sys2Proof.Machine

section Repeat

variable {x : Station} {f : Frame} {e : CacheEntry} {s : State}

theorem TakenAtOnce.severe (h : TakenAtOnce x s) : s.severe = [] := by
  obtain ⟨_, _, _, _, _, hs⟩ := h
  exact hs

/-- R147: the duplicate check comes first, for a known kind and for an unknown one. -/
theorem handleFrame_of_cached (hc : cacheMatch x f s = some e) : handleFrame x f s = answerFromCache x e s := by
  cases hk : knownKind f.kind with
  | true =>
    obtain ⟨_, _, _, hhandle, _⟩ := handleFrame_checks x hk
    rw [hhandle, handleKnown, hc]
  | false => rw [handleFrame_unknown hk, handleUnknown, hc]

end Repeat

/-- Settles O14: the cached reply is found before the request's kind is looked at. -/
theorem repeatIsAnsweredFromTheCache : Obligations.RepeatIsAnsweredFromTheCache := by
  intro x kind tag payload e s htaken hc s0
  have hfound : cacheMatch x (requestFrame kind tag payload) s0 = some e := (cacheMatch_restartKeepalive ..).trans hc
  rw [exec_requestCommand, runRequest_taken htaken, handleFrame_of_cached hfound, settle_nil]
  · rw [answerFromCache, enterCache, restartKeepalive_cache]
    rfl
  · exact (restartKeepalive_severe x s).trans htaken.severe

/-- Settles O16: the fault is ADVISORY, so the refusal ends the event; the reply is cached by the station's presence. -/
theorem malformedRequestIsRefused : Obligations.MalformedRequestIsRefused := by
  intro x kind tag payload status s f hr ha hk hrefused t
  have hmiss : cacheMatch x f (restartKeepalive x s) = none := (cacheMatch_restartKeepalive ..).trans hr.2
  have hpresent : isPresent x t = isPresent x s :=
    (isPresent_recordFault ..).trans (isPresent_restartKeepalive x x s)
  have hsevere : t.severe = [] :=
    (recordFault_severe ha.restartKeepalive).trans ((restartKeepalive_severe x s).trans hr.severe)
  have refused : ∀ {u : State}, isPresent x s = true ∨ kindForAbsent kind = true →
      finishReply x f (replyFrame f status []) t = u → u.severe = [] →
      exec (requestCommand x kind tag payload) s = .next u := fun {u} hp hu hs => by
    have handled : handleFrame x f (restartKeepalive x s) = u :=
      (handleFrame_of_refused (hp.imp_left (isPresent_restartKeepalive x x s).trans) hmiss hk hrefused).trans hu
    rw [exec_requestCommand, runRequest_taken hr.1, handled, settle_nil hs]
  exact ⟨fun hp => refused (.inl hp) (finishReply_present (hpresent.trans hp) hsevere) hsevere,
    fun hp hk => refused (.inr hk) (finishReply_absent (hpresent.trans hp)) hsevere⟩

end Sys2Proof.Machine
end

section
/-!
PROOFS. The payload checks of R148 steps 4 and 5 against R160's table: which lengths are refused with BAD_LENGTH, and
which fields with BAD_FIELD.
-/

namespace Sys2Proof.Machine

/-! ### The refusal of a check -/

/-- The status with which a check refuses, if it does; payloadRefusal takes it of each kind's check. -/
def refusal {α : Type} : Except Status α → Option Status
  | .error e => some e
  | .ok _ => none

/-- R148 steps 4 and 5: the refusal of a payload by whether its length is allowed and its fields are in range. -/
def verdict (allowed inRange : Bool) : Option Status :=
  if allowed = true then if inRange = true then none else some .badField else some .badLength

theorem verdict_eq_badLength_iff {allowed inRange : Bool} :
    verdict allowed inRange = some .badLength ↔ allowed = false := by
  cases allowed with
  | false => simp [verdict]
  | true => cases inRange <;> simp [verdict]

theorem verdict_eq_badField_iff {inRange : Bool} : verdict true inRange = some .badField ↔ inRange = false := by
  cases inRange <;> simp [verdict]

/-- R148: no other refusal is made at steps 4 and 5. -/
theorem verdict_mem {allowed inRange : Bool} {status : Status} (h : verdict allowed inRange = some status) :
    status = .badLength ∨ status = .badField := by
  unfold verdict at h
  split at h
  · split at h
    · cases h
    · exact .inr (Option.some.inj h).symm
  · exact .inl (Option.some.inj h).symm

/-- R148 step 5: where the length is allowed, the fields decide. -/
theorem refusal_fields {α : Type} {o : Option α} {allowed inRange : Bool} (hl : allowed = true)
    (h : o.isSome = inRange) : refusal (fields o) = verdict allowed inRange := by
  subst h hl
  cases o <;> rfl

theorem refusal_badLength {α : Type} {allowed inRange : Bool} (h : allowed = false) :
    refusal (.error .badLength : Except Status α) = verdict allowed inRange := by
  rw [h]
  rfl

theorem refusal_badField {α : Type} {allowed inRange : Bool} (hl : allowed = true) (hr : inRange = false) :
    refusal (.error .badField : Except Status α) = verdict allowed inRange := by
  rw [hl, hr]
  rfl

/-- R148 step 5: one field tested by itself. -/
theorem refusal_ite {α : Type} (c : Prop) [Decidable c] (a : α) :
    refusal (if c then .ok a else .error .badField : Except Status α) = verdict true (decide c) := by
  by_cases h : c
  · rw [if_pos h, decide_eq_true h]
    rfl
  · rw [if_neg h, decide_eq_false h]
    rfl

/-- A list of `n` bytes, byte by byte. -/
theorem eq_bytes {n : Nat} {p : List Byte} (h : p.length = n) : p = (List.range n).map fun i => p.getD i 0x00 := by
  refine List.ext_getElem (by rw [List.length_map, List.length_range, h]) fun i hi _ => ?_
  rw [List.getElem_map, List.getElem_range, List.getD_eq_getElem _ _ hi]

/-- R148 step 4: a check that takes one length refuses every other with BAD_LENGTH. -/
theorem refusal_otherLength {α : Type} {n : Nat} {p : List Byte} {inRange : Bool}
    (h : p = ((List.range n).map fun i => p.getD i 0x00) → False) :
    refusal (.error .badLength : Except Status α) = verdict (p.length == n) inRange := by
  rw [beq_eq_false_iff_ne.mpr fun hn => h (eq_bytes hn)]
  rfl

/-! ### Single fields in range -/

section Fields

variable {α : Type}

@[simp] theorem option_any_const (o : Option α) (c : Bool) : (o.any fun _ => c) = (o.isSome && c) := by cases o <;> rfl

/-- A code of two values (R158). -/
theorem isSome_code (b : Byte) (u v : α) :
    (if b = 0x01 then some u else if b = 0x02 then some v else none).isSome = (b.toNat == 1 || b.toNat == 2) := by
  split
  · next h => rw [h]; rfl
  · next h1 =>
    split
    · next h2 => rw [h2]; rfl
    · next h2 =>
      have hn1 : b.toNat ≠ 1 := BitVec.toNat_ne.mp h1
      have hn2 : b.toNat ≠ 2 := BitVec.toNat_ne.mp h2
      rw [beq_eq_false_iff_ne.mpr hn1, beq_eq_false_iff_ne.mpr hn2]
      rfl

@[simp] theorem roleField_isSome (b : Byte) : (roleField b).isSome = (b.toNat == 1 || b.toNat == 2) := isSome_code ..
@[simp] theorem modeField_isSome (b : Byte) : (modeField b).isSome = (b.toNat == 1 || b.toNat == 2) := isSome_code ..
@[simp] theorem joinModeField_isSome (b : Byte) : (joinModeField b).isSome = (b.toNat == 1 || b.toNat == 2) :=
  isSome_code ..
@[simp] theorem severityField_isSome (b : Byte) : (severityField b).isSome = (b.toNat == 1 || b.toNat == 2) :=
  isSome_code ..

@[simp] theorem flagField_isSome (b : Byte) : (flagField b).isSome = decide (b.toNat ≤ 1) := by
  unfold flagField
  split
  · next h => rw [h]; rfl
  · next h0 =>
    split
    · next h1 => rw [h1]; rfl
    · next h1 =>
      rw [decide_eq_false fun h =>
        (Nat.le_one_iff_eq_zero_or_eq_one.mp h).elim (BitVec.toNat_ne.mp h0) (BitVec.toNat_ne.mp h1)]
      rfl

/-- A number below a bound. -/
theorem isSome_bounded (b : Byte) (n : Nat) :
    (if h : b.toNat < n + 1 then some (⟨b.toNat, h⟩ : Fin (n + 1)) else none).isSome = decide (b.toNat ≤ n) := by
  rw [Bool.eq_iff_iff, Option.isSome_dite, decide_eq_true_iff, Nat.lt_succ_iff]

@[simp] theorem channelField_isSome (b : Byte) : (channelField b).isSome = decide (b.toNat ≤ 7) := isSome_bounded b 7
@[simp] theorem clientField_isSome (b : Byte) : (clientField b).isSome = decide (b.toNat ≤ 7) := isSome_bounded b 7
@[simp] theorem entryField_isSome (b : Byte) : (entryField b).isSome = decide (b.toNat ≤ 15) := isSome_bounded b 15

/-- R158: high byte first. -/
@[simp] theorem halfOf_toNat (h l : Byte) : (halfOf h l).toNat = 256 * h.toNat + l.toNat := by
  rw [halfOf, BitVec.toNat_append, ← Nat.shiftLeft_add_eq_or_of_lt l.isLt, Nat.shiftLeft_eq]
  omega

@[simp] theorem isSome_ite_eq_decide (c : Prop) [Decidable c] (a : α) :
    (if c then some a else none).isSome = decide c := by
  rw [Bool.eq_iff_iff, Option.isSome_ite, decide_eq_true_iff]

@[simp] theorem durationField_isSome (w : Half) : (durationField w).isSome = decide (10 ≤ w.toNat) :=
  isSome_ite_eq_decide ..
@[simp] theorem waitField_isSome (w : Half) : (waitField w).isSome = decide (w.toNat ≤ 30000) :=
  isSome_ite_eq_decide ..
@[simp] theorem periodField_isSome (w : Half) :
    (periodField w).isSome = decide (w.toNat = 0 ∨ (50 ≤ w.toNat ∧ w.toNat ≤ 60000)) := isSome_ite_eq_decide ..

@[simp] theorem paramsField_isSome (d q1 q0 h l : Byte) :
    (paramsField d q1 q0 h l).isSome =
      decide (1 ≤ d.toNat ∧ d.toNat ≤ 32 ∧ 1 ≤ 256 * q1.toNat + q0.toNat ∧ 256 * q1.toNat + q0.toNat ≤ 256 ∧
        1 ≤ h.toNat ∧ h.toNat ≤ d.toNat ∧ l.toNat < h.toNat) := by
  simp [paramsField, paramsValid]

end Fields

/-! ### The checks with one length -/

section Checks

variable (p : List Byte)

theorem refusal_joinCheck : refusal (joinCheck p) = verdict (p.length == 7) (fieldsInRange kindJoin p) := by
  unfold joinCheck
  split
  · exact refusal_fields rfl (by simp [fieldsInRange, Option.isSome_bind])
  · next hne => exact refusal_otherLength (hne _ _ _ _ _ _ _ ·)

theorem refusal_closeCheck : refusal (closeCheck p) = verdict (p.length == 2) (fieldsInRange kindClose p) := by
  unfold closeCheck
  split
  · exact refusal_fields rfl (by simp [fieldsInRange, Option.isSome_bind])
  · next hne => exact refusal_otherLength (hne _ _ ·)

theorem refusal_fetchCheck : refusal (fetchCheck p) = verdict (p.length == 2) (fieldsInRange kindFetch p) := by
  unfold fetchCheck
  split
  · exact refusal_fields rfl (by simp [fieldsInRange, Option.isSome_bind])
  · next hne => exact refusal_otherLength (hne _ _ ·)

theorem refusal_readCheck : refusal (readCheck p) = verdict (p.length == 5) (fieldsInRange kindRead p) := by
  unfold readCheck
  split
  · exact refusal_fields rfl (by simp [fieldsInRange, Option.isSome_bind])
  · next hne => exact refusal_otherLength (hne _ _ _ _ _ ·)

theorem refusal_retireCheck : refusal (retireCheck p) = verdict (p.length == 3) (fieldsInRange kindRetire p) := by
  unfold retireCheck
  split
  · exact refusal_fields rfl (by simp [fieldsInRange, Option.isSome_bind])
  · next hne => exact refusal_otherLength (hne _ _ _ ·)

theorem refusal_drawCheck : refusal (drawCheck p) = verdict (p.length == 4) (fieldsInRange kindDraw p) := by
  unfold drawCheck
  split
  · exact refusal_fields rfl (by simp [fieldsInRange, Option.isSome_bind, Bool.and_assoc, Bool.and_left_comm])
  · next hne => exact refusal_otherLength (hne _ _ _ _ ·)

theorem refusal_acquireCheck : refusal (acquireCheck p) = verdict (p.length == 6) (fieldsInRange kindAcquire p) := by
  unfold acquireCheck
  split
  · exact refusal_fields rfl (by simp [fieldsInRange, Option.isSome_bind, Bool.and_assoc])
  · next hne => exact refusal_otherLength (hne _ _ _ _ _ _ ·)

theorem refusal_renewCheck : refusal (renewCheck p) = verdict (p.length == 8) (fieldsInRange kindRenew p) := by
  unfold renewCheck
  split
  · exact refusal_fields rfl (by simp [fieldsInRange, Option.isSome_bind, Bool.and_assoc])
  · next hne => exact refusal_otherLength (hne _ _ _ _ _ _ _ _ ·)

theorem refusal_releaseCheck : refusal (releaseCheck p) = verdict (p.length == 6) (fieldsInRange kindRelease p) := by
  unfold releaseCheck
  split
  · exact refusal_fields rfl (by simp [fieldsInRange, Option.isSome_bind])
  · next hne => exact refusal_otherLength (hne _ _ _ _ _ _ ·)

theorem refusal_cancelCheck : refusal (cancelCheck p) = verdict (p.length == 2) (fieldsInRange kindCancel p) := by
  unfold cancelCheck
  split
  · exact refusal_fields rfl (by simp [fieldsInRange, Option.isSome_bind])
  · next hne => exact refusal_otherLength (hne _ _ ·)

/-- R4: the kinds whose one field is a channel. -/
theorem refusal_channelCheck :
    refusal (channelCheck p) = verdict (p.length == 1) (decide ((p.getD 0 0x00).toNat ≤ 7)) := by
  unfold channelCheck
  split
  · exact refusal_fields rfl (channelField_isSome _)
  · next hne => exact refusal_otherLength (hne _ ·)

theorem refusal_collectCheck : refusal (collectCheck p) = verdict (p.length == 1) (fieldsInRange kindCollect p) := by
  unfold collectCheck
  split
  · exact refusal_ite _ _
  · next hne => exact refusal_otherLength (hne _ ·)

theorem refusal_raiseCheck : refusal (raiseCheck p) = verdict (p.length == 2) (fieldsInRange kindRaise p) := by
  unfold raiseCheck
  split
  · next h l =>
    rw [← ite_not, refusal_ite]
    simp [fieldsInRange, BitVec.toNat_eq]
  · next hne => exact refusal_otherLength (hne _ _ ·)

/-- R120, R121: any flag set is in range. -/
theorem refusal_flagsCheck : refusal (flagsCheck p) = verdict (p.length == 2) true := by
  unfold flagsCheck
  split
  · rfl
  · next hne => exact refusal_otherLength (hne _ _ ·)

theorem refusal_emptyCheck : refusal (emptyCheck p) = verdict (p.length == 0) true := by
  unfold emptyCheck
  split
  · rfl
  · next hne => exact refusal_otherLength hne

end Checks

/-! ### The checks whose selector or data make the length -/

/-- A length counts the bytes before the rest. -/
theorem length_add_beq (n m k : Nat) : (n + k == m + k) = (n == m) := by
  rw [Bool.eq_iff_iff, beq_iff_eq, beq_iff_eq, Nat.add_right_cancel_iff]

theorem lengthAllowed_post (c o : Byte) (data : List Byte) :
    lengthAllowed kindPost (c :: o :: data) = decide (data.length ≤ 62) :=
  decide_eq_decide.mpr (by simp only [List.length_cons]; omega)

theorem refusal_postCheck :
    ∀ p, refusal (postCheck p) = verdict (lengthAllowed kindPost p) (fieldsInRange kindPost p)
  | [] => rfl
  | [_] => rfl
  | c :: o :: data => by
    rw [lengthAllowed_post]
    simp only [postCheck]
    split
    · next hfit =>
      exact refusal_fields (decide_eq_true hfit)
        (by simp [fieldsInRange, Option.isSome_bind, BitVec.toNat_eq, beq_eq_decide])
    · next hlong => exact refusal_badLength (decide_eq_false hlong)

section Segment

variable (c control : Byte) (rest : List Byte)

/-- R41: the control byte selects the length. -/
theorem lengthAllowed_segment :
    lengthAllowed kindSegment (c :: control :: rest) =
      if control = 0x01 then decide (2 ≤ rest.length ∧ rest.length ≤ 62)
      else if control = 0x02 ∨ control = 0x03 then decide (1 ≤ rest.length ∧ rest.length ≤ 62)
      else decide (1 ≤ rest.length) := by
  have hfirst : (4 ≤ rest.length + 1 + 1 ∧ rest.length + 1 + 1 ≤ 64) ↔ 2 ≤ rest.length ∧ rest.length ≤ 62 := by omega
  have hnext : (3 ≤ rest.length + 1 + 1 ∧ rest.length + 1 + 1 ≤ 64) ↔ 1 ≤ rest.length ∧ rest.length ≤ 62 := by omega
  have hany : 3 ≤ rest.length + 1 + 1 ↔ 1 ≤ rest.length := by omega
  rw [← decide_eq_decide.mpr hfirst, ← decide_eq_decide.mpr hnext, ← decide_eq_decide.mpr hany]
  simp only [← Option.some_inj (a := control)]
  rfl

theorem fieldsInRange_segment :
    fieldsInRange kindSegment (c :: control :: rest) =
      (decide (c.toNat ≤ 7) &&
        decide ((control.toNat = 1 ∧ 256 * (rest.getD 0 0x00).toNat + (rest.getD 1 0x00).toNat ≤ 512) ∨
          control.toNat = 2 ∨ control.toNat = 3)) := rfl

/-- R41: a FIRST segment. -/
theorem refusal_segmentCheck_first : refusal (segmentCheck (c :: 0x01 :: rest)) =
    verdict (lengthAllowed kindSegment (c :: 0x01 :: rest)) (fieldsInRange kindSegment (c :: 0x01 :: rest)) := by
  rw [lengthAllowed_segment, if_pos rfl]
  match rest with
  | [] => rfl
  | [_] => rfl
  | t1 :: t0 :: data =>
    have hlength : 2 ≤ (t1 :: t0 :: data).length ∧ (t1 :: t0 :: data).length ≤ 62 ↔ data.length ≤ 60 := by
      simp only [List.length_cons]
      omega
    rw [decide_eq_decide.mpr hlength]
    simp only [segmentCheck, if_true]
    split
    · next hfit =>
      exact refusal_fields (decide_eq_true hfit) (by simp [fieldsInRange, Option.isSome_bind, Config.maxMessage])
    · next hlong => exact refusal_badLength (decide_eq_false hlong)

/-- R41: a MIDDLE or LAST segment. -/
theorem refusal_segmentCheck_next {control : Byte} (h : control = 0x02 ∨ control = 0x03) :
    refusal (segmentCheck (c :: control :: rest)) =
      verdict (lengthAllowed kindSegment (c :: control :: rest))
        (fieldsInRange kindSegment (c :: control :: rest)) := by
  have hnot : control ≠ 0x01 := by rcases h with rfl | rfl <;> decide
  have hcode : control.toNat = 2 ∨ control.toNat = 3 := h.imp (congrArg BitVec.toNat) (congrArg BitVec.toNat)
  rw [lengthAllowed_segment, fieldsInRange_segment, if_neg hnot, if_pos h]
  simp only [segmentCheck, if_neg hnot, if_pos h]
  split
  · next hfit => exact refusal_fields (decide_eq_true hfit) (by simp [Option.isSome_bind, hcode])
  · next hshort => exact refusal_badLength (decide_eq_false hshort)

/-- R41: an invalid control byte. -/
theorem refusal_segmentCheck_invalid {control : Byte} (h1 : control ≠ 0x01)
    (h23 : ¬(control = 0x02 ∨ control = 0x03)) :
    refusal (segmentCheck (c :: control :: rest)) =
      verdict (lengthAllowed kindSegment (c :: control :: rest))
        (fieldsInRange kindSegment (c :: control :: rest)) := by
  have hcode : control.toNat ≠ 1 ∧ control.toNat ≠ 2 ∧ control.toNat ≠ 3 :=
    ⟨BitVec.toNat_ne.mp h1, BitVec.toNat_ne.mp fun h => h23 (.inl h), BitVec.toNat_ne.mp fun h => h23 (.inr h)⟩
  rw [lengthAllowed_segment, fieldsInRange_segment, if_neg h1, if_neg h23]
  simp only [segmentCheck, if_neg h1, if_neg h23]
  cases rest with
  | nil => rfl
  | cons b bytes => exact refusal_badField (decide_eq_true (Nat.succ_pos _)) (by simp [hcode])

end Segment

theorem refusal_segmentCheck :
    ∀ p, refusal (segmentCheck p) = verdict (lengthAllowed kindSegment p) (fieldsInRange kindSegment p)
  | [] => rfl
  | [_] => rfl
  | c :: control :: rest => by
    by_cases h1 : control = 0x01
    · subst h1
      exact refusal_segmentCheck_first c rest
    · by_cases h23 : control = 0x02 ∨ control = 0x03
      · exact refusal_segmentCheck_next c rest h23
      · exact refusal_segmentCheck_invalid c rest h1 h23

/-! ### INQUIRE -/

section Inquire

variable (subject : Byte) (rest : List Byte)

/-- R160: the subject selects the length. -/
theorem lengthAllowed_inquire :
    lengthAllowed kindInquire (subject :: rest) =
      if subject = 0x01 ∨ subject = 0x02 then rest.length == 1
      else if subject = 0x03 ∨ subject = 0x04 then rest.length == 0
      else true := by
  have hany : decide (1 ≤ rest.length + 1) = true := decide_eq_true (Nat.succ_pos _)
  rw [← hany, ← length_add_beq rest.length 1 1, ← length_add_beq rest.length 0 1]
  simp only [← Option.some_inj (a := subject)]
  rfl

theorem fieldsInRange_inquire :
    fieldsInRange kindInquire (subject :: rest) =
      decide ((subject.toNat = 1 ∧ (rest.getD 0 0x00).toNat ≤ 7) ∨
        (subject.toNat = 2 ∧ (rest.getD 0 0x00).toNat ≤ 15) ∨ subject.toNat = 3 ∨ subject.toNat = 4) := rfl

end Inquire

theorem refusal_inquireCheck :
    ∀ p, refusal (inquireCheck p) = verdict (lengthAllowed kindInquire p) (fieldsInRange kindInquire p)
  | [] => rfl
  | subject :: rest => by
    rw [lengthAllowed_inquire, fieldsInRange_inquire]
    by_cases h1 : subject = 0x01
    · subst h1
      match rest with
      | [] => rfl
      | [c] => exact refusal_fields rfl (by simp)
      | _ :: _ :: _ => rfl
    by_cases h2 : subject = 0x02
    · subst h2
      match rest with
      | [] => rfl
      | [e] => exact refusal_fields rfl (by simp)
      | _ :: _ :: _ => rfl
    by_cases h3 : subject = 0x03
    · subst h3
      cases rest <;> rfl
    by_cases h4 : subject = 0x04
    · subst h4
      cases rest <;> rfl
    have hcode : subject.toNat ≠ 1 ∧ subject.toNat ≠ 2 ∧ subject.toNat ≠ 3 ∧ subject.toNat ≠ 4 :=
      ⟨BitVec.toNat_ne.mp h1, BitVec.toNat_ne.mp h2, BitVec.toNat_ne.mp h3, BitVec.toNat_ne.mp h4⟩
    simp only [inquireCheck, if_neg h1, if_neg h2, if_neg h3, if_neg h4, if_neg (not_or.mpr ⟨h1, h2⟩),
      if_neg (not_or.mpr ⟨h3, h4⟩)]
    exact refusal_badField rfl (by simp [hcode])

/-! ### OPEN and FAULT POLICY -/

/-- R160: the parameter form selects the length. -/
theorem lengthAllowed_open (c r form : Byte) (rest : List Byte) :
    lengthAllowed kindOpen (c :: r :: form :: rest) =
      if form = 0x01 then rest.length == 6 else if form = 0x02 then rest.length == 1 else decide (1 ≤ rest.length) := by
  have hany : 4 ≤ rest.length + 1 + 1 + 1 ↔ 1 ≤ rest.length := by omega
  rw [← decide_eq_decide.mpr hany, ← length_add_beq rest.length 6 3, ← length_add_beq rest.length 1 3]
  simp only [← Option.some_inj (a := form)]
  rfl

theorem refusal_openCheck :
    ∀ p, refusal (openCheck p) = verdict (lengthAllowed kindOpen p) (fieldsInRange kindOpen p)
  | [] => rfl
  | [_] => rfl
  | [_, _] => rfl
  | c :: r :: form :: rest => by
    rw [lengthAllowed_open]
    by_cases h1 : form = 0x01
    · subst h1
      simp only [openCheck, if_true]
      split
      · exact refusal_fields rfl (by simp [fieldsInRange, Option.isSome_bind, Bool.and_assoc])
      · next hne => exact refusal_otherLength (hne _ _ _ _ _ _ ·)
    by_cases h2 : form = 0x02
    · subst h2
      simp only [openCheck, if_neg h1, if_true]
      split
      · exact refusal_fields rfl (by simp [fieldsInRange, Option.isSome_bind, Bool.and_assoc])
      · next hne => exact refusal_otherLength (hne _ ·)
    have hcode : form.toNat ≠ 1 ∧ form.toNat ≠ 2 := ⟨BitVec.toNat_ne.mp h1, BitVec.toNat_ne.mp h2⟩
    simp only [openCheck, if_neg h1, if_neg h2]
    cases rest with
    | nil => rfl
    | cons b bytes => exact refusal_badField (decide_eq_true (Nat.succ_pos _)) (by simp [fieldsInRange, hcode])

/-- R156: pair by pair. -/
theorem policyPairs_isSome : ∀ (n : Nat) (p : List Byte), p.length = 2 * n →
    (policyPairs p).isSome = (List.range n).all fun i =>
      decide ((p.getD (2 * i) 0x00).toNat ≤ 1) &&
        ((p.getD (2 * i + 1) 0x00).toNat == 1 || (p.getD (2 * i + 1) 0x00).toNat == 2)
  | 0, p, h => by rw [List.length_eq_zero_iff.mp h]; rfl
  | n + 1, [], h => by simp at h
  | n + 1, [_], h => by simp at h; omega
  | n + 1, r :: v :: rest, h => by
    have hrest : rest.length = 2 * n := by simp only [List.length_cons] at h; omega
    rw [List.range_succ_eq_map, List.all_cons, List.all_map]
    simp [policyPairs, Option.isSome_bind, policyPairs_isSome n rest hrest, Function.comp_def, Nat.mul_succ,
      Bool.and_assoc]

theorem refusal_policyCheck (p : List Byte) :
    refusal (policyCheck p) = verdict (p.length == 18) (fieldsInRange kindFaultPolicy p) := by
  unfold policyCheck
  split
  · next h => exact refusal_fields (beq_iff_eq.mpr h) (policyPairs_isSome 9 p h)
  · next h => exact refusal_badLength (beq_eq_false_iff_ne.mpr h)

/-! ### The refusal of a request -/

/-- R148 steps 4 and 5, R160: kind by kind. -/
theorem payloadRefusal_eq_verdict {kind : Byte} (hk : knownKind kind = true) (payload : List Byte) :
    payloadRefusal kind payload = verdict (lengthAllowed kind payload) (fieldsInRange kind payload) := by
  have hm : kind ∈ requestKinds := List.contains_iff_mem.mp hk
  simp only [requestKinds, List.mem_cons, List.not_mem_nil, or_false] at hm
  rcases hm with rfl | rfl | rfl | rfl | rfl | rfl | rfl | rfl | rfl | rfl | rfl | rfl | rfl | rfl | rfl | rfl | rfl |
    rfl | rfl | rfl | rfl | rfl | rfl | rfl | rfl | rfl | rfl | rfl
  · exact refusal_joinCheck payload
  · exact refusal_emptyCheck payload
  · exact refusal_emptyCheck payload
  · exact refusal_emptyCheck payload
  · exact refusal_inquireCheck payload
  · exact refusal_collectCheck payload
  · exact refusal_raiseCheck payload
  · exact refusal_flagsCheck payload
  · exact refusal_flagsCheck payload
  · exact refusal_openCheck payload
  · exact refusal_closeCheck payload
  · exact refusal_postCheck payload
  · exact refusal_segmentCheck payload
  · exact refusal_channelCheck payload
  · exact refusal_fetchCheck payload
  · exact refusal_readCheck payload
  · exact refusal_retireCheck payload
  · exact refusal_channelCheck payload
  · exact refusal_channelCheck payload
  · exact refusal_drawCheck payload
  · exact refusal_emptyCheck payload
  · exact refusal_acquireCheck payload
  · exact refusal_renewCheck payload
  · exact refusal_releaseCheck payload
  · exact refusal_cancelCheck payload
  · exact refusal_emptyCheck payload
  · exact refusal_emptyCheck payload
  · exact refusal_policyCheck payload

/-- Settles O17: each check refuses as the table's lengths and ranges say. -/
theorem lengthsFollowTheTable : Obligations.LengthsFollowTheTable := by
  intro kind payload hk
  rw [payloadRefusal_eq_verdict hk]
  exact ⟨verdict_eq_badLength_iff, fun hlength => by rw [hlength, verdict_eq_badField_iff], fun _ => verdict_mem⟩

end Sys2Proof.Machine
end

section
/-!
PROOFS. The fault record and the requests on it: what a rewrite of the kinds one after another leaves in each, the bytes
of the record and of a policy, and FAULTS, CLEAR FAULTS and FAULT POLICY (R153 to R156, R163).
-/

namespace Sys2Proof.Machine

/-! ### The nine kinds -/

theorem mem_allFaultKinds (k : FaultKind) : k ∈ allFaultKinds := by cases k <;> decide

theorem nodup_allFaultKinds : allFaultKinds.Nodup := by decide

/-- A rewrite of some kinds, each once and from its own value, acts on these and leaves the others. -/
theorem KindRecords.get_foldl_set (g : FaultKind → KindRecord → KindRecord) {ks : List FaultKind} (hks : ks.Nodup)
    (r : KindRecords) (j : FaultKind) :
    KindRecords.get (ks.foldl (fun t k => KindRecords.set t k (g k (KindRecords.get t k))) r) j =
      if j ∈ ks then g j (KindRecords.get r j) else KindRecords.get r j := by
  induction ks generalizing r with
  | nil => rfl
  | cons k ks ih =>
    obtain ⟨hk, hrest⟩ := List.nodup_cons.mp hks
    rw [List.foldl_cons, ih hrest, KindRecords.get_set]
    by_cases hj : j = k
    · subst hj
      simp [hk]
    · simp [hj]

theorem KindRecords.get_foldl_set_allFaultKinds (g : FaultKind → KindRecord → KindRecord) (r : KindRecords)
    (j : FaultKind) :
    KindRecords.get (allFaultKinds.foldl (fun t k => KindRecords.set t k (g k (KindRecords.get t k))) r) j =
      g j (KindRecords.get r j) :=
  (KindRecords.get_foldl_set g nodup_allFaultKinds r j).trans (if_pos (mem_allFaultKinds j))

/-- R155: each count is cleared. -/
theorem get_clearRecord (r : FaultRecord) (k : FaultKind) :
    KindRecords.get (clearRecord r).kinds k = { KindRecords.get r.kinds k with count := 0 } :=
  KindRecords.get_foldl_set_allFaultKinds (fun _ v => { v with count := 0 }) r.kinds k

/-! ### A policy (R156) -/

section Policy

variable (policy : FaultKind → Bool × Severity)

/-- R160: the payload of a FAULT POLICY, a pair for each kind. -/
def policyPayload (ks : List FaultKind) : List Byte :=
  ks.flatMap fun k => [flagByte (policy k).1, Severity.code (policy k).2]

theorem severityField_code (v : Severity) : severityField (Severity.code v) = some v := by cases v <;> rfl

theorem policyPairs_policyPayload (ks : List FaultKind) :
    policyPairs (policyPayload policy ks) = some (ks.map policy) := by
  induction ks with
  | nil => rfl
  | cons k ks ih =>
    have hcons : policyPayload policy (k :: ks) =
        flagByte (policy k).1 :: Severity.code (policy k).2 :: policyPayload policy ks := rfl
    simp [hcons, policyPairs, flagField_flagByte, severityField_code, ih]

theorem policyCheck_policyPayload :
    policyCheck (policyPayload policy allFaultKinds) = .ok (allFaultKinds.map policy) := by
  have hlength : (policyPayload policy allFaultKinds).length = 18 := rfl
  rw [policyCheck, if_pos hlength, policyPairs_policyPayload]
  rfl

/-- R156: each kind's report flag and severity are the policy's, its count stays. -/
theorem get_applyPolicy (r : FaultRecord) (k : FaultKind) :
    KindRecords.get (applyPolicy r (allFaultKinds.map policy)).kinds k =
      { KindRecords.get r.kinds k with reported := (policy k).1, severity := (policy k).2 } := by
  rw [applyPolicy, ← List.map_prod_left_eq_zip, List.foldl_map]
  exact KindRecords.get_foldl_set_allFaultKinds
    (fun k v => { v with reported := (policy k).1, severity := (policy k).2 }) r.kinds k

/-- R156, R161: the policy in force after a FAULT POLICY is reported as the request gave it. -/
theorem policyBytes_applyPolicy (r : FaultRecord) :
    policyBytes (applyPolicy r (allFaultKinds.map policy)) = policyPayload policy allFaultKinds :=
  List.flatMap_congr fun k _ => by rw [get_applyPolicy]

end Policy

/-! ### The requests -/

section FaultRequests

variable {x : Station} {tag : Byte} {s : State}

/-- R153: FAULTS of a PRESENT station. -/
theorem exec_faults_present (hr : Ready x (requestFrame 0x38 tag []) s) (hp : isPresent x s = true) :
    exec (.faults x tag []) s =
      .next (answered x (requestFrame 0x38 tag []) .ok (faultRecordBytes x (restartKeepalive x s))
        (restartKeepalive x s)) :=
  congrArg Host.Outcome.next (runRequest_unchanged (check := emptyCheck) (owner := fun _ t => ownerFaults x t) hr hp
    (fun _ => rfl) rfl rfl)

/-- R134, R153: FAULTS of an ABSENT station is answered too; the reply is not cached (R146). -/
theorem exec_faults_absent (hr : Ready x (requestFrame 0x38 tag []) s) (hp : isPresent x s = false) :
    exec (.faults x tag []) s =
      .next (transmit x (replyFrame (requestFrame 0x38 tag []) .ok (faultRecordBytes x s)) false s) := by
  have handled : handleFaults x (requestFrame 0x38 tag []) s =
      finishReply x (requestFrame 0x38 tag []) (replyFrame (requestFrame 0x38 tag []) .ok (faultRecordBytes x s)) s :=
    handleKnown_of_reply (check := emptyCheck) (owner := fun _ t => ownerFaults x t) (.inr rfl) hr.2 rfl rfl
  exact congrArg Host.Outcome.next (runRequest_of_absent (handler := handleFaults x) hr hp
    (handled.trans (finishReply_absent hp)) hr.severe)

/-- A request of a PRESENT station whose owner answers and replaces the station's fault record. -/
theorem runRequest_setFaults {α : Type} {f : Frame} {handler : Frame → State → State}
    {check : List Byte → Except Status α} {owner : α → State → Handled} {a : α} {r : FaultRecord}
    {fieldBytes : List Byte} (hr : Ready x f s) (hp : isPresent x s = true)
    (hh : ∀ t, handler f t = handleKnown x f check owner t) (hc : check f.payload = .ok a)
    (ho : owner a (restartKeepalive x s) = .reply (setFaults x r (restartKeepalive x s)) .ok fieldBytes) :
    runRequest x f handler s = answered x f .ok fieldBytes (setFaults x r (restartKeepalive x s)) :=
  runRequest_answered hr hp hh hc ho ((restartKeepalive_severe x s).trans hr.severe)
    ((isPresent_setUnit _ _ _ _ (by rfl)).trans ((isPresent_restartKeepalive x x s).trans hp))

/-- R155: CLEAR FAULTS. -/
theorem exec_clearFaults (hr : Ready x (requestFrame 0x39 tag []) s) (hp : isPresent x s = true) :
    exec (.clearFaults x tag []) s =
      .next (answered x (requestFrame 0x39 tag []) .ok (faultRecordBytes x (restartKeepalive x s))
        (setFaults x (clearRecord (unitOf x (restartKeepalive x s)).faults) (restartKeepalive x s))) :=
  congrArg Host.Outcome.next (runRequest_setFaults (check := emptyCheck) (owner := fun _ t => ownerClearFaults x t) hr
    hp (fun _ => rfl) rfl rfl)

/-- R156: FAULT POLICY. -/
theorem exec_faultPolicy {policy : FaultKind → Bool × Severity}
    (hr : Ready x (requestFrame 0x3A tag (policyPayload policy allFaultKinds)) s) (hp : isPresent x s = true) :
    exec (.faultPolicy x tag (policyPayload policy allFaultKinds)) s =
      .next (answered x (requestFrame 0x3A tag (policyPayload policy allFaultKinds)) .ok
        (policyPayload policy allFaultKinds)
        (setFaults x (applyPolicy (unitOf x (restartKeepalive x s)).faults (allFaultKinds.map policy))
          (restartKeepalive x s))) :=
  congrArg Host.Outcome.next (runRequest_setFaults (owner := ownerFaultPolicy x) hr hp (fun _ => rfl)
    (policyCheck_policyPayload policy) (by rw [ownerFaultPolicy, policyBytes_applyPolicy]))

end FaultRequests

/-- Settles O53: the record's bytes, then each request with the record that it leaves. -/
theorem faultRequestsActOnTheRecord : Obligations.FaultRequestsActOnTheRecord := by
  intro x tag s s0 u r captured record
  have hcaptured : captureBytes (unitOf x s0).faults.capture = captured := by
    cases hcapture : (unitOf x s0).faults.capture with
    | none => simp only [captured, r, u, hcapture, captureBytes]
    | some c =>
      simp only [captured, r, u, hcapture, captureBytes]
      cases c.info <;> rfl
  have htime : s0.timeBase = s.timeBase := restartKeepalive_timeBase x s
  have hrecord : faultRecordBytes x s0 = record := by
    simp only [faultRecordBytes, hcaptured, htime]
    rfl
  refine ⟨fun hr => ⟨fun hp => ?_, fun hp => ?_⟩, fun hr hp => ?_, fun policy => ?_⟩
  · rw [exec_faults_present hr hp, hrecord]
  · have hs0 : s0 = s := restartKeepalive_of_absent hp
    rw [exec_faults_absent hr hp, ← hrecord, hs0]
  · exact ⟨(clearRecord r).kinds, get_clearRecord r, by rw [exec_clearFaults hr hp, hrecord]; rfl⟩
  · intro payload f hr hp
    exact ⟨(applyPolicy r (allFaultKinds.map policy)).kinds, get_applyPolicy policy r, exec_faultPolicy hr hp⟩

end Sys2Proof.Machine
end

section
/-!
PROOFS. The step of a queue with a command at its front (SPEC.md, "What is modelled"). `step_idle` says what a step does
with an empty queue.
-/

namespace Sys2Proof.Machine

theorem step_of_pending {s : State} {c : Instr} {rest : List Instr} (h : s.pending = c :: rest) :
    step s = exec c { s with pending := rest } := by
  unfold step
  rw [h]

/-- Settles O1: `step_of_pending` where the state's queue is written out; the rest of the queue replaces it. -/
theorem stepRunsFrontCommand : Obligations.StepRunsFrontCommand := by
  intro c rest s
  have hqueue : ({ s with pending := c :: rest } : State).pending = c :: rest := rfl
  exact step_of_pending hqueue

end Sys2Proof.Machine
end
